-- ==== Sys2Proof/Word.lean ====
section
/-! DEFINITION. The word types of the block: a 32-bit register word (10_state.md §2), a byte lane of
a word (20_memory.md R104), and the bit string of 00_scope.md R11. -/

namespace Sys2Proof

/-- A 32-bit register or bus word (10_state.md §2, 20_memory.md R100). -/
abbrev Word := BitVec 32

/-- One byte lane of a word (20_memory.md R104). -/
abbrev Byte := BitVec 8

/-- A bit string `[b0, b1, …]`; `b0` is the first (leftmost) character (00_scope.md R11). -/
abbrev Bits := List Bool

/-- A natural number put in a 32-bit register: its low 32 bits (00_scope.md R9, R23). -/
abbrev wordOf (n : Nat) : Word := BitVec.ofNat 32 n

end Sys2Proof
end

