-- ==== Sys2Proof/Syntax.lean ====
section
/-! DEFINITION. The sixteen commands of the opcode map (30_encoding.md R138), one constructor per row
of the opcode table. A command carries no register field and no immediate (R135): its only operand in
the word is the U bit of LSTEP, LGEN, CHISQ and PERIOD (R145). -/

namespace Sys2Proof

/-- The LFSR unit that the U bit of LSTEP and LGEN selects (30_encoding.md R145). -/
inductive LfsrUnit where
  /-- U = 0: unit A (`LA_*`). -/
  | a
  /-- U = 1: unit S (`LS_*`). -/
  | s
  deriving DecidableEq, Repr

/-- The bit buffer that the U bit of CHISQ and PERIOD selects (30_encoding.md R145). -/
inductive BitSource where
  /-- U = 0: BITIN with BITIN_LEN. -/
  | bitin
  /-- U = 1: BITOUT with BITOUT_LEN. -/
  | bitout
  deriving DecidableEq, Repr

/-- A command (30_encoding.md R138). -/
inductive Instr where
  | nop
  | build
  | encode
  | decode
  | addpar
  | stripchk
  | henc
  | hencs
  | hdec
  | hdecb
  | lstep (u : LfsrUnit)
  | lgen (u : LfsrUnit)
  | sggen
  | chisq (b : BitSource)
  | period (b : BitSource)
  | bcopy
  deriving DecidableEq, Repr

end Sys2Proof
end

