-- ==== Sys2Proof/WellFormed.lean ====
section
/-! DEFINITION. The well-formedness of a command word's fields: the three checks of the decode
procedure (30_encoding.md R134), each under its own name. A term of `Instr` cannot be ill formed,
since only the commands that take U carry one; the checks are those of a word's fields. -/

namespace Sys2Proof

/-- The three fields of the format `CMD32` (30_encoding.md R130). -/
structure CmdFields where
  /-- [7:0], the opcode. -/
  opc : BitVec 8
  /-- [8], the unit or source select. -/
  u : Bool
  /-- [31:9], reserved. -/
  rsv : BitVec 23
  deriving DecidableEq, Repr

/-- The opcodes of the opcode map (30_encoding.md R138). -/
def assignedOpcodes : List (BitVec 8) :=
  [0x00, 0x01, 0x02, 0x03, 0x04, 0x05, 0x10, 0x11, 0x12, 0x13, 0x20, 0x21, 0x22, 0x30, 0x31, 0x40]

/-- The opcodes whose command takes U (30_encoding.md R145). -/
def unitOpcodes : List (BitVec 8) := [0x20, 0x21, 0x30, 0x31]

/-- The reserved bits are 0 (30_encoding.md R130, R136). -/
def CmdFields.rsvOk (f : CmdFields) : Bool := f.rsv == 0

/-- The opcode is in the opcode map (30_encoding.md R137). -/
def CmdFields.opcOk (f : CmdFields) : Bool := assignedOpcodes.contains f.opc

/-- U is 0 unless the command takes it (30_encoding.md R145). -/
def CmdFields.unitOk (f : CmdFields) : Bool := !f.u || unitOpcodes.contains f.opc

/-- A word with these fields selects a command (30_encoding.md R134). -/
def CmdFields.wf (f : CmdFields) : Bool := f.rsvOk && f.opcOk && f.unitOk

end Sys2Proof
end

