-- ==== Sys2Proof/Decode.lean ====
section
/-! DEFINITION. The decode procedure (30_encoding.md R134), total on every 32-bit word, and the
encoder `enc(cmd)` (R153). The block has one command length and one format (R148). -/

namespace Sys2Proof

/-- Why a word selects no command; each is completed with ILLEGAL_COMMAND (30_encoding.md R134). -/
inductive Illegal where
  /-- A bit of [31:9] is set (R136). -/
  | reservedBits
  /-- The opcode is not in the opcode map (R137). -/
  | unassignedOpcode
  /-- U = 1 where the command takes no U (R145). -/
  | unitNotTaken
  deriving DecidableEq, Repr

/-- The fields of a command word (30_encoding.md R130). -/
def fieldsOf (w : Word) : CmdFields :=
  { opc := w.extractLsb' 0 8, u := w.getLsbD 8, rsv := w.extractLsb' 9 23 }

/-- U = 1 selects unit S of an LFSR command (30_encoding.md R145). -/
def lfsrUnitOf (u : Bool) : LfsrUnit := if u then .s else .a

/-- U = 1 selects BITOUT for CHISQ and PERIOD (30_encoding.md R145). -/
def bitSourceOf (u : Bool) : BitSource := if u then .bitout else .bitin

/-- A command that takes no U requires U = 0 (30_encoding.md R134, R145). -/
def withoutUnit (u : Bool) (i : Instr) : Except Illegal Instr :=
  if u then .error .unitNotTaken else .ok i

/-- The opcode map (30_encoding.md R138). -/
def commandOf (opc : BitVec 8) (u : Bool) : Except Illegal Instr :=
  match opc with
  | 0x00#8 => withoutUnit u .nop
  | 0x01#8 => withoutUnit u .build
  | 0x02#8 => withoutUnit u .encode
  | 0x03#8 => withoutUnit u .decode
  | 0x04#8 => withoutUnit u .addpar
  | 0x05#8 => withoutUnit u .stripchk
  | 0x10#8 => withoutUnit u .henc
  | 0x11#8 => withoutUnit u .hencs
  | 0x12#8 => withoutUnit u .hdec
  | 0x13#8 => withoutUnit u .hdecb
  | 0x20#8 => .ok (.lstep (lfsrUnitOf u))
  | 0x21#8 => .ok (.lgen (lfsrUnitOf u))
  | 0x22#8 => withoutUnit u .sggen
  | 0x30#8 => .ok (.chisq (bitSourceOf u))
  | 0x31#8 => .ok (.period (bitSourceOf u))
  | 0x40#8 => withoutUnit u .bcopy
  | _ => .error .unassignedOpcode

/-- The decode procedure of a command word (30_encoding.md R134). -/
def decodeWord (w : Word) : Except Illegal Instr :=
  if (fieldsOf w).rsv ≠ 0 then .error .reservedBits else commandOf (fieldsOf w).opc (fieldsOf w).u

/-- The command that an opcode names, whatever the rest of the word (60_exceptions.md R403 item 1);
its unit, where it takes one, is that of U = 0. -/
def namedByOpcode (opc : BitVec 8) : Option Instr := (commandOf opc false).toOption

/-- The opcode of a command (30_encoding.md R138). -/
def opcodeOf : Instr → BitVec 8
  | .nop => 0x00
  | .build => 0x01
  | .encode => 0x02
  | .decode => 0x03
  | .addpar => 0x04
  | .stripchk => 0x05
  | .henc => 0x10
  | .hencs => 0x11
  | .hdec => 0x12
  | .hdecb => 0x13
  | .lstep _ => 0x20
  | .lgen _ => 0x21
  | .sggen => 0x22
  | .chisq _ => 0x30
  | .period _ => 0x31
  | .bcopy => 0x40

/-- The U bit of a command (30_encoding.md R145); 0 where the command takes none. -/
def unitBitOf : Instr → Bool
  | .nop => false
  | .build => false
  | .encode => false
  | .decode => false
  | .addpar => false
  | .stripchk => false
  | .henc => false
  | .hencs => false
  | .hdec => false
  | .hdecb => false
  | .lstep u => u == .s
  | .lgen u => u == .s
  | .sggen => false
  | .chisq b => b == .bitout
  | .period b => b == .bitout
  | .bcopy => false

/-- `enc(cmd) = OPC | (U << 8)` (30_encoding.md R153). -/
def encode (i : Instr) : Word :=
  (opcodeOf i).setWidth 32 ||| (if unitBitOf i then 0x100#32 else 0#32)

/-- The command this decoder reads from a table row's `nbits` bits `w`. A command is one 32-bit word
written whole to CMD (30_encoding.md R148), so a value of more than 32 bits is no command word. -/
def decodeTableWord (nbits w : Nat) : Option Instr :=
  let v := w % 2 ^ nbits
  if v < 2 ^ 32 then (decodeWord (wordOf v)).toOption else none

end Sys2Proof
end

