-- ==== Sys2Proof/Config.lean ====
section
/-! DEFINITION. The implementation parameters of one instance (00_scope.md R6), their legal ranges,
the reference instance, and the free values the spec leaves unspecified. -/

namespace Sys2Proof

/-- Whether the LFSR taps read the register before or after the shift (43_lfsr.md R302, R303). -/
inductive TapPhase where
  | pre
  | post
  deriving DecidableEq, Repr

/-- The parameters of one instance (00_scope.md R6). `RPT_DEPTH` equals `BITBUF_BITS` and
`LFSR_MAXLEN` is fixed at 32, so neither is a field. `blockBase` is the platform's `BLOCK_BASE`
(20_memory.md R100). -/
structure Config where
  blockBase : Nat
  pw : Nat
  maxSym : Nat
  symbufDepth : Nat
  bitbufBits : Nat
  tapPhase : TapPhase
  /-- `HAM_COLS[1..7]`, in order of position. -/
  hamCols : Vector (BitVec 3) 7
  /-- `HAM_DATA_POS[0..3]`, each a position 1..7. -/
  hamDataPos : Vector Nat 4
  chiCrit : Nat
  deriving DecidableEq, Repr

namespace Config

/-- `RPT_DEPTH`, equal to `BITBUF_BITS` (00_scope.md R6, R7). -/
def rptDepth (c : Config) : Nat := c.bitbufBits

/-- `LFSR_MAXLEN`, fixed 32 (00_scope.md R6). -/
def lfsrMaxLen : Nat := 32

/-- The codeword positions that hold no data bit: the parity positions `q1 < q2 < q3`
(42_hamming.md R260). -/
def parityPositions (c : Config) : List Nat :=
  [1, 2, 3, 4, 5, 6, 7].filter fun j => !c.hamDataPos.toList.contains j

/-- The column of codeword position `j`, 1..7 (42_hamming.md R260). -/
def hamCol (c : Config) (j : Nat) : BitVec 3 := c.hamCols.toList.getD (j - 1) 0

/-- The legal ranges of the parameters (the table of 00_scope.md R6). Three distinct nonzero columns are
linearly independent exactly when the third is not the sum of the first two. -/
abbrev Legal (c : Config) : Prop :=
  (1 ≤ c.pw ∧ c.pw ≤ 21) ∧
  (1 ≤ c.maxSym ∧ c.maxSym ≤ 1024) ∧
  (1 ≤ c.symbufDepth ∧ c.symbufDepth ≤ 8192) ∧
  (32 ≤ c.bitbufBits ∧ c.bitbufBits ≤ 16384 ∧ c.bitbufBits % 32 = 0) ∧
  (c.hamCols.toList.Nodup ∧ (0 : BitVec 3) ∉ c.hamCols.toList) ∧
  (c.hamDataPos.toList.Nodup ∧ (∀ j ∈ c.hamDataPos.toList, 1 ≤ j ∧ j ≤ 7)) ∧
  (c.hamCol (c.parityPositions.getD 0 0) ^^^ c.hamCol (c.parityPositions.getD 1 0) ≠
    c.hamCol (c.parityPositions.getD 2 0)) ∧
  (1 ≤ c.chiCrit ∧ c.chiCrit ≤ 2 ^ 32 - 1)

/-- The reference instance (the default column of 00_scope.md R6). `BLOCK_BASE` has no default in
the spec (92_eei_decisions.md D1): 0 is a DESIGN CHOICE, unsafe, log entry 4. -/
def reference : Config where
  blockBase := 0
  pw := 16
  maxSym := 64
  symbufDepth := 8192
  bitbufBits := 16384
  tapPhase := .pre
  hamCols := #v[4, 2, 1, 6, 5, 3, 7]
  hamDataPos := #v[4, 5, 6, 7]
  chiCrit := 251754

/-- The free draws of the spec: the value of the `n`-th unspecified read (10_state.md R93,
20_memory.md R113, 93_implementation_defined.md U2 to U4). It has no body, so a claim holds for
every draw. Log entries 2 and 20. -/
opaque freeWord : Nat → BitVec 32

end Config

end Sys2Proof
end

