-- ==== Sys2Proof/Machine/State.lean ====
section
/-! DEFINITION. The state of one block instance (10_state.md R30), the moves of the host that drive it
(00_scope.md R3), the reasons a step can stop, and the state after a power-on reset
(70_reset_and_hazards.md R501). Plain data throughout. -/

namespace Sys2Proof.Machine

/-- The two control states of the sequencer (10_state.md R31). -/
inductive SeqState where
  | idle
  | busy
  deriving DecidableEq, Repr

/-- The three registers of one LFSR unit (10_state.md R55, R56). -/
structure Lfsr where
  /-- `LEN`, field [5:0]. -/
  len : BitVec 6
  /-- `TAPS`, [31:0]. -/
  taps : Word
  /-- `STATE`, [31:0]. -/
  state : Word
  deriving DecidableEq, Repr

/-- The seven memories (10_state.md R70). -/
inductive MemName where
  | dist
  | ctab
  | symin
  | symout
  | bitin
  | bitout
  | rpt
  deriving DecidableEq, Repr

/-- The bytes of all seven memories, at their offsets in the block's window (20_memory.md R101), as
lists of (offset, byte) with the offsets strictly rising. `cells` holds the bytes that differ from
what an unlisted offset reads as. `holes` holds, for a listed byte of which BCOPY stored only some
bits, the mask of the bits nothing has stored yet (45_control.md R372); an offset it does not list has
mask 0. -/
structure Memory where
  cells : List Host.Cell
  holes : List Host.Cell
  deriving DecidableEq, Repr

/-- One access of the host port (20_memory.md R100): a bus address and a width in bytes. -/
inductive Access where
  /-- `MemRead(addr, bytes)`. -/
  | read (addr bytes : Nat)
  /-- `MemWrite(addr, bytes, value)`. -/
  | write (addr bytes : Nat) (value : Word)
  deriving DecidableEq, Repr

/-- Whose step comes next (00_scope.md R3). -/
inductive Move where
  /-- HOST performs one access. -/
  | host (a : Access)
  /-- HOST performs the `WAIT` of the host notation: it reads STATUS until BUSY = 0
  (30_encoding.md R152). -/
  | wait
  /-- SEQ takes its completion step (30_encoding.md R133), if it has one. -/
  | seq
  /-- The power-on reset input is raised (70_reset_and_hazards.md R500). -/
  | powerOn
  deriving DecidableEq, Repr

/-- The state of one block instance with what drives it. Every field but the last four is the spec's
(10_state.md R30); the capability registers are `cfg`, and ID is a constant. -/
structure State where
  /-- `SEQ_STATE` (10_state.md R31); STATUS.BUSY reads it (R37). -/
  seqState : SeqState
  /-- `R[CMD]`, the last accepted command word (10_state.md R45). -/
  cmd : Word
  /-- `CTRL.IE` (10_state.md R34). -/
  ie : Bool
  /-- `STATUS.DONE` (10_state.md R38). -/
  done : Bool
  /-- `STATUS.DESYNC` (10_state.md R40). -/
  desync : Bool
  /-- `STATUS.PERR` (10_state.md R41). -/
  perr : Bool
  /-- `STATUS.HCORR` (10_state.md R42). -/
  hcorr : Bool
  /-- `STATUS.WBUSY` (10_state.md R43). -/
  wbusy : Bool
  /-- `STATUS.ERRCODE` (10_state.md R44). -/
  errcode : BitVec 8
  /-- `ARG0` (10_state.md R46). -/
  arg0 : Word
  /-- `ARG1` (10_state.md R46). -/
  arg1 : Word
  /-- `RES0` (10_state.md R47). -/
  res0 : Word
  /-- `RES1` (10_state.md R47). -/
  res1 : Word
  /-- `RES2` (10_state.md R47). -/
  res2 : Word
  /-- `RES3` (10_state.md R47). -/
  res3 : Word
  /-- `DIST_COUNT` [10:0] (10_state.md R48). -/
  distCount : BitVec 11
  /-- `SYMIN_LEN` [13:0] (10_state.md R49). -/
  syminLen : BitVec 14
  /-- `SYMOUT_LEN` [13:0] (10_state.md R50). -/
  symoutLen : BitVec 14
  /-- `BITIN_LEN` [14:0] (10_state.md R51). -/
  bitinLen : BitVec 15
  /-- `BITOUT_LEN` [14:0] (10_state.md R52). -/
  bitoutLen : BitVec 15
  /-- `RPT_LEN` [14:0] (10_state.md R53). -/
  rptLen : BitVec 15
  /-- `CODE_COUNT` [10:0] (10_state.md R54). -/
  codeCount : BitVec 11
  /-- LFSR unit A: `LA_LEN`, `LA_TAPS`, `LA_STATE` (10_state.md R55). -/
  lfsrA : Lfsr
  /-- LFSR unit S: `LS_LEN`, `LS_TAPS`, `LS_STATE` (10_state.md R56). -/
  lfsrS : Lfsr
  /-- `DESYNC_CNT` [14:0] (10_state.md R59). -/
  desyncCnt : BitVec 15
  /-- `PERR_CNT` [14:0] (10_state.md R60). -/
  perrCnt : BitVec 15
  /-- `HCORR_CNT` [14:0] (10_state.md R61). -/
  hcorrCnt : BitVec 15
  /-- DIST, CTAB, SYMIN, SYMOUT, BITIN, BITOUT and RPT (10_state.md R70). -/
  mem : Memory
  /-- The MODEL's own: the instance's parameters (00_scope.md R6), which no step changes. -/
  cfg : Config
  /-- The MODEL's own: the moves still to come, in order. It is the input of the block: what the host
  does and when SEQ gets its turn (00_scope.md R3). -/
  schedule : List Move
  /-- The MODEL's own: the value the last host read returned (20_memory.md R100). -/
  hostData : Word
  /-- The MODEL's own: how many free draws have been made (93_implementation_defined.md §1). -/
  freeCount : Nat
  deriving DecidableEq, Repr

/-- A step that no claim holds of. -/
inductive Fault where
  /-- Raised by a command that reads a position of a buffer or of DIST that nothing has stored since
  reset (10_state.md R93, 93_implementation_defined.md U1). `position` is the DIST or SYMIN entry, or
  the bit position of BITIN or BITOUT. Safe: the spec gives the command no result. -/
  | unwrittenRead (mem : MemName) (position : Nat)
  deriving DecidableEq, Repr

/-- An action the model has no transition for. -/
inductive Refusal where
  /-- Raised by an arm of `exec` for a command with no meaning yet; no arm does. Safe. -/
  | notModelled (mnemonic : String)
  /-- Raised by a host access that is not aligned to 4 bytes (20_memory.md R102,
  93_implementation_defined.md U5). Safe: the spec refuses the access. -/
  | misalignedAccess (addr : Nat)
  /-- Raised by a host access of a width other than 32 bits (20_memory.md R102,
  93_implementation_defined.md U5). Safe: the spec refuses the access. -/
  | narrowAccess (bytes : Nat)
  /-- Raised by a host access outside the 512 KiB window (70_reset_and_hazards.md R516,
  93_implementation_defined.md U6). Safe: the spec refuses the access. -/
  | outsideWindow (addr : Nat)
  deriving DecidableEq, Repr

/-- What a step of the block answers. -/
abbrev Outcome := Host.Outcome State Fault Refusal

/-- An unconfigured LFSR unit: LEN = TAPS = STATE = 0 (10_state.md R92). -/
def Lfsr.reset : Lfsr := { len := 0, taps := 0, state := 0 }

/-- Memory with nothing stored: every data memory unwritten and every `CTAB[s].VALID = 0`
(10_state.md R92, R93). -/
def Memory.reset : Memory := { cells := [], holes := [] }

/-- The state of an instance with parameters `c` right after a power-on reset
(70_reset_and_hazards.md R501), with no host move pending. `hostData` and `freeCount` are the model's
own; their value 0 is a DESIGN CHOICE, log entry 3. -/
def State.resetOf (c : Config) : State where
  seqState := .idle
  cmd := 0
  ie := false
  done := false
  desync := false
  perr := false
  hcorr := false
  wbusy := false
  errcode := 0
  arg0 := 0
  arg1 := 0
  res0 := 0
  res1 := 0
  res2 := 0
  res3 := 0
  distCount := 0
  syminLen := 0
  symoutLen := 0
  bitinLen := 0
  bitoutLen := 0
  rptLen := 0
  codeCount := 0
  lfsrA := Lfsr.reset
  lfsrS := Lfsr.reset
  desyncCnt := 0
  perrCnt := 0
  hcorrCnt := 0
  mem := Memory.reset
  cfg := c
  schedule := []
  hostData := 0
  freeCount := 0

/-- The reference instance right after a power-on reset (70_reset_and_hazards.md R501). -/
def State.reset : State := State.resetOf Config.reference

end Sys2Proof.Machine
end

