-- ==== Sys2Proof/Machine/Flags.lean ====
section
/-! DEFINITION. The STATUS flags (10_state.md R36 to R44, R67), the interrupt output (60_exceptions.md
R409), and how an issue clears, and a command sets, the report flags and their counters. -/

namespace Sys2Proof.Machine

/-- `STATUS.BUSY` (10_state.md R37). -/
def isBusy (s : State) : Bool := s.seqState == .busy

/-- `STATUS.ERR`, which is not stored (10_state.md R39). -/
def isErr (s : State) : Bool := s.errcode != 0

/-- The STATUS word as a host reads it; bits [7] and [31:16] are 0 (10_state.md R36). -/
def statusWord (s : State) : Word :=
  0#16 ++ s.errcode ++ 0#1 ++ BitVec.ofBool s.wbusy ++ BitVec.ofBool s.hcorr ++
    BitVec.ofBool s.perr ++ BitVec.ofBool s.desync ++ BitVec.ofBool (isErr s) ++
    BitVec.ofBool s.done ++ BitVec.ofBool (isBusy s)

/-- A host write to STATUS: DONE and WBUSY are cleared where their bit is 1, and nothing else changes
(10_state.md R36, R38, R43). -/
def writeStatus (v : Word) (s : State) : State :=
  { s with done := s.done && !v.getLsbD 1, wbusy := s.wbusy && !v.getLsbD 6 }

/-- The interrupt output `IRQ = CTRL.IE ∧ STATUS.DONE` (60_exceptions.md R409). -/
def irq (s : State) : Bool := s.ie && s.done

/-- The report flags and their counters cleared, as at an accepted CMD write (10_state.md R67,
30_encoding.md R132). -/
def clearReports (s : State) : State :=
  { s with desync := false, perr := false, hcorr := false, desyncCnt := 0, perrCnt := 0, hcorrCnt := 0 }

/-- DECODE's report: `nd` desync records and `np` symbol records with a parity mismatch
(10_state.md R40, R41, R59, R60). -/
def reportDecode (nd np : Nat) (s : State) : State :=
  { s with
    desyncCnt := BitVec.ofNat 15 nd
    perrCnt := BitVec.ofNat 15 np
    desync := decide (0 < nd)
    perr := decide (0 < np) }

/-- STRIPCHK's report: its mismatch mask is nonzero (10_state.md R41, 41_prefix_coder.md R219). -/
def reportParity (mask : Nat) (s : State) : State := { s with perr := decide (mask ≠ 0) }

/-- HDEC's report: `nh` blocks with a nonzero syndrome (10_state.md R42, R61). -/
def reportHamming (nh : Nat) (s : State) : State :=
  { s with hcorrCnt := BitVec.ofNat 15 nh, hcorr := decide (0 < nh) }

/-- HDECB's report: the block was corrected; HCORR_CNT is not written (42_hamming.md R272). -/
def reportBlock (corrected : Bool) (s : State) : State := { s with hcorr := corrected }

end Sys2Proof.Machine
end

