-- ==== Sys2Proof/Machine/Memory.lean ====
section
/-! DEFINITION. The operations over the seven memories: bytes, words and bit positions. Every write
keeps the canonical form of the two lists (`Memory.wf`). -/

namespace Sys2Proof.Machine

/-- The offset of a memory's window in the block's 512 KiB window (10_state.md R70). -/
def windowBase : MemName → Nat
  | .dist => 0x01000
  | .ctab => 0x02000
  | .symin => 0x08000
  | .symout => 0x10000
  | .bitin => 0x18000
  | .bitout => 0x1A000
  | .rpt => 0x40000

/-- The size in bytes of a memory's window (the address map, 20_memory.md R101). -/
def windowBytes : MemName → Nat
  | .dist => 0x01000
  | .ctab => 0x04000
  | .symin => 0x08000
  | .symout => 0x08000
  | .bitin => 0x00800
  | .bitout => 0x00800
  | .rpt => 0x40000

/-- The offset `a` lies in the window of memory `m` (20_memory.md R101). -/
def inWindow (m : MemName) (a : Nat) : Bool :=
  windowBase m ≤ a && a < windowBase m + windowBytes m

/-- What an offset that no cell lists reads as: 0 in CTAB, where VALID = 0 makes all words read 0
(10_state.md R78), and no value elsewhere, since a reset initialises no other memory (R93).
Safe, log entry 7. -/
def unlisted (a : Nat) : Option Byte := if inWindow .ctab a then some 0 else none

/-- One byte as memory holds it: its value and the mask of its bits that nothing has stored; the value
has 0 at those bits. -/
structure MemByte where
  value : Byte
  undef : Byte
  deriving DecidableEq, Repr

/-- The byte listed for offset `a`. -/
def lookup (a : Nat) : List Host.Cell → Option Byte
  | [] => none
  | (x, b) :: l => if x = a then some b else lookup a l

/-- The list with the byte at `a` set to `b`, in the order of the offsets. -/
def putCell (a : Nat) (b : Byte) : List Host.Cell → List Host.Cell
  | [] => [(a, b)]
  | (x, c) :: l =>
    if x < a then (x, c) :: putCell a b l
    else if x = a then (a, b) :: l
    else (a, b) :: (x, c) :: l

/-- The list with the byte at `a` set to `b`, where an unlisted offset `a` reads as `d`. -/
def updateCell (d : Option Byte) (a : Nat) (b : Byte) (l : List Host.Cell) : List Host.Cell :=
  if d = some b then l.filter (fun c => c.1 ≠ a) else putCell a b l

/-- The offsets rise strictly and no entry equals what an unlisted offset reads as. -/
abbrev Canonical (d : Nat → Option Byte) (l : List Host.Cell) : Prop :=
  (l.Pairwise fun x y => x.1 < y.1) ∧ ∀ c ∈ l, d c.1 ≠ some c.2

/-- The canonical form of memory, so that equal memories are equal data: both lists are canonical, and
a hole is in a listed byte, leaves some bit of it stored, and has value 0. -/
abbrev Memory.wf (m : Memory) : Prop :=
  Canonical unlisted m.cells ∧ Canonical (fun _ => some 0) m.holes ∧
    ∀ h ∈ m.holes, h.2 ≠ 0xFF ∧ ∃ c ∈ m.cells, c.1 = h.1 ∧ c.2 &&& h.2 = 0

/-- Reading one byte: its value and which of its bits nothing has stored. -/
def readByte (m : Memory) (a : Nat) : MemByte :=
  match lookup a m.cells with
  | some b => { value := b, undef := (lookup a m.holes).getD 0 }
  | none =>
    match unlisted a with
    | some b => { value := b, undef := 0 }
    | none => { value := 0, undef := 0xFF }

/-- Storing the bits of `v` that the mask `bits` selects in the byte at `a`. -/
def storeByte (m : Memory) (a : Nat) (v bits : Byte) : Memory :=
  let old := readByte m a
  { cells := updateCell (unlisted a) a ((old.value &&& ~~~bits) ||| (v &&& bits)) m.cells
    holes := updateCell (some 0) a (old.undef &&& ~~~bits) m.holes }

/-- The word at offset `a`, byte lane [7:0] at the lowest offset (20_memory.md R104), and the mask of
its bits that nothing has stored. -/
structure MemWord where
  value : Word
  undef : Word
  deriving DecidableEq, Repr

/-- Reading the aligned word at offset `a` (20_memory.md R104). -/
def readWord (m : Memory) (a : Nat) : MemWord :=
  let b0 := readByte m a
  let b1 := readByte m (a + 1)
  let b2 := readByte m (a + 2)
  let b3 := readByte m (a + 3)
  { value := b3.value ++ b2.value ++ b1.value ++ b0.value
    undef := b3.undef ++ b2.undef ++ b1.undef ++ b0.undef }

/-- Storing the aligned word `w` at offset `a` (20_memory.md R104). -/
def storeWord (m : Memory) (a : Nat) (w : Word) : Memory :=
  storeByte (storeByte (storeByte (storeByte m
    a (w.extractLsb' 0 8) 0xFF)
    (a + 1) (w.extractLsb' 8 8) 0xFF)
    (a + 2) (w.extractLsb' 16 8) 0xFF)
    (a + 3) (w.extractLsb' 24 8) 0xFF

/-- Storing consecutive words from offset `a` on. -/
def storeWords (m : Memory) (a : Nat) : List Word → Memory
  | [] => m
  | w :: ws => storeWords (storeWord m a w) (a + 4) ws

/-- The offset of the byte that holds bit `k` of a bit buffer at `base`: the stream is packed most
significant bit first in each word (10_state.md R83), the word's lane [31:24] at its highest offset
(20_memory.md R104). -/
def bitByte (base k : Nat) : Nat := base + 4 * (k / 32) + (3 - k % 32 / 8)

/-- The place of bit `k` of a bit buffer in its byte (10_state.md R83). -/
def bitPlace (k : Nat) : Nat := 7 - k % 8

/-- The mask of bit `k` of a bit buffer in its byte. -/
def bitMask (k : Nat) : Byte := BitVec.twoPow 8 (bitPlace k)

/-- Reading bit `k` of the bit buffer at `base`; no value if nothing has stored it. -/
def readBit (m : Memory) (base k : Nat) : Option Bool :=
  let b := readByte m (bitByte base k)
  if b.undef.getLsbD (bitPlace k) then none else some (b.value.getLsbD (bitPlace k))

/-- Storing bit `k` of the bit buffer at `base`. -/
def storeBit (m : Memory) (base k : Nat) (b : Bool) : Memory :=
  storeByte m (bitByte base k) (if b then 0xFF else 0) (bitMask k)

/-- Reading the `n` bits from position `k` on; where one is unwritten, its position instead. -/
def readBits (m : Memory) (base : Nat) : Nat → Nat → Except Nat Bits
  | 0, _ => .ok []
  | n + 1, k =>
    match readBit m base k with
    | none => .error k
    | some b =>
      match readBits m base n (k + 1) with
      | .error e => .error e
      | .ok x => .ok (b :: x)

/-- Storing the bits `x` from position `k` on. -/
def storeBits (m : Memory) (base : Nat) : Nat → Bits → Memory
  | _, [] => m
  | k, b :: x => storeBits (storeBit m base k b) base (k + 1) x

/-- Every byte of the window of `n` as nothing stored: the contents a failed command leaves
unspecified (60_exceptions.md R403 item 6), or a cleared code table (41_prefix_coder.md R202). -/
def forget (n : MemName) (m : Memory) : Memory :=
  { cells := m.cells.filter fun c => !inWindow n c.1
    holes := m.holes.filter fun c => !inWindow n c.1 }

end Sys2Proof.Machine
end

