-- ==== Sys2Proof/Machine/AddressMap.lean ====
section
/-! DEFINITION. The address map of the block (20_memory.md R101): the registers (10_state.md R65), the
entries of the seven memories (R70), and what an offset of the window names. -/

namespace Sys2Proof.Machine

/-- The named registers (10_state.md R65). -/
inductive Reg where
  | id
  | ctrl
  | status
  | cmd
  | arg0
  | arg1
  | res0
  | res1
  | res2
  | res3
  | distCount
  | syminLen
  | symoutLen
  | bitinLen
  | bitoutLen
  | rptLen
  | codeCount
  | laLen
  | laTaps
  | laState
  | lsLen
  | lsTaps
  | lsState
  | desyncCnt
  | perrCnt
  | hcorrCnt
  | capHcol
  | capHdat
  | capChi
  | cap0
  | cap1
  | cap2
  | cap3
  deriving DecidableEq, Repr

/-- The offset of a register (10_state.md R32 to R66). -/
def regOffset : Reg → Nat
  | .id => 0x000
  | .ctrl => 0x004
  | .status => 0x008
  | .cmd => 0x00C
  | .arg0 => 0x010
  | .arg1 => 0x014
  | .res0 => 0x020
  | .res1 => 0x024
  | .res2 => 0x028
  | .res3 => 0x02C
  | .distCount => 0x030
  | .syminLen => 0x034
  | .symoutLen => 0x038
  | .bitinLen => 0x03C
  | .bitoutLen => 0x040
  | .rptLen => 0x044
  | .codeCount => 0x048
  | .laLen => 0x050
  | .laTaps => 0x054
  | .laState => 0x058
  | .lsLen => 0x060
  | .lsTaps => 0x064
  | .lsState => 0x068
  | .desyncCnt => 0x070
  | .perrCnt => 0x074
  | .hcorrCnt => 0x078
  | .capHcol => 0x0E0
  | .capHdat => 0x0E4
  | .capChi => 0x0EC
  | .cap0 => 0x0F0
  | .cap1 => 0x0F4
  | .cap2 => 0x0F8
  | .cap3 => 0x0FC

/-- Every register. -/
def allRegs : List Reg :=
  [.id, .ctrl, .status, .cmd, .arg0, .arg1, .res0, .res1, .res2, .res3, .distCount, .syminLen,
    .symoutLen, .bitinLen, .bitoutLen, .rptLen, .codeCount, .laLen, .laTaps, .laState, .lsLen,
    .lsTaps, .lsState, .desyncCnt, .perrCnt, .hcorrCnt, .capHcol, .capHdat, .capChi, .cap0, .cap1,
    .cap2, .cap3]

/-- Every memory. -/
def allMems : List MemName := [.dist, .ctab, .symin, .symout, .bitin, .bitout, .rpt]

/-- The size in bytes of an entry of a memory (10_state.md R70). -/
def entryBytes : MemName → Nat
  | .dist => 4
  | .ctab => 16
  | .symin => 4
  | .symout => 4
  | .bitin => 4
  | .bitout => 4
  | .rpt => 16

/-- How many entries a memory has (10_state.md R70). -/
def capacity (c : Config) : MemName → Nat
  | .dist => c.maxSym
  | .ctab => c.maxSym
  | .symin => c.symbufDepth
  | .symout => c.symbufDepth
  | .bitin => c.bitbufBits / 32
  | .bitout => c.bitbufBits / 32
  | .rpt => c.rptDepth

/-- The offset of word `k` of entry `e` of a memory (10_state.md R71, R73, R80, R81, R84 to R86). -/
def wordOffset (m : MemName) (e k : Nat) : Nat := windowBase m + entryBytes m * e + 4 * k

/-- What an offset of the window names. -/
inductive Target where
  /-- A register (10_state.md R65). -/
  | reg (r : Reg)
  /-- Word `k` of entry `e` of a memory (10_state.md R70). -/
  | mem (m : MemName) (e k : Nat)
  /-- A reserved offset, or an entry at or beyond its memory's capacity (10_state.md R62, R91;
  20_memory.md R103). -/
  | reserved
  deriving DecidableEq, Repr

/-- The offset of a target (30_encoding.md R152); a reserved one has none. -/
def targetOffset : Target → Option Nat
  | .reg r => some (regOffset r)
  | .mem m e k => some (wordOffset m e k)
  | .reserved => none

/-- What the aligned offset `a` names (20_memory.md R101). -/
def locate (c : Config) (a : Nat) : Target :=
  match allMems.find? (fun m => inWindow m a) with
  | some m =>
    let e := (a - windowBase m) / entryBytes m
    if e < capacity c m then .mem m e ((a - windowBase m) % entryBytes m / 4) else .reserved
  | none =>
    match allRegs.find? (fun r => regOffset r = a) with
    | some r => .reg r
    | none => .reserved

/-- The size of the block's window: the low 19 address bits (20_memory.md R100). -/
def windowSize : Nat := 0x80000

end Sys2Proof.Machine
end

