-- ==== Sys2Proof/Machine/BitString.lean ====
section
/-! DEFINITION. The integer and bit-string primitives of the notation (00_scope.md R9, R11, R12), and
the two codec functions of one parity block string, AddParity and StripCheck (41_prefix_coder.md §3). -/

namespace Sys2Proof.Machine

/-- `bitlen(v)`, the number of binary digits of `v` (00_scope.md R9). -/
def bitlen (v : Nat) : Nat := if v = 0 then 0 else Nat.log2 v + 1

/-- `parity(v)` of a `v < 2^n`: the XOR of its bits (00_scope.md R9). -/
def parityOf (v : Nat) : Nat → Bool
  | 0 => false
  | n + 1 => v.testBit n ^^ parityOf v n

/-- `val(x)`: the first bit is the most significant (00_scope.md R12). -/
def valBits (x : Bits) : Nat := x.foldl (fun v b => 2 * v + b.toNat) 0

/-- `str_L(v)`: bit `j` of the string is `v[L−1−j]` (00_scope.md R12). -/
def strBits : Nat → Nat → Bits
  | 0, _ => []
  | l + 1, v => v.testBit l :: strBits l v

/-- `xor(x)`, with `xor(ε) = 0` (00_scope.md R11). -/
def xorBits (x : Bits) : Bool := x.foldl (fun p b => p ^^ b) false

/-- `ones(x)` (00_scope.md R11). -/
def onesOf (x : Bits) : Nat := x.count true

/-- The parity block size, chosen from the codeword's own length (41_prefix_coder.md R209). -/
def blockSize (l : Nat) : Nat := if l % 2 = 0 then 2 else 3

/-- The blocks of `x`, each followed by its parity bit (41_prefix_coder.md R209). -/
def parityBlocks (bs : Nat) : Nat → Bits → Bits
  | 0, _ => []
  | _ + 1, [] => []
  | fuel + 1, b :: x =>
    let blk := (b :: x).take bs
    blk ++ xorBits blk :: parityBlocks bs fuel ((b :: x).drop bs)

/-- `AddParity(x)` (41_prefix_coder.md R209). -/
def addParity (x : Bits) : Bits := parityBlocks (blockSize x.length) x.length x

/-- The payload of the chunks of `y` and the mask of the chunks whose check bit differs from the XOR
of the rest, chunk `k` at bit `k − 1` (41_prefix_coder.md R216). -/
def stripChunks (bs : Nat) : Nat → Bits → Bits × Nat
  | 0, _ => ([], 0)
  | _ + 1, [] => ([], 0)
  | fuel + 1, b :: y =>
    let ch := (b :: y).take (bs + 1)
    let pay := ch.dropLast
    let bad := ch.getLastD false != xorBits pay
    let rest := stripChunks bs fuel ((b :: y).drop (bs + 1))
    (pay ++ rest.1, bad.toNat + 2 * rest.2)

/-- `StripCheck(y, OL)`: the recovered codeword, cut to `OL` bits, and the mismatch mask
(41_prefix_coder.md R216). -/
def stripCheck (y : Bits) (ol : Nat) : Bits × Nat :=
  let r := stripChunks (blockSize ol) y.length y
  (r.1.take ol, r.2)

end Sys2Proof.Machine
end

