-- ==== Sys2Proof/Machine/Operands.lean ====
section
/-! DEFINITION. The operands of the commands (30_encoding.md R139 to R145, R147) and the typed entries
of the memories: DIST, SYMIN, the code table and the report records (10_state.md §4). -/

namespace Sys2Proof.Machine

/-- ADDPAR's length `L = ARG1[5:0]` (30_encoding.md R140). -/
def addparLen (s : State) : Nat := s.arg1.toNat % 64

/-- ADDPAR's codeword `str_L(ARG0 mod 2^L)` (30_encoding.md R140). -/
def addparWord (s : State) : Bits := strBits (addparLen s) (s.arg0.toNat % 2 ^ addparLen s)

/-- STRIPCHK's `PL = ARG1[5:0]` (30_encoding.md R141). -/
def stripPl (s : State) : Nat := s.arg1.toNat % 64

/-- STRIPCHK's `OL = ARG1[13:8]` (30_encoding.md R141). -/
def stripOl (s : State) : Nat := s.arg1.toNat / 256 % 64

/-- STRIPCHK's parity codeword `str_PL(ARG0 mod 2^PL)` (30_encoding.md R141). -/
def stripWord (s : State) : Bits := strBits (stripPl s) (s.arg0.toNat % 2 ^ stripPl s)

/-- HENC's value, all 32 bits of ARG0 (30_encoding.md R142). -/
def hencValue (s : State) : Nat := s.arg0.toNat

/-- HDECB's block `str_7(ARG0[6:0])` (30_encoding.md R143). -/
def hdecbBlock (s : State) : Bits := strBits 7 (s.arg0.toNat % 128)

/-- The count `N` of LGEN and SGGEN, all 32 bits of ARG0 (30_encoding.md R144). -/
def bitCount (s : State) : Nat := s.arg0.toNat

/-- The LFSR unit that U selects (30_encoding.md R145). -/
def lfsrOf (s : State) : LfsrUnit → Lfsr
  | .a => s.lfsrA
  | .s => s.lfsrS

/-- A unit's STATE register written; LEN and TAPS stay (10_state.md R55, R58). -/
def setLfsrState (u : LfsrUnit) (v : Nat) (s : State) : State :=
  match u with
  | .a => { s with lfsrA := { s.lfsrA with state := wordOf v } }
  | .s => { s with lfsrS := { s.lfsrS with state := wordOf v } }

/-- A unit is configured (10_state.md R57, 43_lfsr.md R304). -/
def configured (l : Lfsr) : Bool := 1 ≤ l.len.toNat && l.len.toNat ≤ Config.lfsrMaxLen

/-- The memory of the sequence that CHISQ and PERIOD test (44_statistics.md R340). -/
def sourceMem : BitSource → MemName
  | .bitin => .bitin
  | .bitout => .bitout

/-- The length of the sequence that CHISQ and PERIOD test (44_statistics.md R340). -/
def sourceLen (s : State) : BitSource → Nat
  | .bitin => s.bitinLen.toNat
  | .bitout => s.bitoutLen.toNat

/-- The numerator `DIST[i][21:0]`; no value if nothing has stored it (10_state.md R71, R93). -/
def distEntry (s : State) (i : Nat) : Option Nat :=
  let w := readWord s.mem (wordOffset .dist i 0)
  if w.undef = 0 then some (w.value.toNat % 2 ^ 22) else none

/-- The entry `SYMIN[j][15:0]`; no value if nothing has stored it (10_state.md R80, R93). -/
def syminEntry (s : State) (j : Nat) : Option Nat :=
  let w := readWord s.mem (wordOffset .symin j 0)
  if w.undef = 0 then some (w.value.toNat % 2 ^ 16) else none

/-- The fields of one code-table entry (10_state.md R73 to R77). -/
structure CodeEntry where
  valid : Bool
  blen : Nat
  bcode : Nat
  plen : Nat
  pcode : Nat
  rank : Nat
  deriving DecidableEq, Repr

/-- The four words of a code-table entry (10_state.md R74 to R77). -/
def codeWords (e : CodeEntry) : List Word :=
  [wordOf (e.valid.toNat * 2 ^ 31 + e.blen * 2 ^ 16 + e.plen), wordOf e.bcode, wordOf e.pcode,
    wordOf e.rank]

/-- `CTAB[t]` as the four words of memory hold it (10_state.md R74 to R77). -/
def codeEntry (s : State) (t : Nat) : CodeEntry :=
  let w0 := (readWord s.mem (wordOffset .ctab t 0)).value
  { valid := w0.getLsbD 31
    blen := w0.toNat / 2 ^ 16 % 64
    plen := w0.toNat % 64
    bcode := (readWord s.mem (wordOffset .ctab t 1)).value.toNat
    pcode := (readWord s.mem (wordOffset .ctab t 2)).value.toNat
    rank := (readWord s.mem (wordOffset .ctab t 3)).value.toNat % 2048 }

/-- The base codeword of an entry, `str_BLEN(BCODE)` (41_prefix_coder.md R213). -/
def baseCode (e : CodeEntry) : Bits := strBits e.blen e.bcode

/-- The parity codeword of an entry, `str_PLEN(PCODE)` (41_prefix_coder.md R213). -/
def parityCode (e : CodeEntry) : Bits := strBits e.plen e.pcode

/-- The TYPE of a report record (10_state.md R87). -/
inductive RecordType where
  /-- 0: a decoded Shannon symbol. -/
  | sym
  /-- 1: the source's null-symbol record. -/
  | desync
  /-- 2: a (7,4) block. -/
  | ham
  deriving DecidableEq, Repr

/-- The TYPE field's value (10_state.md R87). -/
def recordTypeCode : RecordType → Nat
  | .sym => 0
  | .desync => 1
  | .ham => 2

/-- One report record (10_state.md R86 to R90); `w3` is its fourth word. -/
structure Record where
  type : RecordType
  symbol : Nat
  start : Nat
  stop : Nat
  w3 : Nat
  deriving DecidableEq, Repr

/-- The four words of a record (10_state.md R87 to R90). -/
def recordWords (r : Record) : List Word :=
  [wordOf (recordTypeCode r.type * 2 ^ 28 + r.symbol), wordOf r.start, wordOf r.stop, wordOf r.w3]

end Sys2Proof.Machine
end

