-- ==== Sys2Proof/Machine/Ops.lean ====
section
/-! DEFINITION. The operations the commands share: issue (30_encoding.md R132), success and failure
completion (60_exceptions.md R401 to R403), reset (70_reset_and_hazards.md R501), the output buffers
(10_state.md R81, R85, R86), and what each command may write (20_memory.md R113, R118). The block takes
no trap (60_exceptions.md R412): the failure completion is the whole effect of an error, and there is
no return from it (R413). -/

namespace Sys2Proof.Machine

/-- The errors a command can raise (30_encoding.md R150). LENGTH_MISMATCH and the reserved codes are
never raised. -/
inductive ErrCode where
  | unknownSymbol
  | outOfRange
  | malformedLength
  | illegalCommand
  | badProbability
  | capacity
  | badLfsrConfig
  | emptySequence
  | badOperand
  deriving DecidableEq, Repr

/-- The error codes (30_encoding.md R150). -/
def errByte : ErrCode → BitVec 8
  | .unknownSymbol => 1
  | .outOfRange => 2
  | .malformedLength => 4
  | .illegalCommand => 8
  | .badProbability => 9
  | .capacity => 10
  | .badLfsrConfig => 11
  | .emptySequence => 12
  | .badOperand => 13

/-- An accepted CMD write of `v` (30_encoding.md R132). -/
def issue (v : Word) (s : State) : State :=
  clearReports { s with cmd := v, seqState := .busy, done := false, errcode := 0 }

/-- Completion with a code (60_exceptions.md R402). -/
def finish (code : BitVec 8) (s : State) : State :=
  { s with errcode := code, seqState := .idle, done := true }

/-- The success completion (60_exceptions.md R401). -/
def complete (s : State) : State := finish 0 s

/-- How many of RES0 to RES3 a command writes (30_encoding.md R146), a failure too: a note of
95_test_vectors.md on ADDPAR says otherwise. DEDUCED, unsafe, log entry 14. -/
def resCount : Instr → Nat
  | .nop => 0
  | .build => 4
  | .encode => 1
  | .decode => 2
  | .addpar => 2
  | .stripchk => 3
  | .henc => 1
  | .hencs => 1
  | .hdec => 1
  | .hdecb => 4
  | .lstep _ => 1
  | .lgen _ => 1
  | .sggen => 1
  | .chisq _ => 4
  | .period _ => 1
  | .bcopy => 0

/-- The first `n` of RES0 to RES3 set to 0 (60_exceptions.md R403 item 1). -/
def zeroRes (n : Nat) (s : State) : State :=
  { s with
    res0 := if 0 < n then 0 else s.res0
    res1 := if 1 < n then 0 else s.res1
    res2 := if 2 < n then 0 else s.res2
    res3 := if 3 < n then 0 else s.res3 }

/-- A failed producer of BITOUT: its length is 0 and its contents are unspecified, so they count as
unwritten (60_exceptions.md R403 items 2 and 6). DEDUCED, safe, log entry 9. -/
def dropBitout (s : State) : State :=
  { s with bitoutLen := 0, mem := forget .bitout s.mem }

/-- A failed producer of SYMOUT and RPT: their lengths are 0 and their contents are unspecified
(60_exceptions.md R403 items 2 and 6). -/
def dropRecords (s : State) : State :=
  { s with symoutLen := 0, rptLen := 0, mem := forget .rpt (forget .symout s.mem) }

/-- A failed BUILD's table: every VALID is 0 and CODE_COUNT is 0 (41_prefix_coder.md R202). -/
def dropTable (s : State) : State :=
  { s with codeCount := 0, mem := forget .ctab s.mem }

/-- The output lengths and memories of a command that fails (60_exceptions.md R403 items 2, 5, 6). -/
def dropOutputs : Instr → State → State
  | .nop, s => s
  | .build, s => dropTable s
  | .encode, s => dropBitout s
  | .decode, s => dropRecords s
  | .addpar, s => s
  | .stripchk, s => s
  | .henc, s => s
  | .hencs, s => dropBitout s
  | .hdec, s => dropRecords s
  | .hdecb, s => s
  | .lstep _, s => s
  | .lgen _, s => dropBitout s
  | .sggen, s => dropBitout s
  | .chisq _, s => s
  | .period _, s => s
  | .bcopy, s => s

/-- The failure completion `raise Error(code)` of command `i` (60_exceptions.md R403). -/
def fail (i : Instr) (c : ErrCode) (s : State) : State :=
  finish (errByte c) (dropOutputs i (zeroRes (resCount i) s))

/-- How many RES registers an illegal word's failure sets to 0: those of the command its opcode names
(60_exceptions.md R403 item 1). -/
def illegalResCount (w : Word) : Nat :=
  match namedByOpcode (fieldsOf w).opc with
  | some i => resCount i
  | none => 0

/-- The completion of a word that selects no command: ILLEGAL_COMMAND (30_encoding.md R134,
60_exceptions.md R403 items 1, 2, 5). -/
def failIllegal (s : State) : State :=
  finish (errByte .illegalCommand) (zeroRes (illegalResCount s.cmd) s)

/-- A reset (70_reset_and_hazards.md R501), power-on or soft. What is not the block's state stays: the
instance's parameters, the moves still to come, and what the port last returned. The data memories
count as unwritten after a soft reset too (93_implementation_defined.md U25): DESIGN CHOICE, safe, log
entry 8. -/
def resetBlock (s : State) : State :=
  { State.resetOf s.cfg with
    schedule := s.schedule
    hostData := s.hostData
    freeCount := s.freeCount }

/-- How a command's pseudocode ends (60_exceptions.md R400). -/
inductive Attempt (α : Type) where
  /-- It reaches its end with the result `a`. -/
  | ok (a : α)
  /-- It raises an error. -/
  | raise (c : ErrCode)
  /-- It reads an unwritten position (10_state.md R93). -/
  | fault (f : Fault)
  /-- It never ends: SEQ has no completion step (43_lfsr.md R309). -/
  | hang
  deriving DecidableEq, Repr

/-- The step of SEQ that a command's pseudocode gives (30_encoding.md R133). A command that never ends
has no completion step, so the block stays as it is, BUSY (43_lfsr.md R309). DEDUCED, safe, log
entry 13. -/
def conclude (i : Instr) (s : State) : Attempt State → Outcome
  | .ok t => .next (complete t)
  | .raise c => .next (fail i c s)
  | .fault f => .fault f
  | .hang => .next s

/-- `out` padded with 0 bits to whole words: the tail of the last partly used word is zeroed
(10_state.md R85). -/
def padBits (out : Bits) : Bits := out ++ List.replicate ((32 - out.length % 32) % 32) false

/-- `BITOUT[0 .. len(out)) <- out` with `R[BITOUT_LEN] <- len(out)` (10_state.md R85). -/
def writeBitout (out : Bits) (s : State) : State :=
  { s with
    mem := storeBits s.mem (windowBase .bitout) 0 (padBits out)
    bitoutLen := BitVec.ofNat 15 out.length }

/-- SYMOUT and RPT from entry 0 on, with their length registers (10_state.md R81, R86). -/
def writeRecords (syms : List Nat) (recs : List Record) (s : State) : State :=
  { s with
    mem := storeWords (storeWords s.mem (windowBase .symout) (syms.map wordOf))
      (windowBase .rpt) (recs.flatMap recordWords)
    symoutLen := BitVec.ofNat 14 syms.length
    rptLen := BitVec.ofNat 15 recs.length }

/-- The bits of a buffer's positions `0 .. n−1`; an unwritten one faults (10_state.md R93). -/
def bufferBits (s : State) (m : MemName) (n : Nat) : Attempt Bits :=
  match readBits s.mem (windowBase m) n 0 with
  | .ok x => .ok x
  | .error k => .fault (.unwrittenRead m k)

/-- A command writes BITOUT and BITOUT_LEN (20_memory.md R118). -/
def producesBits : Instr → Bool
  | .nop => false
  | .build => false
  | .encode => true
  | .decode => false
  | .addpar => false
  | .stripchk => false
  | .henc => false
  | .hencs => true
  | .hdec => false
  | .hdecb => false
  | .lstep _ => false
  | .lgen _ => true
  | .sggen => true
  | .chisq _ => false
  | .period _ => false
  | .bcopy => false

/-- A command writes SYMOUT, RPT and their length registers (20_memory.md R118). -/
def producesRecords : Instr → Bool
  | .nop => false
  | .build => false
  | .encode => false
  | .decode => true
  | .addpar => false
  | .stripchk => false
  | .henc => false
  | .hencs => false
  | .hdec => true
  | .hdecb => false
  | .lstep _ => false
  | .lgen _ => false
  | .sggen => false
  | .chisq _ => false
  | .period _ => false
  | .bcopy => false

/-- A command writes the STATE of unit `u` (43_lfsr.md R306 to R308). -/
def stepsUnit (u : LfsrUnit) : Instr → Bool
  | .nop => false
  | .build => false
  | .encode => false
  | .decode => false
  | .addpar => false
  | .stripchk => false
  | .henc => false
  | .hencs => false
  | .hdec => false
  | .hdecb => false
  | .lstep v => v == u
  | .lgen v => v == u
  | .sggen => true
  | .chisq _ => false
  | .period _ => false
  | .bcopy => false

/-- The registers in a command's Writes list, STATUS apart (00_scope.md R15, 20_memory.md R113). -/
def writesReg (i : Instr) : Reg → Bool
  | .id => false
  | .ctrl => false
  | .status => false
  | .cmd => false
  | .arg0 => false
  | .arg1 => false
  | .res0 => 0 < resCount i
  | .res1 => 1 < resCount i
  | .res2 => 2 < resCount i
  | .res3 => 3 < resCount i
  | .distCount => false
  | .syminLen => false
  | .symoutLen => producesRecords i
  | .bitinLen => i == .bcopy
  | .bitoutLen => producesBits i
  | .rptLen => producesRecords i
  | .codeCount => i == .build
  | .laLen => false
  | .laTaps => false
  | .laState => stepsUnit .a i
  | .lsLen => false
  | .lsTaps => false
  | .lsState => stepsUnit .s i
  | .desyncCnt => i == .decode
  | .perrCnt => i == .decode
  | .hcorrCnt => i == .hdec
  | .capHcol => false
  | .capHdat => false
  | .capChi => false
  | .cap0 => false
  | .cap1 => false
  | .cap2 => false
  | .cap3 => false

/-- The memory words in a command's Writes list (20_memory.md R118); BCOPY writes the BITIN words that
hold a position below BITOUT_LEN (45_control.md R371). DEDUCED, safe, log entry 12. -/
def writesMem (s : State) (i : Instr) (e : Nat) : MemName → Bool
  | .dist => false
  | .ctab => i == .build
  | .symin => false
  | .symout => producesRecords i
  | .bitin => i == .bcopy && 32 * e < s.bitoutLen.toNat
  | .bitout => producesBits i
  | .rpt => producesRecords i

/-- The RES register a word's failure may set to 0 is among those an illegal word in flight may write
(60_exceptions.md R403 item 1). DEDUCED, safe, log entry 11. -/
def illegalWritesReg (w : Word) : Reg → Bool
  | .res0 => 0 < illegalResCount w
  | .res1 => 1 < illegalResCount w
  | .res2 => 2 < illegalResCount w
  | .res3 => 3 < illegalResCount w
  | .id => false
  | .ctrl => false
  | .status => false
  | .cmd => false
  | .arg0 => false
  | .arg1 => false
  | .distCount => false
  | .syminLen => false
  | .symoutLen => false
  | .bitinLen => false
  | .bitoutLen => false
  | .rptLen => false
  | .codeCount => false
  | .laLen => false
  | .laTaps => false
  | .laState => false
  | .lsLen => false
  | .lsTaps => false
  | .lsState => false
  | .desyncCnt => false
  | .perrCnt => false
  | .hcorrCnt => false
  | .capHcol => false
  | .capHdat => false
  | .capChi => false
  | .cap0 => false
  | .cap1 => false
  | .cap2 => false
  | .cap3 => false

/-- The command in flight may write the target (20_memory.md R113). -/
def inFlightWrites (s : State) (t : Target) : Bool :=
  isBusy s &&
    match decodeWord s.cmd, t with
    | .ok i, .reg r => writesReg i r
    | .ok i, .mem m e _ => writesMem s i e m
    | .error _, .reg r => illegalWritesReg s.cmd r
    | .error _, .mem _ _ _ => false
    | _, .reserved => false

end Sys2Proof.Machine
end

