-- ==== Sys2Proof/Machine/Control.lean ====
section
/-! DEFINITION. The control commands NOP and BCOPY (45_control.md). -/

namespace Sys2Proof.Machine

/-- NOP: completion and nothing else (45_control.md R370). -/
def execNop (s : State) : Outcome := conclude .nop s (.ok s)

/-- BCOPY's pseudocode (45_control.md R371): BITIN positions at and above `n` are unchanged. -/
def runBcopy (s : State) : Attempt State :=
  match bufferBits s .bitout s.bitoutLen.toNat with
  | .ok x =>
    .ok { s with mem := storeBits s.mem (windowBase .bitin) 0 x, bitinLen := s.bitoutLen }
  | .raise c => .raise c
  | .fault f => .fault f
  | .hang => .hang

/-- BCOPY (45_control.md R371). -/
def execBcopy (s : State) : Outcome := conclude .bcopy s (runBcopy s)

end Sys2Proof.Machine
end

