-- ==== Sys2Proof/Machine/Generators.lean ====
section
/-! DEFINITION. The LFSR generators and the decimated (SG) combiner: LSTEP, LGEN and SGGEN
(43_lfsr.md). -/

namespace Sys2Proof.Machine

/-- `Step(n, t, s)`: the bit shifted out and the new register (43_lfsr.md R302, R303). -/
def lfsrStep (ph : TapPhase) (n t s : Nat) : Bool × Nat :=
  let t := t % 2 ^ n
  let s := s % 2 ^ n
  let out := s.testBit (n - 1)
  match ph with
  | .pre =>
    let f := out ^^ parityOf (s &&& t) n
    (out, ((s <<< 1) ||| f.toNat) % 2 ^ n)
  | .post =>
    let s1 := (s <<< 1) % 2 ^ n
    let f := out ^^ parityOf (s1 &&& t) n
    (out, s1 ||| f.toNat)

/-- `N` steps: the bits shifted out, in order, and the last register (43_lfsr.md R307). -/
def lfsrRun (ph : TapPhase) (n t : Nat) : Nat → Nat → Bits × Nat
  | 0, s => ([], s)
  | k + 1, s =>
    let r := lfsrStep ph n t s
    let q := lfsrRun ph n t k r.2
    (r.1 :: q.1, q.2)

/-- LSTEP's pseudocode (43_lfsr.md R306). -/
def runLstep (u : LfsrUnit) (s : State) : Attempt State :=
  let l := lfsrOf s u
  if !configured l then .raise .badLfsrConfig
  else
    let r := lfsrStep s.cfg.tapPhase l.len.toNat l.taps.toNat l.state.toNat
    .ok { setLfsrState u r.2 s with res0 := wordOf r.1.toNat }

/-- LSTEP (43_lfsr.md R306). -/
def execLstep (u : LfsrUnit) (s : State) : Outcome := conclude (.lstep u) s (runLstep u s)

/-- LGEN's pseudocode; `N = 0` leaves STATE as it is (43_lfsr.md R307). -/
def runLgen (u : LfsrUnit) (s : State) : Attempt State :=
  let l := lfsrOf s u
  if !configured l then .raise .badLfsrConfig
  else if s.cfg.bitbufBits < bitCount s then .raise .capacity
  else
    let r := lfsrRun s.cfg.tapPhase l.len.toNat l.taps.toNat (bitCount s) l.state.toNat
    .ok { writeBitout r.1 (setLfsrState u r.2 s) with res0 := wordOf (bitCount s) }

/-- LGEN (43_lfsr.md R307). -/
def execLgen (u : LfsrUnit) (s : State) : Outcome := conclude (.lgen u) s (runLgen u s)

/-- What the SG combiner returns: its output bits, the registers of A and S, and its internal steps. -/
structure SgResult where
  bits : Bits
  stateA : Nat
  stateS : Nat
  steps : Nat
  deriving DecidableEq, Repr

/-- The combiner's loop until `k` bits are output: at each internal step A and S step, and A's bit is
output when S's bit is 1 (43_lfsr.md R308). No value if `fuel` steps do not reach `k` bits. -/
def sgRun (ph : TapPhase) (na ta ns ts : Nat) : Nat → Nat → Nat → Nat → Option SgResult
  | _, 0, sa, ss => some { bits := [], stateA := sa, stateS := ss, steps := 0 }
  | 0, _ + 1, _, _ => none
  | fuel + 1, k + 1, sa, ss =>
    let a := lfsrStep ph na ta sa
    let b := lfsrStep ph ns ts ss
    match sgRun ph na ta ns ts fuel (if b.1 then k else k + 1) a.2 b.2 with
    | none => none
    | some r => some { r with bits := if b.1 then a.1 :: r.bits else r.bits, steps := r.steps + 1 }

/-- A number of internal steps that outputs `N` bits if any number does: S has at most `2^m` states, so
it outputs a 1 in each run of `2^m` steps of its final cycle, or no 1 after its first `2^m` steps
(43_lfsr.md R309). -/
def sgBound (m n : Nat) : Nat := (n + 1) * 2 ^ m

/-- SGGEN's pseudocode (43_lfsr.md R308); a selector with too few ones never ends it (R309). -/
def runSggen (s : State) : Attempt State :=
  let na := s.lfsrA.len.toNat
  let ns := s.lfsrS.len.toNat
  let n := bitCount s
  if !configured s.lfsrA then .raise .badLfsrConfig
  else if !configured s.lfsrS then .raise .badLfsrConfig
  else if s.cfg.bitbufBits < n then .raise .capacity
  else
    match sgRun s.cfg.tapPhase na s.lfsrA.taps.toNat ns s.lfsrS.taps.toNat (sgBound ns n) n
        s.lfsrA.state.toNat s.lfsrS.state.toNat with
    | none => .hang
    | some r =>
      .ok { writeBitout r.bits (setLfsrState .s r.stateS (setLfsrState .a r.stateA s)) with
        res0 := wordOf (min r.steps (2 ^ 32 - 1)) }

/-- SGGEN (43_lfsr.md R308). -/
def execSggen (s : State) : Outcome := conclude .sggen s (runSggen s)

end Sys2Proof.Machine
end

