-- ==== Sys2Proof/Machine/Hamming.lean ====
section
/-! DEFINITION. The systematic (7,4) block coder: HENC, HENCS, HDEC and HDECB (42_hamming.md), over the
instance's parity-check columns and data positions. -/

namespace Sys2Proof.Machine

/-- `Syn(c)`: the XOR of the columns of the positions that hold 1 (42_hamming.md R260). -/
def syndrome (c : Config) (x : Bits) : BitVec 3 :=
  (List.zip c.hamCols.toList x).foldl (fun a p => if p.2 then a ^^^ p.1 else a) 0

/-- The codeword of zeros with the data bits of `x` at the data positions, `d1 = x[3]` first
(42_hamming.md R261, 00_scope.md R22). -/
def dataWord (c : Config) (x : Nat) : Bits :=
  [1, 2, 3, 4, 5, 6, 7].map fun j =>
    match c.hamDataPos.toList.idxOf? j with
    | some k => x.testBit (3 - k)
    | none => false

/-- The word with 1 at the given positions only. -/
def pointWord (ps : List Nat) : Bits := [1, 2, 3, 4, 5, 6, 7].map fun j => ps.contains j

/-- The XOR of two words, bit by bit (00_scope.md R9). -/
def xorWords (x y : Bits) : Bits := List.zipWith (fun a b => a ^^ b) x y

/-- The words with 0 at every data position: the eight choices of the parity bits `p1, p2, p3`
(42_hamming.md R261). -/
def parityWords (c : Config) : List Bits := c.parityPositions.sublists.map pointWord

/-- `Enc(x)`: the data word completed by the parity bits that make its syndrome 0 (42_hamming.md
R261). They exist and are unique in a legal configuration. -/
def hammingEnc (c : Config) (x : Nat) : Bits :=
  let d := dataWord c x
  match (parityWords c).find? (fun p => syndrome c p == syndrome c d) with
  | some p => xorWords d p
  | none => d

/-- `Pos(S)`: the position whose column is `S`, and 0 for `S = 0` (42_hamming.md R264). -/
def errorPos (c : Config) (sy : BitVec 3) : Nat :=
  if sy = 0 then 0 else c.hamCols.toList.idxOf sy + 1

/-- The value at the data positions of a codeword (42_hamming.md R265). -/
def dataValue (c : Config) (x : Bits) : Nat :=
  valBits (c.hamDataPos.toList.map fun j => x.getD (j - 1) false)

/-- What `Dec(c)` returns (42_hamming.md R265). -/
structure Decoded where
  value : Nat
  syn : BitVec 3
  pos : Nat
  corrected : Bool
  deriving DecidableEq, Repr

/-- `Dec(c)`: the bit that a nonzero syndrome locates is flipped (42_hamming.md R265). -/
def hammingDec (c : Config) (x : Bits) : Decoded :=
  let sy := syndrome c x
  let e := errorPos c sy
  let x' := if sy = 0 then x else xorWords x (pointWord [e])
  { value := dataValue c x', syn := sy, pos := e, corrected := sy != 0 }

/-! ### HENC and HENCS -/

/-- HENC's pseudocode (42_hamming.md R268). -/
def runHenc (s : State) : Attempt State :=
  if 15 < hencValue s then .raise .outOfRange
  else .ok { s with res0 := wordOf (valBits (hammingEnc s.cfg (hencValue s))) }

/-- HENC (42_hamming.md R268). -/
def execHenc (s : State) : Outcome := conclude .henc s (runHenc s)

/-- The codewords of `n` values of SYMIN from entry `j` on, appended to `out`, checked in ascending
order (42_hamming.md R270, R271). -/
def hencsFrom (s : State) : Nat → Nat → Bits → Attempt Bits
  | 0, _, out => .ok out
  | n + 1, j, out =>
    match syminEntry s j with
    | none => .fault (.unwrittenRead .symin j)
    | some x =>
      if 15 < x then .raise .outOfRange
      else if s.cfg.bitbufBits < 7 * (j + 1) then .raise .capacity
      else hencsFrom s n (j + 1) (out ++ hammingEnc s.cfg x)

/-- HENCS's pseudocode (42_hamming.md R270). -/
def runHencs (s : State) : Attempt State :=
  if s.cfg.symbufDepth < s.syminLen.toNat then .raise .capacity
  else
    match hencsFrom s s.syminLen.toNat 0 [] with
    | .ok out => .ok { writeBitout out s with res0 := wordOf s.syminLen.toNat }
    | .raise c => .raise c
    | .fault f => .fault f
    | .hang => .hang

/-- HENCS (42_hamming.md R270). -/
def execHencs (s : State) : Outcome := conclude .hencs s (runHencs s)

/-! ### HDECB and HDEC -/

/-- HDECB's pseudocode (42_hamming.md R272). -/
def runHdecb (s : State) : Attempt State :=
  let d := hammingDec s.cfg (hdecbBlock s)
  .ok (reportBlock d.corrected
    { s with
      res0 := wordOf d.value
      res1 := d.syn.setWidth 32
      res2 := wordOf d.pos
      res3 := wordOf d.corrected.toNat })

/-- HDECB (42_hamming.md R272). -/
def execHdecb (s : State) : Outcome := conclude .hdecb s (runHdecb s)

/-- The record of block `k`, which covers bits `7k .. 7k+6` (42_hamming.md R274, 10_state.md R90). -/
def hamRecord (k : Nat) (d : Decoded) : Record :=
  { type := .ham
    symbol := d.value
    start := 7 * k
    stop := 7 * k + 7
    w3 := d.syn.toNat + 2 ^ 4 * d.pos + 2 ^ 8 * d.corrected.toNat }

/-- The `nb` blocks of 7 bits of a stream, decoded (42_hamming.md R274). -/
def decodeBlocks (c : Config) : Nat → Bits → List Decoded
  | 0, _ => []
  | nb + 1, x => hammingDec c (x.take 7) :: decodeBlocks c nb (x.drop 7)

/-- HDEC's writes, given its decoded blocks (42_hamming.md R274). -/
def writeBlocks (ds : List Decoded) (s : State) : State :=
  { reportHamming (ds.countP fun d => d.corrected)
      (writeRecords (ds.map fun d => d.value) (ds.mapIdx hamRecord) s) with
    res0 := wordOf ds.length }

/-- HDEC's pseudocode (42_hamming.md R274, R275). -/
def runHdec (s : State) : Attempt State :=
  if s.cfg.bitbufBits < s.bitinLen.toNat then .raise .capacity
  else if s.bitinLen.toNat % 7 ≠ 0 then .raise .malformedLength
  else if s.cfg.symbufDepth < s.bitinLen.toNat / 7 then .raise .capacity
  else
    match bufferBits s .bitin s.bitinLen.toNat with
    | .ok x => .ok (writeBlocks (decodeBlocks s.cfg (s.bitinLen.toNat / 7) x) s)
    | .raise c => .raise c
    | .fault f => .fault f
    | .hang => .hang

/-- HDEC (42_hamming.md R274). -/
def execHdec (s : State) : Outcome := conclude .hdec s (runHdec s)

end Sys2Proof.Machine
end

