-- ==== Sys2Proof/Machine/PrefixCoder.lean ====
section
/-! DEFINITION. The Shannon builder, the parity codec and the prefix-tree coder: BUILD, ADDPAR,
STRIPCHK, ENCODE and DECODE (41_prefix_coder.md). -/

namespace Sys2Proof.Machine

/-! ### BUILD -/

/-- The numerators of `n` entries from `i` on, each with its symbol, checked in ascending order
(41_prefix_coder.md R200, R201). -/
def readDist (s : State) : Nat → Nat → Attempt (List (Nat × Nat))
  | 0, _ => .ok []
  | n + 1, i =>
    match distEntry s i with
    | none => .fault (.unwrittenRead .dist i)
    | some p =>
      if 2 ^ s.cfg.pw < p then .raise .badProbability
      else
        match readDist s n (i + 1) with
        | .ok r => .ok ((i, p) :: r)
        | e => e

/-- `StableSortDesc` on (symbol, numerator) pairs, largest numerator first and the given order kept
among equal ones (41_prefix_coder.md R203). -/
def stableSortDesc (l : List (Nat × Nat)) : List (Nat × Nat) :=
  l.insertionSort fun x y => y.2 ≤ x.2

/-- `CodeLen(P) = PW − (bitlen(P) − 1)` (41_prefix_coder.md R206). -/
def codeLen (pw p : Nat) : Nat := pw - (bitlen p - 1)

/-- `ShannonBits(F, L)`: `L` turns of the doubling accumulator (41_prefix_coder.md R207). -/
def shannonBits (pw : Nat) : Nat → Nat → Bits
  | 0, _ => []
  | l + 1, x =>
    if 2 ^ pw ≤ 2 * x then true :: shannonBits pw l (2 * x - 2 ^ pw)
    else false :: shannonBits pw l (2 * x)

/-- The entry of a symbol of numerator `p` at rank `r`, with the numerators before it summing to `f`
(41_prefix_coder.md R200). -/
def shannonEntry (pw r f p : Nat) : CodeEntry :=
  let b := shannonBits pw (codeLen pw p) f
  let pc := addParity b
  { valid := true, blen := b.length, bcode := valBits b, plen := pc.length, pcode := valBits pc, rank := r }

/-- The code table of the sorted pairs, from rank `r` on with the numerators before summing to `f`; a
symbol of numerator 0 gets no code (41_prefix_coder.md R200, R205, R215). -/
def buildCodes (pw : Nat) : Nat → Nat → List (Nat × Nat) → List (Nat × CodeEntry)
  | _, _, [] => []
  | r, f, (t, p) :: l =>
    if p = 0 then buildCodes pw (r + 1) f l
    else (t, shannonEntry pw r f p) :: buildCodes pw (r + 1) (f + p) l

/-- `KRAFT_NUM` (41_prefix_coder.md R211). -/
def kraftNum (pw : Nat) (codes : List (Nat × CodeEntry)) : Nat :=
  (codes.map fun c => 2 ^ (pw - c.2.blen)).sum

/-- `PFREE_P`: no nonempty parity codeword is a prefix of another symbol's (41_prefix_coder.md
R213). -/
def parityPrefixFree (codes : List (Nat × CodeEntry)) : Bool :=
  codes.all fun c => codes.all fun d =>
    c.1 == d.1 || c.2.plen == 0 || d.2.plen == 0 || !(parityCode c.2).isPrefixOf (parityCode d.2)

/-- `PFREE_B`: no base codeword, empty ones included, is a prefix of another symbol's
(41_prefix_coder.md R213). -/
def basePrefixFree (codes : List (Nat × CodeEntry)) : Bool :=
  codes.all fun c => codes.all fun d =>
    c.1 == d.1 || !(baseCode c.2).isPrefixOf (baseCode d.2)

/-- The entries written to CTAB, each at its symbol's place (10_state.md R73). -/
def storeCodes (m : Memory) : List (Nat × CodeEntry) → Memory
  | [] => m
  | (t, e) :: l => storeCodes (storeWords m (wordOffset .ctab t 0) (codeWords e)) l

/-- BUILD's writes, given the code table (41_prefix_coder.md R200). -/
def writeTable (codes : List (Nat × CodeEntry)) (s : State) : State :=
  { s with
    mem := storeCodes (forget .ctab s.mem) codes
    codeCount := BitVec.ofNat 11 codes.length
    res0 := wordOf (kraftNum s.cfg.pw codes)
    res1 := wordOf codes.length
    res2 := wordOf (decide (kraftNum s.cfg.pw codes ≤ 2 ^ s.cfg.pw)).toNat
    res3 := wordOf ((parityPrefixFree codes).toNat + 2 * (basePrefixFree codes).toNat) }

/-- The code table that the pairs of a distribution give (41_prefix_coder.md R200). -/
def codesOf (pw : Nat) (dist : List (Nat × Nat)) : List (Nat × CodeEntry) :=
  buildCodes pw 0 0 (stableSortDesc dist)

/-- BUILD's pseudocode (41_prefix_coder.md R200). -/
def runBuild (s : State) : Attempt State :=
  if s.cfg.maxSym < s.distCount.toNat then .raise .capacity
  else
    match readDist s s.distCount.toNat 0 with
    | .ok dist => .ok (writeTable (codesOf s.cfg.pw dist) s)
    | .raise c => .raise c
    | .fault f => .fault f
    | .hang => .hang

/-- BUILD (41_prefix_coder.md R200). -/
def execBuild (s : State) : Outcome := conclude .build s (runBuild s)

/-! ### ADDPAR and STRIPCHK -/

/-- ADDPAR's pseudocode (41_prefix_coder.md R218). -/
def runAddpar (s : State) : Attempt State :=
  if 21 < addparLen s then .raise .badOperand
  else
    let y := addParity (addparWord s)
    .ok { s with res0 := wordOf (valBits y), res1 := wordOf y.length }

/-- ADDPAR (41_prefix_coder.md R218). -/
def execAddpar (s : State) : Outcome := conclude .addpar s (runAddpar s)

/-- STRIPCHK's pseudocode (41_prefix_coder.md R219). -/
def runStripchk (s : State) : Attempt State :=
  if 32 < stripPl s then .raise .badOperand
  else if 32 < stripOl s then .raise .badOperand
  else
    let r := stripCheck (stripWord s) (stripOl s)
    .ok (reportParity r.2
      { s with res0 := wordOf (valBits r.1), res1 := wordOf r.1.length, res2 := wordOf r.2 })

/-- STRIPCHK (41_prefix_coder.md R219). -/
def execStripchk (s : State) : Outcome := conclude .stripchk s (runStripchk s)

/-! ### ENCODE -/

/-- The output of `n` symbols of SYMIN from entry `j` on, appended to `out`, checked in ascending
order (41_prefix_coder.md R220, R221). -/
def encodeFrom (s : State) : Nat → Nat → Bits → Attempt Bits
  | 0, _, out => .ok out
  | n + 1, j, out =>
    match syminEntry s j with
    | none => .fault (.unwrittenRead .symin j)
    | some t =>
      if s.cfg.maxSym ≤ t || !(codeEntry s t).valid then .raise .unknownSymbol
      else if s.cfg.bitbufBits < (out ++ parityCode (codeEntry s t)).length then .raise .capacity
      else encodeFrom s n (j + 1) (out ++ parityCode (codeEntry s t))

/-- ENCODE's pseudocode (41_prefix_coder.md R220). -/
def runEncode (s : State) : Attempt State :=
  if s.cfg.symbufDepth < s.syminLen.toNat then .raise .capacity
  else
    match encodeFrom s s.syminLen.toNat 0 [] with
    | .ok out => .ok { writeBitout out s with res0 := wordOf s.syminLen.toNat }
    | .raise c => .raise c
    | .fault f => .fault f
    | .hang => .hang

/-- ENCODE (41_prefix_coder.md R220). -/
def execEncode (s : State) : Outcome := conclude .encode s (runEncode s)

/-! ### DECODE -/

/-- The symbols whose parity codeword can match: VALID and not empty, below `n`
(41_prefix_coder.md R224). -/
def matchable (s : State) (n : Nat) : List (Nat × CodeEntry) :=
  ((List.range n).map fun t => (t, codeEntry s t)).filter fun c => c.2.valid && c.2.plen != 0

/-- `MatchSet`: the symbols whose parity codeword occurs at the cursor, where `rest` is what BITIN holds
from it on (41_prefix_coder.md R224). -/
def matchSet (codes : List (Nat × CodeEntry)) (rest : Bits) : List (Nat × CodeEntry) :=
  codes.filter fun c => (parityCode c.2).isPrefixOf rest

/-- The greatest PLEN of a match set (41_prefix_coder.md R223). -/
def longestLen (m : List (Nat × CodeEntry)) : Nat := (m.map fun c => c.2.plen).foldl max 0

/-- `Owner(M, len)`: of the members with `PLEN = len`, the one with the greatest RANK
(41_prefix_coder.md R225); of equal ranks, which no BUILD makes, the greatest symbol number.
DESIGN CHOICE, log entry 16. -/
def ownerOf (m : List (Nat × CodeEntry)) (len : Nat) : Option (Nat × CodeEntry) :=
  (m.filter fun c => c.2.plen == len).foldl
    (fun best c =>
      match best with
      | none => some c
      | some b => if b.2.rank ≤ c.2.rank then some c else some b) none

/-- A desync record over the one bit at `i` (41_prefix_coder.md R226). -/
def desyncRecord (i : Nat) : Record := { type := .desync, symbol := 0, start := i, stop := i + 1, w3 := 0 }

/-- The records and symbols of the stream `rest` at cursor `i`, with `ns` symbols before it: the longest
match owns the segment, and where nothing matches one bit is skipped (41_prefix_coder.md R223, R226,
R227). The fuel is the number of bits, since each turn advances the cursor (R228). -/
def decodeFrom (depth : Nat) (codes : List (Nat × CodeEntry)) :
    Nat → Nat → Nat → Bits → Attempt (List Record × List Nat)
  | 0, _, _, _ => .ok ([], [])
  | _ + 1, _, _, [] => .ok ([], [])
  | fuel + 1, i, ns, b :: rest =>
    let len := longestLen (matchSet codes (b :: rest))
    match ownerOf (matchSet codes (b :: rest)) len with
    | none =>
      match decodeFrom depth codes fuel (i + 1) ns rest with
      | .ok r => .ok (desyncRecord i :: r.1, r.2)
      | e => e
    | some c =>
      if ns = depth then .raise .capacity
      else
        let mask := (stripCheck ((b :: rest).take len) c.2.blen).2
        match decodeFrom depth codes fuel (i + len) (ns + 1) ((b :: rest).drop len) with
        | .ok r =>
          .ok ({ type := .sym, symbol := c.1, start := i, stop := i + len, w3 := mask } :: r.1, c.1 :: r.2)
        | e => e

/-- DECODE's writes, given its records and symbols (41_prefix_coder.md R223). -/
def writeDecoded (recs : List Record) (syms : List Nat) (s : State) : State :=
  let nd := recs.countP fun r => r.type == .desync
  let np := recs.countP fun r => r.type == .sym && r.w3 != 0
  { reportDecode nd np (writeRecords syms recs s) with
    res0 := wordOf syms.length
    res1 := wordOf recs.length }

/-- DECODE's pseudocode (41_prefix_coder.md R223); every position below BITIN_LEN is read
(95_test_vectors.md ST13). DEDUCED, safe, log entry 10. -/
def runDecode (s : State) : Attempt State :=
  if s.cfg.bitbufBits < s.bitinLen.toNat then .raise .capacity
  else
    match bufferBits s .bitin s.bitinLen.toNat with
    | .ok x =>
      match decodeFrom s.cfg.symbufDepth (matchable s s.cfg.maxSym) x.length 0 0 x with
      | .ok r => .ok (writeDecoded r.1 r.2 s)
      | .raise c => .raise c
      | .fault f => .fault f
      | .hang => .hang
    | .raise c => .raise c
    | .fault f => .fault f
    | .hang => .hang

/-- DECODE (41_prefix_coder.md R223). -/
def execDecode (s : State) : Outcome := conclude .decode s (runDecode s)

end Sys2Proof.Machine
end

