-- ==== Sys2Proof/Machine/Statistics.lean ====
section
/-! DEFINITION. The statistical tester: CHISQ and PERIOD (44_statistics.md). -/

namespace Sys2Proof.Machine

/-- `d = |N0 − N1|` (44_statistics.md R341). -/
def imbalance (x : Bits) : Nat :=
  let n1 := onesOf x
  let n0 := x.length - n1
  (n0 - n1) + (n1 - n0)

/-- The statistic in Q16.16, rounded down (44_statistics.md R342). -/
def chiStat (x : Bits) : Nat := imbalance x ^ 2 * 2 ^ 16 / x.length

/-- The exact pass decision (44_statistics.md R343). -/
def chiPass (crit : Nat) (x : Bits) : Bool := imbalance x ^ 2 * 2 ^ 16 < crit * x.length

/-- CHISQ's writes for the sequence `x` (44_statistics.md R344). -/
def writeChisq (x : Bits) (s : State) : State :=
  { s with
    res0 := wordOf (x.length - onesOf x)
    res1 := wordOf (onesOf x)
    res2 := wordOf (chiStat x)
    res3 := wordOf (chiPass s.cfg.chiCrit x).toNat }

/-- CHISQ's pseudocode (44_statistics.md R344). -/
def runChisq (b : BitSource) (s : State) : Attempt State :=
  if s.cfg.bitbufBits < sourceLen s b then .raise .capacity
  else if sourceLen s b = 0 then .raise .emptySequence
  else
    match bufferBits s (sourceMem b) (sourceLen s b) with
    | .ok x => .ok (writeChisq x s)
    | .raise c => .raise c
    | .fault f => .fault f
    | .hang => .hang

/-- CHISQ (44_statistics.md R344). -/
def execChisq (b : BitSource) (s : State) : Outcome := conclude (.chisq b) s (runChisq b s)

/-- `p` is a period of the finite sequence by full comparison: `b[i] = b[i + p]` for every `i` with
`i + p < N` (44_statistics.md R346). -/
def hasPeriod (x : Bits) (p : Nat) : Bool := x.take (x.length - p) == x.drop p

/-- `FindPeriod(b)`: the smallest candidate 1 .. `N div 2` that is a period, else the full length
(44_statistics.md R346). -/
def findPeriod (x : Bits) : Nat :=
  match (List.range' 1 (x.length / 2)).find? (fun p => hasPeriod x p) with
  | some p => p
  | none => x.length

/-- PERIOD's pseudocode (44_statistics.md R347). -/
def runPeriod (b : BitSource) (s : State) : Attempt State :=
  if s.cfg.bitbufBits < sourceLen s b then .raise .capacity
  else
    match bufferBits s (sourceMem b) (sourceLen s b) with
    | .ok x => .ok { s with res0 := wordOf (findPeriod x) }
    | .raise c => .raise c
    | .fault f => .fault f
    | .hang => .hang

/-- PERIOD (44_statistics.md R347). -/
def execPeriod (b : BitSource) (s : State) : Outcome := conclude (.period b) s (runPeriod b s)

end Sys2Proof.Machine
end

