-- ==== Sys2Proof/Machine/Dispatch.lean ====
section
/-! DEFINITION. The command that the completion step runs (30_encoding.md R133): one arm per
constructor of `Instr`, one direct call of its meaning. -/

namespace Sys2Proof.Machine

def exec (i : Instr) (s : State) : Host.Outcome State Fault Refusal :=
  match i with
  | .nop => Sys2Proof.Machine.execNop s
  | .build => Sys2Proof.Machine.execBuild s
  | .encode => Sys2Proof.Machine.execEncode s
  | .decode => Sys2Proof.Machine.execDecode s
  | .addpar => Sys2Proof.Machine.execAddpar s
  | .stripchk => Sys2Proof.Machine.execStripchk s
  | .henc => Sys2Proof.Machine.execHenc s
  | .hencs => Sys2Proof.Machine.execHencs s
  | .hdec => Sys2Proof.Machine.execHdec s
  | .hdecb => Sys2Proof.Machine.execHdecb s
  | .lstep u => Sys2Proof.Machine.execLstep u s
  | .lgen u => Sys2Proof.Machine.execLgen u s
  | .sggen => Sys2Proof.Machine.execSggen s
  | .chisq b => Sys2Proof.Machine.execChisq b s
  | .period b => Sys2Proof.Machine.execPeriod b s
  | .bcopy => Sys2Proof.Machine.execBcopy s

end Sys2Proof.Machine
end

