-- ==== Sys2Proof/Machine/HostPort.lean ====
section
/-! DEFINITION. The host port (20_memory.md R100 to R117): reads and writes of registers and memory
words, the rule for accesses while a command is in flight, and the accesses that are refused. -/

namespace Sys2Proof.Machine

/-- `CAP0`: PW at [4:0], TAP_PHASE at [8] (10_state.md R66). -/
def cap0 (c : Config) : Word :=
  wordOf (c.pw % 32 + 2 ^ 8 * (match c.tapPhase with | .pre => 0 | .post => 1))

/-- `CAP_HCOL`: `HAM_COLS[j]` at [3j−1:3j−3] (10_state.md R66). -/
def capHcol (c : Config) : Word :=
  wordOf (c.hamCols.toList.foldr (fun col v => col.toNat + 8 * v) 0)

/-- `CAP_HDAT`: `HAM_DATA_POS[k]` at [3k+2:3k] (10_state.md R66). -/
def capHdat (c : Config) : Word :=
  wordOf (c.hamDataPos.toList.foldr (fun pos v => pos % 8 + 8 * v) 0)

/-- The value a register reads as; reserved bits read 0 (10_state.md R32 to R66). -/
def readReg (s : State) : Reg → Word
  | .id => 0x53480007
  | .ctrl => wordOf s.ie.toNat
  | .status => statusWord s
  | .cmd => s.cmd
  | .arg0 => s.arg0
  | .arg1 => s.arg1
  | .res0 => s.res0
  | .res1 => s.res1
  | .res2 => s.res2
  | .res3 => s.res3
  | .distCount => s.distCount.setWidth 32
  | .syminLen => s.syminLen.setWidth 32
  | .symoutLen => s.symoutLen.setWidth 32
  | .bitinLen => s.bitinLen.setWidth 32
  | .bitoutLen => s.bitoutLen.setWidth 32
  | .rptLen => s.rptLen.setWidth 32
  | .codeCount => s.codeCount.setWidth 32
  | .laLen => s.lfsrA.len.setWidth 32
  | .laTaps => s.lfsrA.taps
  | .laState => s.lfsrA.state
  | .lsLen => s.lfsrS.len.setWidth 32
  | .lsTaps => s.lfsrS.taps
  | .lsState => s.lfsrS.state
  | .desyncCnt => s.desyncCnt.setWidth 32
  | .perrCnt => s.perrCnt.setWidth 32
  | .hcorrCnt => s.hcorrCnt.setWidth 32
  | .capHcol => capHcol s.cfg
  | .capHdat => capHdat s.cfg
  | .capChi => wordOf s.cfg.chiCrit
  | .cap0 => cap0 s.cfg
  | .cap1 => wordOf s.cfg.maxSym
  | .cap2 => wordOf s.cfg.symbufDepth
  | .cap3 => wordOf s.cfg.bitbufBits

/-- A register written while IDLE: a field narrower than 32 bits stores its own bits of the word, a
read-only register ignores it, and CMD issues (10_state.md R45 to R66). CTRL and STATUS have their own
writes. -/
def writeReg (v : Word) (s : State) : Reg → State
  | .id => s
  | .ctrl => s
  | .status => s
  | .cmd => issue v s
  | .arg0 => { s with arg0 := v }
  | .arg1 => { s with arg1 := v }
  | .res0 => s
  | .res1 => s
  | .res2 => s
  | .res3 => s
  | .distCount => { s with distCount := v.setWidth 11 }
  | .syminLen => { s with syminLen := v.setWidth 14 }
  | .symoutLen => s
  | .bitinLen => { s with bitinLen := v.setWidth 15 }
  | .bitoutLen => s
  | .rptLen => s
  | .codeCount => s
  | .laLen => { s with lfsrA := { s.lfsrA with len := v.setWidth 6 } }
  | .laTaps => { s with lfsrA := { s.lfsrA with taps := v } }
  | .laState => { s with lfsrA := { s.lfsrA with state := v } }
  | .lsLen => { s with lfsrS := { s.lfsrS with len := v.setWidth 6 } }
  | .lsTaps => { s with lfsrS := { s.lfsrS with taps := v } }
  | .lsState => { s with lfsrS := { s.lfsrS with state := v } }
  | .desyncCnt => s
  | .perrCnt => s
  | .hcorrCnt => s
  | .capHcol => s
  | .capHdat => s
  | .capChi => s
  | .cap0 => s
  | .cap1 => s
  | .cap2 => s
  | .cap3 => s

/-- The bits of a host-writable memory's word that its entry stores (10_state.md R71, R80, R84); the
other memories ignore a host write (R70, R79). -/
def writeMask : MemName → Option Word
  | .dist => some 0x003FFFFF
  | .ctab => none
  | .symin => some 0x0000FFFF
  | .symout => none
  | .bitin => some 0xFFFFFFFF
  | .bitout => none
  | .rpt => none

/-- A memory word written while IDLE (10_state.md R70). -/
def writeMem (v : Word) (s : State) (m : MemName) (e k : Nat) : State :=
  match writeMask m with
  | some mask => { s with mem := storeWord s.mem (wordOffset m e k) (v &&& mask) }
  | none => s

/-- A host write to CTRL: bit 1 resets the block, whatever SEQ_STATE is; otherwise IE is written
(10_state.md R33, R35; 70_reset_and_hazards.md R503). -/
def writeCtrl (v : Word) (s : State) : State :=
  if v.getLsbD 1 then resetBlock s else { s with ie := v.getLsbD 0 }

/-- An aligned 32-bit host write: CTRL and STATUS are written in either SEQ_STATE; every other write
is dropped while BUSY and sets WBUSY (10_state.md R64, 20_memory.md R103). -/
def hostWrite (t : Target) (v : Word) (s : State) : State :=
  match t with
  | .reg .ctrl => writeCtrl v s
  | .reg .status => writeStatus v s
  | .reg r => if isBusy s then { s with wbusy := true } else writeReg v s r
  | .mem m e k => if isBusy s then { s with wbusy := true } else writeMem v s m e k
  | .reserved => if isBusy s then { s with wbusy := true } else s

/-- A read that returns `v` (20_memory.md R108: it changes nothing of the block). -/
def returnData (v : Word) (s : State) : State := { s with hostData := v }

/-- A read whose bits under `mask` are unspecified and whose other bits are those of `v`: a free draw
(93_implementation_defined.md U2, U3). -/
def drawData (v mask : Word) (s : State) : State :=
  { s with
    hostData := (v &&& ~~~mask) ||| (Config.freeWord s.freeCount &&& mask)
    freeCount := s.freeCount + 1 }

/-- The bits of a register that are not marked reserved; the others read 0 whatever the register holds
(10_state.md R48 to R63). -/
def regMask : Reg → Word
  | .id => 0xFFFFFFFF
  | .ctrl => 0x00000001
  | .status => 0x0000FF7F
  | .cmd => 0xFFFFFFFF
  | .arg0 => 0xFFFFFFFF
  | .arg1 => 0xFFFFFFFF
  | .res0 => 0xFFFFFFFF
  | .res1 => 0xFFFFFFFF
  | .res2 => 0xFFFFFFFF
  | .res3 => 0xFFFFFFFF
  | .distCount => 0x000007FF
  | .syminLen => 0x00003FFF
  | .symoutLen => 0x00003FFF
  | .bitinLen => 0x00007FFF
  | .bitoutLen => 0x00007FFF
  | .rptLen => 0x00007FFF
  | .codeCount => 0x000007FF
  | .laLen => 0x0000003F
  | .laTaps => 0xFFFFFFFF
  | .laState => 0xFFFFFFFF
  | .lsLen => 0x0000003F
  | .lsTaps => 0xFFFFFFFF
  | .lsState => 0xFFFFFFFF
  | .desyncCnt => 0x00007FFF
  | .perrCnt => 0x00007FFF
  | .hcorrCnt => 0x00007FFF
  | .capHcol => 0xFFFFFFFF
  | .capHdat => 0xFFFFFFFF
  | .capChi => 0xFFFFFFFF
  | .cap0 => 0xFFFFFFFF
  | .cap1 => 0xFFFFFFFF
  | .cap2 => 0xFFFFFFFF
  | .cap3 => 0xFFFFFFFF

/-- The bits of a memory word that are not marked reserved: DIST and SYMIN store a field and their
other bits read 0 (10_state.md R71, R80). The other memories' words may be unspecified whole. -/
def memMask : MemName → Word
  | .dist => 0x003FFFFF
  | .ctab => 0xFFFFFFFF
  | .symin => 0x0000FFFF
  | .symout => 0xFFFFFFFF
  | .bitin => 0xFFFFFFFF
  | .bitout => 0xFFFFFFFF
  | .rpt => 0xFFFFFFFF

/-- A memory word read: bits that nothing has stored are unspecified (10_state.md R93); the bits that are
stored or reserved keep their values. DEDUCED, unsafe, log entry 19. -/
def readMem (s : State) (m : MemName) (e k : Nat) : State :=
  let w := readWord s.mem (wordOffset m e k)
  if w.undef = 0 then returnData w.value s else drawData w.value (w.undef &&& memMask m) s

/-- An aligned 32-bit host read (20_memory.md R100, R103): what the command in flight may write is
unspecified (R113); anything else reads its current value. Log entry 2. -/
def hostRead (t : Target) (s : State) : State :=
  match t with
  | .reg r =>
    if inFlightWrites s t then drawData 0 (regMask r) s else returnData (readReg s r) s
  | .mem m e k => if inFlightWrites s t then drawData 0 (memMask m) s else readMem s m e k
  | .reserved => returnData 0 s

/-- The offset of a bus address in the block's window; none outside it (20_memory.md R100,
70_reset_and_hazards.md R516). -/
def windowOffset (c : Config) (addr : Nat) : Option Nat :=
  if c.blockBase ≤ addr ∧ addr < c.blockBase + windowSize then some (addr - c.blockBase) else none

/-- An access of the host port as it is admitted: 32 bits wide, aligned, inside the window
(20_memory.md R102, 70_reset_and_hazards.md R516); `f` performs it. An access that is not so admitted
is refused: DEDUCED, safe, log entry 15. -/
def performAt (addr bytes : Nat) (f : Target → State → State) (s : State) : Outcome :=
  match windowOffset s.cfg addr with
  | none => .refused (.outsideWindow addr)
  | some a =>
    if bytes ≠ 4 then .refused (.narrowAccess bytes)
    else if a % 4 ≠ 0 then .refused (.misalignedAccess addr)
    else .next (f (locate s.cfg a) s)

/-- One access of the host (20_memory.md R100). -/
def access : Access → State → Outcome
  | .read addr bytes, s => performAt addr bytes hostRead s
  | .write addr bytes v, s => performAt addr bytes (fun t => hostWrite t v) s

end Sys2Proof.Machine
end

