-- ==== Sys2Proof/Machine/Step.lean ====
section
/-! DEFINITION. One step of the block and its host (00_scope.md R3): the next move of the schedule, or,
with none left, SEQ's completion step if a command is in flight. -/

namespace Sys2Proof.Machine

/-- SEQ's step: the completion step while BUSY (30_encoding.md R133, R134), and none while IDLE
(log entries 5 and 6). -/
def seqStep (s : State) : Host.Outcome State Fault Refusal :=
  match s.seqState with
  | .idle => .next s
  | .busy =>
    match decodeWord s.cmd with
    | .ok i => exec i s
    | .error _ => .next (failIllegal s)

/-- One poll of `WAIT` (30_encoding.md R152): STATUS is read; while BUSY, SEQ gets its turn, since an
enabled completion step eventually fires (70_reset_and_hazards.md R515), and the poll is repeated. -/
def poll (s : State) : State :=
  let t := hostRead (.reg .status) s
  if isBusy s then { t with schedule := .seq :: .wait :: s.schedule } else t

/-- One move (00_scope.md R3). -/
def perform (m : Move) (s : State) : Host.Outcome State Fault Refusal :=
  match m with
  | .host a => access a s
  | .wait => .next (poll s)
  | .seq => seqStep s
  | .powerOn => .next (resetBlock s)

/-- One step: the schedule's next move, and with none left, SEQ's. DESIGN CHOICE, unsafe, log entry 5. -/
def step (s : State) : Host.Outcome State Fault Refusal :=
  match s.schedule with
  | [] => seqStep s
  | m :: ms => perform m { s with schedule := ms }

/-- The state with the command word `w` in flight and SEQ next to move, so that the next step runs it: an
accepted CMD write of `w` (30_encoding.md R132) with no host move pending. Log entry 6. -/
def State.withFetchWord (s : State) (nbits w : Nat) : State :=
  { issue (wordOf (w % 2 ^ nbits)) s with schedule := [] }

end Sys2Proof.Machine
end

