-- ==== Sys2Proof/Machine/HostNotation.lean ====
section
/-! DEFINITION. The host notation (30_encoding.md R152 to R154): what each line of a host program has
the host do. A program is run by putting its moves in the schedule. -/

namespace Sys2Proof.Machine

/-- A line of a host program (30_encoding.md R152, R154). `ISSUE` and `EXEC` take the command word
`enc(cmd)` (R153); a `RD` line's name is the host's own and is left out. `turn` is the model's own and no line of the
spec: it says where SEQ moves between two lines. DESIGN CHOICE, unsafe, log entry 5. -/
inductive HostLine where
  | wr (t : Target) (v : Word)
  | rd (t : Target)
  | issue (w : Word)
  | wait
  | exec (w : Word)
  | wrdist (ps : List Nat)
  | wrsyms (xs : List Nat)
  | wrbits (x : Bits)
  | lfsrcfg (u : LfsrUnit) (n : Nat) (taps state : Word)
  | turn
  deriving DecidableEq, Repr

/-- `WR target, v` (30_encoding.md R152). -/
def wrMove (c : Config) (t : Target) (v : Word) : List Move :=
  match targetOffset t with
  | some a => [.host (.write (c.blockBase + a) 4 v)]
  | none => []

/-- `RD target` (30_encoding.md R152). -/
def rdMove (c : Config) (t : Target) : List Move :=
  match targetOffset t with
  | some a => [.host (.read (c.blockBase + a) 4)]
  | none => []

/-- The words of a bit string from word `q` on, the last one padded with 0 bits on the right, each
written to BITIN (30_encoding.md R154). The fuel is the number of bits. -/
def wrbitsMoves (c : Config) : Nat → Nat → Bits → List Move
  | 0, _, _ => []
  | _ + 1, _, [] => []
  | fuel + 1, q, b :: x =>
    let chunk := (b :: x).take 32
    wrMove c (.mem .bitin q 0) (wordOf (valBits chunk * 2 ^ (32 - chunk.length))) ++
      wrbitsMoves c fuel (q + 1) ((b :: x).drop 32)

/-- The moves of a line (30_encoding.md R152 to R154). SEQ moves in a `WAIT` and at a `turn` only. -/
def lineMoves (c : Config) : HostLine → List Move
  | .wr t v => wrMove c t v
  | .rd t => rdMove c t
  | .issue w => wrMove c (.reg .cmd) w
  | .wait => [.wait]
  | .exec w => wrMove c (.reg .cmd) w ++ [.wait]
  | .wrdist ps =>
    (ps.mapIdx fun i p => wrMove c (.mem .dist i 0) (wordOf p)).flatten ++
      wrMove c (.reg .distCount) (wordOf ps.length)
  | .wrsyms xs =>
    (xs.mapIdx fun j x => wrMove c (.mem .symin j 0) (wordOf x)).flatten ++
      wrMove c (.reg .syminLen) (wordOf xs.length)
  | .wrbits x => wrbitsMoves c x.length 0 x ++ wrMove c (.reg .bitinLen) (wordOf x.length)
  | .lfsrcfg .a n taps state =>
    wrMove c (.reg .laLen) (wordOf n) ++ wrMove c (.reg .laTaps) taps ++ wrMove c (.reg .laState) state
  | .lfsrcfg .s n taps state =>
    wrMove c (.reg .lsLen) (wordOf n) ++ wrMove c (.reg .lsTaps) taps ++ wrMove c (.reg .lsState) state
  | .turn => [.seq]

/-- The moves of a host program. The spec leaves open whether SEQ completes a command before or after the
lines that follow its `ISSUE` without a `WAIT` (70_reset_and_hazards.md R515, 95_test_vectors.md P6). In
the model it completes after them, at the next `WAIT` or at the end, unless a `turn` among them has it
complete earlier; each order the spec allows is one placing of turns (with a pseudo-instruction spelled out
as its `WR` lines where SEQ moves between them). DESIGN CHOICE, unsafe, log entry 5. -/
def programMoves (c : Config) (ls : List HostLine) : List Move := ls.flatMap (lineMoves c)

/-- The state with a host program to run (30_encoding.md R152), in the order of SEQ's moves that its `turn`
lines fix (log entry 5). -/
def withProgram (ls : List HostLine) (s : State) : State :=
  { s with schedule := s.schedule ++ programMoves s.cfg ls }

end Sys2Proof.Machine
end

