-- ==== Sys2Proof/Safety.lean ====
section
/-! DEFINITION. What counts as a safe step and as the end of a run (70_reset_and_hazards.md R509 to
R517), the invariant of the block, and the other terms the statements use: what a buffer holds, the
closed forms of the Shannon builder and of the parity codec, and what a report record must say. -/

namespace Sys2Proof.Safety

open Sys2Proof.Machine

/-! ### Runs -/

/-- The step goes on: no fault is recorded and no access is refused (70_reset_and_hazards.md R517). -/
abbrev Continues (o : Machine.Outcome) : Prop := ∃ t, o = .next t

/-- The run is over: the host has made its last access and no command is in flight
(70_reset_and_hazards.md R517). -/
abbrev Ended (s : State) : Prop := s.schedule = [] ∧ s.seqState = .idle

/-- Every position of SYMIN below SYMIN_LEN is written (70_reset_and_hazards.md R508). -/
abbrev SyminWritten (s : State) : Prop := ∀ j < s.syminLen.toNat, (syminEntry s j).isSome

/-- Every entry of DIST below DIST_COUNT is written (70_reset_and_hazards.md R508). -/
abbrev DistWritten (s : State) : Prop := ∀ i < s.distCount.toNat, (distEntry s i).isSome

/-- Every position of the bit buffer `m` below `n` is written (70_reset_and_hazards.md R508). -/
abbrev BitsWritten (s : State) (m : MemName) (n : Nat) : Prop :=
  ∀ k < n, (readBit s.mem (windowBase m) k).isSome

/-- The host has written every input position that a command reads (70_reset_and_hazards.md R508), and
so has a command every position of BITOUT that one reads (45_control.md R372). -/
abbrev InputsWritten (s : State) : Instr → Prop
  | .nop => True
  | .build => DistWritten s
  | .encode => SyminWritten s
  | .decode => BitsWritten s .bitin s.bitinLen.toNat
  | .addpar => True
  | .stripchk => True
  | .henc => True
  | .hencs => SyminWritten s
  | .hdec => BitsWritten s .bitin s.bitinLen.toNat
  | .hdecb => True
  | .lstep _ => True
  | .lgen _ => True
  | .sggen => True
  | .chisq b => BitsWritten s (sourceMem b) (sourceLen s b)
  | .period b => BitsWritten s (sourceMem b) (sourceLen s b)
  | .bcopy => BitsWritten s .bitout s.bitoutLen.toNat

/-! ### One move -/

/-- One step whose move is `m`, the rest of the schedule waiting. -/
def does (m : Move) (s : State) : Machine.Outcome := step { s with schedule := m :: s.schedule }

/-- The host writes `v` at offset `a` of the block's window (20_memory.md R100). -/
def hostWrites (a : Nat) (v : Word) (s : State) : Machine.Outcome :=
  does (.host (.write (s.cfg.blockBase + a) 4 v)) s

/-- The host reads at offset `a` of the block's window (20_memory.md R100). -/
def hostReads (a : Nat) (s : State) : Machine.Outcome :=
  does (.host (.read (s.cfg.blockBase + a) 4)) s

/-! ### What a host read returns -/

/-- How many of RES0 to RES3 the command of an opcode writes, and a failure sets to 0 (30_encoding.md
R146, 60_exceptions.md R403 item 1); 0 for an opcode that names no command. -/
def resColumn (opc : Nat) : Nat :=
  match opc with
  | 0x01 => 4
  | 0x02 => 1
  | 0x03 => 2
  | 0x04 => 2
  | 0x05 => 3
  | 0x10 => 1
  | 0x11 => 1
  | 0x12 => 1
  | 0x13 => 4
  | 0x20 => 1
  | 0x21 => 1
  | 0x22 => 1
  | 0x30 => 4
  | 0x31 => 1
  | _ => 0

/-- The offsets of the registers in a command's Writes list, STATUS apart (the "Writes" lines of the
commands' rules; 30_encoding.md R146). -/
def writtenOffsets : Instr → List Nat
  | .nop => []
  | .build => [0x020, 0x024, 0x028, 0x02C, 0x048]
  | .encode => [0x020, 0x040]
  | .decode => [0x020, 0x024, 0x038, 0x044, 0x070, 0x074]
  | .addpar => [0x020, 0x024]
  | .stripchk => [0x020, 0x024, 0x028]
  | .henc => [0x020]
  | .hencs => [0x020, 0x040]
  | .hdec => [0x020, 0x038, 0x044, 0x078]
  | .hdecb => [0x020, 0x024, 0x028, 0x02C]
  | .lstep .a => [0x020, 0x058]
  | .lstep .s => [0x020, 0x068]
  | .lgen .a => [0x020, 0x040, 0x058]
  | .lgen .s => [0x020, 0x040, 0x068]
  | .sggen => [0x020, 0x040, 0x058, 0x068]
  | .chisq _ => [0x020, 0x024, 0x028, 0x02C]
  | .period _ => [0x020]
  | .bcopy => [0x03C]

/-- The memories that a command writes (20_memory.md R118). -/
def writtenMems : Instr → List MemName
  | .nop => []
  | .build => [.ctab]
  | .encode => [.bitout]
  | .decode => [.symout, .rpt]
  | .addpar => []
  | .stripchk => []
  | .henc => []
  | .hencs => [.bitout]
  | .hdec => [.symout, .rpt]
  | .hdecb => []
  | .lstep _ => []
  | .lgen _ => [.bitout]
  | .sggen => [.bitout]
  | .chisq _ => []
  | .period _ => []
  | .bcopy => [.bitin]

/-- The offsets of the registers that the word in CMD may write once it is in flight (20_memory.md R113);
of a word that selects no command, the RES registers that its failure sets to 0 (log entry 11). -/
def flightOffsets (s : State) : List Nat :=
  match decodeWord s.cmd with
  | .ok i => writtenOffsets i
  | .error _ => [0x020, 0x024, 0x028, 0x02C].take (resColumn (s.cmd.toNat % 256))

/-- The memories that the word in CMD may write once it is in flight (20_memory.md R113, R118). -/
def flightMems (s : State) : List MemName :=
  match decodeWord s.cmd with
  | .ok i => writtenMems i
  | .error _ => []

/-- The number of bytes of the whole words that hold `n` bits. -/
abbrev wordBytes (n : Nat) : Nat := 4 * ((n + 31) / 32)

/-- The command in CMD may write the word at offset `a` of memory `m` once it is in flight (20_memory.md
R113); of BITIN, BCOPY writes the words that hold a position below BITOUT_LEN (log entry 12). -/
abbrev FlightWrites (s : State) (m : MemName) (a : Nat) : Prop :=
  m ∈ flightMems s ∧ (m = .bitin → a < 0x18000 + wordBytes s.bitoutLen.toNat)

/-- Each memory with its offset in the window and the bytes of its entries (10_state.md R70). -/
def memoryMap (c : Config) : List (MemName × Nat × Nat) :=
  [(.dist, 0x01000, 4 * c.maxSym), (.ctab, 0x02000, 16 * c.maxSym), (.symin, 0x08000, 4 * c.symbufDepth),
    (.symout, 0x10000, 4 * c.symbufDepth), (.bitin, 0x18000, 4 * (c.bitbufBits / 32)),
    (.bitout, 0x1A000, 4 * (c.bitbufBits / 32)), (.rpt, 0x40000, 16 * c.bitbufBits)]

/-- A word of an entry of memory `m` stands at offset `a` (10_state.md R70, R91). -/
abbrev WordAt (c : Config) (m : MemName) (a : Nat) : Prop :=
  a % 4 = 0 ∧ ∃ p ∈ memoryMap c, p.1 = m ∧ p.2.1 ≤ a ∧ a < p.2.1 + p.2.2

/-- The bits of a memory's word that are not marked reserved in every word of it: DIST and SYMIN hold one
field (10_state.md R71, R80). -/
def fieldBits : MemName → Nat
  | .dist => 22
  | .ctab => 32
  | .symin => 16
  | .symout => 32
  | .bitin => 32
  | .bitout => 32
  | .rpt => 32

/-- A host read at offset `a` of memory `m` returns what memory holds there (20_memory.md R110, R112). In a
word that holds bits nothing has stored it makes one free draw and returns its bits for them (10_state.md
R93), reserved ones apart (log entries 2 and 19). -/
def ReadsMemory (s : State) (m : MemName) (a : Nat) : Prop :=
  let w := readWord s.mem a
  ∃ d : Word,
    hostReads a s = .next { s with
      hostData := d
      freeCount := if w.undef = 0 then s.freeCount else s.freeCount + 1 } ∧
    ∀ k < 32, d.getLsbD k =
      if w.undef.getLsbD k && decide (k < fieldBits m) then (Config.freeWord s.freeCount).getLsbD k
      else w.value.getLsbD k

/-! ### What memory holds -/

/-- The bit buffer `m` holds `x` from position 0 on. -/
abbrev HoldsBits (M : Memory) (m : MemName) (x : Bits) : Prop :=
  ∀ k < x.length, readBit M (windowBase m) k = x[k]?

/-- The words `ws` stand from offset `a` on, every bit written. -/
abbrev HoldsWords (M : Memory) (a : Nat) (ws : List Word) : Prop :=
  ∀ k < ws.length, readWord M (a + 4 * k) = { value := ws.getD k 0, undef := 0 }

/-- Every byte reads in `M'` as in `M`. -/
abbrev SameMemory (M M' : Memory) : Prop := ∀ a, readByte M' a = readByte M a

/-- Every byte outside the `n` bytes from offset `a` on reads in `M'` as in `M`. -/
abbrev SameOutside (M M' : Memory) (a n : Nat) : Prop :=
  ∀ b, b < a ∨ a + n ≤ b → readByte M' b = readByte M b

/-- The command that leads from `s` to `t` writes the bit string `out` to BITOUT (10_state.md R85):
BITOUT_LEN is its length, its bits stand in order, the tail of the last word is 0, and no other byte of
memory changes. -/
abbrev WritesBitout (s t : State) (out : Bits) : Prop :=
  t.bitoutLen.toNat = out.length ∧ HoldsBits t.mem .bitout out ∧
    (∀ k, out.length ≤ k → k < 8 * wordBytes out.length →
      readBit t.mem (windowBase .bitout) k = some false) ∧
    SameOutside s.mem t.mem (windowBase .bitout) (wordBytes out.length)

/-- The command that leads from `s` to `t` writes these symbols to SYMOUT and these records to RPT
(10_state.md R81, R86), and no other byte of memory changes. -/
abbrev WritesRecords (s t : State) (syms : List Nat) (recs : List Record) : Prop :=
  t.symoutLen.toNat = syms.length ∧ t.rptLen.toNat = recs.length ∧
    HoldsWords t.mem (windowBase .symout) (syms.map wordOf) ∧
    HoldsWords t.mem (windowBase .rpt) (recs.flatMap recordWords) ∧
    ∀ b, (b < windowBase .symout ∨ windowBase .symout + 4 * syms.length ≤ b) →
      (b < windowBase .rpt ∨ windowBase .rpt + 16 * recs.length ≤ b) →
      readByte t.mem b = readByte s.mem b

/-- The bit at position `k` of the bit buffer `m`. -/
def bitAt (s : State) (m : MemName) (k : Nat) : Bool := (readBit s.mem (windowBase m) k).getD false

/-- The first `n` bits of the bit buffer `m`. -/
def bufferOf (s : State) (m : MemName) (n : Nat) : Bits := (List.range n).map (bitAt s m)

/-- `SYMIN[j]` (10_state.md R80). -/
def symAt (s : State) (j : Nat) : Nat := (syminEntry s j).getD 0

/-- `P_i`, the numerator at `DIST[i]` (10_state.md R71). -/
def numAt (s : State) (i : Nat) : Nat := (distEntry s i).getD 0

/-- The parity codeword of the code table's entry for symbol `t` (41_prefix_coder.md R213). -/
def codeOf (s : State) (t : Nat) : Bits := parityCode (codeEntry s t)

/-- The low `n` bits of a register as a bit string, most significant first (20_memory.md R106). -/
def wordBits (w : Word) (n : Nat) : Bits := (List.range n).map fun j => w.getLsbD (n - 1 - j)

/-! ### The builder and the parity codec in closed form -/

/-- Entry `j` stands before entry `i` in the builder's order (41_prefix_coder.md R203). -/
def before (P : Nat → Nat) (i j : Nat) : Bool := P i < P j || (P j == P i && j < i)

/-- `RANK` of entry `i` of `n`: how many stand before it (41_prefix_coder.md R203, R204). -/
def rankIn (P : Nat → Nat) (n i : Nat) : Nat := (List.range n).countP (before P i)

/-- `F` of entry `i` of `n`: the sum of the numerators before it (41_prefix_coder.md R205). -/
def sumBefore (P : Nat → Nat) (n i : Nat) : Nat := (((List.range n).filter (before P i)).map P).sum

/-- `CodeLen(P)` (41_prefix_coder.md R206). -/
def lenOf (pw p : Nat) : Nat := pw + 1 - bitlen p

/-- The base codeword of entry `i` of `n`: the first bits of the binary expansion of `F`, in the closed
form of 41_prefix_coder.md R208. -/
def baseOf (pw : Nat) (P : Nat → Nat) (n i : Nat) : Bits :=
  if sumBefore P n i < 2 ^ pw then
    strBits (lenOf pw (P i)) (sumBefore P n i / 2 ^ (pw - lenOf pw (P i)))
  else List.replicate (lenOf pw (P i)) true

/-- The blocks of `n` positions of `x`, the last one shorter (41_prefix_coder.md R209, R216). -/
def chunksOf (n : Nat) (x : Bits) : List Bits :=
  (List.range ((x.length + n - 1) / n)).map fun k => (x.drop (n * k)).take n

/-- The parity bit of a block (41_prefix_coder.md R209). -/
def oddOnes (x : Bits) : Bool := decide (x.count true % 2 = 1)

/-- The parity codeword of `x`, block by block (41_prefix_coder.md R209). -/
def parityOfBlocks (x : Bits) : Bits :=
  (chunksOf (if x.length % 2 = 0 then 2 else 3) x).flatMap fun b => b ++ [oddOnes b]

/-- The chunks that StripCheck takes `y` apart into, for an original length `ol` (41_prefix_coder.md
R216). -/
def stripChunksOf (y : Bits) (ol : Nat) : List Bits := chunksOf (if ol % 2 = 0 then 3 else 4) y

/-- The number of positions at which two bit strings differ. -/
def distance (x y : Bits) : Nat := (List.zipWith (fun a b => a != b) x y).count true

/-! ### What DECODE's records must say -/

/-- Symbol `t` is in `MatchSet(i)` of the stream `x` (41_prefix_coder.md R224). -/
def MatchAt (s : State) (x : Bits) (i t : Nat) : Prop :=
  t < s.cfg.maxSym ∧ (codeEntry s t).valid = true ∧ 0 < (codeEntry s t).plen ∧
    i + (codeEntry s t).plen ≤ x.length ∧ (x.drop i).take (codeEntry s t).plen = codeOf s t

/-- The record is the one that DECODE of `x` writes at its START: a desync record where nothing matches
(41_prefix_coder.md R226), and otherwise the record of the longest match's owner (R225, R227). -/
def RecordOk (s : State) (x : Bits) (r : Record) : Prop :=
  match r.type with
  | .desync => r.symbol = 0 ∧ r.stop = r.start + 1 ∧ r.w3 = 0 ∧ ∀ t, ¬ MatchAt s x r.start t
  | .sym =>
    MatchAt s x r.start r.symbol ∧ r.stop = r.start + (codeEntry s r.symbol).plen ∧
      (∀ t, MatchAt s x r.start t → (codeEntry s t).plen ≤ (codeEntry s r.symbol).plen ∧
        ((codeEntry s t).plen = (codeEntry s r.symbol).plen →
          (codeEntry s t).rank ≤ (codeEntry s r.symbol).rank)) ∧
      r.w3 = (stripCheck ((x.drop r.start).take (codeEntry s r.symbol).plen)
        (codeEntry s r.symbol).blen).2
  | .ham => False

/-- The records cover the positions from `i` to `n` in order, without gap or overlap (41_prefix_coder.md
R228). -/
def Tiles (n : Nat) : Nat → List Record → Prop
  | i, [] => i = n
  | i, r :: rs => r.start = i ∧ i < r.stop ∧ Tiles n r.stop rs

/-- The symbols of the SYM records, in order (41_prefix_coder.md R227). -/
def symbolsOf (recs : List Record) : List Nat :=
  (recs.filter fun r => r.type == .sym).map fun r => r.symbol

/-! ### The LFSR units -/

/-- The register of a unit after `k` steps (43_lfsr.md R302, R303). -/
def lfsrAfter (ph : TapPhase) (l : Lfsr) : Nat → Nat
  | 0 => l.state.toNat
  | k + 1 => (lfsrStep ph l.len.toNat l.taps.toNat (lfsrAfter ph l k)).2

/-- The `k`-th bit that a unit outputs, `b_k` of 43_lfsr.md R309. -/
def lfsrBit (ph : TapPhase) (l : Lfsr) (k : Nat) : Bool :=
  (lfsrStep ph l.len.toNat l.taps.toNat (lfsrAfter ph l k)).1

/-- How many of a unit's first `k` output bits are 1. -/
def onesBefore (ph : TapPhase) (l : Lfsr) (k : Nat) : Nat := (List.range k).countP (lfsrBit ph l)

/-- The bits of A at the internal steps below `k` at which S outputs 1 (43_lfsr.md R308). -/
def decimated (ph : TapPhase) (a s : Lfsr) (k : Nat) : Bits :=
  ((List.range k).filter (lfsrBit ph s)).map (lfsrBit ph a)

/-- The state with the registers of unit `u` set to `l`. -/
def withUnit (u : LfsrUnit) (l : Lfsr) (s : State) : State :=
  match u with
  | .a => { s with lfsrA := l }
  | .s => { s with lfsrS := l }

/-! ### The (7,4) code -/

/-- `Syn(c)`: the XOR of the columns of the positions at which `c` holds 1 (42_hamming.md R260). -/
def synOf (c : Config) (x : Bits) : BitVec 3 :=
  ((List.range 7).filter fun j => x.getD j false).foldl (fun a j => a ^^^ c.hamCol (j + 1)) 0

/-- The word with the bit at position `e`, 1..7, flipped. -/
def flipAt (e : Nat) (x : Bits) : Bits := x.set (e - 1) (!x.getD (e - 1) false)

/-! ### Commands one after another -/

/-- The command, issued and run to its completion (30_encoding.md R132, R133). -/
def run (i : Instr) (s : State) : Machine.Outcome := exec i (issue (encode i) s)

/-! ### Failures -/

/-- The error codes that a command can report (60_exceptions.md R405), apart from ILLEGAL_COMMAND, which
the decoder reports. -/
def errorCodes : Instr → List Nat
  | .nop => []
  | .build => [9, 10]
  | .encode => [1, 10]
  | .decode => [10]
  | .addpar => [13]
  | .stripchk => [13]
  | .henc => [2]
  | .hencs => [2, 10]
  | .hdec => [4, 10]
  | .hdecb => []
  | .lstep _ => [11]
  | .lgen _ => [10, 11]
  | .sggen => [10, 11]
  | .chisq _ => [10, 12]
  | .period _ => [10]
  | .bcopy => []

/-! ### The invariant -/

/-- The code table is one that BUILD makes: as many valid entries as CODE_COUNT says (10_state.md R54),
an entry without a code reads 0 (R78), and the parity codeword of one with a code is AddParity of its
base codeword of at most PW bits (R74 to R76, 41_prefix_coder.md R200). -/
abbrev TableOk (s : State) : Prop :=
  s.codeCount.toNat = (List.range s.cfg.maxSym).countP (fun t => (codeEntry s t).valid) ∧
    ∀ t < s.cfg.maxSym,
      ((codeEntry s t).valid = true →
        (codeEntry s t).blen ≤ s.cfg.pw ∧ codeOf s t = parityOfBlocks (baseCode (codeEntry s t))) ∧
      ((codeEntry s t).valid = false →
        ∀ k < 4, readWord s.mem (wordOffset .ctab t k) = { value := 0, undef := 0 })

/-- Every length register that only the block writes is within its memory's capacity, and every position
of BITOUT below BITOUT_LEN is written (10_state.md R50 to R53, 45_control.md R372). -/
abbrev OutputsOk (s : State) : Prop :=
  s.symoutLen.toNat ≤ s.cfg.symbufDepth ∧ s.rptLen.toNat ≤ s.cfg.rptDepth ∧
    s.bitoutLen.toNat ≤ s.cfg.bitbufBits ∧ BitsWritten s .bitout s.bitoutLen.toNat

/-- The flags agree with each other (10_state.md R38 to R44, R59 to R61; 60_exceptions.md R407): a
command in flight has cleared them all, a failure leaves no report, a counter that is not 0 has its flag,
and ERRCODE is a code that is ever written. -/
abbrev FlagsOk (s : State) : Prop :=
  (s.seqState = .busy → s.done = false ∧ s.errcode = 0) ∧
    (s.seqState = .busy ∨ s.errcode ≠ 0 →
      s.desync = false ∧ s.perr = false ∧ s.hcorr = false ∧
        s.desyncCnt = 0 ∧ s.perrCnt = 0 ∧ s.hcorrCnt = 0) ∧
    (s.desync = true ↔ s.desyncCnt ≠ 0) ∧ (s.perrCnt ≠ 0 → s.perr = true) ∧
    (s.hcorrCnt ≠ 0 → s.hcorr = true) ∧ s.errcode.toNat ∈ [0, 1, 2, 4, 8, 9, 10, 11, 12, 13]

/-- The reserved bits of DIST and SYMIN entries read 0 (10_state.md R71, R80). -/
abbrev EntriesOk (s : State) : Prop :=
  (∀ i < s.cfg.maxSym, (readWord s.mem (wordOffset .dist i 0)).value.toNat < 2 ^ 22) ∧
    ∀ j < s.cfg.symbufDepth, (readWord s.mem (wordOffset .symin j 0)).value.toNat < 2 ^ 16

/-- The invariant of the block: memory is in canonical form, the parameters are legal, and the code table,
the outputs, the flags and the host's entries are as above. -/
structure Inv (s : State) : Prop where
  mem : s.mem.wf
  legal : s.cfg.Legal
  table : TableOk s
  outputs : OutputsOk s
  flags : FlagsOk s
  entries : EntriesOk s

end Sys2Proof.Safety
end

