-- ==== Sys2Proof/Certificates/Slice0/Obligations.lean ====
section
/-! DEFINITION. The statements for the provers. Each docstring names the rules of the spec that the
statement rests on. A record `{ s with … }` on the right of an equation is the frame: every field it
does not name keeps its value in `s`. Of these fields `schedule` (log entries 5 and 6), `hostData` and
`freeCount` (log entries 2 and 3) are the model's own, and `cfg` holds the parameters (log entry 1). -/

open Sys2Proof Sys2Proof.Machine Sys2Proof.Safety

/-! ### Decoding and encoding -/

/-- Decoding and encoding agree (30_encoding.md R134, R138, R145, R153): every command decodes from its
own word, and from no other. -/
def Obligations.DecodeInvertsEncode : Prop :=
  ∀ i : Instr, decodeWord (encode i) = .ok i ∧ ∀ w, decodeWord w = .ok i → w = encode i

/-- The opcode map (30_encoding.md R138): a word selects a row exactly when its masked bits match, and
where the row takes U, bit 8 chooses the unit or the source. -/
def Obligations.OpcodeMapSelectsByMaskAndMatch : Prop :=
  ∀ w : Word,
    (decodeWord w = .ok .nop ↔ w &&& 0xFFFFFFFF#32 = 0x00000000#32) ∧
    (decodeWord w = .ok .build ↔ w &&& 0xFFFFFFFF#32 = 0x00000001#32) ∧
    (decodeWord w = .ok .encode ↔ w &&& 0xFFFFFFFF#32 = 0x00000002#32) ∧
    (decodeWord w = .ok .decode ↔ w &&& 0xFFFFFFFF#32 = 0x00000003#32) ∧
    (decodeWord w = .ok .addpar ↔ w &&& 0xFFFFFFFF#32 = 0x00000004#32) ∧
    (decodeWord w = .ok .stripchk ↔ w &&& 0xFFFFFFFF#32 = 0x00000005#32) ∧
    (decodeWord w = .ok .henc ↔ w &&& 0xFFFFFFFF#32 = 0x00000010#32) ∧
    (decodeWord w = .ok .hencs ↔ w &&& 0xFFFFFFFF#32 = 0x00000011#32) ∧
    (decodeWord w = .ok .hdec ↔ w &&& 0xFFFFFFFF#32 = 0x00000012#32) ∧
    (decodeWord w = .ok .hdecb ↔ w &&& 0xFFFFFFFF#32 = 0x00000013#32) ∧
    (∀ u, decodeWord w = .ok (.lstep u) ↔
      w &&& 0xFFFFFEFF#32 = 0x00000020#32 ∧ (w.getLsbD 8 = true ↔ u = .s)) ∧
    (∀ u, decodeWord w = .ok (.lgen u) ↔
      w &&& 0xFFFFFEFF#32 = 0x00000021#32 ∧ (w.getLsbD 8 = true ↔ u = .s)) ∧
    (decodeWord w = .ok .sggen ↔ w &&& 0xFFFFFFFF#32 = 0x00000022#32) ∧
    (∀ b, decodeWord w = .ok (.chisq b) ↔
      w &&& 0xFFFFFEFF#32 = 0x00000030#32 ∧ (w.getLsbD 8 = true ↔ b = .bitout)) ∧
    (∀ b, decodeWord w = .ok (.period b) ↔
      w &&& 0xFFFFFEFF#32 = 0x00000031#32 ∧ (w.getLsbD 8 = true ↔ b = .bitout)) ∧
    (decodeWord w = .ok .bcopy ↔ w &&& 0xFFFFFFFF#32 = 0x00000040#32)

/-- Which words select no command, and the check that turns each away, in the decoder's order
(30_encoding.md R134, R136, R137, R145). -/
def Obligations.IllegalWordsFailTheirCheck : Prop :=
  ∀ w : Word,
    let o := w.toNat % 256
    (decodeWord w = .error .reservedBits ↔ w >>> 9 ≠ 0) ∧
    (decodeWord w = .error .unassignedOpcode ↔
      w >>> 9 = 0 ∧ (0x06 ≤ o ∧ o ≤ 0x0F ∨ 0x14 ≤ o ∧ o ≤ 0x1F ∨ 0x23 ≤ o ∧ o ≤ 0x2F ∨
        0x32 ≤ o ∧ o ≤ 0x3F ∨ 0x41 ≤ o)) ∧
    (decodeWord w = .error .unitNotTaken ↔
      w >>> 9 = 0 ∧ w.getLsbD 8 = true ∧
        o ∈ [0x00, 0x01, 0x02, 0x03, 0x04, 0x05, 0x10, 0x11, 0x12, 0x13, 0x22, 0x40])

/-- Words written out from the opcode map decode to their commands (30_encoding.md R138, R153). -/
def Obligations.WordsOfTheSpecDecode : Prop :=
  decodeWord 0x00000001#32 = .ok .build ∧ decodeWord 0x00000121#32 = .ok (.lgen .s) ∧
    decodeWord 0x00000130#32 = .ok (.chisq .bitout) ∧ decodeWord 0x00000000#32 = .ok .nop ∧
    decodeWord 0x00000013#32 = .ok .hdecb ∧ decodeWord 0x00000020#32 = .ok (.lstep .a) ∧
    decodeWord 0x00000031#32 = .ok (.period .bitin) ∧ decodeWord 0x00000040#32 = .ok .bcopy

/-! ### Issue, completion and the step -/

/-- A step at which SEQ moves runs the command its word decodes to (00_scope.md R3, 30_encoding.md R133).
The model's choices: with moves of the host still to come, SEQ moves when its turn is next, and with none
it moves (log entry 5); while IDLE its move changes nothing (log entries 5 and 6). -/
def Obligations.StepRunsTheDecodedCommand : Prop :=
  ∀ s : State,
    (∀ i, s.seqState = .busy → decodeWord s.cmd = .ok i →
      (s.schedule = [] → step s = exec i s) ∧ does .seq s = exec i s) ∧
    (s.seqState = .idle → (s.schedule = [] → step s = .next s) ∧ does .seq s = .next s)

/-- A word that selects no command completes with ILLEGAL_COMMAND: the RES registers of the command its
opcode names are 0, and nothing else changes (30_encoding.md R134, 60_exceptions.md R403). -/
def Obligations.IllegalWordCompletesWithIllegalCommand : Prop :=
  ∀ (s : State) (e : Illegal), s.seqState = .busy → decodeWord s.cmd = .error e →
    let n := resColumn (s.cmd.toNat % 256)
    does .seq s = .next { s with
      seqState := .idle
      done := true
      errcode := 8
      res0 := if 0 < n then 0 else s.res0
      res1 := if 1 < n then 0 else s.res1
      res2 := if 2 < n then 0 else s.res2
      res3 := if 3 < n then 0 else s.res3 }

/-- An accepted CMD write (30_encoding.md R132). -/
def Obligations.AcceptedCmdWriteIssues : Prop :=
  ∀ (s : State) (v : Word), s.seqState = .idle →
    ∃ t, hostWrites 0x00C v s = .next t ∧ irq t = false ∧
      t = { s with
        cmd := v
        seqState := .busy
        done := false
        errcode := 0
        desync := false
        perr := false
        hcorr := false
        desyncCnt := 0
        perrCnt := 0
        hcorrCnt := 0 }

/-- While BUSY a write to CTRL or STATUS takes effect as usual, every other write sets WBUSY and does
nothing else, and a read is performed (10_state.md R64). -/
def Obligations.BusyWritesAreDropped : Prop :=
  ∀ (s : State) (a : Nat) (v : Word), s.seqState = .busy → a < 0x80000 → a % 4 = 0 →
    (if a = 0x004 then
        hostWrites a v s = .next (if v.getLsbD 1 then resetBlock s else { s with ie := v.getLsbD 0 })
      else if a = 0x008 then
        hostWrites a v s = .next { s with
          done := s.done && !v.getLsbD 1
          wbusy := s.wbusy && !v.getLsbD 6 }
      else hostWrites a v s = .next { s with wbusy := true }) ∧
    ∃ d n, hostReads a s = .next { s with hostData := d, freeCount := n }

/-- A completion ends the command, reports its code and leaves WBUSY, IE, ARG0, ARG1 and CMD
(60_exceptions.md R402, R405); the one command without a completion is an SGGEN that never ends
(43_lfsr.md R309), which leaves the block as it is (the model's choice of a next state, log entry 13). -/
def Obligations.CompletionEndsTheCommand : Prop :=
  ∀ (i : Instr) (s t : State), exec i s = .next t →
    (i = .sggen ∧ t = s) ∨
      (t.seqState = .idle ∧ t.done = true ∧ irq t = s.ie ∧
        (t.errcode = 0 ∨ t.errcode.toNat ∈ errorCodes i) ∧
        t.wbusy = s.wbusy ∧ t.ie = s.ie ∧ t.arg0 = s.arg0 ∧ t.arg1 = s.arg1 ∧ t.cmd = s.cmd)

/-- The events that change BUSY, and those that change the interrupt output (10_state.md R37,
60_exceptions.md R409 to R411): BUSY rises at an accepted CMD write and falls at SEQ's move or a reset;
IRQ rises at SEQ's move or a CTRL write that sets IE, and falls at a write to CTRL, STATUS or CMD or at a
reset. -/
def Obligations.BusyAndIrqChangeOnlyAtTheirEvents : Prop :=
  ∀ (s t : State) (m : Move), does m s = .next t →
    let writes := fun (a : Nat) (p : Word → Prop) =>
      ∃ v, m = .host (.write (s.cfg.blockBase + a) 4 v) ∧ p v
    let resets := m = .powerOn ∨ writes 0x004 (fun v => v.getLsbD 1 = true)
    (s.seqState = .idle → t.seqState = .busy → writes 0x00C (fun _ => True)) ∧
    (s.seqState = .busy → t.seqState = .idle → m = .seq ∨ resets) ∧
    (irq s = false → irq t = true →
      (m = .seq ∧ s.seqState = .busy) ∨ writes 0x004 (fun v => v.getLsbD 0 = true)) ∧
    (irq s = true → irq t = false →
      resets ∨ writes 0x004 (fun v => v.getLsbD 0 = false) ∨
        writes 0x008 (fun v => v.getLsbD 1 = true) ∨ (s.seqState = .idle ∧ writes 0x00C fun _ => True))

/-! ### Failures -/

/-- A failure is precise (60_exceptions.md R403, R412): the RES registers of the command and the output
lengths it would write are 0, BUILD's table is empty, the contents of the output memories it would write
are no longer known, and everything else is as at issue. The model's choices: a failed ADDPAR keeps RES2
and RES3, on which the spec's texts disagree (log entry 14), and a failed BUILD clears the whole window of
the code table, entries beyond MAX_SYM with it (log entry 1). -/
def Obligations.FailureIsPrecise : Prop :=
  ∀ (i : Instr) (s t : State), s.errcode = 0 → exec i s = .next t → t.errcode ≠ 0 →
    let n := resColumn (opcodeOf i).toNat
    let bits := i ∈ [.encode, .hencs, .lgen .a, .lgen .s, .sggen]
    let recs := i ∈ [.decode, .hdec]
    t = { s with
      seqState := .idle
      done := true
      errcode := t.errcode
      res0 := if 0 < n then 0 else s.res0
      res1 := if 1 < n then 0 else s.res1
      res2 := if 2 < n then 0 else s.res2
      res3 := if 3 < n then 0 else s.res3
      bitoutLen := if bits then 0 else s.bitoutLen
      symoutLen := if recs then 0 else s.symoutLen
      rptLen := if recs then 0 else s.rptLen
      codeCount := if i = .build then 0 else s.codeCount
      mem := t.mem } ∧
    (∀ a, ¬ (bits ∧ inWindow .bitout a) → ¬ (recs ∧ (inWindow .symout a ∨ inWindow .rpt a)) →
      ¬ (i = .build ∧ inWindow .ctab a) → readByte t.mem a = readByte s.mem a) ∧
    (i = .build → ∀ e < 1024, ∀ k < 4,
      readWord t.mem (0x2000 + 16 * e + 4 * k) = { value := 0, undef := 0 })

/-- The errors on a register operand or a length register, each checked before any memory is read, with
what the failure leaves (30_encoding.md R140 to R142, R146; 41_prefix_coder.md R201, R221, R229;
42_hamming.md R271, R275; 44_statistics.md R340, R344, R345, R347; 60_exceptions.md R402, R403). That
ADDPAR's failure keeps RES2 and RES3, on which the spec's texts disagree, is the model's choice (log entry
14). -/
def Obligations.OperandAndLengthErrors : Prop :=
  ∀ s : State,
    (21 < s.arg1.toNat % 64 →
      exec .addpar s =
        .next { s with seqState := .idle, done := true, errcode := 13, res0 := 0, res1 := 0 }) ∧
    (32 < s.arg1.toNat % 64 ∨ 32 < s.arg1.toNat / 256 % 64 →
      exec .stripchk s = .next { s with
        seqState := .idle, done := true, errcode := 13, res0 := 0, res1 := 0, res2 := 0 }) ∧
    (15 < s.arg0.toNat →
      exec .henc s = .next { s with seqState := .idle, done := true, errcode := 2, res0 := 0 }) ∧
    (s.cfg.maxSym < s.distCount.toNat → ∃ t, exec .build s = .next t ∧ t.errcode = 10) ∧
    (s.cfg.symbufDepth < s.syminLen.toNat →
      (∃ t, exec .encode s = .next t ∧ t.errcode = 10) ∧
        ∃ t, exec .hencs s = .next t ∧ t.errcode = 10) ∧
    (s.cfg.bitbufBits < s.bitinLen.toNat →
      (∃ t, exec .decode s = .next t ∧ t.errcode = 10) ∧
        (∃ t, exec .hdec s = .next t ∧ t.errcode = 10) ∧
        (∃ t, exec (.chisq .bitin) s = .next t ∧ t.errcode = 10) ∧
        ∃ t, exec (.period .bitin) s = .next t ∧ t.errcode = 10) ∧
    (s.bitinLen.toNat ≤ s.cfg.bitbufBits → s.bitinLen.toNat % 7 ≠ 0 →
      ∃ t, exec .hdec s = .next t ∧ t.errcode = 4) ∧
    (s.bitinLen.toNat ≤ s.cfg.bitbufBits → s.bitinLen.toNat % 7 = 0 →
      s.cfg.symbufDepth < s.bitinLen.toNat / 7 → ∃ t, exec .hdec s = .next t ∧ t.errcode = 10) ∧
    (s.bitinLen = 0 → exec (.chisq .bitin) s = .next { s with
      seqState := .idle, done := true, errcode := 12, res0 := 0, res1 := 0, res2 := 0, res3 := 0 }) ∧
    (s.bitoutLen = 0 → exec (.chisq .bitout) s = .next { s with
      seqState := .idle, done := true, errcode := 12, res0 := 0, res1 := 0, res2 := 0, res3 := 0 })

/-- A command that steps a unit raises BAD_LFSR_CONFIG exactly when a unit it steps is not configured,
whatever TAPS and STATE hold, and then no STATE changes (43_lfsr.md R304, R313); a configured unit and too
large a count give CAPACITY (R307, R308). That an SGGEN which never ends, to which R309 gives no step,
answers a next state too (the state unchanged, with its ERRCODE 0), is the model's choice (log entry 13). -/
def Obligations.LfsrConfigurationErrors : Prop :=
  ∀ s : State, s.errcode = 0 →
    let ok := fun l : Lfsr => 1 ≤ l.len.toNat ∧ l.len.toNat ≤ 32
    (∀ u, ∃ t, exec (.lstep u) s = .next t ∧
      (t.errcode = 11 ↔ ¬ ok (lfsrOf s u)) ∧
      (t.errcode = 11 → t.res0 = 0 ∧ t.lfsrA = s.lfsrA ∧ t.lfsrS = s.lfsrS)) ∧
    (∀ u, ∃ t, exec (.lgen u) s = .next t ∧
      (t.errcode = 11 ↔ ¬ ok (lfsrOf s u)) ∧
      (t.errcode = 10 ↔ ok (lfsrOf s u) ∧ s.cfg.bitbufBits < s.arg0.toNat) ∧
      (t.errcode ≠ 0 → t.res0 = 0 ∧ t.bitoutLen = 0 ∧ t.lfsrA = s.lfsrA ∧ t.lfsrS = s.lfsrS)) ∧
    (∃ t, exec .sggen s = .next t ∧
      (t.errcode = 11 ↔ ¬ ok s.lfsrA ∨ ¬ ok s.lfsrS) ∧
      (t.errcode = 10 ↔ ok s.lfsrA ∧ ok s.lfsrS ∧ s.cfg.bitbufBits < s.arg0.toNat) ∧
      (t.errcode ≠ 0 → t.res0 = 0 ∧ t.bitoutLen = 0 ∧ t.lfsrA = s.lfsrA ∧ t.lfsrS = s.lfsrS))

/-- The first offending entry decides the code (60_exceptions.md R406): a numerator above `2^PW` for BUILD
(41_prefix_coder.md R201), an absent symbol or an overflow for ENCODE (R221), a value above 15 or an
overflow for HENCS (42_hamming.md R271). -/
def Obligations.FirstOffendingEntryDecides : Prop :=
  ∀ s : State,
    let m := s.syminLen.toNat
    let absent := fun j =>
      s.cfg.maxSym ≤ symAt s j ∨ (codeEntry s (symAt s j)).valid = false
    let lenTo := fun j => ((List.range j).map fun k => (codeOf s (symAt s k)).length).sum
    (DistWritten s → s.distCount.toNat ≤ s.cfg.maxSym →
      ∃ t, exec .build s = .next t ∧
        (t.errcode = 9 ↔ ∃ i < s.distCount.toNat, 2 ^ s.cfg.pw < numAt s i)) ∧
    (SyminWritten s → m ≤ s.cfg.symbufDepth →
      (∃ t, exec .encode s = .next t ∧
        (t.errcode = 1 ↔
          ∃ j < m, absent j ∧ (∀ k < j, ¬ absent k) ∧ lenTo j ≤ s.cfg.bitbufBits) ∧
        (t.errcode = 10 ↔
          ∃ j < m, (∀ k ≤ j, ¬ absent k) ∧ s.cfg.bitbufBits < lenTo (j + 1))) ∧
      ∃ t, exec .hencs s = .next t ∧
        (t.errcode = 2 ↔
          ∃ j < m, 15 < symAt s j ∧ (∀ k < j, symAt s k ≤ 15) ∧ 7 * j ≤ s.cfg.bitbufBits) ∧
        (t.errcode = 10 ↔
          ∃ j < m, (∀ k ≤ j, symAt s k ≤ 15) ∧ s.cfg.bitbufBits < 7 * (j + 1)))

/-! ### The host port -/

/-- What a read of each register returns (10_state.md R32 to R61), changing nothing of the block
(20_memory.md R108): its value, while IDLE and while BUSY where the command in flight does not write it,
and a free draw of its field where it does (R113; STATUS and the capability registers have statements of
their own). The same for the memory words while BUSY. The model's choices: what a draw is, and that
reserved bits of a register stay 0 in it (log entry 2), which registers a word that selects no command may
write (log entry 11), which words of BITIN a BCOPY may write (log entry 12), and a word written in part
(log entry 19). -/
def Obligations.RegisterReadsReturnTheirValues : Prop :=
  ∀ s : State,
    (∀ p ∈ ([(0x000, 32, 0x53480007#32), (0x004, 1, if s.ie then 1#32 else 0#32), (0x00C, 32, s.cmd),
        (0x010, 32, s.arg0), (0x014, 32, s.arg1), (0x020, 32, s.res0), (0x024, 32, s.res1),
        (0x028, 32, s.res2), (0x02C, 32, s.res3), (0x030, 11, wordOf s.distCount.toNat),
        (0x034, 14, wordOf s.syminLen.toNat), (0x038, 14, wordOf s.symoutLen.toNat),
        (0x03C, 15, wordOf s.bitinLen.toNat), (0x040, 15, wordOf s.bitoutLen.toNat),
        (0x044, 15, wordOf s.rptLen.toNat), (0x048, 11, wordOf s.codeCount.toNat),
        (0x050, 6, wordOf s.lfsrA.len.toNat), (0x054, 32, s.lfsrA.taps), (0x058, 32, s.lfsrA.state),
        (0x060, 6, wordOf s.lfsrS.len.toNat), (0x064, 32, s.lfsrS.taps), (0x068, 32, s.lfsrS.state),
        (0x070, 15, wordOf s.desyncCnt.toNat), (0x074, 15, wordOf s.perrCnt.toNat),
        (0x078, 15, wordOf s.hcorrCnt.toNat)] : List (Nat × Nat × Word)),
      hostReads p.1 s = .next (if s.seqState = .busy ∧ p.1 ∈ flightOffsets s then { s with
          hostData := Config.freeWord s.freeCount &&& wordOf (2 ^ p.2.1 - 1)
          freeCount := s.freeCount + 1 }
        else { s with hostData := p.2.2 })) ∧
    (s.seqState = .busy → s.cfg.Legal → ∀ m a, WordAt s.cfg m a →
      (FlightWrites s m a → hostReads a s = .next { s with
        hostData := Config.freeWord s.freeCount
        freeCount := s.freeCount + 1 }) ∧
      (¬ FlightWrites s m a → ReadsMemory s m a))

/-- STATUS reads its current flags in either SEQ_STATE, and a write to it clears DONE and WBUSY where the
written bit is 1 and nothing else (10_state.md R36 to R44, 20_memory.md R113). -/
def Obligations.StatusReadsItsFlagsAndClearsByOnes : Prop :=
  ∀ s : State,
    (∃ w : Word, hostReads 0x008 s = .next { s with hostData := w } ∧
      (w.getLsbD 0 = true ↔ s.seqState = .busy) ∧ w.getLsbD 1 = s.done ∧
      (w.getLsbD 2 = true ↔ s.errcode ≠ 0) ∧ w.getLsbD 3 = s.desync ∧ w.getLsbD 4 = s.perr ∧
      w.getLsbD 5 = s.hcorr ∧ w.getLsbD 6 = s.wbusy ∧ w.getLsbD 7 = false ∧
      w.extractLsb' 8 8 = s.errcode ∧ w.extractLsb' 16 16 = 0#16) ∧
    ∀ v : Word, hostWrites 0x008 v s = .next { s with
      done := s.done && !v.getLsbD 1
      wbusy := s.wbusy && !v.getLsbD 6 }

/-- What a write to each register does while IDLE: a field narrower than 32 bits stores its own bits, and
a read-only register ignores the write (10_state.md R45 to R66). -/
def Obligations.RegisterWritesStoreTheirFields : Prop :=
  ∀ (s : State) (v : Word), s.seqState = .idle →
    hostWrites 0x010 v s = .next { s with arg0 := v } ∧
    hostWrites 0x014 v s = .next { s with arg1 := v } ∧
    hostWrites 0x030 v s = .next { s with distCount := v.extractLsb' 0 11 } ∧
    hostWrites 0x034 v s = .next { s with syminLen := v.extractLsb' 0 14 } ∧
    hostWrites 0x03C v s = .next { s with bitinLen := v.extractLsb' 0 15 } ∧
    hostWrites 0x050 v s = .next { s with lfsrA := { s.lfsrA with len := v.extractLsb' 0 6 } } ∧
    hostWrites 0x054 v s = .next { s with lfsrA := { s.lfsrA with taps := v } } ∧
    hostWrites 0x058 v s = .next { s with lfsrA := { s.lfsrA with state := v } } ∧
    hostWrites 0x060 v s = .next { s with lfsrS := { s.lfsrS with len := v.extractLsb' 0 6 } } ∧
    hostWrites 0x064 v s = .next { s with lfsrS := { s.lfsrS with taps := v } } ∧
    hostWrites 0x068 v s = .next { s with lfsrS := { s.lfsrS with state := v } } ∧
    ∀ a ∈ [0x000, 0x020, 0x024, 0x028, 0x02C, 0x038, 0x040, 0x044, 0x048, 0x070, 0x074, 0x078, 0x0E0,
        0x0E4, 0x0EC, 0x0F0, 0x0F4, 0x0F8, 0x0FC],
      hostWrites a v s = .next s

/-- A reserved offset, or an entry at or beyond its memory's capacity, reads 0, and a write to it while
IDLE is ignored (10_state.md R62, R91; 20_memory.md R103). -/
def Obligations.ReservedOffsetsReadZero : Prop :=
  ∀ (s : State) (a : Nat), a < 0x80000 → a % 4 = 0 →
    (a < 0x100 ∧ a ∉ [0x000, 0x004, 0x008, 0x00C, 0x010, 0x014, 0x020, 0x024, 0x028, 0x02C, 0x030,
        0x034, 0x038, 0x03C, 0x040, 0x044, 0x048, 0x050, 0x054, 0x058, 0x060, 0x064, 0x068, 0x070,
        0x074, 0x078, 0x0E0, 0x0E4, 0x0EC, 0x0F0, 0x0F4, 0x0F8, 0x0FC] ∨
      0x00100 ≤ a ∧ a < 0x01000 ∨
      0x01000 + 4 * s.cfg.maxSym ≤ a ∧ a < 0x02000 ∨
      0x02000 + 16 * s.cfg.maxSym ≤ a ∧ a < 0x08000 ∨
      0x08000 + 4 * s.cfg.symbufDepth ≤ a ∧ a < 0x10000 ∨
      0x10000 + 4 * s.cfg.symbufDepth ≤ a ∧ a < 0x18000 ∨
      0x18000 + 4 * (s.cfg.bitbufBits / 32) ≤ a ∧ a < 0x1A000 ∨
      0x1A000 + 4 * (s.cfg.bitbufBits / 32) ≤ a ∧ a < 0x40000 ∨
      0x40000 + 16 * s.cfg.bitbufBits ≤ a) →
    hostReads a s = .next { s with hostData := 0 } ∧
      ∀ v, s.seqState = .idle → hostWrites a v s = .next s

/-- What a host access to each memory window does while IDLE (10_state.md R70, R71, R79, R80, R83 to R86):
DIST and SYMIN store their field and read it back, BITIN stores 32 positions most significant first, no
byte outside the word changes, and the other windows ignore the write; a read of any word of the seven
memories returns what memory holds (20_memory.md R110, R112), and for bits that nothing has stored a free
draw (10_state.md R93). What a draw is, and a word written in part, are the model's choices (log entries 2
and 19). -/
def Obligations.HostMemoryWritesStoreTheirEntry : Prop :=
  ∀ (s : State) (v : Word), s.seqState = .idle → s.cfg.Legal →
    (∀ i < s.cfg.maxSym, ∃ t, hostWrites (0x01000 + 4 * i) v s = .next t ∧
      t = { s with mem := t.mem } ∧ SameOutside s.mem t.mem (0x01000 + 4 * i) 4 ∧
      distEntry t i = some (v.toNat % 2 ^ 22) ∧
      hostReads (0x01000 + 4 * i) t = .next { t with hostData := v &&& 0x003FFFFF#32 }) ∧
    (∀ j < s.cfg.symbufDepth, ∃ t, hostWrites (0x08000 + 4 * j) v s = .next t ∧
      t = { s with mem := t.mem } ∧ SameOutside s.mem t.mem (0x08000 + 4 * j) 4 ∧
      syminEntry t j = some (v.toNat % 2 ^ 16) ∧
      hostReads (0x08000 + 4 * j) t = .next { t with hostData := v &&& 0x0000FFFF#32 }) ∧
    (∀ w < s.cfg.bitbufBits / 32, ∃ t, hostWrites (0x18000 + 4 * w) v s = .next t ∧
      t = { s with mem := t.mem } ∧ SameOutside s.mem t.mem (0x18000 + 4 * w) 4 ∧
      (∀ k < 32, readBit t.mem 0x18000 (32 * w + k) = some (v.getLsbD (31 - k))) ∧
      hostReads (0x18000 + 4 * w) t = .next { t with hostData := v }) ∧
    (∀ a, a % 4 = 0 → (0x02000 ≤ a ∧ a < 0x06000 ∨ 0x10000 ≤ a ∧ a < 0x18000 ∨
        0x1A000 ≤ a ∧ a < 0x1A800 ∨ 0x40000 ≤ a ∧ a < 0x80000) →
      hostWrites a v s = .next s) ∧
    ∀ m a, WordAt s.cfg m a → ReadsMemory s m a

/-- Soft reset and power-on reset (10_state.md R35, R92; 70_reset_and_hazards.md R500 to R503): whatever
SEQ_STATE is, every register is 0 after it, the code table reads 0 and IRQ is low; CTRL bit 1 reads 0, and
a CTRL write with bit 1 = 0 only writes IE. The model's choices: what the host last read and the count of
free draws are kept (log entry 3), and so are the moves still to come (log entry 5); the whole window of
the code table reads 0, entries beyond MAX_SYM with it (log entry 1). -/
def Obligations.ResetsClearEveryRegister : Prop :=
  ∀ s : State,
    (∃ t, does .powerOn s = .next t ∧
      (∀ v : Word, v.getLsbD 1 = true → hostWrites 0x004 v s = .next t) ∧ irq t = false ∧
      (∀ e < 1024, ∀ k < 4, readWord t.mem (0x02000 + 16 * e + 4 * k) = { value := 0, undef := 0 }) ∧
      t = { seqState := .idle, cmd := 0, ie := false, done := false, desync := false, perr := false,
            hcorr := false, wbusy := false, errcode := 0, arg0 := 0, arg1 := 0, res0 := 0, res1 := 0,
            res2 := 0, res3 := 0, distCount := 0, syminLen := 0, symoutLen := 0, bitinLen := 0,
            bitoutLen := 0, rptLen := 0, codeCount := 0,
            lfsrA := { len := 0, taps := 0, state := 0 },
            lfsrS := { len := 0, taps := 0, state := 0 },
            desyncCnt := 0, perrCnt := 0, hcorrCnt := 0, mem := t.mem, cfg := s.cfg,
            schedule := s.schedule, hostData := s.hostData, freeCount := s.freeCount }) ∧
    (∀ v : Word, v.getLsbD 1 = false → hostWrites 0x004 v s = .next { s with ie := v.getLsbD 0 }) ∧
    ∃ w : Word, hostReads 0x004 s = .next { s with hostData := w } ∧ w.getLsbD 0 = s.ie ∧
      w.getLsbD 1 = false

/-- What a reset leaves (10_state.md R92): every register but ID and the capability registers reads 0,
SEQ_STATE is IDLE, neither unit is configured and no code-table entry is valid. -/
def Obligations.ResetValues : Prop :=
  ∀ t : State,
    (t = State.reset ∨ ∃ s, does .powerOn s = .next t ∨ hostWrites 0x004 0x00000002#32 s = .next t) →
    (∀ a ∈ [0x004, 0x008, 0x00C, 0x010, 0x014, 0x020, 0x024, 0x028, 0x02C, 0x030, 0x034, 0x038, 0x03C,
        0x040, 0x044, 0x048, 0x050, 0x054, 0x058, 0x060, 0x064, 0x068, 0x070, 0x074, 0x078],
      hostReads a t = .next { t with hostData := 0 }) ∧
    hostReads 0x000 t = .next { t with hostData := 0x53480007#32 } ∧
    t.seqState = .idle ∧ t.lfsrA = { len := 0, taps := 0, state := 0 } ∧
    t.lfsrS = { len := 0, taps := 0, state := 0 } ∧
    configured t.lfsrA = false ∧ configured t.lfsrS = false ∧
    ∀ e < t.cfg.maxSym, (codeEntry t e).valid = false

/-- The capability registers (10_state.md R66), in either SEQ_STATE: their values on every legal instance and
on the reference instance, and that a write to one stores nothing (while BUSY it sets WBUSY, R64). -/
def Obligations.CapabilityRegistersShowTheParameters : Prop :=
  (∀ s : State, s.cfg.Legal →
    (∃ w : Word, hostReads 0x0F0 s = .next { s with hostData := w } ∧ w.toNat % 32 = s.cfg.pw ∧
      (w.getLsbD 8 = true ↔ s.cfg.tapPhase = .post) ∧
      ∀ k, 5 ≤ k → k ≠ 8 → w.getLsbD k = false) ∧
    (∃ w : Word, hostReads 0x0F4 s = .next { s with hostData := w } ∧ w.toNat = s.cfg.maxSym) ∧
    (∃ w : Word, hostReads 0x0F8 s = .next { s with hostData := w } ∧ w.toNat = s.cfg.symbufDepth) ∧
    (∃ w : Word, hostReads 0x0FC s = .next { s with hostData := w } ∧ w.toNat = s.cfg.bitbufBits) ∧
    (∃ w : Word, hostReads 0x0E0 s = .next { s with hostData := w } ∧
      (∀ j, 1 ≤ j → j ≤ 7 → w.extractLsb' (3 * j - 3) 3 = s.cfg.hamCol j) ∧
      ∀ k, 21 ≤ k → w.getLsbD k = false) ∧
    (∃ w : Word, hostReads 0x0E4 s = .next { s with hostData := w } ∧
      (∀ k < 4, w.toNat / 2 ^ (3 * k) % 8 = s.cfg.hamDataPos.toList.getD k 0) ∧
      ∀ k, 12 ≤ k → w.getLsbD k = false) ∧
    ∃ w : Word, hostReads 0x0EC s = .next { s with hostData := w } ∧ w.toNat = s.cfg.chiCrit) ∧
  (∀ s : State, s.cfg = Config.reference →
    ∀ p ∈ ([(0x0F0, 0x00000010#32), (0x0F4, 64#32), (0x0F8, 8192#32), (0x0FC, 16384#32),
        (0x0E0, 0x001DDC54#32), (0x0E4, 0x00000FAC#32), (0x0EC, 0x0003D76A#32)] : List (Nat × Word)),
      hostReads p.1 s = .next { s with hostData := p.2 }) ∧
  ∀ (s : State) (v : Word), ∀ a ∈ [0x0F0, 0x0F4, 0x0F8, 0x0FC, 0x0E0, 0x0E4, 0x0EC],
    hostWrites a v s = .next (if s.seqState = .busy then { s with wbusy := true } else s)

/-- The accesses that are refused (20_memory.md R102, 70_reset_and_hazards.md R516): a misaligned one, one
of another width than 32 bits and one outside the window; every other access is performed. The model's
choices: alignment is that of the offset from the block's base, and an access is inside the window when its
first byte is (log entry 15). -/
def Obligations.RefusedAccesses : Prop :=
  ∀ (s : State) (addr bytes : Nat) (v : Word),
    let good := s.cfg.blockBase ≤ addr ∧ addr < s.cfg.blockBase + 0x80000 ∧ bytes = 4 ∧
      (addr - s.cfg.blockBase) % 4 = 0
    (good → Continues (does (.host (.write addr bytes v)) s) ∧
      Continues (does (.host (.read addr bytes)) s)) ∧
    (¬ good → (∃ r, does (.host (.write addr bytes v)) s = .refused r) ∧
      ∃ r, does (.host (.read addr bytes)) s = .refused r)

/-! ### Control commands -/

/-- NOP completes and changes nothing else (45_control.md R370). -/
def Obligations.NopOnlyCompletes : Prop :=
  ∀ s : State, exec .nop s = .next { s with seqState := .idle, done := true, errcode := 0 }

/-- BCOPY copies the valid bits of BITOUT to BITIN with their length; BITIN's other positions and every
other byte are unchanged (45_control.md R371). -/
def Obligations.BcopyCopiesTheValidBits : Prop :=
  ∀ s : State, BitsWritten s .bitout s.bitoutLen.toNat →
    ∃ t, exec .bcopy s = .next t ∧
      t = { s with
        seqState := .idle
        done := true
        errcode := 0
        bitinLen := s.bitoutLen
        mem := t.mem } ∧
      (∀ k < s.bitoutLen.toNat,
        readBit t.mem (windowBase .bitin) k = readBit s.mem (windowBase .bitout) k) ∧
      (∀ k, s.bitoutLen.toNat ≤ k →
        readBit t.mem (windowBase .bitin) k = readBit s.mem (windowBase .bitin) k) ∧
      SameOutside s.mem t.mem (windowBase .bitin) (wordBytes s.bitoutLen.toNat)

/-! ### The parity codec -/

/-- ADDPAR with a length up to 21 gives the codeword's blocks, each followed by its parity bit
(41_prefix_coder.md R209, R218). -/
def Obligations.AddparAppendsBlockParities : Prop :=
  ∀ s : State, s.arg1.toNat % 64 ≤ 21 →
    let y := parityOfBlocks (wordBits s.arg0 (s.arg1.toNat % 64))
    exec .addpar s = .next { s with
      seqState := .idle
      done := true
      errcode := 0
      res0 := wordOf (valBits y)
      res1 := wordOf y.length }

/-- STRIPCHK with lengths up to 32 gives the payload of the chunks cut to OL bits, its length, and the
mask of the chunks with an odd number of ones (41_prefix_coder.md R216, R219). -/
def Obligations.StripchkReportsOddChunks : Prop :=
  ∀ s : State, s.arg1.toNat % 64 ≤ 32 → s.arg1.toNat / 256 % 64 ≤ 32 →
    let ol := s.arg1.toNat / 256 % 64
    let chunks := stripChunksOf (wordBits s.arg0 (s.arg1.toNat % 64)) ol
    let x := (chunks.flatMap List.dropLast).take ol
    let mask := ((List.range chunks.length).map fun k =>
      if oddOnes (chunks.getD k []) then 2 ^ k else 0).sum
    mask < 2 ^ 11 ∧
    exec .stripchk s = .next { s with
      seqState := .idle
      done := true
      errcode := 0
      perr := decide (mask ≠ 0)
      res0 := wordOf (valBits x)
      res1 := wordOf x.length
      res2 := wordOf mask }

/-- The length of a parity codeword (41_prefix_coder.md R210). -/
def Obligations.ParityCodewordLength : Prop :=
  (∀ x : Bits, (addParity x).length =
    x.length + (if x.length % 2 = 0 then (x.length + 1) / 2 else (x.length + 2) / 3)) ∧
  (∀ x : Bits, x.length ≤ 21 →
    (addParity x).length ≤ 30 ∧ ((addParity x).length = 30 ↔ x.length = 20) ∧
    [0, 2, 3, 4, 6, 7, 9, 10, 12, 12, 15, 15, 18, 18, 21, 20, 24, 23, 27, 26, 30, 28][x.length]? =
      some (addParity x).length)

/-- StripCheck finds the chunks in which an odd number of bits differ from a correctly formed chunk, and
no others; it gives back what AddParity was given, with mask 0 (41_prefix_coder.md R217). -/
def Obligations.StripCheckFindsOddFlips : Prop :=
  (∀ x : Bits, stripCheck (addParity x) x.length = (x, 0)) ∧
  ∀ (y : Bits) (ol k : Nat) (good : Bits), k < (stripChunksOf y ol).length →
    good.length = ((stripChunksOf y ol).getD k []).length →
    good.getLastD false = xorBits good.dropLast →
    ((stripCheck y ol).2.testBit k = true ↔
      distance good ((stripChunksOf y ol).getD k []) % 2 = 1)

/-! ### The Shannon builder -/

/-- The closed form of ShannonBits (41_prefix_coder.md R208). -/
def Obligations.ShannonBitsClosedForm : Prop :=
  ∀ pw l f : Nat, l ≤ pw →
    (f < 2 ^ pw → shannonBits pw l f = strBits l (f / 2 ^ (pw - l))) ∧
    (2 ^ pw ≤ f → shannonBits pw l f = List.replicate l true)

/-- CodeLen is the least `L` with `2^-L ≤ P / 2^PW`, between 0 and PW, and 0 only for `P = 2^PW`
(41_prefix_coder.md R206). -/
def Obligations.CodeLenIsTheCeilingOfTheLogarithm : Prop :=
  (∀ pw p : Nat, 1 ≤ p → p ≤ 2 ^ pw →
    codeLen pw p = pw - (bitlen p - 1) ∧ 2 ^ pw ≤ p * 2 ^ codeLen pw p ∧
    (∀ l < codeLen pw p, p * 2 ^ l < 2 ^ pw) ∧ codeLen pw p ≤ pw ∧
    (codeLen pw p = 0 ↔ p = 2 ^ pw)) ∧
  codeLen 16 32768 = 1 ∧ codeLen 16 16384 = 2 ∧ codeLen 16 16385 = 2 ∧ codeLen 16 16383 = 3

/-- BUILD on a legal distribution writes the Shannon code of each symbol in closed form
(41_prefix_coder.md R200, R203 to R209, R215; 10_state.md R74 to R78): the symbols by falling probability
and then by number, each coded by the expansion of the sum before it, and a symbol of probability 0 by
nothing. -/
def Obligations.BuildWritesTheShannonTable : Prop :=
  ∀ s : State, s.cfg.Legal → DistWritten s → s.distCount.toNat ≤ s.cfg.maxSym →
    (∀ i < s.distCount.toNat, numAt s i ≤ 2 ^ s.cfg.pw) →
    let n := s.distCount.toNat
    let base := baseOf s.cfg.pw (numAt s) n
    let par := fun i => parityOfBlocks (base i)
    ∃ t, exec .build s = .next t ∧
      t = { s with
        seqState := .idle
        done := true
        errcode := 0
        codeCount := t.codeCount
        res0 := t.res0
        res1 := t.res1
        res2 := t.res2
        res3 := t.res3
        mem := t.mem } ∧
      (∀ i < s.cfg.maxSym,
        if i < n ∧ 0 < numAt s i then
          HoldsWords t.mem (0x02000 + 16 * i)
            [wordOf (2 ^ 31 + 2 ^ 16 * (base i).length + (par i).length), wordOf (valBits (base i)),
              wordOf (valBits (par i)), wordOf (rankIn (numAt s) n i)]
        else HoldsWords t.mem (0x02000 + 16 * i) [0, 0, 0, 0]) ∧
      SameOutside s.mem t.mem 0x02000 0x04000

/-- What BUILD on a legal distribution reports (41_prefix_coder.md R211 to R213): the Kraft sum in units of
`2^-PW`, the number of codes, whether the sum is at most 1, and whether the parity codewords and the base
codewords are free of prefixes. -/
def Obligations.BuildReportsKraftAndPrefixFlags : Prop :=
  ∀ s : State, s.cfg.Legal → DistWritten s → s.distCount.toNat ≤ s.cfg.maxSym →
    (∀ i < s.distCount.toNat, numAt s i ≤ 2 ^ s.cfg.pw) →
    let n := s.distCount.toNat
    let coded := (List.range n).filter fun i => 0 < numAt s i
    let kraft := (coded.map fun i => 2 ^ (s.cfg.pw - lenOf s.cfg.pw (numAt s i))).sum
    let base := baseOf s.cfg.pw (numAt s) n
    let par := fun i => parityOfBlocks (base i)
    ∃ t, exec .build s = .next t ∧ t.errcode = 0 ∧
      t.res0.toNat = kraft ∧ t.res1.toNat = coded.length ∧ t.codeCount.toNat = coded.length ∧
      t.res2 = (if kraft ≤ 2 ^ s.cfg.pw then 1 else 0) ∧ t.res3.toNat < 4 ∧
      (t.res3.getLsbD 0 = true ↔
        ∀ i ∈ coded, ∀ j ∈ coded, i ≠ j → par i ≠ [] → par j ≠ [] → ¬ par i <+: par j) ∧
      (t.res3.getLsbD 1 = true ↔ ∀ i ∈ coded, ∀ j ∈ coded, i ≠ j → ¬ base i <+: base j)

/-- A distribution whose probabilities sum to at most 1 satisfies the Kraft inequality, and its base code
is prefix free when no code is empty (41_prefix_coder.md R214). -/
def Obligations.KraftHoldsForDistributions : Prop :=
  ∀ s : State, s.cfg.Legal → DistWritten s → s.distCount.toNat ≤ s.cfg.maxSym →
    ((List.range s.distCount.toNat).map (numAt s)).sum ≤ 2 ^ s.cfg.pw →
    ∃ t, exec .build s = .next t ∧ t.errcode = 0 ∧ t.res2 = 1 ∧
      ((∀ i < s.distCount.toNat, numAt s i ≠ 2 ^ s.cfg.pw) → t.res3.getLsbD 1 = true)

/-! ### The prefix-tree coder -/

/-- ENCODE writes the parity codewords of the symbols one after another (41_prefix_coder.md R220). -/
def Obligations.EncodeConcatenatesParityCodewords : Prop :=
  ∀ s : State, s.cfg.Legal → SyminWritten s → s.syminLen.toNat ≤ s.cfg.symbufDepth →
    (∀ j < s.syminLen.toNat,
      symAt s j < s.cfg.maxSym ∧ (codeEntry s (symAt s j)).valid = true) →
    let out := (List.range s.syminLen.toNat).flatMap fun j => codeOf s (symAt s j)
    out.length ≤ s.cfg.bitbufBits →
    ∃ t, exec .encode s = .next t ∧ WritesBitout s t out ∧
      t = { s with
        seqState := .idle
        done := true
        errcode := 0
        res0 := wordOf s.syminLen.toNat
        bitoutLen := t.bitoutLen
        mem := t.mem }

/-- DECODE takes the stream apart into records that tile it, each the longest match's or a desync record,
and reports them; with more symbols than SYMOUT holds it fails with CAPACITY (41_prefix_coder.md R223 to
R229). -/
def Obligations.DecodeTilesTheStream : Prop :=
  ∀ s : State, s.cfg.Legal → s.bitinLen.toNat ≤ s.cfg.bitbufBits →
    BitsWritten s .bitin s.bitinLen.toNat →
    let x := bufferOf s .bitin s.bitinLen.toNat
    ∃ recs : List Record, Tiles x.length 0 recs ∧ (∀ r ∈ recs, RecordOk s x r) ∧
      ∃ t, exec .decode s = .next t ∧
        if s.cfg.symbufDepth < (symbolsOf recs).length then t.errcode = 10
        else
          WritesRecords s t (symbolsOf recs) recs ∧
          t = { s with
            seqState := .idle
            done := true
            errcode := 0
            res0 := wordOf (symbolsOf recs).length
            res1 := wordOf recs.length
            symoutLen := t.symoutLen
            rptLen := t.rptLen
            desyncCnt := BitVec.ofNat 15 (recs.countP fun r => r.type == .desync)
            desync := recs.any fun r => r.type == .desync
            perrCnt := BitVec.ofNat 15 (recs.countP fun r => r.type == .sym && r.w3 != 0)
            perr := recs.any fun r => r.type == .sym && r.w3 != 0
            mem := t.mem }

/-- On a table that BUILD makes DECODE reports no parity mismatch (41_prefix_coder.md R230). The premise
on the table is part of the invariant of `StepKeepsTheInvariant`. -/
def Obligations.NoParityMismatchOnBuiltTables : Prop :=
  ∀ s t : State, s.cfg.Legal → TableOk s → exec .decode s = .next t → t.errcode = 0 →
    t.perrCnt = 0 ∧ t.perr = false

/-- The round trip (41_prefix_coder.md R234): after a BUILD that reports PFREE_P = 1, ENCODE, BCOPY and
DECODE give the symbols back, without a desync record and without a mismatch. -/
def Obligations.ShannonRoundTrip : Prop :=
  ∀ s0 s1 s : State, exec .build s0 = .next s1 → s1.errcode = 0 → s1.res3.getLsbD 0 = true →
    s.cfg = s1.cfg → s.cfg.Legal →
    (∀ a, inWindow .ctab a = true → readByte s.mem a = readByte s1.mem a) →
    SyminWritten s → s.syminLen.toNat ≤ s.cfg.symbufDepth →
    (∀ j < s.syminLen.toNat, symAt s j < s.cfg.maxSym ∧
      (codeEntry s (symAt s j)).valid = true ∧ 0 < (codeEntry s (symAt s j)).plen) →
    ((List.range s.syminLen.toNat).flatMap fun j => codeOf s (symAt s j)).length ≤ s.cfg.bitbufBits →
    ∃ e b d, run .encode s = .next e ∧ run .bcopy e = .next b ∧ run .decode b = .next d ∧
      d.errcode = 0 ∧ d.symoutLen.toNat = s.syminLen.toNat ∧
      HoldsWords d.mem (windowBase .symout)
        ((List.range s.syminLen.toNat).map fun j => wordOf (symAt s j)) ∧
      d.desyncCnt = 0 ∧ d.desync = false ∧ d.perrCnt = 0 ∧ d.perr = false

/-! ### The (7,4) coder -/

/-- HENC gives the one word of syndrome 0 with the value at the data positions (42_hamming.md R261,
R268). -/
def Obligations.HencGivesTheCodeword : Prop :=
  ∀ s : State, s.cfg.Legal → s.arg0.toNat ≤ 15 →
    let good := fun c : Bits => c.length = 7 ∧ synOf s.cfg c = 0 ∧
      ∀ k < 4, c.getD (s.cfg.hamDataPos.toList.getD k 0 - 1) false = s.arg0.getLsbD (3 - k)
    ∃ c, good c ∧ (∀ c', good c' → c' = c) ∧ hammingEnc s.cfg s.arg0.toNat = c ∧
      exec .henc s = .next { s with
        seqState := .idle
        done := true
        errcode := 0
        res0 := wordOf (valBits c) }

/-- The codebook of the reference instance (42_hamming.md R262). -/
def Obligations.ReferenceCodebook : Prop :=
  ∀ s : State, s.cfg = Config.reference →
    ∀ p ∈ ([(0, 0x00), (1, 0x71), (2, 0x32), (3, 0x43), (4, 0x54), (5, 0x25), (6, 0x66), (7, 0x17),
        (8, 0x68), (9, 0x19), (10, 0x5A), (11, 0x2B), (12, 0x3C), (13, 0x4D), (14, 0x0E),
        (15, 0x7F)] : List (Word × Word)),
      exec .henc { s with arg0 := p.1 } = .next { s with
        seqState := .idle
        done := true
        errcode := 0
        arg0 := p.1
        res0 := p.2 }

/-- Correction of single errors, and the distance of the code (42_hamming.md R266), on every legal
instance. -/
def Obligations.HammingCorrectsSingleErrors : Prop :=
  ∀ c : Config, c.Legal →
    (∀ x < 16, hammingDec c (hammingEnc c x) = { value := x, syn := 0, pos := 0, corrected := false }) ∧
    (∀ x < 16, ∀ e, 1 ≤ e → e ≤ 7 →
      hammingDec c (flipAt e (hammingEnc c x)) =
        { value := x, syn := c.hamCol e, pos := e, corrected := true }) ∧
    (∀ x < 16, ∀ y < 16, x ≠ y → 3 ≤ distance (hammingEnc c x) (hammingEnc c y)) ∧
    ∃ x < 16, ∃ y < 16, distance (hammingEnc c x) (hammingEnc c y) = 3

/-- Two flips in one block always show a nonzero syndrome and are corrected to a wrong value
(42_hamming.md R267). -/
def Obligations.HammingMiscorrectsDoubleErrors : Prop :=
  ∀ c : Config, c.Legal → ∀ x < 16, ∀ a b, 1 ≤ a → a ≤ 7 → 1 ≤ b → b ≤ 7 → a ≠ b →
    let d := hammingDec c (flipAt a (flipAt b (hammingEnc c x)))
    d.syn = c.hamCol a ^^^ c.hamCol b ∧ d.syn ≠ 0 ∧ d.corrected = true ∧ d.value ≠ x ∧
      d.value < 16 ∧ d.pos ≠ a ∧ d.pos ≠ b ∧ 1 ≤ d.pos ∧ d.pos ≤ 7 ∧ c.hamCol d.pos = d.syn

/-- HENCS writes the values' codewords one after another (42_hamming.md R270). -/
def Obligations.HencsConcatenatesCodewords : Prop :=
  ∀ s : State, s.cfg.Legal → SyminWritten s → s.syminLen.toNat ≤ s.cfg.symbufDepth →
    (∀ j < s.syminLen.toNat, symAt s j ≤ 15) → 7 * s.syminLen.toNat ≤ s.cfg.bitbufBits →
    ∃ t, exec .hencs s = .next t ∧ t.bitoutLen.toNat = 7 * s.syminLen.toNat ∧
      WritesBitout s t
        ((List.range s.syminLen.toNat).flatMap fun j => hammingEnc s.cfg (symAt s j)) ∧
      t = { s with
        seqState := .idle
        done := true
        errcode := 0
        res0 := wordOf s.syminLen.toNat
        bitoutLen := t.bitoutLen
        mem := t.mem }

/-- HDECB gives the value, the syndrome, the error position and whether a bit was corrected of the block in
ARG0 (42_hamming.md R260, R264, R265, R272). -/
def Obligations.HdecbDecodesTheBlock : Prop :=
  ∀ s : State, s.cfg.Legal →
    let c := fun j => s.arg0.getLsbD (7 - j)
    let syn := synOf s.cfg (wordBits s.arg0 7)
    let dpos := fun k => s.cfg.hamDataPos.toList.getD k 0
    ∃ (t : State) (e : Nat), exec .hdecb s = .next t ∧
      (if syn = 0 then e = 0 else 1 ≤ e ∧ e ≤ 7 ∧ s.cfg.hamCol e = syn) ∧
      t.res0.toNat < 16 ∧ (∀ k < 4, t.res0.getLsbD (3 - k) = (c (dpos k) != decide (e = dpos k))) ∧
      t = { s with
        seqState := .idle
        done := true
        errcode := 0
        hcorr := decide (syn ≠ 0)
        res0 := t.res0
        res1 := syn.setWidth 32
        res2 := wordOf e
        res3 := if syn = 0 then 0 else 1 }

/-- HDEC decodes the stream in blocks of 7 bits and writes a value and a record for each (42_hamming.md
R274; 10_state.md R87, R88, R90). -/
def Obligations.HdecDecodesEachBlock : Prop :=
  ∀ s : State, s.cfg.Legal → s.bitinLen.toNat ≤ s.cfg.bitbufBits → s.bitinLen.toNat % 7 = 0 →
    s.bitinLen.toNat / 7 ≤ s.cfg.symbufDepth → BitsWritten s .bitin s.bitinLen.toNat →
    let nb := s.bitinLen.toNat / 7
    let d := fun k =>
      hammingDec s.cfg (((bufferOf s .bitin s.bitinLen.toNat).drop (7 * k)).take 7)
    let nh := (List.range nb).countP fun k => (d k).corrected
    ∃ t, exec .hdec s = .next t ∧
      WritesRecords s t ((List.range nb).map fun k => (d k).value)
        ((List.range nb).map fun k => {
          type := .ham
          symbol := (d k).value
          start := 7 * k
          stop := 7 * k + 7
          w3 := (d k).syn.toNat + 16 * (d k).pos + (if (d k).corrected then 256 else 0) }) ∧
      t = { s with
        seqState := .idle
        done := true
        errcode := 0
        res0 := wordOf nb
        symoutLen := t.symoutLen
        rptLen := t.rptLen
        hcorrCnt := BitVec.ofNat 15 nh
        hcorr := decide (nh ≠ 0)
        mem := t.mem }

/-- HENCS, BCOPY and HDEC give the values back, and with one bit of BITIN flipped on the way they still do,
with one block reported (42_hamming.md R266, R270, R274). -/
def Obligations.HammingStreamSurvivesOneFlip : Prop :=
  ∀ s : State, s.cfg.Legal → SyminWritten s → s.syminLen.toNat ≤ s.cfg.symbufDepth →
    (∀ j < s.syminLen.toNat, symAt s j ≤ 15) → 7 * s.syminLen.toNat ≤ s.cfg.bitbufBits →
    let values := (List.range s.syminLen.toNat).map fun j => wordOf (symAt s j)
    ∃ e b d, run .hencs s = .next e ∧ run .bcopy e = .next b ∧ run .hdec b = .next d ∧
      d.errcode = 0 ∧ d.symoutLen.toNat = s.syminLen.toNat ∧
      HoldsWords d.mem (windowBase .symout) values ∧ d.hcorrCnt = 0 ∧ d.hcorr = false ∧
      ∀ k < 7 * s.syminLen.toNat,
        let b' := { b with mem := storeBit b.mem (windowBase .bitin) k (!bitAt b .bitin k) }
        ∃ d', run .hdec b' = .next d' ∧ d'.errcode = 0 ∧
          d'.symoutLen.toNat = s.syminLen.toNat ∧
          HoldsWords d'.mem (windowBase .symout) values ∧ d'.hcorrCnt = 1 ∧ d'.hcorr = true

/-! ### The LFSR generators -/

/-- LSTEP on a configured unit (43_lfsr.md R302, R303, R306): the leftmost bit is output, the others move
left by one, and the feedback enters on the right; LEN, TAPS and the other unit stay. -/
def Obligations.LstepShiftsTheRegister : Prop :=
  ∀ (s : State) (u : LfsrUnit),
    let l := lfsrOf s u
    let n := l.len.toNat
    1 ≤ n → n ≤ 32 →
    let out := l.state.getLsbD (n - 1)
    let tapped := (List.range n).map fun i => l.taps.getLsbD i &&
      (match s.cfg.tapPhase with
        | .pre => l.state.getLsbD i
        | .post => decide (0 < i) && l.state.getLsbD (i - 1))
    ∃ st : Word,
      exec (.lstep u) s = .next (withUnit u { l with state := st } { s with
        seqState := .idle
        done := true
        errcode := 0
        res0 := if out then 1 else 0 }) ∧
      ∀ k < 32, st.getLsbD k =
        if k = 0 then out != oddOnes tapped else decide (k < n) && l.state.getLsbD (k - 1)

/-- LGEN on a configured unit writes the unit's next `N` output bits and leaves the unit `N` steps on
(43_lfsr.md R307). -/
def Obligations.LgenWritesTheNextBits : Prop :=
  ∀ (s : State) (u : LfsrUnit), s.cfg.Legal → configured (lfsrOf s u) = true →
    s.arg0.toNat ≤ s.cfg.bitbufBits →
    let l := lfsrOf s u
    let n := s.arg0.toNat
    ∃ t, exec (.lgen u) s = .next t ∧
      WritesBitout s t ((List.range n).map (lfsrBit s.cfg.tapPhase l)) ∧
      t = withUnit u { l with state := wordOf (lfsrAfter s.cfg.tapPhase l n) } { s with
        seqState := .idle
        done := true
        errcode := 0
        res0 := s.arg0
        bitoutLen := t.bitoutLen
        mem := t.mem }

/-- The recurrence of the output under PRE, and the lock-up of the zero state under both phases
(43_lfsr.md R305). -/
def Obligations.LfsrOutputSatisfiesItsRecurrence : Prop :=
  ∀ l : Lfsr, configured l = true →
    (∀ k, lfsrBit .pre l (k + l.len.toNat) =
      (lfsrBit .pre l k != oddOnes ((List.range l.len.toNat).map fun i =>
        l.taps.getLsbD i && lfsrBit .pre l (k + l.len.toNat - 1 - i)))) ∧
    ∀ ph k, l.state.toNat % 2 ^ l.len.toNat = 0 →
      lfsrBit ph l k = false ∧ lfsrAfter ph l (k + 1) = 0

/-- SGGEN completes exactly when the selector outputs `N` ones (43_lfsr.md R308 to R310): after the step of
the `N`-th one, with A's bits at the selector's ones in BITOUT, both units that many steps on and the
number of steps in RES0; otherwise the block stays as it is (that the hang is a next state, unchanged, is
the model's choice, log entry 13). -/
def Obligations.SggenCompletesWithEnoughOnes : Prop :=
  ∀ s : State, s.cfg.Legal → configured s.lfsrA = true → configured s.lfsrS = true →
    s.arg0.toNat ≤ s.cfg.bitbufBits →
    let ph := s.cfg.tapPhase
    let ones := onesBefore ph s.lfsrS
    (∀ k, ones k = s.arg0.toNat → (∀ j < k, ones j < s.arg0.toNat) →
      ∃ t, exec .sggen s = .next t ∧ WritesBitout s t (decimated ph s.lfsrA s.lfsrS k) ∧
        t = { s with
          seqState := .idle
          done := true
          errcode := 0
          res0 := wordOf (min k (2 ^ 32 - 1))
          lfsrA := { s.lfsrA with state := wordOf (lfsrAfter ph s.lfsrA k) }
          lfsrS := { s.lfsrS with state := wordOf (lfsrAfter ph s.lfsrS k) }
          bitoutLen := t.bitoutLen
          mem := t.mem }) ∧
    ((∀ k, ones k < s.arg0.toNat) → exec .sggen s = .next s)

/-- The selector's sequence holds infinitely many ones exactly when one lies in its second run of `2^m`
bits, and otherwise all of them lie in its first (43_lfsr.md R309). -/
def Obligations.SelectorOnesAreDecidedInTwoRuns : Prop :=
  ∀ (ph : TapPhase) (l : Lfsr), configured l = true →
    let later := ∃ k, 2 ^ l.len.toNat ≤ k ∧ k < 2 ^ (l.len.toNat + 1) ∧ lfsrBit ph l k = true
    (later ↔ ∀ n, ∃ k, n ≤ onesBefore ph l k) ∧
      (¬ later → ∀ k, lfsrBit ph l k = true → k < 2 ^ l.len.toNat)

/-- An SGGEN that never ends is ended only by a reset (43_lfsr.md R309, 70_reset_and_hazards.md R502):
after any other move it is still in flight with the same units and the same count. That SEQ's move then
leaves the state as it is, is the model's choice (log entry 13). -/
def Obligations.HangEndsOnlyByReset : Prop :=
  ∀ (s t : State) (m : Move), s.seqState = .busy → decodeWord s.cmd = .ok .sggen →
    configured s.lfsrA = true → configured s.lfsrS = true → s.arg0.toNat ≤ s.cfg.bitbufBits →
    (∀ k, onesBefore s.cfg.tapPhase s.lfsrS k < s.arg0.toNat) → does m s = .next t →
    m = .powerOn ∨ (∃ v, m = .host (.write (s.cfg.blockBase + 0x004) 4 v) ∧ v.getLsbD 1 = true) ∨
      (t.seqState = .busy ∧ t.cmd = s.cmd ∧ t.lfsrA = s.lfsrA ∧ t.lfsrS = s.lfsrS ∧
        t.arg0 = s.arg0 ∧ t.cfg = s.cfg ∧ t.done = (s.done && t.done))

/-! ### The statistical tester -/

/-- CHISQ counts the zeros and ones of its sequence and gives the exact statistic and the exact decision
(44_statistics.md R341 to R344). -/
def Obligations.ChisqGivesTheExactStatistic : Prop :=
  ∀ (s : State) (b : BitSource),
    let m : MemName := match b with | .bitin => .bitin | .bitout => .bitout
    let n := match b with | .bitin => s.bitinLen.toNat | .bitout => s.bitoutLen.toNat
    0 < n → n ≤ s.cfg.bitbufBits → BitsWritten s m n →
    let n1 := (List.range n).countP (bitAt s m)
    let n0 := n - n1
    let d := ((n0 : Int) - (n1 : Int)).natAbs
    d ^ 2 * 2 ^ 16 / n < 2 ^ 31 ∧
    exec (.chisq b) s = .next { s with
      seqState := .idle
      done := true
      errcode := 0
      res0 := wordOf n0
      res1 := wordOf n1
      res2 := wordOf (d ^ 2 * 2 ^ 16 / n)
      res3 := if d ^ 2 * 2 ^ 16 < s.cfg.chiCrit * n then 1 else 0 }

/-- PERIOD gives the smallest period up to half the length, and the length where there is none
(44_statistics.md R346, R347). -/
def Obligations.PeriodGivesTheSmallestPeriod : Prop :=
  ∀ (s : State) (b : BitSource),
    let m : MemName := match b with | .bitin => .bitin | .bitout => .bitout
    let n := match b with | .bitin => s.bitinLen.toNat | .bitout => s.bitoutLen.toNat
    n ≤ s.cfg.bitbufBits → BitsWritten s m n →
    let periodic := fun p => ∀ i, i + p < n → bitAt s m i = bitAt s m (i + p)
    ∃ p, exec (.period b) s = .next { s with
        seqState := .idle
        done := true
        errcode := 0
        res0 := wordOf p } ∧
      (1 ≤ p ∧ p ≤ n / 2 ∧ periodic p ∧ (∀ q, 1 ≤ q → q < p → ¬ periodic q) ∨
        p = n ∧ ∀ q, 1 ≤ q → q ≤ n / 2 → ¬ periodic q)

/-! ### All commands and all steps -/

/-- A command writes no register outside its Writes list (10_state.md R40 to R42, R46, R47, R54, R55, R58 to
R61; 30_encoding.md R146; 43_lfsr.md R312). That a failed ADDPAR keeps RES2 and RES3, on which the spec's
texts disagree, is the model's choice (log entry 14). -/
def Obligations.CommandsWriteOnlyTheirRegisters : Prop :=
  ∀ (i : Instr) (s t : State), exec i s = .next t →
    let n := resColumn (opcodeOf i).toNat
    t.cmd = s.cmd ∧ t.ie = s.ie ∧ t.wbusy = s.wbusy ∧ t.arg0 = s.arg0 ∧ t.arg1 = s.arg1 ∧
    t.distCount = s.distCount ∧ t.syminLen = s.syminLen ∧ t.cfg = s.cfg ∧ t.schedule = s.schedule ∧
    t.hostData = s.hostData ∧ t.freeCount = s.freeCount ∧
    t.lfsrA.len = s.lfsrA.len ∧ t.lfsrA.taps = s.lfsrA.taps ∧
    t.lfsrS.len = s.lfsrS.len ∧ t.lfsrS.taps = s.lfsrS.taps ∧
    (n ≤ 0 → t.res0 = s.res0) ∧ (n ≤ 1 → t.res1 = s.res1) ∧ (n ≤ 2 → t.res2 = s.res2) ∧
    (n ≤ 3 → t.res3 = s.res3) ∧
    (i ≠ .bcopy → t.bitinLen = s.bitinLen) ∧ (i ≠ .build → t.codeCount = s.codeCount) ∧
    (i ∉ [.encode, .hencs, .lgen .a, .lgen .s, .sggen] → t.bitoutLen = s.bitoutLen) ∧
    (i ∉ [.decode, .hdec] → t.symoutLen = s.symoutLen ∧ t.rptLen = s.rptLen) ∧
    (i ∉ [.lstep .a, .lgen .a, .sggen] → t.lfsrA = s.lfsrA) ∧
    (i ∉ [.lstep .s, .lgen .s, .sggen] → t.lfsrS = s.lfsrS) ∧
    (i ≠ .decode → t.desync = s.desync ∧ t.desyncCnt = s.desyncCnt ∧ t.perrCnt = s.perrCnt) ∧
    (i ∉ [.decode, .stripchk] → t.perr = s.perr) ∧
    (i ≠ .hdec → t.hcorrCnt = s.hcorrCnt) ∧ (i ∉ [.hdec, .hdecb] → t.hcorr = s.hcorr)

/-- A command changes no byte outside the memories it writes (20_memory.md R118, 41_prefix_coder.md R233):
DIST and SYMIN never, CTAB at a BUILD only. -/
def Obligations.CommandsWriteOnlyTheirMemories : Prop :=
  ∀ (i : Instr) (s t : State), s.cfg.Legal → s.bitoutLen.toNat ≤ s.cfg.bitbufBits →
    exec i s = .next t → ∀ a, readByte t.mem a ≠ readByte s.mem a →
      (i = .build ∧ inWindow .ctab a) ∨
      (i ∈ [.encode, .hencs, .lgen .a, .lgen .s, .sggen] ∧ inWindow .bitout a) ∨
      (i ∈ [.decode, .hdec] ∧ (inWindow .symout a ∨ inWindow .rpt a)) ∨
      (i = .bcopy ∧ inWindow .bitin a)

/-- A command faults only on a position of its input that nothing has written, and with its whole input
written it answers a next state (10_state.md R93; 70_reset_and_hazards.md R508, R513). And it does fault:
with its lengths in range, DECODE, HDEC, CHISQ, PERIOD and BCOPY on the first unwritten position below the
length, and BUILD, ENCODE and HENCS on the first unwritten entry, unless an entry before it is in error.
That the first unwritten position is the one named, how a fault stands to an error, and that a position of
BITOUT faults too, are the model's choices (log entries 7 and 10), and so is that an SGGEN which never ends,
to which 43_lfsr.md R309 and 60_exceptions.md R400 give no completion, answers a next state (log entry 13). -/
def Obligations.OnlyUnwrittenInputFaults : Prop :=
  (∀ (i : Instr) (s : State),
    (InputsWritten s i → Continues (exec i s)) ∧
    (∀ r, exec i s ≠ .refused r) ∧
    ∀ m k, exec i s = .fault (.unwrittenRead m k) →
      (m = .dist ∧ i = .build ∧ k < s.distCount.toNat ∧ distEntry s k = none) ∨
      (m = .symin ∧ i ∈ [.encode, .hencs] ∧ k < s.syminLen.toNat ∧ syminEntry s k = none) ∨
      (m = .bitin ∧ i ∈ [.decode, .hdec, .chisq .bitin, .period .bitin] ∧ k < s.bitinLen.toNat ∧
        readBit s.mem (windowBase .bitin) k = none) ∨
      (m = .bitout ∧ i ∈ [.chisq .bitout, .period .bitout, .bcopy] ∧ k < s.bitoutLen.toNat ∧
        readBit s.mem (windowBase .bitout) k = none)) ∧
  ∀ (s : State) (k : Nat),
    let unwritten := fun (m : MemName) (n : Nat) =>
      k < n ∧ readBit s.mem (windowBase m) k = none ∧ BitsWritten s m k
    let present := fun j => symAt s j < s.cfg.maxSym ∧ (codeEntry s (symAt s j)).valid = true
    (unwritten .bitin s.bitinLen.toNat → s.bitinLen.toNat ≤ s.cfg.bitbufBits →
      exec .decode s = .fault (.unwrittenRead .bitin k) ∧
      (s.bitinLen.toNat % 7 = 0 → s.bitinLen.toNat / 7 ≤ s.cfg.symbufDepth →
        exec .hdec s = .fault (.unwrittenRead .bitin k)) ∧
      exec (.chisq .bitin) s = .fault (.unwrittenRead .bitin k) ∧
      exec (.period .bitin) s = .fault (.unwrittenRead .bitin k)) ∧
    (unwritten .bitout s.bitoutLen.toNat →
      exec .bcopy s = .fault (.unwrittenRead .bitout k) ∧
      (s.bitoutLen.toNat ≤ s.cfg.bitbufBits →
        exec (.chisq .bitout) s = .fault (.unwrittenRead .bitout k) ∧
        exec (.period .bitout) s = .fault (.unwrittenRead .bitout k))) ∧
    (s.distCount.toNat ≤ s.cfg.maxSym → k < s.distCount.toNat → distEntry s k = none →
      (∀ j < k, (distEntry s j).isSome ∧ numAt s j ≤ 2 ^ s.cfg.pw) →
      exec .build s = .fault (.unwrittenRead .dist k)) ∧
    (s.syminLen.toNat ≤ s.cfg.symbufDepth → k < s.syminLen.toNat → syminEntry s k = none →
      (∀ j < k, (syminEntry s j).isSome) →
      ((∀ j < k, present j) →
        ((List.range k).flatMap fun j => codeOf s (symAt s j)).length ≤ s.cfg.bitbufBits →
        exec .encode s = .fault (.unwrittenRead .symin k)) ∧
      ((∀ j < k, symAt s j ≤ 15) → 7 * k ≤ s.cfg.bitbufBits →
        exec .hencs s = .fault (.unwrittenRead .symin k)))

/-- What a command computes does not depend on IE, WBUSY, CMD, the host's pending moves or what the host
last read (20_memory.md R111, R119): run from states that differ only there, it does the same. -/
def Obligations.ResultsIgnoreTheHostsSide : Prop :=
  ∀ (i : Instr) (s t : State) (ie wbusy : Bool) (cmd data : Word) (n : Nat) (ms : List Move),
    exec i s = .next t →
    exec i { s with ie := ie, wbusy := wbusy, cmd := cmd, hostData := data, freeCount := n, schedule := ms } =
      .next { t with ie := ie, wbusy := wbusy, cmd := cmd, hostData := data, freeCount := n, schedule := ms }

/-- Every step keeps the invariant of the block. -/
def Obligations.StepKeepsTheInvariant : Prop :=
  ∀ s t : State, Inv s → step s = .next t → Inv t

/-- The invariant holds right after reset. -/
def Obligations.ResetHasTheInvariant : Prop := Inv State.reset
end

