-- ==== Sys2Proof/Laws/Memory.lean ====
section
/-! SUPPORT. What the memory operations do: what a read gives after a write, and that every operation
keeps the canonical form. -/

namespace Sys2Proof.Machine

/-! ### The cell lists -/

theorem lookup_putCell_same (a : Nat) (b : Byte) (l : List Host.Cell) :
    lookup a (putCell a b l) = some b := by
  induction l with
  | nil => simp [putCell, lookup]
  | cons c l ih =>
    obtain ⟨x, v⟩ := c
    unfold putCell
    split
    · next h => rw [lookup, if_neg (by omega), ih]
    · split <;> simp [lookup]

theorem lookup_putCell_other {a a' : Nat} (h : a' ≠ a) (b : Byte) (l : List Host.Cell) :
    lookup a' (putCell a b l) = lookup a' l := by
  induction l with
  | nil => simp [putCell, lookup, h.symm]
  | cons c l ih =>
    obtain ⟨x, v⟩ := c
    unfold putCell
    split
    · simp only [lookup, ih]
    · split
      · next hx => subst hx; simp [lookup, h.symm]
      · simp [lookup, h.symm]

theorem lookup_filter_true (p : Nat → Bool) {a : Nat} (h : p a = true) (l : List Host.Cell) :
    lookup a (l.filter fun c => p c.1) = lookup a l := by
  induction l with
  | nil => rfl
  | cons c l ih =>
    obtain ⟨x, v⟩ := c
    by_cases hx : x = a
    · subst hx; simp [h, lookup]
    · by_cases hp : p x = true <;> simp [hp, lookup, hx, ih]

theorem lookup_filter_false (p : Nat → Bool) {a : Nat} (h : p a = false) (l : List Host.Cell) :
    lookup a (l.filter fun c => p c.1) = none := by
  induction l with
  | nil => rfl
  | cons c l ih =>
    obtain ⟨x, v⟩ := c
    by_cases hx : x = a
    · subst hx; simp [h, ih]
    · by_cases hp : p x = true <;> simp [hp, lookup, hx, ih]

theorem lookup_updateCell_same (d : Option Byte) (a : Nat) (b : Byte) (l : List Host.Cell) :
    lookup a (updateCell d a b l) = if d = some b then none else some b := by
  unfold updateCell
  split
  · simpa using lookup_filter_false (fun x => decide (x ≠ a)) (a := a) (by simp) l
  · exact lookup_putCell_same a b l

theorem lookup_updateCell_other (d : Option Byte) {a a' : Nat} (h : a' ≠ a) (b : Byte)
    (l : List Host.Cell) : lookup a' (updateCell d a b l) = lookup a' l := by
  unfold updateCell
  split
  · exact lookup_filter_true (fun x => decide (x ≠ a)) (by simpa using h) l
  · exact lookup_putCell_other h b l

theorem lookup_some_mem {a : Nat} {b : Byte} {l : List Host.Cell} (h : lookup a l = some b) :
    (a, b) ∈ l := by
  induction l with
  | nil => simp [lookup] at h
  | cons c l ih =>
    obtain ⟨x, v⟩ := c
    rw [lookup] at h
    split at h
    · next hx => cases h; subst hx; exact List.mem_cons_self ..
    · exact List.mem_cons_of_mem _ (ih h)

theorem lookup_of_mem {a : Nat} {b : Byte} {l : List Host.Cell}
    (hs : l.Pairwise fun x y => x.1 < y.1) (h : (a, b) ∈ l) : lookup a l = some b := by
  induction l with
  | nil => simp at h
  | cons c l ih =>
    obtain ⟨x, v⟩ := c
    rw [List.pairwise_cons] at hs
    rcases List.mem_cons.1 h with h | h
    · cases h; simp [lookup]
    · have : x < a := hs.1 _ h
      rw [lookup, if_neg (by omega), ih hs.2 h]

theorem mem_putCell {a : Nat} {b : Byte} {l : List Host.Cell} {c : Host.Cell}
    (h : c ∈ putCell a b l) : c = (a, b) ∨ c ∈ l := by
  induction l with
  | nil => simpa [putCell] using h
  | cons x l ih =>
    obtain ⟨x, v⟩ := x
    unfold putCell at h
    split at h
    · rcases List.mem_cons.1 h with h | h
      · exact .inr (h ▸ List.mem_cons_self ..)
      · exact (ih h).imp_right (List.mem_cons_of_mem _)
    · split at h
      · exact (List.mem_cons.1 h).imp_right (List.mem_cons_of_mem _)
      · exact List.mem_cons.1 h

theorem putCell_sorted (a : Nat) (b : Byte) {l : List Host.Cell}
    (hs : l.Pairwise fun x y => x.1 < y.1) : (putCell a b l).Pairwise fun x y => x.1 < y.1 := by
  induction l with
  | nil => simp [putCell]
  | cons c l ih =>
    obtain ⟨x, v⟩ := c
    obtain ⟨h1, h2⟩ := List.pairwise_cons.1 hs
    unfold putCell
    split
    · next hx =>
      refine List.pairwise_cons.2 ⟨fun y hy => ?_, ih h2⟩
      rcases mem_putCell hy with rfl | hy
      · exact hx
      · exact h1 y hy
    · split
      · next hx => subst hx; exact List.pairwise_cons.2 ⟨h1, h2⟩
      · refine List.pairwise_cons.2 ⟨fun y hy => ?_, hs⟩
        rcases List.mem_cons.1 hy with rfl | hy
        · show a < x; omega
        · have : x < y.1 := h1 y hy
          show a < y.1; omega

theorem Canonical.filter {d : Nat → Option Byte} {l : List Host.Cell} (h : Canonical d l)
    (p : Host.Cell → Bool) : Canonical d (l.filter p) :=
  ⟨h.1.filter p, fun c hc => h.2 c (List.mem_of_mem_filter hc)⟩

theorem Canonical.updateCell {d : Nat → Option Byte} {l : List Host.Cell} (h : Canonical d l)
    (a : Nat) (b : Byte) : Canonical d (updateCell (d a) a b l) := by
  unfold Machine.updateCell
  split
  · exact h.filter _
  · next hd =>
    refine ⟨putCell_sorted a b h.1, fun c hc => ?_⟩
    rcases mem_putCell hc with rfl | hc
    · exact hd
    · exact h.2 c hc

/-! ### Bytes -/

/-- Storing bits of a byte changes no other byte. -/
theorem readByte_storeByte_other (m : Memory) {a a' : Nat} (h : a' ≠ a) (v bits : Byte) :
    readByte (storeByte m a v bits) a' = readByte m a' := by
  simp only [readByte, storeByte, lookup_updateCell_other _ h]

/-- Storing bits of a byte of a data memory sets those bits and leaves the others as they were. -/
theorem readByte_storeByte_same (m : Memory) {a : Nat} (h : unlisted a = none) (v bits : Byte) :
    readByte (storeByte m a v bits) a =
      { value := ((readByte m a).value &&& ~~~bits) ||| (v &&& bits)
        undef := (readByte m a).undef &&& ~~~bits } := by
  rw [readByte]
  simp only [storeByte, lookup_updateCell_same, h]
  by_cases hz : (readByte m a).undef &&& ~~~bits = 0
  · simp [hz]
  · simp [show ¬ (0#8 = (readByte m a).undef &&& ~~~bits) from fun e => hz e.symm]

theorem byte_full : (0xFF : Byte) = BitVec.allOnes 8 := by decide

/-- Storing a whole byte: it reads as stored, with every bit written, in every memory. -/
theorem readByte_storeByte_full (m : Memory) (a : Nat) (v : Byte) :
    readByte (storeByte m a v 0xFF) a = { value := v, undef := 0 } := by
  have e1 : ((readByte m a).value &&& ~~~(0xFF : Byte)) ||| (v &&& 0xFF) = v := by
    simp only [byte_full, BitVec.not_allOnes, BitVec.and_zero, BitVec.zero_or, BitVec.and_allOnes]
  have e2 : (readByte m a).undef &&& ~~~(0xFF : Byte) = 0 := by
    rw [byte_full]; simp
  rw [readByte]
  simp only [storeByte, lookup_updateCell_same, e1, e2]
  by_cases h : unlisted a = some v
  · simp [h]
  · simp [h]

theorem readByte_reset (a : Nat) :
    readByte Memory.reset a =
      { value := 0, undef := if inWindow .ctab a then 0 else 0xFF } := by
  by_cases h : inWindow .ctab a <;> simp [readByte, Memory.reset, lookup, unlisted, h]

/-- Forgetting a window leaves the bytes outside it. -/
theorem readByte_forget_outside (n : MemName) (m : Memory) {a : Nat} (h : inWindow n a = false) :
    readByte (forget n m) a = readByte m a := by
  simp only [readByte, forget, lookup_filter_true (fun x => !inWindow n x) (a := a) (by simp [h])]

/-- Forgetting a window leaves its bytes as after a reset. -/
theorem readByte_forget_inside (n : MemName) (m : Memory) {a : Nat} (h : inWindow n a = true) :
    readByte (forget n m) a = readByte Memory.reset a := by
  simp only [readByte, forget, lookup_filter_false (fun x => !inWindow n x) (a := a) (by simp [h]),
    Memory.reset, lookup]

/-! ### The canonical form -/

theorem Memory.reset_wf : Memory.reset.wf := by decide

/-- The third clause of the canonical form, said with `lookup`. -/
abbrev HolesOk (m : Memory) : Prop :=
  ∀ a u, lookup a m.holes = some u → u ≠ 0xFF ∧ ∃ b, lookup a m.cells = some b ∧ b &&& u = 0

theorem Memory.wf_iff (m : Memory) :
    m.wf ↔ Canonical unlisted m.cells ∧ Canonical (fun _ => some 0) m.holes ∧ HolesOk m := by
  refine and_congr_right fun hc => and_congr_right fun hh => ⟨fun h a u hu => ?_, fun h c hm => ?_⟩
  · obtain ⟨h1, ⟨x, b⟩, hc', rfl, e2⟩ := h _ (lookup_some_mem hu)
    exact ⟨h1, b, lookup_of_mem hc.1 hc', e2⟩
  · obtain ⟨h1, b, hb, e2⟩ := h c.1 c.2 (lookup_of_mem hh.1 hm)
    exact ⟨h1, (c.1, b), lookup_some_mem hb, rfl, e2⟩

/-- In canonical memory the bits of a byte that nothing has stored hold 0. -/
theorem readByte_value_undef {m : Memory} (h : m.wf) (a : Nat) :
    (readByte m a).value &&& (readByte m a).undef = 0 := by
  obtain ⟨-, -, hj⟩ := (Memory.wf_iff m).1 h
  unfold readByte
  split
  · next b hb =>
    cases hu : lookup a m.holes with
    | none => simp
    | some u =>
      obtain ⟨-, b', hb', e⟩ := hj a u hu
      rw [hb] at hb'
      cases hb'
      simpa using e
  · split <;> simp

theorem undef_after_store_ne (x bits : Byte) (hb : bits ≠ 0) : x &&& ~~~bits ≠ 0xFF := by
  intro h
  apply hb
  ext i hi
  have := congrArg (fun z : Byte => z.getLsbD i) h
  simp only [byte_full, BitVec.getLsbD_and, BitVec.getLsbD_not, BitVec.getLsbD_allOnes, hi,
    decide_true, Bool.true_and, Bool.and_eq_true, Bool.not_eq_true'] at this
  simpa [BitVec.getLsbD_eq_getElem hi] using this.2

theorem value_after_store_undef (x y v bits : Byte) (h : x &&& y = 0) :
    ((x &&& ~~~bits) ||| (v &&& bits)) &&& (y &&& ~~~bits) = 0 := by
  ext i hi
  have := congrArg (fun z : Byte => z.getLsbD i) h
  simp at this ⊢
  grind

/-- Storing some bits of a byte keeps the canonical form; in CTAB, where no bit is unwritten, whole
bytes are stored. -/
theorem storeByte_wf {m : Memory} (h : m.wf) (a : Nat) (v : Byte) {bits : Byte} (hb : bits ≠ 0)
    (ha : bits = 0xFF ∨ unlisted a = none) : (storeByte m a v bits).wf := by
  have hval := readByte_value_undef h a
  obtain ⟨hc, hh, hj⟩ := (Memory.wf_iff m).1 h
  refine (Memory.wf_iff _).2 ⟨hc.updateCell a _, hh.updateCell (d := fun _ => some 0) a _, ?_⟩
  intro a' u hu
  by_cases haa : a' = a
  · subst haa
    simp only [storeByte, lookup_updateCell_same] at hu ⊢
    split at hu
    · cases hu
    · next hne =>
      cases hu
      have hd : unlisted a' = none := by
        rcases ha with rfl | ha
        · exact absurd (by simp : (0 : Byte) = (readByte m a').undef &&& ~~~(0xFF : Byte))
            (by simp at hne)
        · exact ha
      exact ⟨undef_after_store_ne _ _ hb, _, by rw [if_neg (by simp [hd])],
        value_after_store_undef _ _ _ _ hval⟩
  · simp only [storeByte, lookup_updateCell_other _ haa] at hu ⊢
    exact hj a' u hu

theorem storeWord_wf {m : Memory} (h : m.wf) (a : Nat) (w : Word) : (storeWord m a w).wf := by
  have hb : (0xFF : Byte) ≠ 0 := by decide
  exact storeByte_wf (storeByte_wf (storeByte_wf (storeByte_wf h _ _ hb (.inl rfl)) _ _ hb (.inl rfl))
    _ _ hb (.inl rfl)) _ _ hb (.inl rfl)

theorem storeWords_wf {m : Memory} (h : m.wf) (a : Nat) (ws : List Word) : (storeWords m a ws).wf := by
  induction ws generalizing m a with
  | nil => exact h
  | cons w ws ih => exact ih (storeWord_wf h a w) _

theorem bitPlace_lt (k : Nat) : bitPlace k < 8 := by unfold bitPlace; omega

theorem bitMask_getLsbD (k p : Nat) : (bitMask k).getLsbD p = decide (bitPlace k = p) := by
  simp only [bitMask, BitVec.getLsbD_twoPow, bitPlace_lt, decide_true, Bool.true_and]

theorem bitMask_ne_zero (k : Nat) : bitMask k ≠ 0 := by
  intro h
  have := bitMask_getLsbD k (bitPlace k)
  rw [h] at this
  simp at this

theorem unlisted_above_ctab {a : Nat} (h : 0x06000 ≤ a) : unlisted a = none := by
  have : ¬ (a < 0x6000) := by omega
  simp [unlisted, inWindow, windowBase, windowBytes, this]

/-- Both bit buffers lie above CTAB. -/
theorem unlisted_bitByte {base : Nat} (h : 0x06000 ≤ base) (k : Nat) :
    unlisted (bitByte base k) = none :=
  unlisted_above_ctab (by unfold bitByte; omega)

theorem storeBit_wf {m : Memory} (h : m.wf) {base : Nat} (hbase : 0x06000 ≤ base) (k : Nat) (b : Bool) :
    (storeBit m base k b).wf :=
  storeByte_wf h _ _ (bitMask_ne_zero k) (.inr (unlisted_bitByte hbase k))

theorem storeBits_wf {m : Memory} (h : m.wf) {base : Nat} (hbase : 0x06000 ≤ base) (k : Nat) (x : Bits) :
    (storeBits m base k x).wf := by
  induction x generalizing m k with
  | nil => exact h
  | cons b x ih => exact ih (storeBit_wf h hbase k b) _

theorem forget_wf {m : Memory} (h : m.wf) (n : MemName) : (forget n m).wf := by
  obtain ⟨hc, hh, hj⟩ := (Memory.wf_iff m).1 h
  refine (Memory.wf_iff _).2 ⟨hc.filter _, hh.filter _, ?_⟩
  intro a u hu
  by_cases hw : inWindow n a = true
  · simp [forget, lookup_filter_false (fun x => !inWindow n x) (a := a) (by simp [hw])] at hu
  · have hk := fun l => lookup_filter_true (fun x => !inWindow n x) (a := a) (by simp [hw]) l
    simp only [forget, hk] at hu ⊢
    exact hj a u hu

/-! ### Words -/

/-- The four bytes of a stored word hold it, and no other byte changes. -/
theorem readByte_storeWord (m : Memory) (a a' : Nat) (w : Word) :
    readByte (storeWord m a w) a' =
      if a' = a then { value := w.extractLsb' 0 8, undef := 0 }
      else if a' = a + 1 then { value := w.extractLsb' 8 8, undef := 0 }
      else if a' = a + 2 then { value := w.extractLsb' 16 8, undef := 0 }
      else if a' = a + 3 then { value := w.extractLsb' 24 8, undef := 0 }
      else readByte m a' := by
  unfold storeWord
  by_cases h3 : a' = a + 3
  · subst h3
    rw [readByte_storeByte_full, if_neg (by omega), if_neg (by omega), if_neg (by omega), if_pos rfl]
  rw [readByte_storeByte_other _ h3]
  by_cases h2 : a' = a + 2
  · subst h2
    rw [readByte_storeByte_full, if_neg (by omega), if_neg (by omega), if_pos rfl]
  rw [readByte_storeByte_other _ h2]
  by_cases h1 : a' = a + 1
  · subst h1
    rw [readByte_storeByte_full, if_neg (by omega), if_pos rfl]
  rw [readByte_storeByte_other _ h1]
  by_cases h0 : a' = a
  · subst h0
    rw [readByte_storeByte_full, if_pos rfl]
  rw [readByte_storeByte_other _ h0, if_neg h0, if_neg h1, if_neg h2, if_neg h3]

/-- A stored word reads back whole, every bit written. -/
theorem readWord_storeWord_same (m : Memory) (a : Nat) (w : Word) :
    readWord (storeWord m a w) a = { value := w, undef := 0 } := by
  have e : w.extractLsb' 24 8 ++ w.extractLsb' 16 8 ++ w.extractLsb' 8 8 ++ w.extractLsb' 0 8 = w := by
    apply BitVec.eq_of_getLsbD_eq
    intro i hi
    simp only [BitVec.getLsbD_append, BitVec.getLsbD_extractLsb']
    grind
  simp [readWord, readByte_storeWord, e]

/-- Storing a word changes no word that shares no byte with it. -/
theorem readWord_storeWord_other (m : Memory) {a a' : Nat} (h : a' + 4 ≤ a ∨ a + 4 ≤ a') (w : Word) :
    readWord (storeWord m a w) a' = readWord m a' := by
  unfold readWord
  rw [readByte_storeWord, readByte_storeWord, readByte_storeWord, readByte_storeWord]
  simp only [show a' ≠ a by omega, show a' ≠ a + 1 by omega, show a' ≠ a + 2 by omega,
    show a' ≠ a + 3 by omega, show a' + 1 ≠ a by omega, show a' + 1 ≠ a + 1 by omega,
    show a' + 1 ≠ a + 2 by omega, show a' + 1 ≠ a + 3 by omega, show a' + 2 ≠ a by omega,
    show a' + 2 ≠ a + 1 by omega, show a' + 2 ≠ a + 2 by omega, show a' + 2 ≠ a + 3 by omega,
    show a' + 3 ≠ a by omega, show a' + 3 ≠ a + 1 by omega, show a' + 3 ≠ a + 2 by omega,
    show a' + 3 ≠ a + 3 by omega, if_false]

/-- Storing words changes no byte outside them. -/
theorem readByte_storeWords_outside (m : Memory) {a a' : Nat} (ws : List Word)
    (h : a' < a ∨ a + 4 * ws.length ≤ a') : readByte (storeWords m a ws) a' = readByte m a' := by
  induction ws generalizing m a with
  | nil => rfl
  | cons w ws ih =>
    simp only [List.length_cons] at h
    rw [storeWords, ih _ (by omega), readByte_storeWord]
    simp only [show a' ≠ a by omega, show a' ≠ a + 1 by omega, show a' ≠ a + 2 by omega,
      show a' ≠ a + 3 by omega, if_false]

/-- The words stored read back in order. -/
theorem readWord_storeWords (m : Memory) (a : Nat) (ws : List Word) (i : Nat) (h : i < ws.length) :
    readWord (storeWords m a ws) (a + 4 * i) = { value := ws[i], undef := 0 } := by
  induction ws generalizing m a i with
  | nil => simp at h
  | cons w ws ih =>
    cases i with
    | zero =>
      have hb := fun j => readByte_storeWords_outside (storeWord m a w) (a := a + 4) (a' := a + j) ws
      have := readWord_storeWord_same m a w
      rw [storeWords]
      simp only [readWord, Nat.mul_zero, Nat.add_zero, List.getElem_cons_zero] at this ⊢
      rw [← this]
      have h0 := hb 0 (by omega)
      simp only [Nat.add_zero] at h0
      rw [h0, hb 1 (by omega), hb 2 (by omega), hb 3 (by omega)]
    | succ i =>
      have := ih (storeWord m a w) (a + 4) i (by simpa using h)
      rw [show a + 4 + 4 * i = a + 4 * (i + 1) by omega] at this
      simpa [storeWords] using this

/-! ### Bits -/

/-- Two positions of a bit buffer with the same byte and the same place are one. -/
theorem bitByte_bitPlace_inj {base k j : Nat} (h1 : bitByte base k = bitByte base j)
    (h2 : bitPlace k = bitPlace j) : k = j := by
  unfold bitByte at h1; unfold bitPlace at h2; omega

theorem readBit_storeBit_same (m : Memory) {base : Nat} (hbase : 0x06000 ≤ base) (k : Nat) (b : Bool) :
    readBit (storeBit m base k b) base k = some b := by
  unfold readBit storeBit
  rw [readByte_storeByte_same _ (unlisted_bitByte hbase k)]
  cases b <;>
    simp only [BitVec.getLsbD_or, BitVec.getLsbD_and, BitVec.getLsbD_not, bitMask_getLsbD,
      bitPlace_lt, byte_full, BitVec.getLsbD_allOnes, decide_true, Bool.not_true, Bool.and_false,
      Bool.and_true, Bool.or_true, Bool.false_or, if_true, Bool.false_eq_true, if_false] <;> simp

theorem readBit_storeBit_other (m : Memory) {base base' : Nat} (hbase : 0x06000 ≤ base) {j k : Nat}
    (h : bitByte base' j ≠ bitByte base k ∨ bitPlace j ≠ bitPlace k) (b : Bool) :
    readBit (storeBit m base k b) base' j = readBit m base' j := by
  unfold readBit storeBit
  by_cases hb : bitByte base' j = bitByte base k
  · have hq : bitPlace k ≠ bitPlace j := fun e => h.resolve_left (absurd hb) e.symm
    rw [hb, readByte_storeByte_same _ (unlisted_bitByte hbase k)]
    simp only [BitVec.getLsbD_or, BitVec.getLsbD_and, BitVec.getLsbD_not, bitMask_getLsbD, hq,
      bitPlace_lt, decide_true, decide_false, Bool.not_false, Bool.and_true, Bool.and_false,
      Bool.or_false]
  · rw [readByte_storeByte_other _ hb]

/-- Storing bits of a buffer sets the positions stored and leaves the buffer's other positions. -/
theorem readBit_storeBits (m : Memory) {base : Nat} (hbase : 0x06000 ≤ base) (k : Nat) (x : Bits)
    (j : Nat) :
    readBit (storeBits m base k x) base j =
      if k ≤ j then (if h : j - k < x.length then some x[j - k] else readBit m base j)
      else readBit m base j := by
  induction x generalizing m k with
  | nil => simp [storeBits]
  | cons b x ih =>
    rw [storeBits, ih]
    by_cases hj : j = k
    · subst hj
      simp [readBit_storeBit_same m hbase]
    · have hne : bitByte base j ≠ bitByte base k ∨ bitPlace j ≠ bitPlace k := by
        by_contra hc
        push Not at hc
        exact hj (bitByte_bitPlace_inj hc.1 hc.2)
      rw [readBit_storeBit_other m hbase hne]
      by_cases hk : k ≤ j
      · have hk1 : k + 1 ≤ j := by omega
        have e : j - k = (j - (k + 1)) + 1 := by omega
        simp only [hk, hk1, if_true, List.length_cons]
        by_cases hl : j - (k + 1) < x.length
        · rw [dif_pos hl, dif_pos (by omega)]
          simp [e]
        · rw [dif_neg hl, dif_neg (by omega)]
      · simp [hk, show ¬ k + 1 ≤ j by omega]

/-- A byte that holds none of the positions stored does not change. -/
theorem readByte_storeBits_outside (m : Memory) (base k : Nat) (x : Bits) {a : Nat}
    (h : ∀ j, k ≤ j → j < k + x.length → a ≠ bitByte base j) :
    readByte (storeBits m base k x) a = readByte m a := by
  induction x generalizing m k with
  | nil => rfl
  | cons b x ih =>
    rw [storeBits, ih _ _ (fun j h1 h2 => h j (by omega) (by simp only [List.length_cons]; omega)),
      storeBit, readByte_storeByte_other _ (h k (by omega) (by simp))]

/-- Reading bits succeeds exactly when each position is written, and gives the positions' bits. -/
theorem readBits_ok_iff (m : Memory) (base n k : Nat) (x : Bits) :
    readBits m base n k = .ok x ↔
      x.length = n ∧ ∀ i (h : i < x.length), readBit m base (k + i) = some x[i] := by
  induction n generalizing k x with
  | zero => cases x <;> simp [readBits]
  | succ n ih =>
    unfold readBits
    cases hb : readBit m base k with
    | none =>
      simp only [reduceCtorEq, false_iff, not_and, not_forall]
      intro hl
      exact ⟨0, by omega, by simp [hb]⟩
    | some b =>
      cases x with
      | nil => cases readBits m base n (k + 1) <;> simp
      | cons c x =>
        have ih' := ih (k + 1) x
        have key : (b = c ∧ readBits m base n (k + 1) = .ok x) ↔
            ((c :: x).length = n + 1 ∧
              ∀ i (h : i < (c :: x).length), readBit m base (k + i) = some (c :: x)[i]) := by
          rw [ih']
          constructor
          · rintro ⟨rfl, hl, h⟩
            refine ⟨by simpa using hl, fun i hi => ?_⟩
            cases i with
            | zero => simpa using hb
            | succ i =>
              have := h i (by simpa using hi)
              rw [show k + 1 + i = k + (i + 1) by omega] at this
              simpa using this
          · rintro ⟨hl, h⟩
            have h0 := h 0 (by simp)
            refine ⟨by simpa [hb] using h0, by simpa using hl, fun i hi => ?_⟩
            have := h (i + 1) (by simpa using hi)
            rw [show k + (i + 1) = k + 1 + i by omega] at this
            simpa using this
        rw [← key]
        cases readBits m base n (k + 1) <;> simp [and_comm]

/-- A run of positions with an unwritten one stops at the first. -/
theorem readBits_unwritten {M : Memory} {base : Nat} : ∀ {n k i : Nat}, k < n →
    readBit M base (i + k) = none → (∀ j < k, (readBit M base (i + j)).isSome) →
    readBits M base n i = .error (i + k)
  | 0, _, _, h, _, _ => absurd h (Nat.not_lt_zero _)
  | n + 1, 0, i, _, h0, _ => by simp only [Nat.add_zero] at h0; simp [readBits, h0]
  | n + 1, k + 1, i, hk, h0, hj => by
    obtain ⟨b, hb⟩ := Option.isSome_iff_exists.mp (hj 0 (by omega))
    have ih := readBits_unwritten (M := M) (base := base) (n := n) (k := k) (i := i + 1) (by omega)
      (by rw [← h0]; congr 1; omega)
      (fun j hjk => by rw [show i + 1 + j = i + (j + 1) by omega]; exact hj (j + 1) (by omega))
    simp only [Nat.add_zero] at hb
    simp only [readBits, hb, ih]
    congr 1; omega

/-- Reading bits fails at a position, and only there, that nothing has stored. -/
theorem readBits_error {m : Memory} {base n k e : Nat} (h : readBits m base n k = .error e) :
    k ≤ e ∧ e < k + n ∧ readBit m base e = none := by
  induction n generalizing k with
  | zero => simp [readBits] at h
  | succ n ih =>
    unfold readBits at h
    cases hb : readBit m base k with
    | none => simp only [hb] at h; cases h; exact ⟨le_refl _, by omega, hb⟩
    | some b =>
      simp only [hb] at h
      cases hr : readBits m base n (k + 1) with
      | error e' => rw [hr] at h; cases h; have := ih hr; exact ⟨by omega, by omega, this.2.2⟩
      | ok x => rw [hr] at h; cases h

end Sys2Proof.Machine
end

