-- ==== Sys2Proof/Laws/State.lean ====
section
/-! SUPPORT. One lemma per field per update of State: what each named update leaves in each field, true
by unfolding the update once, so that no later proof unfolds a record update. -/

namespace Sys2Proof.Machine

/-! ### `writeStatus` -/

@[simp] theorem writeStatus_seqState (v : Word) (s : State) : (writeStatus v s).seqState = s.seqState := rfl
@[simp] theorem writeStatus_cmd (v : Word) (s : State) : (writeStatus v s).cmd = s.cmd := rfl
@[simp] theorem writeStatus_ie (v : Word) (s : State) : (writeStatus v s).ie = s.ie := rfl
@[simp] theorem writeStatus_done (v : Word) (s : State) : (writeStatus v s).done = (s.done && !v.getLsbD 1) := rfl
@[simp] theorem writeStatus_desync (v : Word) (s : State) : (writeStatus v s).desync = s.desync := rfl
@[simp] theorem writeStatus_perr (v : Word) (s : State) : (writeStatus v s).perr = s.perr := rfl
@[simp] theorem writeStatus_hcorr (v : Word) (s : State) : (writeStatus v s).hcorr = s.hcorr := rfl
@[simp] theorem writeStatus_wbusy (v : Word) (s : State) : (writeStatus v s).wbusy = (s.wbusy && !v.getLsbD 6) := rfl
@[simp] theorem writeStatus_errcode (v : Word) (s : State) : (writeStatus v s).errcode = s.errcode := rfl
@[simp] theorem writeStatus_arg0 (v : Word) (s : State) : (writeStatus v s).arg0 = s.arg0 := rfl
@[simp] theorem writeStatus_arg1 (v : Word) (s : State) : (writeStatus v s).arg1 = s.arg1 := rfl
@[simp] theorem writeStatus_res0 (v : Word) (s : State) : (writeStatus v s).res0 = s.res0 := rfl
@[simp] theorem writeStatus_res1 (v : Word) (s : State) : (writeStatus v s).res1 = s.res1 := rfl
@[simp] theorem writeStatus_res2 (v : Word) (s : State) : (writeStatus v s).res2 = s.res2 := rfl
@[simp] theorem writeStatus_res3 (v : Word) (s : State) : (writeStatus v s).res3 = s.res3 := rfl
@[simp] theorem writeStatus_distCount (v : Word) (s : State) : (writeStatus v s).distCount = s.distCount := rfl
@[simp] theorem writeStatus_syminLen (v : Word) (s : State) : (writeStatus v s).syminLen = s.syminLen := rfl
@[simp] theorem writeStatus_symoutLen (v : Word) (s : State) : (writeStatus v s).symoutLen = s.symoutLen := rfl
@[simp] theorem writeStatus_bitinLen (v : Word) (s : State) : (writeStatus v s).bitinLen = s.bitinLen := rfl
@[simp] theorem writeStatus_bitoutLen (v : Word) (s : State) : (writeStatus v s).bitoutLen = s.bitoutLen := rfl
@[simp] theorem writeStatus_rptLen (v : Word) (s : State) : (writeStatus v s).rptLen = s.rptLen := rfl
@[simp] theorem writeStatus_codeCount (v : Word) (s : State) : (writeStatus v s).codeCount = s.codeCount := rfl
@[simp] theorem writeStatus_lfsrA (v : Word) (s : State) : (writeStatus v s).lfsrA = s.lfsrA := rfl
@[simp] theorem writeStatus_lfsrS (v : Word) (s : State) : (writeStatus v s).lfsrS = s.lfsrS := rfl
@[simp] theorem writeStatus_desyncCnt (v : Word) (s : State) : (writeStatus v s).desyncCnt = s.desyncCnt := rfl
@[simp] theorem writeStatus_perrCnt (v : Word) (s : State) : (writeStatus v s).perrCnt = s.perrCnt := rfl
@[simp] theorem writeStatus_hcorrCnt (v : Word) (s : State) : (writeStatus v s).hcorrCnt = s.hcorrCnt := rfl
@[simp] theorem writeStatus_mem (v : Word) (s : State) : (writeStatus v s).mem = s.mem := rfl
@[simp] theorem writeStatus_cfg (v : Word) (s : State) : (writeStatus v s).cfg = s.cfg := rfl
@[simp] theorem writeStatus_schedule (v : Word) (s : State) : (writeStatus v s).schedule = s.schedule := rfl
@[simp] theorem writeStatus_hostData (v : Word) (s : State) : (writeStatus v s).hostData = s.hostData := rfl
@[simp] theorem writeStatus_freeCount (v : Word) (s : State) : (writeStatus v s).freeCount = s.freeCount := rfl

/-! ### `clearReports` -/

@[simp] theorem clearReports_seqState (s : State) : (clearReports s).seqState = s.seqState := rfl
@[simp] theorem clearReports_cmd (s : State) : (clearReports s).cmd = s.cmd := rfl
@[simp] theorem clearReports_ie (s : State) : (clearReports s).ie = s.ie := rfl
@[simp] theorem clearReports_done (s : State) : (clearReports s).done = s.done := rfl
@[simp] theorem clearReports_desync (s : State) : (clearReports s).desync = false := rfl
@[simp] theorem clearReports_perr (s : State) : (clearReports s).perr = false := rfl
@[simp] theorem clearReports_hcorr (s : State) : (clearReports s).hcorr = false := rfl
@[simp] theorem clearReports_wbusy (s : State) : (clearReports s).wbusy = s.wbusy := rfl
@[simp] theorem clearReports_errcode (s : State) : (clearReports s).errcode = s.errcode := rfl
@[simp] theorem clearReports_arg0 (s : State) : (clearReports s).arg0 = s.arg0 := rfl
@[simp] theorem clearReports_arg1 (s : State) : (clearReports s).arg1 = s.arg1 := rfl
@[simp] theorem clearReports_res0 (s : State) : (clearReports s).res0 = s.res0 := rfl
@[simp] theorem clearReports_res1 (s : State) : (clearReports s).res1 = s.res1 := rfl
@[simp] theorem clearReports_res2 (s : State) : (clearReports s).res2 = s.res2 := rfl
@[simp] theorem clearReports_res3 (s : State) : (clearReports s).res3 = s.res3 := rfl
@[simp] theorem clearReports_distCount (s : State) : (clearReports s).distCount = s.distCount := rfl
@[simp] theorem clearReports_syminLen (s : State) : (clearReports s).syminLen = s.syminLen := rfl
@[simp] theorem clearReports_symoutLen (s : State) : (clearReports s).symoutLen = s.symoutLen := rfl
@[simp] theorem clearReports_bitinLen (s : State) : (clearReports s).bitinLen = s.bitinLen := rfl
@[simp] theorem clearReports_bitoutLen (s : State) : (clearReports s).bitoutLen = s.bitoutLen := rfl
@[simp] theorem clearReports_rptLen (s : State) : (clearReports s).rptLen = s.rptLen := rfl
@[simp] theorem clearReports_codeCount (s : State) : (clearReports s).codeCount = s.codeCount := rfl
@[simp] theorem clearReports_lfsrA (s : State) : (clearReports s).lfsrA = s.lfsrA := rfl
@[simp] theorem clearReports_lfsrS (s : State) : (clearReports s).lfsrS = s.lfsrS := rfl
@[simp] theorem clearReports_desyncCnt (s : State) : (clearReports s).desyncCnt = 0 := rfl
@[simp] theorem clearReports_perrCnt (s : State) : (clearReports s).perrCnt = 0 := rfl
@[simp] theorem clearReports_hcorrCnt (s : State) : (clearReports s).hcorrCnt = 0 := rfl
@[simp] theorem clearReports_mem (s : State) : (clearReports s).mem = s.mem := rfl
@[simp] theorem clearReports_cfg (s : State) : (clearReports s).cfg = s.cfg := rfl
@[simp] theorem clearReports_schedule (s : State) : (clearReports s).schedule = s.schedule := rfl
@[simp] theorem clearReports_hostData (s : State) : (clearReports s).hostData = s.hostData := rfl
@[simp] theorem clearReports_freeCount (s : State) : (clearReports s).freeCount = s.freeCount := rfl

/-! ### `reportDecode` -/

@[simp] theorem reportDecode_seqState (nd np : Nat) (s : State) : (reportDecode nd np s).seqState = s.seqState := rfl
@[simp] theorem reportDecode_cmd (nd np : Nat) (s : State) : (reportDecode nd np s).cmd = s.cmd := rfl
@[simp] theorem reportDecode_ie (nd np : Nat) (s : State) : (reportDecode nd np s).ie = s.ie := rfl
@[simp] theorem reportDecode_done (nd np : Nat) (s : State) : (reportDecode nd np s).done = s.done := rfl
@[simp] theorem reportDecode_desync (nd np : Nat) (s : State) : (reportDecode nd np s).desync = decide (0 < nd) := rfl
@[simp] theorem reportDecode_perr (nd np : Nat) (s : State) : (reportDecode nd np s).perr = decide (0 < np) := rfl
@[simp] theorem reportDecode_hcorr (nd np : Nat) (s : State) : (reportDecode nd np s).hcorr = s.hcorr := rfl
@[simp] theorem reportDecode_wbusy (nd np : Nat) (s : State) : (reportDecode nd np s).wbusy = s.wbusy := rfl
@[simp] theorem reportDecode_errcode (nd np : Nat) (s : State) : (reportDecode nd np s).errcode = s.errcode := rfl
@[simp] theorem reportDecode_arg0 (nd np : Nat) (s : State) : (reportDecode nd np s).arg0 = s.arg0 := rfl
@[simp] theorem reportDecode_arg1 (nd np : Nat) (s : State) : (reportDecode nd np s).arg1 = s.arg1 := rfl
@[simp] theorem reportDecode_res0 (nd np : Nat) (s : State) : (reportDecode nd np s).res0 = s.res0 := rfl
@[simp] theorem reportDecode_res1 (nd np : Nat) (s : State) : (reportDecode nd np s).res1 = s.res1 := rfl
@[simp] theorem reportDecode_res2 (nd np : Nat) (s : State) : (reportDecode nd np s).res2 = s.res2 := rfl
@[simp] theorem reportDecode_res3 (nd np : Nat) (s : State) : (reportDecode nd np s).res3 = s.res3 := rfl
@[simp] theorem reportDecode_distCount (nd np : Nat) (s : State) : (reportDecode nd np s).distCount = s.distCount := rfl
@[simp] theorem reportDecode_syminLen (nd np : Nat) (s : State) : (reportDecode nd np s).syminLen = s.syminLen := rfl
@[simp] theorem reportDecode_symoutLen (nd np : Nat) (s : State) : (reportDecode nd np s).symoutLen = s.symoutLen := rfl
@[simp] theorem reportDecode_bitinLen (nd np : Nat) (s : State) : (reportDecode nd np s).bitinLen = s.bitinLen := rfl
@[simp] theorem reportDecode_bitoutLen (nd np : Nat) (s : State) : (reportDecode nd np s).bitoutLen = s.bitoutLen := rfl
@[simp] theorem reportDecode_rptLen (nd np : Nat) (s : State) : (reportDecode nd np s).rptLen = s.rptLen := rfl
@[simp] theorem reportDecode_codeCount (nd np : Nat) (s : State) : (reportDecode nd np s).codeCount = s.codeCount := rfl
@[simp] theorem reportDecode_lfsrA (nd np : Nat) (s : State) : (reportDecode nd np s).lfsrA = s.lfsrA := rfl
@[simp] theorem reportDecode_lfsrS (nd np : Nat) (s : State) : (reportDecode nd np s).lfsrS = s.lfsrS := rfl
@[simp] theorem reportDecode_desyncCnt (nd np : Nat) (s : State) : (reportDecode nd np s).desyncCnt = BitVec.ofNat 15 nd := rfl
@[simp] theorem reportDecode_perrCnt (nd np : Nat) (s : State) : (reportDecode nd np s).perrCnt = BitVec.ofNat 15 np := rfl
@[simp] theorem reportDecode_hcorrCnt (nd np : Nat) (s : State) : (reportDecode nd np s).hcorrCnt = s.hcorrCnt := rfl
@[simp] theorem reportDecode_mem (nd np : Nat) (s : State) : (reportDecode nd np s).mem = s.mem := rfl
@[simp] theorem reportDecode_cfg (nd np : Nat) (s : State) : (reportDecode nd np s).cfg = s.cfg := rfl
@[simp] theorem reportDecode_schedule (nd np : Nat) (s : State) : (reportDecode nd np s).schedule = s.schedule := rfl
@[simp] theorem reportDecode_hostData (nd np : Nat) (s : State) : (reportDecode nd np s).hostData = s.hostData := rfl
@[simp] theorem reportDecode_freeCount (nd np : Nat) (s : State) : (reportDecode nd np s).freeCount = s.freeCount := rfl

/-! ### `reportParity` -/

@[simp] theorem reportParity_seqState (k : Nat) (s : State) : (reportParity k s).seqState = s.seqState := rfl
@[simp] theorem reportParity_cmd (k : Nat) (s : State) : (reportParity k s).cmd = s.cmd := rfl
@[simp] theorem reportParity_ie (k : Nat) (s : State) : (reportParity k s).ie = s.ie := rfl
@[simp] theorem reportParity_done (k : Nat) (s : State) : (reportParity k s).done = s.done := rfl
@[simp] theorem reportParity_desync (k : Nat) (s : State) : (reportParity k s).desync = s.desync := rfl
@[simp] theorem reportParity_perr (k : Nat) (s : State) : (reportParity k s).perr = decide (k ≠ 0) := rfl
@[simp] theorem reportParity_hcorr (k : Nat) (s : State) : (reportParity k s).hcorr = s.hcorr := rfl
@[simp] theorem reportParity_wbusy (k : Nat) (s : State) : (reportParity k s).wbusy = s.wbusy := rfl
@[simp] theorem reportParity_errcode (k : Nat) (s : State) : (reportParity k s).errcode = s.errcode := rfl
@[simp] theorem reportParity_arg0 (k : Nat) (s : State) : (reportParity k s).arg0 = s.arg0 := rfl
@[simp] theorem reportParity_arg1 (k : Nat) (s : State) : (reportParity k s).arg1 = s.arg1 := rfl
@[simp] theorem reportParity_res0 (k : Nat) (s : State) : (reportParity k s).res0 = s.res0 := rfl
@[simp] theorem reportParity_res1 (k : Nat) (s : State) : (reportParity k s).res1 = s.res1 := rfl
@[simp] theorem reportParity_res2 (k : Nat) (s : State) : (reportParity k s).res2 = s.res2 := rfl
@[simp] theorem reportParity_res3 (k : Nat) (s : State) : (reportParity k s).res3 = s.res3 := rfl
@[simp] theorem reportParity_distCount (k : Nat) (s : State) : (reportParity k s).distCount = s.distCount := rfl
@[simp] theorem reportParity_syminLen (k : Nat) (s : State) : (reportParity k s).syminLen = s.syminLen := rfl
@[simp] theorem reportParity_symoutLen (k : Nat) (s : State) : (reportParity k s).symoutLen = s.symoutLen := rfl
@[simp] theorem reportParity_bitinLen (k : Nat) (s : State) : (reportParity k s).bitinLen = s.bitinLen := rfl
@[simp] theorem reportParity_bitoutLen (k : Nat) (s : State) : (reportParity k s).bitoutLen = s.bitoutLen := rfl
@[simp] theorem reportParity_rptLen (k : Nat) (s : State) : (reportParity k s).rptLen = s.rptLen := rfl
@[simp] theorem reportParity_codeCount (k : Nat) (s : State) : (reportParity k s).codeCount = s.codeCount := rfl
@[simp] theorem reportParity_lfsrA (k : Nat) (s : State) : (reportParity k s).lfsrA = s.lfsrA := rfl
@[simp] theorem reportParity_lfsrS (k : Nat) (s : State) : (reportParity k s).lfsrS = s.lfsrS := rfl
@[simp] theorem reportParity_desyncCnt (k : Nat) (s : State) : (reportParity k s).desyncCnt = s.desyncCnt := rfl
@[simp] theorem reportParity_perrCnt (k : Nat) (s : State) : (reportParity k s).perrCnt = s.perrCnt := rfl
@[simp] theorem reportParity_hcorrCnt (k : Nat) (s : State) : (reportParity k s).hcorrCnt = s.hcorrCnt := rfl
@[simp] theorem reportParity_mem (k : Nat) (s : State) : (reportParity k s).mem = s.mem := rfl
@[simp] theorem reportParity_cfg (k : Nat) (s : State) : (reportParity k s).cfg = s.cfg := rfl
@[simp] theorem reportParity_schedule (k : Nat) (s : State) : (reportParity k s).schedule = s.schedule := rfl
@[simp] theorem reportParity_hostData (k : Nat) (s : State) : (reportParity k s).hostData = s.hostData := rfl
@[simp] theorem reportParity_freeCount (k : Nat) (s : State) : (reportParity k s).freeCount = s.freeCount := rfl

/-! ### `reportHamming` -/

@[simp] theorem reportHamming_seqState (nh : Nat) (s : State) : (reportHamming nh s).seqState = s.seqState := rfl
@[simp] theorem reportHamming_cmd (nh : Nat) (s : State) : (reportHamming nh s).cmd = s.cmd := rfl
@[simp] theorem reportHamming_ie (nh : Nat) (s : State) : (reportHamming nh s).ie = s.ie := rfl
@[simp] theorem reportHamming_done (nh : Nat) (s : State) : (reportHamming nh s).done = s.done := rfl
@[simp] theorem reportHamming_desync (nh : Nat) (s : State) : (reportHamming nh s).desync = s.desync := rfl
@[simp] theorem reportHamming_perr (nh : Nat) (s : State) : (reportHamming nh s).perr = s.perr := rfl
@[simp] theorem reportHamming_hcorr (nh : Nat) (s : State) : (reportHamming nh s).hcorr = decide (0 < nh) := rfl
@[simp] theorem reportHamming_wbusy (nh : Nat) (s : State) : (reportHamming nh s).wbusy = s.wbusy := rfl
@[simp] theorem reportHamming_errcode (nh : Nat) (s : State) : (reportHamming nh s).errcode = s.errcode := rfl
@[simp] theorem reportHamming_arg0 (nh : Nat) (s : State) : (reportHamming nh s).arg0 = s.arg0 := rfl
@[simp] theorem reportHamming_arg1 (nh : Nat) (s : State) : (reportHamming nh s).arg1 = s.arg1 := rfl
@[simp] theorem reportHamming_res0 (nh : Nat) (s : State) : (reportHamming nh s).res0 = s.res0 := rfl
@[simp] theorem reportHamming_res1 (nh : Nat) (s : State) : (reportHamming nh s).res1 = s.res1 := rfl
@[simp] theorem reportHamming_res2 (nh : Nat) (s : State) : (reportHamming nh s).res2 = s.res2 := rfl
@[simp] theorem reportHamming_res3 (nh : Nat) (s : State) : (reportHamming nh s).res3 = s.res3 := rfl
@[simp] theorem reportHamming_distCount (nh : Nat) (s : State) : (reportHamming nh s).distCount = s.distCount := rfl
@[simp] theorem reportHamming_syminLen (nh : Nat) (s : State) : (reportHamming nh s).syminLen = s.syminLen := rfl
@[simp] theorem reportHamming_symoutLen (nh : Nat) (s : State) : (reportHamming nh s).symoutLen = s.symoutLen := rfl
@[simp] theorem reportHamming_bitinLen (nh : Nat) (s : State) : (reportHamming nh s).bitinLen = s.bitinLen := rfl
@[simp] theorem reportHamming_bitoutLen (nh : Nat) (s : State) : (reportHamming nh s).bitoutLen = s.bitoutLen := rfl
@[simp] theorem reportHamming_rptLen (nh : Nat) (s : State) : (reportHamming nh s).rptLen = s.rptLen := rfl
@[simp] theorem reportHamming_codeCount (nh : Nat) (s : State) : (reportHamming nh s).codeCount = s.codeCount := rfl
@[simp] theorem reportHamming_lfsrA (nh : Nat) (s : State) : (reportHamming nh s).lfsrA = s.lfsrA := rfl
@[simp] theorem reportHamming_lfsrS (nh : Nat) (s : State) : (reportHamming nh s).lfsrS = s.lfsrS := rfl
@[simp] theorem reportHamming_desyncCnt (nh : Nat) (s : State) : (reportHamming nh s).desyncCnt = s.desyncCnt := rfl
@[simp] theorem reportHamming_perrCnt (nh : Nat) (s : State) : (reportHamming nh s).perrCnt = s.perrCnt := rfl
@[simp] theorem reportHamming_hcorrCnt (nh : Nat) (s : State) : (reportHamming nh s).hcorrCnt = BitVec.ofNat 15 nh := rfl
@[simp] theorem reportHamming_mem (nh : Nat) (s : State) : (reportHamming nh s).mem = s.mem := rfl
@[simp] theorem reportHamming_cfg (nh : Nat) (s : State) : (reportHamming nh s).cfg = s.cfg := rfl
@[simp] theorem reportHamming_schedule (nh : Nat) (s : State) : (reportHamming nh s).schedule = s.schedule := rfl
@[simp] theorem reportHamming_hostData (nh : Nat) (s : State) : (reportHamming nh s).hostData = s.hostData := rfl
@[simp] theorem reportHamming_freeCount (nh : Nat) (s : State) : (reportHamming nh s).freeCount = s.freeCount := rfl

/-! ### `reportBlock` -/

@[simp] theorem reportBlock_seqState (b : Bool) (s : State) : (reportBlock b s).seqState = s.seqState := rfl
@[simp] theorem reportBlock_cmd (b : Bool) (s : State) : (reportBlock b s).cmd = s.cmd := rfl
@[simp] theorem reportBlock_ie (b : Bool) (s : State) : (reportBlock b s).ie = s.ie := rfl
@[simp] theorem reportBlock_done (b : Bool) (s : State) : (reportBlock b s).done = s.done := rfl
@[simp] theorem reportBlock_desync (b : Bool) (s : State) : (reportBlock b s).desync = s.desync := rfl
@[simp] theorem reportBlock_perr (b : Bool) (s : State) : (reportBlock b s).perr = s.perr := rfl
@[simp] theorem reportBlock_hcorr (b : Bool) (s : State) : (reportBlock b s).hcorr = b := rfl
@[simp] theorem reportBlock_wbusy (b : Bool) (s : State) : (reportBlock b s).wbusy = s.wbusy := rfl
@[simp] theorem reportBlock_errcode (b : Bool) (s : State) : (reportBlock b s).errcode = s.errcode := rfl
@[simp] theorem reportBlock_arg0 (b : Bool) (s : State) : (reportBlock b s).arg0 = s.arg0 := rfl
@[simp] theorem reportBlock_arg1 (b : Bool) (s : State) : (reportBlock b s).arg1 = s.arg1 := rfl
@[simp] theorem reportBlock_res0 (b : Bool) (s : State) : (reportBlock b s).res0 = s.res0 := rfl
@[simp] theorem reportBlock_res1 (b : Bool) (s : State) : (reportBlock b s).res1 = s.res1 := rfl
@[simp] theorem reportBlock_res2 (b : Bool) (s : State) : (reportBlock b s).res2 = s.res2 := rfl
@[simp] theorem reportBlock_res3 (b : Bool) (s : State) : (reportBlock b s).res3 = s.res3 := rfl
@[simp] theorem reportBlock_distCount (b : Bool) (s : State) : (reportBlock b s).distCount = s.distCount := rfl
@[simp] theorem reportBlock_syminLen (b : Bool) (s : State) : (reportBlock b s).syminLen = s.syminLen := rfl
@[simp] theorem reportBlock_symoutLen (b : Bool) (s : State) : (reportBlock b s).symoutLen = s.symoutLen := rfl
@[simp] theorem reportBlock_bitinLen (b : Bool) (s : State) : (reportBlock b s).bitinLen = s.bitinLen := rfl
@[simp] theorem reportBlock_bitoutLen (b : Bool) (s : State) : (reportBlock b s).bitoutLen = s.bitoutLen := rfl
@[simp] theorem reportBlock_rptLen (b : Bool) (s : State) : (reportBlock b s).rptLen = s.rptLen := rfl
@[simp] theorem reportBlock_codeCount (b : Bool) (s : State) : (reportBlock b s).codeCount = s.codeCount := rfl
@[simp] theorem reportBlock_lfsrA (b : Bool) (s : State) : (reportBlock b s).lfsrA = s.lfsrA := rfl
@[simp] theorem reportBlock_lfsrS (b : Bool) (s : State) : (reportBlock b s).lfsrS = s.lfsrS := rfl
@[simp] theorem reportBlock_desyncCnt (b : Bool) (s : State) : (reportBlock b s).desyncCnt = s.desyncCnt := rfl
@[simp] theorem reportBlock_perrCnt (b : Bool) (s : State) : (reportBlock b s).perrCnt = s.perrCnt := rfl
@[simp] theorem reportBlock_hcorrCnt (b : Bool) (s : State) : (reportBlock b s).hcorrCnt = s.hcorrCnt := rfl
@[simp] theorem reportBlock_mem (b : Bool) (s : State) : (reportBlock b s).mem = s.mem := rfl
@[simp] theorem reportBlock_cfg (b : Bool) (s : State) : (reportBlock b s).cfg = s.cfg := rfl
@[simp] theorem reportBlock_schedule (b : Bool) (s : State) : (reportBlock b s).schedule = s.schedule := rfl
@[simp] theorem reportBlock_hostData (b : Bool) (s : State) : (reportBlock b s).hostData = s.hostData := rfl
@[simp] theorem reportBlock_freeCount (b : Bool) (s : State) : (reportBlock b s).freeCount = s.freeCount := rfl

/-! ### `issue` -/

@[simp] theorem issue_seqState (v : Word) (s : State) : (issue v s).seqState = .busy := rfl
@[simp] theorem issue_cmd (v : Word) (s : State) : (issue v s).cmd = v := rfl
@[simp] theorem issue_ie (v : Word) (s : State) : (issue v s).ie = s.ie := rfl
@[simp] theorem issue_done (v : Word) (s : State) : (issue v s).done = false := rfl
@[simp] theorem issue_desync (v : Word) (s : State) : (issue v s).desync = false := rfl
@[simp] theorem issue_perr (v : Word) (s : State) : (issue v s).perr = false := rfl
@[simp] theorem issue_hcorr (v : Word) (s : State) : (issue v s).hcorr = false := rfl
@[simp] theorem issue_wbusy (v : Word) (s : State) : (issue v s).wbusy = s.wbusy := rfl
@[simp] theorem issue_errcode (v : Word) (s : State) : (issue v s).errcode = 0 := rfl
@[simp] theorem issue_arg0 (v : Word) (s : State) : (issue v s).arg0 = s.arg0 := rfl
@[simp] theorem issue_arg1 (v : Word) (s : State) : (issue v s).arg1 = s.arg1 := rfl
@[simp] theorem issue_res0 (v : Word) (s : State) : (issue v s).res0 = s.res0 := rfl
@[simp] theorem issue_res1 (v : Word) (s : State) : (issue v s).res1 = s.res1 := rfl
@[simp] theorem issue_res2 (v : Word) (s : State) : (issue v s).res2 = s.res2 := rfl
@[simp] theorem issue_res3 (v : Word) (s : State) : (issue v s).res3 = s.res3 := rfl
@[simp] theorem issue_distCount (v : Word) (s : State) : (issue v s).distCount = s.distCount := rfl
@[simp] theorem issue_syminLen (v : Word) (s : State) : (issue v s).syminLen = s.syminLen := rfl
@[simp] theorem issue_symoutLen (v : Word) (s : State) : (issue v s).symoutLen = s.symoutLen := rfl
@[simp] theorem issue_bitinLen (v : Word) (s : State) : (issue v s).bitinLen = s.bitinLen := rfl
@[simp] theorem issue_bitoutLen (v : Word) (s : State) : (issue v s).bitoutLen = s.bitoutLen := rfl
@[simp] theorem issue_rptLen (v : Word) (s : State) : (issue v s).rptLen = s.rptLen := rfl
@[simp] theorem issue_codeCount (v : Word) (s : State) : (issue v s).codeCount = s.codeCount := rfl
@[simp] theorem issue_lfsrA (v : Word) (s : State) : (issue v s).lfsrA = s.lfsrA := rfl
@[simp] theorem issue_lfsrS (v : Word) (s : State) : (issue v s).lfsrS = s.lfsrS := rfl
@[simp] theorem issue_desyncCnt (v : Word) (s : State) : (issue v s).desyncCnt = 0 := rfl
@[simp] theorem issue_perrCnt (v : Word) (s : State) : (issue v s).perrCnt = 0 := rfl
@[simp] theorem issue_hcorrCnt (v : Word) (s : State) : (issue v s).hcorrCnt = 0 := rfl
@[simp] theorem issue_mem (v : Word) (s : State) : (issue v s).mem = s.mem := rfl
@[simp] theorem issue_cfg (v : Word) (s : State) : (issue v s).cfg = s.cfg := rfl
@[simp] theorem issue_schedule (v : Word) (s : State) : (issue v s).schedule = s.schedule := rfl
@[simp] theorem issue_hostData (v : Word) (s : State) : (issue v s).hostData = s.hostData := rfl
@[simp] theorem issue_freeCount (v : Word) (s : State) : (issue v s).freeCount = s.freeCount := rfl

/-! ### `finish` -/

@[simp] theorem finish_seqState (c : BitVec 8) (s : State) : (finish c s).seqState = .idle := rfl
@[simp] theorem finish_cmd (c : BitVec 8) (s : State) : (finish c s).cmd = s.cmd := rfl
@[simp] theorem finish_ie (c : BitVec 8) (s : State) : (finish c s).ie = s.ie := rfl
@[simp] theorem finish_done (c : BitVec 8) (s : State) : (finish c s).done = true := rfl
@[simp] theorem finish_desync (c : BitVec 8) (s : State) : (finish c s).desync = s.desync := rfl
@[simp] theorem finish_perr (c : BitVec 8) (s : State) : (finish c s).perr = s.perr := rfl
@[simp] theorem finish_hcorr (c : BitVec 8) (s : State) : (finish c s).hcorr = s.hcorr := rfl
@[simp] theorem finish_wbusy (c : BitVec 8) (s : State) : (finish c s).wbusy = s.wbusy := rfl
@[simp] theorem finish_errcode (c : BitVec 8) (s : State) : (finish c s).errcode = c := rfl
@[simp] theorem finish_arg0 (c : BitVec 8) (s : State) : (finish c s).arg0 = s.arg0 := rfl
@[simp] theorem finish_arg1 (c : BitVec 8) (s : State) : (finish c s).arg1 = s.arg1 := rfl
@[simp] theorem finish_res0 (c : BitVec 8) (s : State) : (finish c s).res0 = s.res0 := rfl
@[simp] theorem finish_res1 (c : BitVec 8) (s : State) : (finish c s).res1 = s.res1 := rfl
@[simp] theorem finish_res2 (c : BitVec 8) (s : State) : (finish c s).res2 = s.res2 := rfl
@[simp] theorem finish_res3 (c : BitVec 8) (s : State) : (finish c s).res3 = s.res3 := rfl
@[simp] theorem finish_distCount (c : BitVec 8) (s : State) : (finish c s).distCount = s.distCount := rfl
@[simp] theorem finish_syminLen (c : BitVec 8) (s : State) : (finish c s).syminLen = s.syminLen := rfl
@[simp] theorem finish_symoutLen (c : BitVec 8) (s : State) : (finish c s).symoutLen = s.symoutLen := rfl
@[simp] theorem finish_bitinLen (c : BitVec 8) (s : State) : (finish c s).bitinLen = s.bitinLen := rfl
@[simp] theorem finish_bitoutLen (c : BitVec 8) (s : State) : (finish c s).bitoutLen = s.bitoutLen := rfl
@[simp] theorem finish_rptLen (c : BitVec 8) (s : State) : (finish c s).rptLen = s.rptLen := rfl
@[simp] theorem finish_codeCount (c : BitVec 8) (s : State) : (finish c s).codeCount = s.codeCount := rfl
@[simp] theorem finish_lfsrA (c : BitVec 8) (s : State) : (finish c s).lfsrA = s.lfsrA := rfl
@[simp] theorem finish_lfsrS (c : BitVec 8) (s : State) : (finish c s).lfsrS = s.lfsrS := rfl
@[simp] theorem finish_desyncCnt (c : BitVec 8) (s : State) : (finish c s).desyncCnt = s.desyncCnt := rfl
@[simp] theorem finish_perrCnt (c : BitVec 8) (s : State) : (finish c s).perrCnt = s.perrCnt := rfl
@[simp] theorem finish_hcorrCnt (c : BitVec 8) (s : State) : (finish c s).hcorrCnt = s.hcorrCnt := rfl
@[simp] theorem finish_mem (c : BitVec 8) (s : State) : (finish c s).mem = s.mem := rfl
@[simp] theorem finish_cfg (c : BitVec 8) (s : State) : (finish c s).cfg = s.cfg := rfl
@[simp] theorem finish_schedule (c : BitVec 8) (s : State) : (finish c s).schedule = s.schedule := rfl
@[simp] theorem finish_hostData (c : BitVec 8) (s : State) : (finish c s).hostData = s.hostData := rfl
@[simp] theorem finish_freeCount (c : BitVec 8) (s : State) : (finish c s).freeCount = s.freeCount := rfl

/-! ### `complete` -/

@[simp] theorem complete_seqState (s : State) : (complete s).seqState = .idle := rfl
@[simp] theorem complete_cmd (s : State) : (complete s).cmd = s.cmd := rfl
@[simp] theorem complete_ie (s : State) : (complete s).ie = s.ie := rfl
@[simp] theorem complete_done (s : State) : (complete s).done = true := rfl
@[simp] theorem complete_desync (s : State) : (complete s).desync = s.desync := rfl
@[simp] theorem complete_perr (s : State) : (complete s).perr = s.perr := rfl
@[simp] theorem complete_hcorr (s : State) : (complete s).hcorr = s.hcorr := rfl
@[simp] theorem complete_wbusy (s : State) : (complete s).wbusy = s.wbusy := rfl
@[simp] theorem complete_errcode (s : State) : (complete s).errcode = 0 := rfl
@[simp] theorem complete_arg0 (s : State) : (complete s).arg0 = s.arg0 := rfl
@[simp] theorem complete_arg1 (s : State) : (complete s).arg1 = s.arg1 := rfl
@[simp] theorem complete_res0 (s : State) : (complete s).res0 = s.res0 := rfl
@[simp] theorem complete_res1 (s : State) : (complete s).res1 = s.res1 := rfl
@[simp] theorem complete_res2 (s : State) : (complete s).res2 = s.res2 := rfl
@[simp] theorem complete_res3 (s : State) : (complete s).res3 = s.res3 := rfl
@[simp] theorem complete_distCount (s : State) : (complete s).distCount = s.distCount := rfl
@[simp] theorem complete_syminLen (s : State) : (complete s).syminLen = s.syminLen := rfl
@[simp] theorem complete_symoutLen (s : State) : (complete s).symoutLen = s.symoutLen := rfl
@[simp] theorem complete_bitinLen (s : State) : (complete s).bitinLen = s.bitinLen := rfl
@[simp] theorem complete_bitoutLen (s : State) : (complete s).bitoutLen = s.bitoutLen := rfl
@[simp] theorem complete_rptLen (s : State) : (complete s).rptLen = s.rptLen := rfl
@[simp] theorem complete_codeCount (s : State) : (complete s).codeCount = s.codeCount := rfl
@[simp] theorem complete_lfsrA (s : State) : (complete s).lfsrA = s.lfsrA := rfl
@[simp] theorem complete_lfsrS (s : State) : (complete s).lfsrS = s.lfsrS := rfl
@[simp] theorem complete_desyncCnt (s : State) : (complete s).desyncCnt = s.desyncCnt := rfl
@[simp] theorem complete_perrCnt (s : State) : (complete s).perrCnt = s.perrCnt := rfl
@[simp] theorem complete_hcorrCnt (s : State) : (complete s).hcorrCnt = s.hcorrCnt := rfl
@[simp] theorem complete_mem (s : State) : (complete s).mem = s.mem := rfl
@[simp] theorem complete_cfg (s : State) : (complete s).cfg = s.cfg := rfl
@[simp] theorem complete_schedule (s : State) : (complete s).schedule = s.schedule := rfl
@[simp] theorem complete_hostData (s : State) : (complete s).hostData = s.hostData := rfl
@[simp] theorem complete_freeCount (s : State) : (complete s).freeCount = s.freeCount := rfl

/-! ### `zeroRes` -/

@[simp] theorem zeroRes_seqState (n : Nat) (s : State) : (zeroRes n s).seqState = s.seqState := rfl
@[simp] theorem zeroRes_cmd (n : Nat) (s : State) : (zeroRes n s).cmd = s.cmd := rfl
@[simp] theorem zeroRes_ie (n : Nat) (s : State) : (zeroRes n s).ie = s.ie := rfl
@[simp] theorem zeroRes_done (n : Nat) (s : State) : (zeroRes n s).done = s.done := rfl
@[simp] theorem zeroRes_desync (n : Nat) (s : State) : (zeroRes n s).desync = s.desync := rfl
@[simp] theorem zeroRes_perr (n : Nat) (s : State) : (zeroRes n s).perr = s.perr := rfl
@[simp] theorem zeroRes_hcorr (n : Nat) (s : State) : (zeroRes n s).hcorr = s.hcorr := rfl
@[simp] theorem zeroRes_wbusy (n : Nat) (s : State) : (zeroRes n s).wbusy = s.wbusy := rfl
@[simp] theorem zeroRes_errcode (n : Nat) (s : State) : (zeroRes n s).errcode = s.errcode := rfl
@[simp] theorem zeroRes_arg0 (n : Nat) (s : State) : (zeroRes n s).arg0 = s.arg0 := rfl
@[simp] theorem zeroRes_arg1 (n : Nat) (s : State) : (zeroRes n s).arg1 = s.arg1 := rfl
@[simp] theorem zeroRes_res0 (n : Nat) (s : State) : (zeroRes n s).res0 = if 0 < n then 0 else s.res0 := rfl
@[simp] theorem zeroRes_res1 (n : Nat) (s : State) : (zeroRes n s).res1 = if 1 < n then 0 else s.res1 := rfl
@[simp] theorem zeroRes_res2 (n : Nat) (s : State) : (zeroRes n s).res2 = if 2 < n then 0 else s.res2 := rfl
@[simp] theorem zeroRes_res3 (n : Nat) (s : State) : (zeroRes n s).res3 = if 3 < n then 0 else s.res3 := rfl
@[simp] theorem zeroRes_distCount (n : Nat) (s : State) : (zeroRes n s).distCount = s.distCount := rfl
@[simp] theorem zeroRes_syminLen (n : Nat) (s : State) : (zeroRes n s).syminLen = s.syminLen := rfl
@[simp] theorem zeroRes_symoutLen (n : Nat) (s : State) : (zeroRes n s).symoutLen = s.symoutLen := rfl
@[simp] theorem zeroRes_bitinLen (n : Nat) (s : State) : (zeroRes n s).bitinLen = s.bitinLen := rfl
@[simp] theorem zeroRes_bitoutLen (n : Nat) (s : State) : (zeroRes n s).bitoutLen = s.bitoutLen := rfl
@[simp] theorem zeroRes_rptLen (n : Nat) (s : State) : (zeroRes n s).rptLen = s.rptLen := rfl
@[simp] theorem zeroRes_codeCount (n : Nat) (s : State) : (zeroRes n s).codeCount = s.codeCount := rfl
@[simp] theorem zeroRes_lfsrA (n : Nat) (s : State) : (zeroRes n s).lfsrA = s.lfsrA := rfl
@[simp] theorem zeroRes_lfsrS (n : Nat) (s : State) : (zeroRes n s).lfsrS = s.lfsrS := rfl
@[simp] theorem zeroRes_desyncCnt (n : Nat) (s : State) : (zeroRes n s).desyncCnt = s.desyncCnt := rfl
@[simp] theorem zeroRes_perrCnt (n : Nat) (s : State) : (zeroRes n s).perrCnt = s.perrCnt := rfl
@[simp] theorem zeroRes_hcorrCnt (n : Nat) (s : State) : (zeroRes n s).hcorrCnt = s.hcorrCnt := rfl
@[simp] theorem zeroRes_mem (n : Nat) (s : State) : (zeroRes n s).mem = s.mem := rfl
@[simp] theorem zeroRes_cfg (n : Nat) (s : State) : (zeroRes n s).cfg = s.cfg := rfl
@[simp] theorem zeroRes_schedule (n : Nat) (s : State) : (zeroRes n s).schedule = s.schedule := rfl
@[simp] theorem zeroRes_hostData (n : Nat) (s : State) : (zeroRes n s).hostData = s.hostData := rfl
@[simp] theorem zeroRes_freeCount (n : Nat) (s : State) : (zeroRes n s).freeCount = s.freeCount := rfl

/-! ### `dropBitout` -/

@[simp] theorem dropBitout_seqState (s : State) : (dropBitout s).seqState = s.seqState := rfl
@[simp] theorem dropBitout_cmd (s : State) : (dropBitout s).cmd = s.cmd := rfl
@[simp] theorem dropBitout_ie (s : State) : (dropBitout s).ie = s.ie := rfl
@[simp] theorem dropBitout_done (s : State) : (dropBitout s).done = s.done := rfl
@[simp] theorem dropBitout_desync (s : State) : (dropBitout s).desync = s.desync := rfl
@[simp] theorem dropBitout_perr (s : State) : (dropBitout s).perr = s.perr := rfl
@[simp] theorem dropBitout_hcorr (s : State) : (dropBitout s).hcorr = s.hcorr := rfl
@[simp] theorem dropBitout_wbusy (s : State) : (dropBitout s).wbusy = s.wbusy := rfl
@[simp] theorem dropBitout_errcode (s : State) : (dropBitout s).errcode = s.errcode := rfl
@[simp] theorem dropBitout_arg0 (s : State) : (dropBitout s).arg0 = s.arg0 := rfl
@[simp] theorem dropBitout_arg1 (s : State) : (dropBitout s).arg1 = s.arg1 := rfl
@[simp] theorem dropBitout_res0 (s : State) : (dropBitout s).res0 = s.res0 := rfl
@[simp] theorem dropBitout_res1 (s : State) : (dropBitout s).res1 = s.res1 := rfl
@[simp] theorem dropBitout_res2 (s : State) : (dropBitout s).res2 = s.res2 := rfl
@[simp] theorem dropBitout_res3 (s : State) : (dropBitout s).res3 = s.res3 := rfl
@[simp] theorem dropBitout_distCount (s : State) : (dropBitout s).distCount = s.distCount := rfl
@[simp] theorem dropBitout_syminLen (s : State) : (dropBitout s).syminLen = s.syminLen := rfl
@[simp] theorem dropBitout_symoutLen (s : State) : (dropBitout s).symoutLen = s.symoutLen := rfl
@[simp] theorem dropBitout_bitinLen (s : State) : (dropBitout s).bitinLen = s.bitinLen := rfl
@[simp] theorem dropBitout_bitoutLen (s : State) : (dropBitout s).bitoutLen = 0 := rfl
@[simp] theorem dropBitout_rptLen (s : State) : (dropBitout s).rptLen = s.rptLen := rfl
@[simp] theorem dropBitout_codeCount (s : State) : (dropBitout s).codeCount = s.codeCount := rfl
@[simp] theorem dropBitout_lfsrA (s : State) : (dropBitout s).lfsrA = s.lfsrA := rfl
@[simp] theorem dropBitout_lfsrS (s : State) : (dropBitout s).lfsrS = s.lfsrS := rfl
@[simp] theorem dropBitout_desyncCnt (s : State) : (dropBitout s).desyncCnt = s.desyncCnt := rfl
@[simp] theorem dropBitout_perrCnt (s : State) : (dropBitout s).perrCnt = s.perrCnt := rfl
@[simp] theorem dropBitout_hcorrCnt (s : State) : (dropBitout s).hcorrCnt = s.hcorrCnt := rfl
@[simp] theorem dropBitout_mem (s : State) : (dropBitout s).mem = forget .bitout s.mem := rfl
@[simp] theorem dropBitout_cfg (s : State) : (dropBitout s).cfg = s.cfg := rfl
@[simp] theorem dropBitout_schedule (s : State) : (dropBitout s).schedule = s.schedule := rfl
@[simp] theorem dropBitout_hostData (s : State) : (dropBitout s).hostData = s.hostData := rfl
@[simp] theorem dropBitout_freeCount (s : State) : (dropBitout s).freeCount = s.freeCount := rfl

/-! ### `dropRecords` -/

@[simp] theorem dropRecords_seqState (s : State) : (dropRecords s).seqState = s.seqState := rfl
@[simp] theorem dropRecords_cmd (s : State) : (dropRecords s).cmd = s.cmd := rfl
@[simp] theorem dropRecords_ie (s : State) : (dropRecords s).ie = s.ie := rfl
@[simp] theorem dropRecords_done (s : State) : (dropRecords s).done = s.done := rfl
@[simp] theorem dropRecords_desync (s : State) : (dropRecords s).desync = s.desync := rfl
@[simp] theorem dropRecords_perr (s : State) : (dropRecords s).perr = s.perr := rfl
@[simp] theorem dropRecords_hcorr (s : State) : (dropRecords s).hcorr = s.hcorr := rfl
@[simp] theorem dropRecords_wbusy (s : State) : (dropRecords s).wbusy = s.wbusy := rfl
@[simp] theorem dropRecords_errcode (s : State) : (dropRecords s).errcode = s.errcode := rfl
@[simp] theorem dropRecords_arg0 (s : State) : (dropRecords s).arg0 = s.arg0 := rfl
@[simp] theorem dropRecords_arg1 (s : State) : (dropRecords s).arg1 = s.arg1 := rfl
@[simp] theorem dropRecords_res0 (s : State) : (dropRecords s).res0 = s.res0 := rfl
@[simp] theorem dropRecords_res1 (s : State) : (dropRecords s).res1 = s.res1 := rfl
@[simp] theorem dropRecords_res2 (s : State) : (dropRecords s).res2 = s.res2 := rfl
@[simp] theorem dropRecords_res3 (s : State) : (dropRecords s).res3 = s.res3 := rfl
@[simp] theorem dropRecords_distCount (s : State) : (dropRecords s).distCount = s.distCount := rfl
@[simp] theorem dropRecords_syminLen (s : State) : (dropRecords s).syminLen = s.syminLen := rfl
@[simp] theorem dropRecords_symoutLen (s : State) : (dropRecords s).symoutLen = 0 := rfl
@[simp] theorem dropRecords_bitinLen (s : State) : (dropRecords s).bitinLen = s.bitinLen := rfl
@[simp] theorem dropRecords_bitoutLen (s : State) : (dropRecords s).bitoutLen = s.bitoutLen := rfl
@[simp] theorem dropRecords_rptLen (s : State) : (dropRecords s).rptLen = 0 := rfl
@[simp] theorem dropRecords_codeCount (s : State) : (dropRecords s).codeCount = s.codeCount := rfl
@[simp] theorem dropRecords_lfsrA (s : State) : (dropRecords s).lfsrA = s.lfsrA := rfl
@[simp] theorem dropRecords_lfsrS (s : State) : (dropRecords s).lfsrS = s.lfsrS := rfl
@[simp] theorem dropRecords_desyncCnt (s : State) : (dropRecords s).desyncCnt = s.desyncCnt := rfl
@[simp] theorem dropRecords_perrCnt (s : State) : (dropRecords s).perrCnt = s.perrCnt := rfl
@[simp] theorem dropRecords_hcorrCnt (s : State) : (dropRecords s).hcorrCnt = s.hcorrCnt := rfl
@[simp] theorem dropRecords_mem (s : State) : (dropRecords s).mem = forget .rpt (forget .symout s.mem) := rfl
@[simp] theorem dropRecords_cfg (s : State) : (dropRecords s).cfg = s.cfg := rfl
@[simp] theorem dropRecords_schedule (s : State) : (dropRecords s).schedule = s.schedule := rfl
@[simp] theorem dropRecords_hostData (s : State) : (dropRecords s).hostData = s.hostData := rfl
@[simp] theorem dropRecords_freeCount (s : State) : (dropRecords s).freeCount = s.freeCount := rfl

/-! ### `dropTable` -/

@[simp] theorem dropTable_seqState (s : State) : (dropTable s).seqState = s.seqState := rfl
@[simp] theorem dropTable_cmd (s : State) : (dropTable s).cmd = s.cmd := rfl
@[simp] theorem dropTable_ie (s : State) : (dropTable s).ie = s.ie := rfl
@[simp] theorem dropTable_done (s : State) : (dropTable s).done = s.done := rfl
@[simp] theorem dropTable_desync (s : State) : (dropTable s).desync = s.desync := rfl
@[simp] theorem dropTable_perr (s : State) : (dropTable s).perr = s.perr := rfl
@[simp] theorem dropTable_hcorr (s : State) : (dropTable s).hcorr = s.hcorr := rfl
@[simp] theorem dropTable_wbusy (s : State) : (dropTable s).wbusy = s.wbusy := rfl
@[simp] theorem dropTable_errcode (s : State) : (dropTable s).errcode = s.errcode := rfl
@[simp] theorem dropTable_arg0 (s : State) : (dropTable s).arg0 = s.arg0 := rfl
@[simp] theorem dropTable_arg1 (s : State) : (dropTable s).arg1 = s.arg1 := rfl
@[simp] theorem dropTable_res0 (s : State) : (dropTable s).res0 = s.res0 := rfl
@[simp] theorem dropTable_res1 (s : State) : (dropTable s).res1 = s.res1 := rfl
@[simp] theorem dropTable_res2 (s : State) : (dropTable s).res2 = s.res2 := rfl
@[simp] theorem dropTable_res3 (s : State) : (dropTable s).res3 = s.res3 := rfl
@[simp] theorem dropTable_distCount (s : State) : (dropTable s).distCount = s.distCount := rfl
@[simp] theorem dropTable_syminLen (s : State) : (dropTable s).syminLen = s.syminLen := rfl
@[simp] theorem dropTable_symoutLen (s : State) : (dropTable s).symoutLen = s.symoutLen := rfl
@[simp] theorem dropTable_bitinLen (s : State) : (dropTable s).bitinLen = s.bitinLen := rfl
@[simp] theorem dropTable_bitoutLen (s : State) : (dropTable s).bitoutLen = s.bitoutLen := rfl
@[simp] theorem dropTable_rptLen (s : State) : (dropTable s).rptLen = s.rptLen := rfl
@[simp] theorem dropTable_codeCount (s : State) : (dropTable s).codeCount = 0 := rfl
@[simp] theorem dropTable_lfsrA (s : State) : (dropTable s).lfsrA = s.lfsrA := rfl
@[simp] theorem dropTable_lfsrS (s : State) : (dropTable s).lfsrS = s.lfsrS := rfl
@[simp] theorem dropTable_desyncCnt (s : State) : (dropTable s).desyncCnt = s.desyncCnt := rfl
@[simp] theorem dropTable_perrCnt (s : State) : (dropTable s).perrCnt = s.perrCnt := rfl
@[simp] theorem dropTable_hcorrCnt (s : State) : (dropTable s).hcorrCnt = s.hcorrCnt := rfl
@[simp] theorem dropTable_mem (s : State) : (dropTable s).mem = forget .ctab s.mem := rfl
@[simp] theorem dropTable_cfg (s : State) : (dropTable s).cfg = s.cfg := rfl
@[simp] theorem dropTable_schedule (s : State) : (dropTable s).schedule = s.schedule := rfl
@[simp] theorem dropTable_hostData (s : State) : (dropTable s).hostData = s.hostData := rfl
@[simp] theorem dropTable_freeCount (s : State) : (dropTable s).freeCount = s.freeCount := rfl

/-! ### `writeBitout` -/

@[simp] theorem writeBitout_seqState (x : Bits) (s : State) : (writeBitout x s).seqState = s.seqState := rfl
@[simp] theorem writeBitout_cmd (x : Bits) (s : State) : (writeBitout x s).cmd = s.cmd := rfl
@[simp] theorem writeBitout_ie (x : Bits) (s : State) : (writeBitout x s).ie = s.ie := rfl
@[simp] theorem writeBitout_done (x : Bits) (s : State) : (writeBitout x s).done = s.done := rfl
@[simp] theorem writeBitout_desync (x : Bits) (s : State) : (writeBitout x s).desync = s.desync := rfl
@[simp] theorem writeBitout_perr (x : Bits) (s : State) : (writeBitout x s).perr = s.perr := rfl
@[simp] theorem writeBitout_hcorr (x : Bits) (s : State) : (writeBitout x s).hcorr = s.hcorr := rfl
@[simp] theorem writeBitout_wbusy (x : Bits) (s : State) : (writeBitout x s).wbusy = s.wbusy := rfl
@[simp] theorem writeBitout_errcode (x : Bits) (s : State) : (writeBitout x s).errcode = s.errcode := rfl
@[simp] theorem writeBitout_arg0 (x : Bits) (s : State) : (writeBitout x s).arg0 = s.arg0 := rfl
@[simp] theorem writeBitout_arg1 (x : Bits) (s : State) : (writeBitout x s).arg1 = s.arg1 := rfl
@[simp] theorem writeBitout_res0 (x : Bits) (s : State) : (writeBitout x s).res0 = s.res0 := rfl
@[simp] theorem writeBitout_res1 (x : Bits) (s : State) : (writeBitout x s).res1 = s.res1 := rfl
@[simp] theorem writeBitout_res2 (x : Bits) (s : State) : (writeBitout x s).res2 = s.res2 := rfl
@[simp] theorem writeBitout_res3 (x : Bits) (s : State) : (writeBitout x s).res3 = s.res3 := rfl
@[simp] theorem writeBitout_distCount (x : Bits) (s : State) : (writeBitout x s).distCount = s.distCount := rfl
@[simp] theorem writeBitout_syminLen (x : Bits) (s : State) : (writeBitout x s).syminLen = s.syminLen := rfl
@[simp] theorem writeBitout_symoutLen (x : Bits) (s : State) : (writeBitout x s).symoutLen = s.symoutLen := rfl
@[simp] theorem writeBitout_bitinLen (x : Bits) (s : State) : (writeBitout x s).bitinLen = s.bitinLen := rfl
@[simp] theorem writeBitout_bitoutLen (x : Bits) (s : State) : (writeBitout x s).bitoutLen = BitVec.ofNat 15 x.length := rfl
@[simp] theorem writeBitout_rptLen (x : Bits) (s : State) : (writeBitout x s).rptLen = s.rptLen := rfl
@[simp] theorem writeBitout_codeCount (x : Bits) (s : State) : (writeBitout x s).codeCount = s.codeCount := rfl
@[simp] theorem writeBitout_lfsrA (x : Bits) (s : State) : (writeBitout x s).lfsrA = s.lfsrA := rfl
@[simp] theorem writeBitout_lfsrS (x : Bits) (s : State) : (writeBitout x s).lfsrS = s.lfsrS := rfl
@[simp] theorem writeBitout_desyncCnt (x : Bits) (s : State) : (writeBitout x s).desyncCnt = s.desyncCnt := rfl
@[simp] theorem writeBitout_perrCnt (x : Bits) (s : State) : (writeBitout x s).perrCnt = s.perrCnt := rfl
@[simp] theorem writeBitout_hcorrCnt (x : Bits) (s : State) : (writeBitout x s).hcorrCnt = s.hcorrCnt := rfl
@[simp] theorem writeBitout_mem (x : Bits) (s : State) : (writeBitout x s).mem = storeBits s.mem (windowBase .bitout) 0 (padBits x) := rfl
@[simp] theorem writeBitout_cfg (x : Bits) (s : State) : (writeBitout x s).cfg = s.cfg := rfl
@[simp] theorem writeBitout_schedule (x : Bits) (s : State) : (writeBitout x s).schedule = s.schedule := rfl
@[simp] theorem writeBitout_hostData (x : Bits) (s : State) : (writeBitout x s).hostData = s.hostData := rfl
@[simp] theorem writeBitout_freeCount (x : Bits) (s : State) : (writeBitout x s).freeCount = s.freeCount := rfl

/-! ### `writeRecords` -/

@[simp] theorem writeRecords_seqState (l : List Nat) (r : List Record) (s : State) : (writeRecords l r s).seqState = s.seqState := rfl
@[simp] theorem writeRecords_cmd (l : List Nat) (r : List Record) (s : State) : (writeRecords l r s).cmd = s.cmd := rfl
@[simp] theorem writeRecords_ie (l : List Nat) (r : List Record) (s : State) : (writeRecords l r s).ie = s.ie := rfl
@[simp] theorem writeRecords_done (l : List Nat) (r : List Record) (s : State) : (writeRecords l r s).done = s.done := rfl
@[simp] theorem writeRecords_desync (l : List Nat) (r : List Record) (s : State) : (writeRecords l r s).desync = s.desync := rfl
@[simp] theorem writeRecords_perr (l : List Nat) (r : List Record) (s : State) : (writeRecords l r s).perr = s.perr := rfl
@[simp] theorem writeRecords_hcorr (l : List Nat) (r : List Record) (s : State) : (writeRecords l r s).hcorr = s.hcorr := rfl
@[simp] theorem writeRecords_wbusy (l : List Nat) (r : List Record) (s : State) : (writeRecords l r s).wbusy = s.wbusy := rfl
@[simp] theorem writeRecords_errcode (l : List Nat) (r : List Record) (s : State) : (writeRecords l r s).errcode = s.errcode := rfl
@[simp] theorem writeRecords_arg0 (l : List Nat) (r : List Record) (s : State) : (writeRecords l r s).arg0 = s.arg0 := rfl
@[simp] theorem writeRecords_arg1 (l : List Nat) (r : List Record) (s : State) : (writeRecords l r s).arg1 = s.arg1 := rfl
@[simp] theorem writeRecords_res0 (l : List Nat) (r : List Record) (s : State) : (writeRecords l r s).res0 = s.res0 := rfl
@[simp] theorem writeRecords_res1 (l : List Nat) (r : List Record) (s : State) : (writeRecords l r s).res1 = s.res1 := rfl
@[simp] theorem writeRecords_res2 (l : List Nat) (r : List Record) (s : State) : (writeRecords l r s).res2 = s.res2 := rfl
@[simp] theorem writeRecords_res3 (l : List Nat) (r : List Record) (s : State) : (writeRecords l r s).res3 = s.res3 := rfl
@[simp] theorem writeRecords_distCount (l : List Nat) (r : List Record) (s : State) : (writeRecords l r s).distCount = s.distCount := rfl
@[simp] theorem writeRecords_syminLen (l : List Nat) (r : List Record) (s : State) : (writeRecords l r s).syminLen = s.syminLen := rfl
@[simp] theorem writeRecords_symoutLen (l : List Nat) (r : List Record) (s : State) : (writeRecords l r s).symoutLen = BitVec.ofNat 14 l.length := rfl
@[simp] theorem writeRecords_bitinLen (l : List Nat) (r : List Record) (s : State) : (writeRecords l r s).bitinLen = s.bitinLen := rfl
@[simp] theorem writeRecords_bitoutLen (l : List Nat) (r : List Record) (s : State) : (writeRecords l r s).bitoutLen = s.bitoutLen := rfl
@[simp] theorem writeRecords_rptLen (l : List Nat) (r : List Record) (s : State) : (writeRecords l r s).rptLen = BitVec.ofNat 15 r.length := rfl
@[simp] theorem writeRecords_codeCount (l : List Nat) (r : List Record) (s : State) : (writeRecords l r s).codeCount = s.codeCount := rfl
@[simp] theorem writeRecords_lfsrA (l : List Nat) (r : List Record) (s : State) : (writeRecords l r s).lfsrA = s.lfsrA := rfl
@[simp] theorem writeRecords_lfsrS (l : List Nat) (r : List Record) (s : State) : (writeRecords l r s).lfsrS = s.lfsrS := rfl
@[simp] theorem writeRecords_desyncCnt (l : List Nat) (r : List Record) (s : State) : (writeRecords l r s).desyncCnt = s.desyncCnt := rfl
@[simp] theorem writeRecords_perrCnt (l : List Nat) (r : List Record) (s : State) : (writeRecords l r s).perrCnt = s.perrCnt := rfl
@[simp] theorem writeRecords_hcorrCnt (l : List Nat) (r : List Record) (s : State) : (writeRecords l r s).hcorrCnt = s.hcorrCnt := rfl
@[simp] theorem writeRecords_mem (l : List Nat) (r : List Record) (s : State) : (writeRecords l r s).mem = storeWords (storeWords s.mem (windowBase .symout) (l.map wordOf)) (windowBase .rpt)
        (r.flatMap recordWords) := rfl
@[simp] theorem writeRecords_cfg (l : List Nat) (r : List Record) (s : State) : (writeRecords l r s).cfg = s.cfg := rfl
@[simp] theorem writeRecords_schedule (l : List Nat) (r : List Record) (s : State) : (writeRecords l r s).schedule = s.schedule := rfl
@[simp] theorem writeRecords_hostData (l : List Nat) (r : List Record) (s : State) : (writeRecords l r s).hostData = s.hostData := rfl
@[simp] theorem writeRecords_freeCount (l : List Nat) (r : List Record) (s : State) : (writeRecords l r s).freeCount = s.freeCount := rfl

/-! ### `resetBlock` -/

@[simp] theorem resetBlock_seqState (s : State) : (resetBlock s).seqState = .idle := rfl
@[simp] theorem resetBlock_cmd (s : State) : (resetBlock s).cmd = 0 := rfl
@[simp] theorem resetBlock_ie (s : State) : (resetBlock s).ie = false := rfl
@[simp] theorem resetBlock_done (s : State) : (resetBlock s).done = false := rfl
@[simp] theorem resetBlock_desync (s : State) : (resetBlock s).desync = false := rfl
@[simp] theorem resetBlock_perr (s : State) : (resetBlock s).perr = false := rfl
@[simp] theorem resetBlock_hcorr (s : State) : (resetBlock s).hcorr = false := rfl
@[simp] theorem resetBlock_wbusy (s : State) : (resetBlock s).wbusy = false := rfl
@[simp] theorem resetBlock_errcode (s : State) : (resetBlock s).errcode = 0 := rfl
@[simp] theorem resetBlock_arg0 (s : State) : (resetBlock s).arg0 = 0 := rfl
@[simp] theorem resetBlock_arg1 (s : State) : (resetBlock s).arg1 = 0 := rfl
@[simp] theorem resetBlock_res0 (s : State) : (resetBlock s).res0 = 0 := rfl
@[simp] theorem resetBlock_res1 (s : State) : (resetBlock s).res1 = 0 := rfl
@[simp] theorem resetBlock_res2 (s : State) : (resetBlock s).res2 = 0 := rfl
@[simp] theorem resetBlock_res3 (s : State) : (resetBlock s).res3 = 0 := rfl
@[simp] theorem resetBlock_distCount (s : State) : (resetBlock s).distCount = 0 := rfl
@[simp] theorem resetBlock_syminLen (s : State) : (resetBlock s).syminLen = 0 := rfl
@[simp] theorem resetBlock_symoutLen (s : State) : (resetBlock s).symoutLen = 0 := rfl
@[simp] theorem resetBlock_bitinLen (s : State) : (resetBlock s).bitinLen = 0 := rfl
@[simp] theorem resetBlock_bitoutLen (s : State) : (resetBlock s).bitoutLen = 0 := rfl
@[simp] theorem resetBlock_rptLen (s : State) : (resetBlock s).rptLen = 0 := rfl
@[simp] theorem resetBlock_codeCount (s : State) : (resetBlock s).codeCount = 0 := rfl
@[simp] theorem resetBlock_lfsrA (s : State) : (resetBlock s).lfsrA = Lfsr.reset := rfl
@[simp] theorem resetBlock_lfsrS (s : State) : (resetBlock s).lfsrS = Lfsr.reset := rfl
@[simp] theorem resetBlock_desyncCnt (s : State) : (resetBlock s).desyncCnt = 0 := rfl
@[simp] theorem resetBlock_perrCnt (s : State) : (resetBlock s).perrCnt = 0 := rfl
@[simp] theorem resetBlock_hcorrCnt (s : State) : (resetBlock s).hcorrCnt = 0 := rfl
@[simp] theorem resetBlock_mem (s : State) : (resetBlock s).mem = Memory.reset := rfl
@[simp] theorem resetBlock_cfg (s : State) : (resetBlock s).cfg = s.cfg := rfl
@[simp] theorem resetBlock_schedule (s : State) : (resetBlock s).schedule = s.schedule := rfl
@[simp] theorem resetBlock_hostData (s : State) : (resetBlock s).hostData = s.hostData := rfl
@[simp] theorem resetBlock_freeCount (s : State) : (resetBlock s).freeCount = s.freeCount := rfl

/-! ### `returnData` -/

@[simp] theorem returnData_seqState (v : Word) (s : State) : (returnData v s).seqState = s.seqState := rfl
@[simp] theorem returnData_cmd (v : Word) (s : State) : (returnData v s).cmd = s.cmd := rfl
@[simp] theorem returnData_ie (v : Word) (s : State) : (returnData v s).ie = s.ie := rfl
@[simp] theorem returnData_done (v : Word) (s : State) : (returnData v s).done = s.done := rfl
@[simp] theorem returnData_desync (v : Word) (s : State) : (returnData v s).desync = s.desync := rfl
@[simp] theorem returnData_perr (v : Word) (s : State) : (returnData v s).perr = s.perr := rfl
@[simp] theorem returnData_hcorr (v : Word) (s : State) : (returnData v s).hcorr = s.hcorr := rfl
@[simp] theorem returnData_wbusy (v : Word) (s : State) : (returnData v s).wbusy = s.wbusy := rfl
@[simp] theorem returnData_errcode (v : Word) (s : State) : (returnData v s).errcode = s.errcode := rfl
@[simp] theorem returnData_arg0 (v : Word) (s : State) : (returnData v s).arg0 = s.arg0 := rfl
@[simp] theorem returnData_arg1 (v : Word) (s : State) : (returnData v s).arg1 = s.arg1 := rfl
@[simp] theorem returnData_res0 (v : Word) (s : State) : (returnData v s).res0 = s.res0 := rfl
@[simp] theorem returnData_res1 (v : Word) (s : State) : (returnData v s).res1 = s.res1 := rfl
@[simp] theorem returnData_res2 (v : Word) (s : State) : (returnData v s).res2 = s.res2 := rfl
@[simp] theorem returnData_res3 (v : Word) (s : State) : (returnData v s).res3 = s.res3 := rfl
@[simp] theorem returnData_distCount (v : Word) (s : State) : (returnData v s).distCount = s.distCount := rfl
@[simp] theorem returnData_syminLen (v : Word) (s : State) : (returnData v s).syminLen = s.syminLen := rfl
@[simp] theorem returnData_symoutLen (v : Word) (s : State) : (returnData v s).symoutLen = s.symoutLen := rfl
@[simp] theorem returnData_bitinLen (v : Word) (s : State) : (returnData v s).bitinLen = s.bitinLen := rfl
@[simp] theorem returnData_bitoutLen (v : Word) (s : State) : (returnData v s).bitoutLen = s.bitoutLen := rfl
@[simp] theorem returnData_rptLen (v : Word) (s : State) : (returnData v s).rptLen = s.rptLen := rfl
@[simp] theorem returnData_codeCount (v : Word) (s : State) : (returnData v s).codeCount = s.codeCount := rfl
@[simp] theorem returnData_lfsrA (v : Word) (s : State) : (returnData v s).lfsrA = s.lfsrA := rfl
@[simp] theorem returnData_lfsrS (v : Word) (s : State) : (returnData v s).lfsrS = s.lfsrS := rfl
@[simp] theorem returnData_desyncCnt (v : Word) (s : State) : (returnData v s).desyncCnt = s.desyncCnt := rfl
@[simp] theorem returnData_perrCnt (v : Word) (s : State) : (returnData v s).perrCnt = s.perrCnt := rfl
@[simp] theorem returnData_hcorrCnt (v : Word) (s : State) : (returnData v s).hcorrCnt = s.hcorrCnt := rfl
@[simp] theorem returnData_mem (v : Word) (s : State) : (returnData v s).mem = s.mem := rfl
@[simp] theorem returnData_cfg (v : Word) (s : State) : (returnData v s).cfg = s.cfg := rfl
@[simp] theorem returnData_schedule (v : Word) (s : State) : (returnData v s).schedule = s.schedule := rfl
@[simp] theorem returnData_hostData (v : Word) (s : State) : (returnData v s).hostData = v := rfl
@[simp] theorem returnData_freeCount (v : Word) (s : State) : (returnData v s).freeCount = s.freeCount := rfl

/-! ### `drawData` -/

@[simp] theorem drawData_seqState (v k : Word) (s : State) : (drawData v k s).seqState = s.seqState := rfl
@[simp] theorem drawData_cmd (v k : Word) (s : State) : (drawData v k s).cmd = s.cmd := rfl
@[simp] theorem drawData_ie (v k : Word) (s : State) : (drawData v k s).ie = s.ie := rfl
@[simp] theorem drawData_done (v k : Word) (s : State) : (drawData v k s).done = s.done := rfl
@[simp] theorem drawData_desync (v k : Word) (s : State) : (drawData v k s).desync = s.desync := rfl
@[simp] theorem drawData_perr (v k : Word) (s : State) : (drawData v k s).perr = s.perr := rfl
@[simp] theorem drawData_hcorr (v k : Word) (s : State) : (drawData v k s).hcorr = s.hcorr := rfl
@[simp] theorem drawData_wbusy (v k : Word) (s : State) : (drawData v k s).wbusy = s.wbusy := rfl
@[simp] theorem drawData_errcode (v k : Word) (s : State) : (drawData v k s).errcode = s.errcode := rfl
@[simp] theorem drawData_arg0 (v k : Word) (s : State) : (drawData v k s).arg0 = s.arg0 := rfl
@[simp] theorem drawData_arg1 (v k : Word) (s : State) : (drawData v k s).arg1 = s.arg1 := rfl
@[simp] theorem drawData_res0 (v k : Word) (s : State) : (drawData v k s).res0 = s.res0 := rfl
@[simp] theorem drawData_res1 (v k : Word) (s : State) : (drawData v k s).res1 = s.res1 := rfl
@[simp] theorem drawData_res2 (v k : Word) (s : State) : (drawData v k s).res2 = s.res2 := rfl
@[simp] theorem drawData_res3 (v k : Word) (s : State) : (drawData v k s).res3 = s.res3 := rfl
@[simp] theorem drawData_distCount (v k : Word) (s : State) : (drawData v k s).distCount = s.distCount := rfl
@[simp] theorem drawData_syminLen (v k : Word) (s : State) : (drawData v k s).syminLen = s.syminLen := rfl
@[simp] theorem drawData_symoutLen (v k : Word) (s : State) : (drawData v k s).symoutLen = s.symoutLen := rfl
@[simp] theorem drawData_bitinLen (v k : Word) (s : State) : (drawData v k s).bitinLen = s.bitinLen := rfl
@[simp] theorem drawData_bitoutLen (v k : Word) (s : State) : (drawData v k s).bitoutLen = s.bitoutLen := rfl
@[simp] theorem drawData_rptLen (v k : Word) (s : State) : (drawData v k s).rptLen = s.rptLen := rfl
@[simp] theorem drawData_codeCount (v k : Word) (s : State) : (drawData v k s).codeCount = s.codeCount := rfl
@[simp] theorem drawData_lfsrA (v k : Word) (s : State) : (drawData v k s).lfsrA = s.lfsrA := rfl
@[simp] theorem drawData_lfsrS (v k : Word) (s : State) : (drawData v k s).lfsrS = s.lfsrS := rfl
@[simp] theorem drawData_desyncCnt (v k : Word) (s : State) : (drawData v k s).desyncCnt = s.desyncCnt := rfl
@[simp] theorem drawData_perrCnt (v k : Word) (s : State) : (drawData v k s).perrCnt = s.perrCnt := rfl
@[simp] theorem drawData_hcorrCnt (v k : Word) (s : State) : (drawData v k s).hcorrCnt = s.hcorrCnt := rfl
@[simp] theorem drawData_mem (v k : Word) (s : State) : (drawData v k s).mem = s.mem := rfl
@[simp] theorem drawData_cfg (v k : Word) (s : State) : (drawData v k s).cfg = s.cfg := rfl
@[simp] theorem drawData_schedule (v k : Word) (s : State) : (drawData v k s).schedule = s.schedule := rfl
@[simp] theorem drawData_hostData (v k : Word) (s : State) : (drawData v k s).hostData = (v &&& ~~~k) ||| (Config.freeWord s.freeCount &&& k) := rfl
@[simp] theorem drawData_freeCount (v k : Word) (s : State) : (drawData v k s).freeCount = s.freeCount + 1 := rfl

/-! ### `writeTable` -/

@[simp] theorem writeTable_seqState (l : List (Nat × CodeEntry)) (s : State) : (writeTable l s).seqState = s.seqState := rfl
@[simp] theorem writeTable_cmd (l : List (Nat × CodeEntry)) (s : State) : (writeTable l s).cmd = s.cmd := rfl
@[simp] theorem writeTable_ie (l : List (Nat × CodeEntry)) (s : State) : (writeTable l s).ie = s.ie := rfl
@[simp] theorem writeTable_done (l : List (Nat × CodeEntry)) (s : State) : (writeTable l s).done = s.done := rfl
@[simp] theorem writeTable_desync (l : List (Nat × CodeEntry)) (s : State) : (writeTable l s).desync = s.desync := rfl
@[simp] theorem writeTable_perr (l : List (Nat × CodeEntry)) (s : State) : (writeTable l s).perr = s.perr := rfl
@[simp] theorem writeTable_hcorr (l : List (Nat × CodeEntry)) (s : State) : (writeTable l s).hcorr = s.hcorr := rfl
@[simp] theorem writeTable_wbusy (l : List (Nat × CodeEntry)) (s : State) : (writeTable l s).wbusy = s.wbusy := rfl
@[simp] theorem writeTable_errcode (l : List (Nat × CodeEntry)) (s : State) : (writeTable l s).errcode = s.errcode := rfl
@[simp] theorem writeTable_arg0 (l : List (Nat × CodeEntry)) (s : State) : (writeTable l s).arg0 = s.arg0 := rfl
@[simp] theorem writeTable_arg1 (l : List (Nat × CodeEntry)) (s : State) : (writeTable l s).arg1 = s.arg1 := rfl
@[simp] theorem writeTable_res0 (l : List (Nat × CodeEntry)) (s : State) : (writeTable l s).res0 = wordOf (kraftNum s.cfg.pw l) := rfl
@[simp] theorem writeTable_res1 (l : List (Nat × CodeEntry)) (s : State) : (writeTable l s).res1 = wordOf l.length := rfl
@[simp] theorem writeTable_res2 (l : List (Nat × CodeEntry)) (s : State) : (writeTable l s).res2 = wordOf (decide (kraftNum s.cfg.pw l ≤ 2 ^ s.cfg.pw)).toNat := rfl
@[simp] theorem writeTable_res3 (l : List (Nat × CodeEntry)) (s : State) : (writeTable l s).res3 = wordOf ((parityPrefixFree l).toNat + 2 * (basePrefixFree l).toNat) := rfl
@[simp] theorem writeTable_distCount (l : List (Nat × CodeEntry)) (s : State) : (writeTable l s).distCount = s.distCount := rfl
@[simp] theorem writeTable_syminLen (l : List (Nat × CodeEntry)) (s : State) : (writeTable l s).syminLen = s.syminLen := rfl
@[simp] theorem writeTable_symoutLen (l : List (Nat × CodeEntry)) (s : State) : (writeTable l s).symoutLen = s.symoutLen := rfl
@[simp] theorem writeTable_bitinLen (l : List (Nat × CodeEntry)) (s : State) : (writeTable l s).bitinLen = s.bitinLen := rfl
@[simp] theorem writeTable_bitoutLen (l : List (Nat × CodeEntry)) (s : State) : (writeTable l s).bitoutLen = s.bitoutLen := rfl
@[simp] theorem writeTable_rptLen (l : List (Nat × CodeEntry)) (s : State) : (writeTable l s).rptLen = s.rptLen := rfl
@[simp] theorem writeTable_codeCount (l : List (Nat × CodeEntry)) (s : State) : (writeTable l s).codeCount = BitVec.ofNat 11 l.length := rfl
@[simp] theorem writeTable_lfsrA (l : List (Nat × CodeEntry)) (s : State) : (writeTable l s).lfsrA = s.lfsrA := rfl
@[simp] theorem writeTable_lfsrS (l : List (Nat × CodeEntry)) (s : State) : (writeTable l s).lfsrS = s.lfsrS := rfl
@[simp] theorem writeTable_desyncCnt (l : List (Nat × CodeEntry)) (s : State) : (writeTable l s).desyncCnt = s.desyncCnt := rfl
@[simp] theorem writeTable_perrCnt (l : List (Nat × CodeEntry)) (s : State) : (writeTable l s).perrCnt = s.perrCnt := rfl
@[simp] theorem writeTable_hcorrCnt (l : List (Nat × CodeEntry)) (s : State) : (writeTable l s).hcorrCnt = s.hcorrCnt := rfl
@[simp] theorem writeTable_mem (l : List (Nat × CodeEntry)) (s : State) : (writeTable l s).mem = storeCodes (forget .ctab s.mem) l := rfl
@[simp] theorem writeTable_cfg (l : List (Nat × CodeEntry)) (s : State) : (writeTable l s).cfg = s.cfg := rfl
@[simp] theorem writeTable_schedule (l : List (Nat × CodeEntry)) (s : State) : (writeTable l s).schedule = s.schedule := rfl
@[simp] theorem writeTable_hostData (l : List (Nat × CodeEntry)) (s : State) : (writeTable l s).hostData = s.hostData := rfl
@[simp] theorem writeTable_freeCount (l : List (Nat × CodeEntry)) (s : State) : (writeTable l s).freeCount = s.freeCount := rfl

/-! ### `writeChisq` -/

@[simp] theorem writeChisq_seqState (x : Bits) (s : State) : (writeChisq x s).seqState = s.seqState := rfl
@[simp] theorem writeChisq_cmd (x : Bits) (s : State) : (writeChisq x s).cmd = s.cmd := rfl
@[simp] theorem writeChisq_ie (x : Bits) (s : State) : (writeChisq x s).ie = s.ie := rfl
@[simp] theorem writeChisq_done (x : Bits) (s : State) : (writeChisq x s).done = s.done := rfl
@[simp] theorem writeChisq_desync (x : Bits) (s : State) : (writeChisq x s).desync = s.desync := rfl
@[simp] theorem writeChisq_perr (x : Bits) (s : State) : (writeChisq x s).perr = s.perr := rfl
@[simp] theorem writeChisq_hcorr (x : Bits) (s : State) : (writeChisq x s).hcorr = s.hcorr := rfl
@[simp] theorem writeChisq_wbusy (x : Bits) (s : State) : (writeChisq x s).wbusy = s.wbusy := rfl
@[simp] theorem writeChisq_errcode (x : Bits) (s : State) : (writeChisq x s).errcode = s.errcode := rfl
@[simp] theorem writeChisq_arg0 (x : Bits) (s : State) : (writeChisq x s).arg0 = s.arg0 := rfl
@[simp] theorem writeChisq_arg1 (x : Bits) (s : State) : (writeChisq x s).arg1 = s.arg1 := rfl
@[simp] theorem writeChisq_res0 (x : Bits) (s : State) : (writeChisq x s).res0 = wordOf (x.length - onesOf x) := rfl
@[simp] theorem writeChisq_res1 (x : Bits) (s : State) : (writeChisq x s).res1 = wordOf (onesOf x) := rfl
@[simp] theorem writeChisq_res2 (x : Bits) (s : State) : (writeChisq x s).res2 = wordOf (chiStat x) := rfl
@[simp] theorem writeChisq_res3 (x : Bits) (s : State) : (writeChisq x s).res3 = wordOf (chiPass s.cfg.chiCrit x).toNat := rfl
@[simp] theorem writeChisq_distCount (x : Bits) (s : State) : (writeChisq x s).distCount = s.distCount := rfl
@[simp] theorem writeChisq_syminLen (x : Bits) (s : State) : (writeChisq x s).syminLen = s.syminLen := rfl
@[simp] theorem writeChisq_symoutLen (x : Bits) (s : State) : (writeChisq x s).symoutLen = s.symoutLen := rfl
@[simp] theorem writeChisq_bitinLen (x : Bits) (s : State) : (writeChisq x s).bitinLen = s.bitinLen := rfl
@[simp] theorem writeChisq_bitoutLen (x : Bits) (s : State) : (writeChisq x s).bitoutLen = s.bitoutLen := rfl
@[simp] theorem writeChisq_rptLen (x : Bits) (s : State) : (writeChisq x s).rptLen = s.rptLen := rfl
@[simp] theorem writeChisq_codeCount (x : Bits) (s : State) : (writeChisq x s).codeCount = s.codeCount := rfl
@[simp] theorem writeChisq_lfsrA (x : Bits) (s : State) : (writeChisq x s).lfsrA = s.lfsrA := rfl
@[simp] theorem writeChisq_lfsrS (x : Bits) (s : State) : (writeChisq x s).lfsrS = s.lfsrS := rfl
@[simp] theorem writeChisq_desyncCnt (x : Bits) (s : State) : (writeChisq x s).desyncCnt = s.desyncCnt := rfl
@[simp] theorem writeChisq_perrCnt (x : Bits) (s : State) : (writeChisq x s).perrCnt = s.perrCnt := rfl
@[simp] theorem writeChisq_hcorrCnt (x : Bits) (s : State) : (writeChisq x s).hcorrCnt = s.hcorrCnt := rfl
@[simp] theorem writeChisq_mem (x : Bits) (s : State) : (writeChisq x s).mem = s.mem := rfl
@[simp] theorem writeChisq_cfg (x : Bits) (s : State) : (writeChisq x s).cfg = s.cfg := rfl
@[simp] theorem writeChisq_schedule (x : Bits) (s : State) : (writeChisq x s).schedule = s.schedule := rfl
@[simp] theorem writeChisq_hostData (x : Bits) (s : State) : (writeChisq x s).hostData = s.hostData := rfl
@[simp] theorem writeChisq_freeCount (x : Bits) (s : State) : (writeChisq x s).freeCount = s.freeCount := rfl

/-! ### `setLfsrState` -/

@[simp] theorem setLfsrState_seqState (u : LfsrUnit) (v : Nat) (s : State) :
    (setLfsrState u v s).seqState = s.seqState := by cases u <;> rfl
@[simp] theorem setLfsrState_cmd (u : LfsrUnit) (v : Nat) (s : State) :
    (setLfsrState u v s).cmd = s.cmd := by cases u <;> rfl
@[simp] theorem setLfsrState_ie (u : LfsrUnit) (v : Nat) (s : State) :
    (setLfsrState u v s).ie = s.ie := by cases u <;> rfl
@[simp] theorem setLfsrState_done (u : LfsrUnit) (v : Nat) (s : State) :
    (setLfsrState u v s).done = s.done := by cases u <;> rfl
@[simp] theorem setLfsrState_desync (u : LfsrUnit) (v : Nat) (s : State) :
    (setLfsrState u v s).desync = s.desync := by cases u <;> rfl
@[simp] theorem setLfsrState_perr (u : LfsrUnit) (v : Nat) (s : State) :
    (setLfsrState u v s).perr = s.perr := by cases u <;> rfl
@[simp] theorem setLfsrState_hcorr (u : LfsrUnit) (v : Nat) (s : State) :
    (setLfsrState u v s).hcorr = s.hcorr := by cases u <;> rfl
@[simp] theorem setLfsrState_wbusy (u : LfsrUnit) (v : Nat) (s : State) :
    (setLfsrState u v s).wbusy = s.wbusy := by cases u <;> rfl
@[simp] theorem setLfsrState_errcode (u : LfsrUnit) (v : Nat) (s : State) :
    (setLfsrState u v s).errcode = s.errcode := by cases u <;> rfl
@[simp] theorem setLfsrState_arg0 (u : LfsrUnit) (v : Nat) (s : State) :
    (setLfsrState u v s).arg0 = s.arg0 := by cases u <;> rfl
@[simp] theorem setLfsrState_arg1 (u : LfsrUnit) (v : Nat) (s : State) :
    (setLfsrState u v s).arg1 = s.arg1 := by cases u <;> rfl
@[simp] theorem setLfsrState_res0 (u : LfsrUnit) (v : Nat) (s : State) :
    (setLfsrState u v s).res0 = s.res0 := by cases u <;> rfl
@[simp] theorem setLfsrState_res1 (u : LfsrUnit) (v : Nat) (s : State) :
    (setLfsrState u v s).res1 = s.res1 := by cases u <;> rfl
@[simp] theorem setLfsrState_res2 (u : LfsrUnit) (v : Nat) (s : State) :
    (setLfsrState u v s).res2 = s.res2 := by cases u <;> rfl
@[simp] theorem setLfsrState_res3 (u : LfsrUnit) (v : Nat) (s : State) :
    (setLfsrState u v s).res3 = s.res3 := by cases u <;> rfl
@[simp] theorem setLfsrState_distCount (u : LfsrUnit) (v : Nat) (s : State) :
    (setLfsrState u v s).distCount = s.distCount := by cases u <;> rfl
@[simp] theorem setLfsrState_syminLen (u : LfsrUnit) (v : Nat) (s : State) :
    (setLfsrState u v s).syminLen = s.syminLen := by cases u <;> rfl
@[simp] theorem setLfsrState_symoutLen (u : LfsrUnit) (v : Nat) (s : State) :
    (setLfsrState u v s).symoutLen = s.symoutLen := by cases u <;> rfl
@[simp] theorem setLfsrState_bitinLen (u : LfsrUnit) (v : Nat) (s : State) :
    (setLfsrState u v s).bitinLen = s.bitinLen := by cases u <;> rfl
@[simp] theorem setLfsrState_bitoutLen (u : LfsrUnit) (v : Nat) (s : State) :
    (setLfsrState u v s).bitoutLen = s.bitoutLen := by cases u <;> rfl
@[simp] theorem setLfsrState_rptLen (u : LfsrUnit) (v : Nat) (s : State) :
    (setLfsrState u v s).rptLen = s.rptLen := by cases u <;> rfl
@[simp] theorem setLfsrState_codeCount (u : LfsrUnit) (v : Nat) (s : State) :
    (setLfsrState u v s).codeCount = s.codeCount := by cases u <;> rfl
@[simp] theorem setLfsrState_lfsrA (u : LfsrUnit) (v : Nat) (s : State) : (setLfsrState u v s).lfsrA =
    if u = .a then { s.lfsrA with state := wordOf v } else s.lfsrA := by cases u <;> rfl
@[simp] theorem setLfsrState_lfsrS (u : LfsrUnit) (v : Nat) (s : State) : (setLfsrState u v s).lfsrS =
    if u = .s then { s.lfsrS with state := wordOf v } else s.lfsrS := by cases u <;> rfl
@[simp] theorem setLfsrState_desyncCnt (u : LfsrUnit) (v : Nat) (s : State) :
    (setLfsrState u v s).desyncCnt = s.desyncCnt := by cases u <;> rfl
@[simp] theorem setLfsrState_perrCnt (u : LfsrUnit) (v : Nat) (s : State) :
    (setLfsrState u v s).perrCnt = s.perrCnt := by cases u <;> rfl
@[simp] theorem setLfsrState_hcorrCnt (u : LfsrUnit) (v : Nat) (s : State) :
    (setLfsrState u v s).hcorrCnt = s.hcorrCnt := by cases u <;> rfl
@[simp] theorem setLfsrState_mem (u : LfsrUnit) (v : Nat) (s : State) :
    (setLfsrState u v s).mem = s.mem := by cases u <;> rfl
@[simp] theorem setLfsrState_cfg (u : LfsrUnit) (v : Nat) (s : State) :
    (setLfsrState u v s).cfg = s.cfg := by cases u <;> rfl
@[simp] theorem setLfsrState_schedule (u : LfsrUnit) (v : Nat) (s : State) :
    (setLfsrState u v s).schedule = s.schedule := by cases u <;> rfl
@[simp] theorem setLfsrState_hostData (u : LfsrUnit) (v : Nat) (s : State) :
    (setLfsrState u v s).hostData = s.hostData := by cases u <;> rfl
@[simp] theorem setLfsrState_freeCount (u : LfsrUnit) (v : Nat) (s : State) :
    (setLfsrState u v s).freeCount = s.freeCount := by cases u <;> rfl

/-! ### `dropOutputs` -/

@[simp] theorem dropOutputs_seqState (i : Instr) (s : State) :
    (dropOutputs i s).seqState = s.seqState := by cases i <;> rfl
@[simp] theorem dropOutputs_cmd (i : Instr) (s : State) :
    (dropOutputs i s).cmd = s.cmd := by cases i <;> rfl
@[simp] theorem dropOutputs_ie (i : Instr) (s : State) :
    (dropOutputs i s).ie = s.ie := by cases i <;> rfl
@[simp] theorem dropOutputs_done (i : Instr) (s : State) :
    (dropOutputs i s).done = s.done := by cases i <;> rfl
@[simp] theorem dropOutputs_desync (i : Instr) (s : State) :
    (dropOutputs i s).desync = s.desync := by cases i <;> rfl
@[simp] theorem dropOutputs_perr (i : Instr) (s : State) :
    (dropOutputs i s).perr = s.perr := by cases i <;> rfl
@[simp] theorem dropOutputs_hcorr (i : Instr) (s : State) :
    (dropOutputs i s).hcorr = s.hcorr := by cases i <;> rfl
@[simp] theorem dropOutputs_wbusy (i : Instr) (s : State) :
    (dropOutputs i s).wbusy = s.wbusy := by cases i <;> rfl
@[simp] theorem dropOutputs_errcode (i : Instr) (s : State) :
    (dropOutputs i s).errcode = s.errcode := by cases i <;> rfl
@[simp] theorem dropOutputs_arg0 (i : Instr) (s : State) :
    (dropOutputs i s).arg0 = s.arg0 := by cases i <;> rfl
@[simp] theorem dropOutputs_arg1 (i : Instr) (s : State) :
    (dropOutputs i s).arg1 = s.arg1 := by cases i <;> rfl
@[simp] theorem dropOutputs_res0 (i : Instr) (s : State) :
    (dropOutputs i s).res0 = s.res0 := by cases i <;> rfl
@[simp] theorem dropOutputs_res1 (i : Instr) (s : State) :
    (dropOutputs i s).res1 = s.res1 := by cases i <;> rfl
@[simp] theorem dropOutputs_res2 (i : Instr) (s : State) :
    (dropOutputs i s).res2 = s.res2 := by cases i <;> rfl
@[simp] theorem dropOutputs_res3 (i : Instr) (s : State) :
    (dropOutputs i s).res3 = s.res3 := by cases i <;> rfl
@[simp] theorem dropOutputs_distCount (i : Instr) (s : State) :
    (dropOutputs i s).distCount = s.distCount := by cases i <;> rfl
@[simp] theorem dropOutputs_syminLen (i : Instr) (s : State) :
    (dropOutputs i s).syminLen = s.syminLen := by cases i <;> rfl
@[simp] theorem dropOutputs_symoutLen (i : Instr) (s : State) :
    (dropOutputs i s).symoutLen = if producesRecords i then 0 else s.symoutLen := by cases i <;> rfl
@[simp] theorem dropOutputs_bitinLen (i : Instr) (s : State) :
    (dropOutputs i s).bitinLen = s.bitinLen := by cases i <;> rfl
@[simp] theorem dropOutputs_bitoutLen (i : Instr) (s : State) :
    (dropOutputs i s).bitoutLen = if producesBits i then 0 else s.bitoutLen := by cases i <;> rfl
@[simp] theorem dropOutputs_rptLen (i : Instr) (s : State) :
    (dropOutputs i s).rptLen = if producesRecords i then 0 else s.rptLen := by cases i <;> rfl
@[simp] theorem dropOutputs_codeCount (i : Instr) (s : State) :
    (dropOutputs i s).codeCount = if i = .build then 0 else s.codeCount := by cases i <;> rfl
@[simp] theorem dropOutputs_lfsrA (i : Instr) (s : State) :
    (dropOutputs i s).lfsrA = s.lfsrA := by cases i <;> rfl
@[simp] theorem dropOutputs_lfsrS (i : Instr) (s : State) :
    (dropOutputs i s).lfsrS = s.lfsrS := by cases i <;> rfl
@[simp] theorem dropOutputs_desyncCnt (i : Instr) (s : State) :
    (dropOutputs i s).desyncCnt = s.desyncCnt := by cases i <;> rfl
@[simp] theorem dropOutputs_perrCnt (i : Instr) (s : State) :
    (dropOutputs i s).perrCnt = s.perrCnt := by cases i <;> rfl
@[simp] theorem dropOutputs_hcorrCnt (i : Instr) (s : State) :
    (dropOutputs i s).hcorrCnt = s.hcorrCnt := by cases i <;> rfl
@[simp] theorem dropOutputs_cfg (i : Instr) (s : State) :
    (dropOutputs i s).cfg = s.cfg := by cases i <;> rfl
@[simp] theorem dropOutputs_schedule (i : Instr) (s : State) :
    (dropOutputs i s).schedule = s.schedule := by cases i <;> rfl
@[simp] theorem dropOutputs_hostData (i : Instr) (s : State) :
    (dropOutputs i s).hostData = s.hostData := by cases i <;> rfl
@[simp] theorem dropOutputs_freeCount (i : Instr) (s : State) :
    (dropOutputs i s).freeCount = s.freeCount := by cases i <;> rfl

end Sys2Proof.Machine
end

