-- ==== Sys2Proof/Laws/Ops.lean ====
section
/-! SUPPORT. Once for each shared operation, what it can do: completion, the loops that read a
command's input, the meanings as one function of the command, the host port and the step. -/

namespace Sys2Proof.Machine

/-! ### The completion step -/

/-- A command's step answers a next state in one of three ways. -/
theorem conclude_next {i : Instr} {s t : State} {r : Attempt State} (h : conclude i s r = .next t) :
    (∃ u, r = .ok u ∧ t = complete u) ∨ (∃ c, r = .raise c ∧ t = fail i c s) ∨ (r = .hang ∧ t = s) := by
  cases r with
  | ok u => exact .inl ⟨u, rfl, by cases h; rfl⟩
  | raise c => exact .inr (.inl ⟨c, rfl, by cases h; rfl⟩)
  | fault f => cases h
  | hang => exact .inr (.inr ⟨rfl, by cases h; rfl⟩)

/-- A command's step is never refused. -/
theorem conclude_ne_refused (i : Instr) (s : State) (r : Attempt State) (x : Refusal) :
    conclude i s r ≠ .refused x := by cases r <;> simp [conclude]

/-- A command's step faults exactly when its pseudocode does. -/
theorem conclude_fault_iff (i : Instr) (s : State) (r : Attempt State) (f : Fault) :
    conclude i s r = .fault f ↔ r = .fault f := by cases r <;> simp [conclude]

/-- The pseudocode of each command. -/
def runOf : Instr → State → Attempt State
  | .nop, s => .ok s
  | .build, s => runBuild s
  | .encode, s => runEncode s
  | .decode, s => runDecode s
  | .addpar, s => runAddpar s
  | .stripchk, s => runStripchk s
  | .henc, s => runHenc s
  | .hencs, s => runHencs s
  | .hdec, s => runHdec s
  | .hdecb, s => runHdecb s
  | .lstep u, s => runLstep u s
  | .lgen u, s => runLgen u s
  | .sggen, s => runSggen s
  | .chisq b, s => runChisq b s
  | .period b, s => runPeriod b s
  | .bcopy, s => runBcopy s

/-- Every meaning is the completion step of its pseudocode. -/
theorem exec_eq_conclude (i : Instr) (s : State) : exec i s = conclude i s (runOf i s) := by
  cases i <;> rfl

/-- What a command can do, if it answers a next state. -/
theorem exec_next {i : Instr} {s t : State} (h : exec i s = .next t) :
    (∃ u, runOf i s = .ok u ∧ t = complete u) ∨ (∃ c, runOf i s = .raise c ∧ t = fail i c s) ∨
      (runOf i s = .hang ∧ t = s) :=
  conclude_next (by rwa [exec_eq_conclude] at h)

/-- No command is refused. -/
theorem exec_ne_refused (i : Instr) (s : State) (x : Refusal) : exec i s ≠ .refused x := by
  rw [exec_eq_conclude]; exact fun h => conclude_ne_refused i s _ x h

/-! ### The failure completion -/

/-- The failure completion, field by field where it differs from the command's start. -/
theorem fail_eq (i : Instr) (c : ErrCode) (s : State) :
    fail i c s = { s with
      errcode := errByte c
      seqState := .idle
      done := true
      res0 := if 0 < resCount i then 0 else s.res0
      res1 := if 1 < resCount i then 0 else s.res1
      res2 := if 2 < resCount i then 0 else s.res2
      res3 := if 3 < resCount i then 0 else s.res3
      bitoutLen := if producesBits i then 0 else s.bitoutLen
      symoutLen := if producesRecords i then 0 else s.symoutLen
      rptLen := if producesRecords i then 0 else s.rptLen
      codeCount := if i = .build then 0 else s.codeCount
      mem := (fail i c s).mem } := by
  cases i <;> rfl

/-- The memory a failure leaves: a byte outside the windows whose contents it drops is unchanged. -/
theorem fail_readByte (i : Instr) (c : ErrCode) (s : State) {a : Nat}
    (h1 : producesBits i = true → inWindow .bitout a = false)
    (h2 : producesRecords i = true → inWindow .symout a = false ∧ inWindow .rpt a = false)
    (h3 : i = .build → inWindow .ctab a = false) :
    readByte (fail i c s).mem a = readByte s.mem a := by
  cases i <;> simp_all [fail, dropOutputs, readByte_forget_outside, producesBits, producesRecords]

/-- A failure keeps memory in canonical form. -/
theorem fail_wf (i : Instr) (c : ErrCode) {s : State} (h : s.mem.wf) : (fail i c s).mem.wf := by
  cases i <;> simp only [fail, finish_mem, dropOutputs, dropTable_mem, dropBitout_mem,
    dropRecords_mem, zeroRes_mem] <;>
    first | exact h | exact forget_wf h _ | exact forget_wf (forget_wf h _) _

/-! ### Reading a command's input -/

/-- A buffer's positions below `n` are read exactly when each is written. -/
theorem bufferBits_ok_iff (s : State) (m : MemName) (n : Nat) (x : Bits) :
    bufferBits s m n = .ok x ↔
      x.length = n ∧ ∀ k (h : k < x.length), readBit s.mem (windowBase m) k = some x[k] := by
  have := readBits_ok_iff s.mem (windowBase m) n 0 x
  simp only [Nat.zero_add] at this
  rw [← this]
  unfold bufferBits
  cases readBits s.mem (windowBase m) n 0 <;> simp

/-- A buffer with an unwritten position below `n` faults on the first one. -/
theorem bufferBits_unwritten {s : State} {m : MemName} {n k : Nat} (hk : k < n)
    (h0 : readBit s.mem (windowBase m) k = none)
    (hj : ∀ j < k, (readBit s.mem (windowBase m) j).isSome) :
    bufferBits s m n = .fault (.unwrittenRead m k) := by
  have := readBits_unwritten (i := 0) hk (by simpa using h0) (by simpa using hj)
  simp only [Nat.zero_add] at this
  simp [bufferBits, this]

/-- Reading a buffer never raises an error and always ends. -/
theorem bufferBits_cases (s : State) (m : MemName) (n : Nat) :
    (∃ x, bufferBits s m n = .ok x) ∨
      ∃ k, bufferBits s m n = .fault (.unwrittenRead m k) ∧ k < n ∧
        readBit s.mem (windowBase m) k = none := by
  unfold bufferBits
  cases h : readBits s.mem (windowBase m) n 0 with
  | ok x => exact .inl ⟨x, rfl⟩
  | error k =>
    have := readBits_error h
    exact .inr ⟨k, rfl, by omega, this.2.2⟩

/-- DIST is read to the end exactly when each entry is written and legal. -/
theorem readDist_ok_iff (s : State) (n i : Nat) (l : List (Nat × Nat)) :
    readDist s n i = .ok l ↔
      l.length = n ∧ ∀ j (h : j < l.length),
        l[j].1 = i + j ∧ distEntry s (i + j) = some l[j].2 ∧ l[j].2 ≤ 2 ^ s.cfg.pw := by
  induction n generalizing i l with
  | zero => cases l <;> simp [readDist]
  | succ n ih =>
    unfold readDist
    cases hd : distEntry s i with
    | none =>
      simp only [reduceCtorEq, false_iff, not_and, not_forall]
      intro hl
      exact ⟨0, by omega, by simp [hd]⟩
    | some p =>
      by_cases hp : 2 ^ s.cfg.pw < p
      · simp only [hp, if_true, reduceCtorEq, false_iff, not_and, not_forall]
        intro hl
        refine ⟨0, by omega, fun _ h2 => ?_⟩
        rw [Nat.add_zero, hd] at h2
        have := Option.some.inj h2
        omega
      · simp only [hp, if_false]
        cases l with
        | nil => cases readDist s n (i + 1) <;> simp
        | cons q l =>
          have key : (q = (i, p) ∧ readDist s n (i + 1) = .ok l) ↔
              ((q :: l).length = n + 1 ∧ ∀ j (h : j < (q :: l).length),
                (q :: l)[j].1 = i + j ∧ distEntry s (i + j) = some (q :: l)[j].2 ∧
                  (q :: l)[j].2 ≤ 2 ^ s.cfg.pw) := by
            rw [ih]
            constructor
            · rintro ⟨rfl, hl, h⟩
              refine ⟨by simpa using hl, fun j hj => ?_⟩
              cases j with
              | zero => exact ⟨rfl, by simpa using hd, by simpa using hp⟩
              | succ j =>
                have := h j (by simpa using hj)
                rw [show i + 1 + j = i + (j + 1) by omega] at this
                simpa using this
            · rintro ⟨hl, h⟩
              have h0 := h 0 (by simp)
              refine ⟨?_, by simpa using hl, fun j hj => ?_⟩
              · have e := h0.2.1
                rw [Nat.add_zero, hd] at e
                exact Prod.ext (by simpa using h0.1) (by simpa using (Option.some.inj e).symm)
              · have := h (j + 1) (by simpa using hj)
                rw [show i + (j + 1) = i + 1 + j by omega] at this
                simpa using this
          rw [← key]
          cases readDist s n (i + 1) <;> simp [and_comm, eq_comm]

/-! ### The schedule and the step -/

/-- What one step can do: SEQ's step when no move is left, and otherwise the next move. -/
theorem step_eq (s : State) :
    step s = match s.schedule with
      | [] => seqStep s
      | m :: ms => perform m { s with schedule := ms } := rfl

theorem step_nil {s : State} (h : s.schedule = []) : step s = seqStep s := by rw [step_eq, h]

theorem step_cons {s : State} {m : Move} {ms : List Move} (h : s.schedule = m :: ms) :
    step s = perform m { s with schedule := ms } := by rw [step_eq, h]

theorem seqStep_idle {s : State} (h : s.seqState = .idle) : seqStep s = .next s := by
  simp [seqStep, h]

theorem seqStep_busy {s : State} (h : s.seqState = .busy) {i : Instr} (hd : decodeWord s.cmd = .ok i) :
    seqStep s = exec i s := by simp [seqStep, h, hd]

theorem seqStep_illegal {s : State} (h : s.seqState = .busy) {e : Illegal}
    (hd : decodeWord s.cmd = .error e) : seqStep s = .next (failIllegal s) := by
  simp [seqStep, h, hd]

/-- What SEQ's step can do, if it answers a next state. -/
theorem seqStep_next {s t : State} (h : seqStep s = .next t) :
    (s.seqState = .idle ∧ t = s) ∨
      (s.seqState = .busy ∧ ((∃ i, decodeWord s.cmd = .ok i ∧ exec i s = .next t) ∨
        ((∃ e, decodeWord s.cmd = .error e) ∧ t = failIllegal s))) := by
  cases hs : s.seqState with
  | idle => rw [seqStep_idle hs] at h; cases h; exact .inl ⟨rfl, rfl⟩
  | busy =>
    refine .inr ⟨rfl, ?_⟩
    cases hd : decodeWord s.cmd with
    | ok i => rw [seqStep_busy hs hd] at h; exact .inl ⟨i, rfl, h⟩
    | error e => rw [seqStep_illegal hs hd] at h; cases h; exact .inr ⟨⟨e, rfl⟩, rfl⟩

/-- What an admitted access can do, if it answers a next state. -/
theorem performAt_next {addr bytes : Nat} {f : Target → State → State} {s t : State}
    (h : performAt addr bytes f s = .next t) :
    ∃ a, windowOffset s.cfg addr = some a ∧ bytes = 4 ∧ a % 4 = 0 ∧ t = f (locate s.cfg a) s := by
  unfold performAt at h
  cases hw : windowOffset s.cfg addr with
  | none => rw [hw] at h; cases h
  | some a =>
    simp only [hw] at h
    split at h
    · cases h
    · split at h
      · cases h
      · next h1 h2 => cases h; exact ⟨a, rfl, by simpa using h1, by simpa using h2, rfl⟩

/-- An aligned 32-bit access inside the window is admitted. -/
theorem performAt_ok {addr a : Nat} {f : Target → State → State} {s : State}
    (hw : windowOffset s.cfg addr = some a) (ha : a % 4 = 0) :
    performAt addr 4 f s = .next (f (locate s.cfg a) s) := by
  simp [performAt, hw, ha]

/-- A host read changes only what is the model's own: the data returned and the free draws made. -/
theorem hostRead_eq (t : Target) (s : State) :
    hostRead t s = { s with
      hostData := (hostRead t s).hostData
      freeCount := (hostRead t s).freeCount } := by
  cases t with
  | reg r => unfold hostRead; dsimp only; split <;> rfl
  | mem m e k =>
    unfold hostRead; dsimp only; split
    · rfl
    · unfold readMem; dsimp only; split <;> rfl
  | reserved => rfl

/-- While BUSY a write to anything but CTRL and STATUS sets WBUSY and does nothing else. -/
theorem hostWrite_busy {t : Target} {s : State} (hb : s.seqState = .busy) (h1 : t ≠ .reg .ctrl)
    (h2 : t ≠ .reg .status) (v : Word) : hostWrite t v s = { s with wbusy := true } := by
  have : isBusy s = true := by simp [isBusy, hb]
  cases t with
  | reg r => cases r <;> simp_all [hostWrite]
  | mem m e k => simp [hostWrite, this]
  | reserved => simp [hostWrite, this]

/-- What one move can do, if it answers a next state. -/
theorem perform_next {m : Move} {s t : State} (h : perform m s = .next t) :
    (∃ a, m = .host a ∧ access a s = .next t) ∨ (m = .wait ∧ t = poll s) ∨
      (m = .seq ∧ seqStep s = .next t) ∨ (m = .powerOn ∧ t = resetBlock s) := by
  cases m with
  | host a => exact .inl ⟨a, rfl, h⟩
  | wait => cases h; exact .inr (.inl ⟨rfl, rfl⟩)
  | seq => exact .inr (.inr (.inl ⟨rfl, h⟩))
  | powerOn => cases h; exact .inr (.inr (.inr ⟨rfl, rfl⟩))

end Sys2Proof.Machine
end

