-- ==== Sys2Proof/Laws/Outputs.lean ====
section
/-! SUPPORT. What the commands' shared writes do to memory, once: the bit output, the records and the code
table; and what the loops over SYMIN give when they reach their end. -/

namespace Sys2Proof.Machine

open Sys2Proof.Safety

/-! ### The bit output -/

theorem padBits_length (out : Bits) : (padBits out).length = 32 * ((out.length + 31) / 32) := by
  simp only [padBits, List.length_append, List.length_replicate]
  omega

/-- A position of the padded output is the output's bit, or 0. -/
theorem padBits_getElem? (out : Bits) (k : Nat) :
    (padBits out)[k]? =
      if k < out.length then out[k]?
      else if k < 32 * ((out.length + 31) / 32) then some false else none := by
  unfold padBits
  by_cases h : k < out.length
  · simp only [h, if_true, List.getElem?_append_left h]
  · simp only [h, if_false, List.getElem?_append_right (Nat.le_of_not_lt h), List.getElem?_replicate]
    split <;> split <;> first | rfl | omega

/-- The bytes that hold the positions below `32·q` of a bit buffer are those of its first `q` words. -/
theorem bitByte_in_words {base q k : Nat} (h : k < 32 * q) :
    base ≤ bitByte base k ∧ bitByte base k < base + 4 * q := by
  unfold bitByte; omega

/-- Everything the bit output writes. -/
theorem writeBitout_writes (out : Bits) (s : State) (hl : out.length < 2 ^ 15) :
    WritesBitout s (writeBitout out s) out := by
  have hb : ∀ k, k < (padBits out).length →
      readBit (writeBitout out s).mem (windowBase .bitout) k = (padBits out)[k]? := by
    intro k hk
    show readBit (storeBits s.mem (windowBase .bitout) 0 (padBits out)) (windowBase .bitout) k = _
    rw [readBit_storeBits _ (by decide)]
    simp [hk]
  refine ⟨?_, ?_, ?_, ?_⟩
  · show (BitVec.ofNat 15 out.length).toNat = _
    simp only [BitVec.toNat_ofNat]
    omega
  · intro k hk
    have hlen : k < (padBits out).length := by rw [padBits_length]; omega
    rw [hb k hlen, padBits_getElem?, if_pos hk]
  · intro k h1 h2
    have hlen : k < 32 * ((out.length + 31) / 32) := by simp only [wordBytes] at h2; omega
    rw [hb k (by rw [padBits_length]; exact hlen), padBits_getElem?, if_neg (by omega), if_pos hlen]
  · intro b hbo
    refine readByte_storeBits_outside _ _ _ _ fun j _ hj => ?_
    rw [padBits_length, Nat.zero_add] at hj
    have := bitByte_in_words (base := windowBase .bitout) hj
    simp only [wordBytes] at hbo
    omega

theorem writeBitout_wf (out : Bits) {s : State} (h : s.mem.wf) : (writeBitout out s).mem.wf :=
  storeBits_wf h (by decide) _ _

/-! ### The records -/

theorem recordWords_length (r : Record) : (recordWords r).length = 4 := rfl

theorem flatMap_recordWords_length (recs : List Record) :
    (recs.flatMap recordWords).length = 4 * recs.length := by
  induction recs with
  | nil => rfl
  | cons r recs ih => simp only [List.flatMap_cons, List.length_append, ih, recordWords_length,
      List.length_cons]; omega

/-- A word of memory is unchanged by storing words that end before it or start after it. -/
theorem readWord_storeWords_outside (m : Memory) {a a' : Nat} (ws : List Word)
    (h : a' + 4 ≤ a ∨ a + 4 * ws.length ≤ a') : readWord (storeWords m a ws) a' = readWord m a' := by
  have hb := fun j (hj : j < 4) => readByte_storeWords_outside m (a := a) (a' := a' + j) ws (by omega)
  have h0 := hb 0 (by omega)
  simp only [Nat.add_zero] at h0
  simp only [readWord, h0, hb 1 (by omega), hb 2 (by omega), hb 3 (by omega)]

/-- Everything the records' output writes. -/
theorem writeRecords_writes (syms : List Nat) (recs : List Record) (s : State)
    (hs : syms.length ≤ 8192) (hr : recs.length < 2 ^ 15) :
    WritesRecords s (writeRecords syms recs s) syms recs := by
  refine ⟨?_, ?_, ?_, ?_, ?_⟩
  · show (BitVec.ofNat 14 syms.length).toNat = _
    simp only [BitVec.toNat_ofNat]; omega
  · show (BitVec.ofNat 15 recs.length).toNat = _
    simp only [BitVec.toNat_ofNat]; omega
  · intro k hk
    rw [List.length_map] at hk
    show readWord (storeWords (storeWords s.mem 0x10000 _) 0x40000 _) (0x10000 + 4 * k) = _
    rw [readWord_storeWords_outside _ _ (.inl (by omega)),
      readWord_storeWords _ _ _ k (by simpa using hk)]
    simp [List.getD_eq_getElem?_getD, hk]
  · intro k hk
    show readWord (storeWords _ 0x40000 _) (0x40000 + 4 * k) = _
    rw [readWord_storeWords _ _ _ k hk]
    simp [List.getD_eq_getElem?_getD, List.getElem?_eq_getElem hk]
  · intro b h1 h2
    show readByte (storeWords (storeWords s.mem 0x10000 _) 0x40000 _) b = _
    rw [readByte_storeWords_outside, readByte_storeWords_outside]
    · rw [List.length_map]; exact h1
    · rw [flatMap_recordWords_length]
      have : 4 * (4 * recs.length) = 16 * recs.length := by omega
      rw [this]
      exact h2

theorem writeRecords_wf (syms : List Nat) (recs : List Record) {s : State} (h : s.mem.wf) :
    (writeRecords syms recs s).mem.wf := storeWords_wf (storeWords_wf h _ _) _ _

/-! ### The code table -/

theorem storeCodes_wf {m : Memory} (h : m.wf) (codes : List (Nat × CodeEntry)) : (storeCodes m codes).wf := by
  induction codes generalizing m with
  | nil => exact h
  | cons c codes ih => exact ih (storeWords_wf h _ _)

/-- Storing entries changes no byte outside them. -/
theorem readByte_storeCodes_outside (m : Memory) (codes : List (Nat × CodeEntry)) {a : Nat}
    (h : ∀ c ∈ codes, a < 0x2000 + 16 * c.1 ∨ 0x2000 + 16 * c.1 + 16 ≤ a) :
    readByte (storeCodes m codes) a = readByte m a := by
  induction codes generalizing m with
  | nil => rfl
  | cons c codes ih =>
    obtain ⟨t, e⟩ := c
    rw [storeCodes, ih _ fun c hc => h c (List.mem_cons_of_mem _ hc)]
    have h0 := h (t, e) List.mem_cons_self
    refine readByte_storeWords_outside _ _ ?_
    have : wordOffset .ctab t 0 = 0x2000 + 16 * t := by simp [wordOffset, windowBase, entryBytes]
    rw [this]
    exact h0

/-- The entries of different symbols stored read back, four words each. -/
theorem readWord_storeCodes (m : Memory) (codes : List (Nat × CodeEntry))
    (hn : (codes.map fun c => c.1).Nodup) {t : Nat} {e : CodeEntry} (h : (t, e) ∈ codes) :
    HoldsWords (storeCodes m codes) (0x2000 + 16 * t) (codeWords e) := by
  induction codes generalizing m with
  | nil => cases h
  | cons c codes ih =>
    obtain ⟨t', e'⟩ := c
    rw [List.map_cons, List.nodup_cons] at hn
    rcases List.mem_cons.1 h with h | h
    · cases h
      intro k hk
      have hk4 : k < 4 := hk
      have hoff : wordOffset .ctab t 0 = 0x2000 + 16 * t := by simp [wordOffset, windowBase, entryBytes]
      have hb : ∀ j < 4, readByte (storeCodes (storeWords m (0x2000 + 16 * t) (codeWords e)) codes)
          (0x2000 + 16 * t + 4 * k + j) =
          readByte (storeWords m (0x2000 + 16 * t) (codeWords e)) (0x2000 + 16 * t + 4 * k + j) := by
        intro j hj
        refine readByte_storeCodes_outside _ _ fun c hc => ?_
        have hne : c.1 ≠ t := fun he => hn.1 (List.mem_map.2 ⟨c, hc, he⟩)
        omega
      have hw := readWord_storeWords m (0x2000 + 16 * t) (codeWords e) k hk
      have h0 := hb 0 (by omega)
      simp only [Nat.add_zero] at h0
      rw [storeCodes, hoff]
      simp only [readWord, h0, hb 1 (by omega), hb 2 (by omega), hb 3 (by omega)] at hw ⊢
      rw [hw]
      simp [List.getD_eq_getElem?_getD, List.getElem?_eq_getElem hk]
    · exact ih _ hn.2 h

/-! ### The loops over SYMIN -/

/-- What ENCODE's loop has done when it reaches its end: every symbol it read is written and has a code, and
their parity codewords stand behind what was there. -/
theorem encodeFrom_ok {s : State} {n j : Nat} {out r : Bits} (h : encodeFrom s n j out = .ok r) :
    ∃ syms : List Nat, syms.length = n ∧
      (∀ k (hk : k < syms.length), syminEntry s (j + k) = some syms[k] ∧ syms[k] < s.cfg.maxSym ∧
        (codeEntry s syms[k]).valid = true) ∧
      r = out ++ syms.flatMap (fun t => parityCode (codeEntry s t)) ∧
      (n = 0 ∨ r.length ≤ s.cfg.bitbufBits) := by
  induction n generalizing j out with
  | zero => cases h; exact ⟨[], rfl, by simp, by simp, .inl rfl⟩
  | succ n ih =>
    unfold encodeFrom at h
    cases ht : syminEntry s j with
    | none => rw [ht] at h; cases h
    | some t =>
      simp only [ht] at h
      split at h
      · cases h
      · next hv =>
        split at h
        · cases h
        · next hl =>
          obtain ⟨syms, h1, h2, h3, h4⟩ := ih h
          simp only [Bool.or_eq_true, decide_eq_true_eq, Bool.not_eq_true', not_or, Nat.not_le,
            Bool.not_eq_false] at hv
          refine ⟨t :: syms, by simp [h1], ?_, by simp [h3], .inr ?_⟩
          · intro k hk
            cases k with
            | zero => exact ⟨ht, hv⟩
            | succ k =>
              have := h2 k (by simpa using hk)
              rw [show j + 1 + k = j + (k + 1) by omega] at this
              exact this
          · rcases h4 with rfl | h4
            · rw [List.length_eq_zero_iff] at h1
              subst h1
              simp only [h3, List.flatMap_nil, List.append_nil]
              omega
            · exact h4

/-- What HENCS's loop has done when it reaches its end: every value it read is written and at most 15, and
their codewords stand behind what was there. -/
theorem hencsFrom_ok {s : State} {n j : Nat} {out r : Bits} (h : hencsFrom s n j out = .ok r) :
    ∃ xs : List Nat, xs.length = n ∧
      (∀ k (hk : k < xs.length), syminEntry s (j + k) = some xs[k] ∧ xs[k] ≤ 15) ∧
      r = out ++ xs.flatMap (hammingEnc s.cfg) ∧ (n = 0 ∨ 7 * (j + n) ≤ s.cfg.bitbufBits) := by
  induction n generalizing j out with
  | zero => cases h; exact ⟨[], rfl, by simp, by simp, .inl rfl⟩
  | succ n ih =>
    unfold hencsFrom at h
    cases ht : syminEntry s j with
    | none => rw [ht] at h; cases h
    | some t =>
      simp only [ht] at h
      split at h
      · cases h
      · next hv =>
        split at h
        · cases h
        · next hl =>
          obtain ⟨xs, h1, h2, h3, h4⟩ := ih h
          refine ⟨t :: xs, by simp [h1], ?_, by simp [h3], .inr ?_⟩
          · intro k hk
            cases k with
            | zero => exact ⟨ht, by simpa using hv⟩
            | succ k =>
              have := h2 k (by simpa using hk)
              rw [show j + 1 + k = j + (k + 1) by omega] at this
              exact this
          · rcases h4 with rfl | h4 <;> omega

/-- The output of `N` LFSR steps has `N` bits. -/
theorem lfsrRun_length (ph : TapPhase) (n t k s : Nat) : (lfsrRun ph n t k s).1.length = k := by
  induction k generalizing s with
  | zero => rfl
  | succ k ih => simp [lfsrRun, ih]

/-- The combiner outputs the bits asked for, in at most the steps allowed. -/
theorem sgRun_some {ph : TapPhase} {na ta ns ts fuel k sa ss : Nat} {r : SgResult}
    (h : sgRun ph na ta ns ts fuel k sa ss = some r) : r.bits.length = k ∧ r.steps ≤ fuel := by
  induction fuel generalizing k sa ss r with
  | zero =>
    cases k with
    | zero => cases h; exact ⟨rfl, le_refl _⟩
    | succ k => cases h
  | succ fuel ih =>
    cases k with
    | zero => cases h; exact ⟨rfl, Nat.zero_le _⟩
    | succ k =>
      unfold sgRun at h
      dsimp only at h
      split at h
      · cases h
      · next q hq =>
        have := ih hq
        cases h
        dsimp only
        split at this <;> rename_i hb <;> simp only [hb, if_true, if_false, Bool.false_eq_true,
          List.length_cons] <;> omega

end Sys2Proof.Machine
end

