-- ==== Sys2Proof/Laws/PerInstr.lean ====
section
/-! SUPPORT. Statements made for every command, one lemma per constructor of `Instr`. -/

namespace Sys2Proof.Laws.EncodeFields

/-- The word of a command has the fields of the format `CMD32` (30_encoding.md R130, R153): its opcode, its
U bit, reserved bits 0, and they are well formed. -/
def Statement (i : Instr) : Prop :=
  (fieldsOf (encode i)).opc = opcodeOf i ∧ (fieldsOf (encode i)).u = unitBitOf i ∧
    (fieldsOf (encode i)).wf = true

theorem nop : Statement .nop := by unfold Statement; decide

theorem build : Statement .build := by unfold Statement; decide

theorem encode : Statement .encode := by unfold Statement; decide

theorem decode : Statement .decode := by unfold Statement; decide

theorem addpar : Statement .addpar := by unfold Statement; decide

theorem stripchk : Statement .stripchk := by unfold Statement; decide

theorem henc : Statement .henc := by unfold Statement; decide

theorem hencs : Statement .hencs := by unfold Statement; decide

theorem hdec : Statement .hdec := by unfold Statement; decide

theorem hdecb : Statement .hdecb := by unfold Statement; decide

theorem lstep (u : LfsrUnit) : Statement (.lstep u) := by cases u <;> (unfold Statement; decide)

theorem lgen (u : LfsrUnit) : Statement (.lgen u) := by cases u <;> (unfold Statement; decide)

theorem sggen : Statement .sggen := by unfold Statement; decide

theorem chisq (b : BitSource) : Statement (.chisq b) := by cases b <;> (unfold Statement; decide)

theorem period (b : BitSource) : Statement (.period b) := by cases b <;> (unfold Statement; decide)

theorem bcopy : Statement .bcopy := by unfold Statement; decide

end Sys2Proof.Laws.EncodeFields
end

