-- ==== Sys2Proof/Laws/Port.lean ====
section
/-! SUPPORT. The host port, once: what an offset of the window names, and what one host access at an aligned
offset does. -/

namespace Sys2Proof.Machine

open Sys2Proof.Safety

/-- The offset of a register names it. -/
theorem locate_reg (c : Config) (r : Reg) : locate c (regOffset r) = .reg r := by
  cases r <;> rfl

/-- An offset that names a register is that register's. -/
theorem locate_eq_reg {c : Config} {a : Nat} {r : Reg} (h : locate c a = .reg r) : a = regOffset r := by
  unfold locate at h
  split at h
  · dsimp only at h; split at h <;> cases h
  · split at h
    · next r' hr =>
      cases h
      have := List.find?_some hr
      simpa using (of_decide_eq_true this).symm
    · cases h

/-- An offset that names a memory word lies in its window, in an entry within capacity. -/
theorem locate_eq_mem {c : Config} {a : Nat} {m : MemName} {e k : Nat} (h : locate c a = .mem m e k) :
    inWindow m a = true ∧ e < capacity c m ∧ e = (a - windowBase m) / entryBytes m ∧
      k = (a - windowBase m) % entryBytes m / 4 := by
  unfold locate at h
  split at h
  · next m' hm =>
    dsimp only at h
    split at h
    · next hc => cases h; exact ⟨by simpa using List.find?_some hm, hc, rfl, rfl⟩
    · cases h
  · split at h <;> cases h

/-- The offset that an aligned target's word stands at. -/
theorem wordOffset_of_locate {c : Config} {a : Nat} {m : MemName} {e k : Nat}
    (h : locate c a = .mem m e k) (h4 : a % 4 = 0) : wordOffset m e k = a := by
  obtain ⟨hw, -, rfl, rfl⟩ := locate_eq_mem h
  simp only [inWindow, Bool.and_eq_true, decide_eq_true_eq] at hw
  cases m <;> simp only [windowBase, windowBytes] at hw <;>
    simp only [wordOffset, windowBase, entryBytes] <;> omega

/-- An offset lies in one memory's window at most. -/
theorem inWindow_unique {m n : MemName} {a : Nat} (hm : inWindow m a = true) (hn : inWindow n a = true) :
    m = n := by
  simp only [inWindow, Bool.and_eq_true, decide_eq_true_eq] at hm hn
  cases m <;> cases n <;> simp only [windowBase, windowBytes] at hm hn <;> first | rfl | omega

/-- An offset in a memory's window that lies in an entry within capacity names its word. -/
theorem locate_mem {c : Config} {m : MemName} {a : Nat} (h : inWindow m a = true)
    (hc : (a - windowBase m) / entryBytes m < capacity c m) :
    locate c a = .mem m ((a - windowBase m) / entryBytes m) ((a - windowBase m) % entryBytes m / 4) := by
  have hf : allMems.find? (fun n => inWindow n a) = some m := by
    cases hs : allMems.find? (fun n => inWindow n a) with
    | none => exact absurd h (by simpa using List.find?_eq_none.mp hs m (by cases m <;> decide))
    | some n => rw [inWindow_unique (m := n) (by simpa using List.find?_some hs) h]
  simp only [locate, hf, hc, if_true]

/-- A word of an entry within capacity is named by its offset, which lies in the window of the block. -/
theorem locate_word {c : Config} {m : MemName} {a : Nat} (hl : c.Legal) (h : WordAt c m a) :
    a < 0x80000 ∧ ∃ e k, locate c a = .mem m e k ∧ wordOffset m e k = a := by
  obtain ⟨h4, p, hp, rfl, h1, h2⟩ := h
  obtain ⟨-, hms, hsd, hbb, -⟩ := hl
  have hw : inWindow p.1 a = true ∧ (a - windowBase p.1) / entryBytes p.1 < capacity c p.1 := by
    simp only [inWindow, Bool.and_eq_true, decide_eq_true_eq]
    simp only [memoryMap, List.mem_cons, List.not_mem_nil, or_false] at hp
    rcases hp with rfl | rfl | rfl | rfl | rfl | rfl | rfl <;> simp only at h1 h2 <;>
      simp only [windowBase, windowBytes, entryBytes, capacity, Config.rptDepth] <;> omega
  have hloc := locate_mem hw.1 hw.2
  refine ⟨?_, _, _, hloc, wordOffset_of_locate hloc h4⟩
  have := hw.1
  simp only [inWindow, Bool.and_eq_true, decide_eq_true_eq] at this
  revert this
  cases p.1 <;> simp only [windowBase, windowBytes] <;> omega

/-- The Writes list of a command, register by register. -/
theorem writesReg_eq (i : Instr) (r : Reg) :
    writesReg i r = decide (regOffset r ∈ writtenOffsets i) := by
  rcases i with _ | _ | _ | _ | _ | _ | _ | _ | _ | _ | u | u | _ | b | b | _ <;>
    (try cases u) <;> cases r <;> rfl

/-- The RES registers that the failure of a word that selects no command sets to 0. -/
theorem illegalResCount_eq (w : Word) : illegalResCount w = resColumn (w.toNat % 256) := by
  have h : ∀ o : BitVec 8, (match namedByOpcode o with | some i => resCount i | none => 0) =
      resColumn o.toNat := by decide
  exact h (w.extractLsb' 0 8) |>.trans (by simp)

theorem resColumn_le (n : Nat) : resColumn n ≤ 4 := by unfold resColumn; split <;> omega

theorem illegalWritesReg_eq (w : Word) (r : Reg) :
    illegalWritesReg w r =
      decide (regOffset r ∈ [0x020, 0x024, 0x028, 0x02C].take (resColumn (w.toNat % 256))) := by
  have h := resColumn_le (w.toNat % 256)
  have e := illegalResCount_eq w
  generalize resColumn (w.toNat % 256) = n at *
  obtain rfl | rfl | rfl | rfl | rfl : n = 0 ∨ n = 1 ∨ n = 2 ∨ n = 3 ∨ n = 4 := by omega
  all_goals cases r <;> simp [illegalWritesReg, e, regOffset]

/-- The registers that the command in flight may write. -/
theorem inFlightWrites_reg (s : State) (r : Reg) :
    inFlightWrites s (.reg r) = decide (s.seqState = .busy ∧ regOffset r ∈ flightOffsets s) := by
  unfold inFlightWrites flightOffsets
  cases hs : s.seqState <;> cases decodeWord s.cmd <;>
    simp [isBusy, hs, writesReg_eq, illegalWritesReg_eq]

/-- The memory words that the command in flight may write. -/
theorem inFlightWrites_mem (s : State) {m : MemName} {e k a : Nat} (h : locate s.cfg a = .mem m e k)
    (h4 : a % 4 = 0) :
    inFlightWrites s (.mem m e k) = true ↔ s.seqState = .busy ∧ FlightWrites s m a := by
  have hbase : 0x18000 + 4 * e = a ∨ m ≠ .bitin := by
    by_cases hm : m = .bitin
    · subst hm
      obtain ⟨hw, -, rfl, -⟩ := locate_eq_mem h
      simp only [inWindow, Bool.and_eq_true, decide_eq_true_eq] at hw
      simp only [windowBase, entryBytes] at hw ⊢
      omega
    · exact .inr hm
  unfold inFlightWrites FlightWrites flightMems
  cases hs : s.seqState <;> cases decodeWord s.cmd with
  | error _ => simp [isBusy, hs]
  | ok i =>
    cases i <;> cases m <;>
      simp [isBusy, hs, writesMem, writtenMems, producesBits, producesRecords, wordBytes] at hbase ⊢ <;> omega

theorem windowOffset_base (c : Config) {a : Nat} (h : a < 0x80000) :
    windowOffset c (c.blockBase + a) = some a := by
  simp [windowOffset, windowSize, h]

/-- A host read at an aligned offset of the window. -/
theorem hostReads_eq (s : State) {a : Nat} (h : a < 0x80000) (h4 : a % 4 = 0) :
    hostReads a s = .next (hostRead (locate s.cfg a) s) :=
  performAt_ok (s := s) (windowOffset_base s.cfg h) h4

/-- A host write at an aligned offset of the window. -/
theorem hostWrites_eq (s : State) {a : Nat} (v : Word) (h : a < 0x80000) (h4 : a % 4 = 0) :
    hostWrites a v s = .next (hostWrite (locate s.cfg a) v s) :=
  performAt_ok (s := s) (f := fun t => hostWrite t v) (windowOffset_base s.cfg h) h4

theorem regOffset_ok (r : Reg) : regOffset r < 0x80000 ∧ regOffset r % 4 = 0 := by
  cases r <;> decide

/-- A host read of a register. -/
theorem hostReads_reg (s : State) (r : Reg) : hostReads (regOffset r) s = .next (hostRead (.reg r) s) := by
  rw [hostReads_eq s (regOffset_ok r).1 (regOffset_ok r).2, locate_reg]

/-- A host write of a register. -/
theorem hostWrites_reg (s : State) (r : Reg) (v : Word) :
    hostWrites (regOffset r) v s = .next (hostWrite (.reg r) v s) := by
  rw [hostWrites_eq s v (regOffset_ok r).1 (regOffset_ok r).2, locate_reg]

/-- While IDLE nothing is in flight, so a register reads its value. -/
theorem hostRead_reg_idle {s : State} (h : s.seqState = .idle) (r : Reg) :
    hostRead (.reg r) s = { s with hostData := readReg s r } := by
  simp [hostRead, inFlightWrites, isBusy, h, returnData]

/-- STATUS is in no command's Writes list, so it reads its value in either SEQ_STATE. -/
theorem hostRead_status (s : State) :
    hostRead (.reg .status) s = { s with hostData := statusWord s } := by
  have h : inFlightWrites s (.reg .status) = false := by
    unfold inFlightWrites
    cases decodeWord s.cmd <;> simp [writesReg, illegalWritesReg]
  simp only [hostRead, h, returnData, readReg, Bool.false_eq_true, if_false]

/-- One move of SEQ. -/
theorem does_seq (s : State) : does .seq s = seqStep s := rfl

/-- One access of the host. -/
theorem does_host (a : Access) (s : State) : does (.host a) s = access a s := rfl

/-- A power-on reset. -/
theorem does_powerOn (s : State) : does .powerOn s = .next (resetBlock s) := rfl

/-- A poll of `WAIT`. -/
theorem does_wait (s : State) : does .wait s = .next (poll s) := rfl

end Sys2Proof.Machine
end

