-- ==== Sys2Proof/Machine/Platform.lean ====
section
/-! DEFINITION. Several instances on one platform (60_exceptions.md R440, R441): the product of
single-instance models, one instance stepping at a time. -/

namespace Sys2Proof.Machine

/-- The instances of a platform, each with its own state. -/
abbrev Platform := List State

/-- Instance `k` takes one step; the others keep their state (60_exceptions.md R440). A `k` that names
no instance changes nothing. DEDUCED, safe, log entry 18. Every instance takes its free draws from the
one sequence `Config.freeWord`, counted by its own `freeCount`. DESIGN CHOICE, unsafe, log entry 20. -/
def platformStep (k : Nat) (p : Platform) : Host.Outcome Platform Fault Refusal :=
  match p[k]? with
  | none => .next p
  | some s =>
    match step s with
    | .next t => .next (p.set k t)
    | .fault f => .fault f
    | .refused r => .refused r

end Sys2Proof.Machine
end

