-- ==== Sys2Proof/Tests/Slice0.lean ====
section
/-! SUPPORT. The model's own tests. The expected values are those of the spec: the examples of its command
rules, its tables and its test vectors (95_test_vectors.md), or a calculation by hand from a rule. The
witnesses at the end show, for each statement with hypotheses, a state and operands that meet them. -/

namespace Sys2Proof.Tests

set_option Elab.async false

open Sys2Proof.Machine Sys2Proof.Safety

/-! ### Helpers -/

/-- The outcome is a next state of which `p` holds. -/
def nextIs (p : State → Bool) : Machine.Outcome → Bool
  | .next t => p t
  | _ => false

/-- The outcome is this refusal. -/
def refusedAs (r : Refusal) : Machine.Outcome → Bool
  | .refused x => decide (x = r)
  | _ => false

/-- The outcome is this fault. -/
def faultedAs (f : Fault) : Machine.Outcome → Bool
  | .fault x => decide (x = f)
  | _ => false

theorem next_of {p : State → Bool} {o : Machine.Outcome} (h : nextIs p o = true) :
    ∃ t, o = .next t ∧ p t = true := by
  cases o with
  | next t => exact ⟨t, rfl, h⟩
  | fault f => cases h
  | refused r => cases h

theorem continues_of {p : State → Bool} {o : Machine.Outcome} (h : nextIs p o = true) : Continues o :=
  let ⟨t, e, _⟩ := next_of h
  ⟨t, e⟩

theorem fault_of {f : Fault} {o : Machine.Outcome} (h : faultedAs f o = true) : o = .fault f := by
  cases o with
  | next t => cases h
  | fault x => rw [of_decide_eq_true h]
  | refused r => cases h

/-- The next state, for a test that goes on from it. -/
def after (o : Machine.Outcome) (s : State) : State :=
  match o with
  | .next t => t
  | _ => s

/-- A bit string from its digits. -/
def bits (l : List Nat) : Bits := l.map fun d => d == 1

def reset : State := State.reset

/-- A small legal instance. -/
def tiny : Config :=
  { Config.reference with pw := 4, maxSym := 4, symbufDepth := 4, bitbufBits := 32, tapPhase := .post }

def small : State := State.resetOf tiny

def withDist (s : State) (ps : List Nat) : State :=
  { s with distCount := BitVec.ofNat 11 ps.length, mem := storeWords s.mem 0x01000 (ps.map wordOf) }

def withSyms (s : State) (xs : List Nat) : State :=
  { s with syminLen := BitVec.ofNat 14 xs.length, mem := storeWords s.mem 0x08000 (xs.map wordOf) }

def withBitin (s : State) (x : Bits) : State :=
  { s with bitinLen := BitVec.ofNat 15 x.length, mem := storeBits s.mem 0x18000 0 x }

def withBitout (s : State) (x : Bits) : State :=
  { s with bitoutLen := BitVec.ofNat 15 x.length, mem := storeBits s.mem 0x1A000 0 x }

/-- Unit A and unit S as in the examples of 43_lfsr.md R307 and R308. -/
def withUnits (s : State) : State :=
  { s with lfsrA := { len := 4, taps := 4, state := 8 }, lfsrS := { len := 3, taps := 2, state := 4 } }

/-- The table of the example of 41_prefix_coder.md R200. -/
def built : State := after (exec .build (withDist reset [32768, 16384, 16384])) reset

/-- A state with the command of the word `w` in flight. -/
def inFlight (w : Nat) (s : State) : State := s.withFetchWord 32 w

/-! ### Well-formedness: an ill-formed term for each check -/

theorem test_wf_accepts_build : ({ opc := 0x01, u := false, rsv := 0 } : CmdFields).wf = true := by decide
theorem test_wf_accepts_unit : ({ opc := 0x21, u := true, rsv := 0 } : CmdFields).wf = true := by decide
theorem test_wf_refuses_reserved : ({ opc := 0x01, u := false, rsv := 1 } : CmdFields).rsvOk = false ∧
    ({ opc := 0x01, u := false, rsv := 1 } : CmdFields).wf = false := by decide
theorem test_wf_refuses_opcode : ({ opc := 0x06, u := false, rsv := 0 } : CmdFields).opcOk = false ∧
    ({ opc := 0x06, u := false, rsv := 0 } : CmdFields).wf = false := by decide
theorem test_wf_refuses_unit : ({ opc := 0x22, u := true, rsv := 0 } : CmdFields).unitOk = false ∧
    ({ opc := 0x22, u := true, rsv := 0 } : CmdFields).wf = false := by decide

/-! ### Decoding: words written out from 30_encoding.md R130 and R138 -/

theorem test_decode_nop : decodeWord 0b00000000000000000000000_0_00000000#32 = .ok .nop := by decide
theorem test_decode_build : decodeWord 0b00000000000000000000000_0_00000001#32 = .ok .build := by decide
theorem test_decode_encode : decodeWord 0b00000000000000000000000_0_00000010#32 = .ok .encode := by decide
theorem test_decode_decode : decodeWord 0b00000000000000000000000_0_00000011#32 = .ok .decode := by decide
theorem test_decode_addpar : decodeWord 0b00000000000000000000000_0_00000100#32 = .ok .addpar := by decide
theorem test_decode_stripchk : decodeWord 0b00000000000000000000000_0_00000101#32 = .ok .stripchk := by decide
theorem test_decode_henc : decodeWord 0b00000000000000000000000_0_00010000#32 = .ok .henc := by decide
theorem test_decode_hencs : decodeWord 0b00000000000000000000000_0_00010001#32 = .ok .hencs := by decide
theorem test_decode_hdec : decodeWord 0b00000000000000000000000_0_00010010#32 = .ok .hdec := by decide
theorem test_decode_hdecb : decodeWord 0b00000000000000000000000_0_00010011#32 = .ok .hdecb := by decide
theorem test_decode_lstep_a : decodeWord 0b00000000000000000000000_0_00100000#32 = .ok (.lstep .a) := by decide
theorem test_decode_lstep_s : decodeWord 0b00000000000000000000000_1_00100000#32 = .ok (.lstep .s) := by decide
theorem test_decode_lgen_a : decodeWord 0b00000000000000000000000_0_00100001#32 = .ok (.lgen .a) := by decide
theorem test_decode_lgen_s : decodeWord 0b00000000000000000000000_1_00100001#32 = .ok (.lgen .s) := by decide
theorem test_decode_sggen : decodeWord 0b00000000000000000000000_0_00100010#32 = .ok .sggen := by decide
theorem test_decode_chisq_in : decodeWord 0b00000000000000000000000_0_00110000#32 = .ok (.chisq .bitin) := by decide
theorem test_decode_chisq_out : decodeWord 0b00000000000000000000000_1_00110000#32 = .ok (.chisq .bitout) := by decide
theorem test_decode_period_in : decodeWord 0b00000000000000000000000_0_00110001#32 = .ok (.period .bitin) := by decide
theorem test_decode_period_out : decodeWord 0b00000000000000000000000_1_00110001#32 = .ok (.period .bitout) := by decide
theorem test_decode_bcopy : decodeWord 0b00000000000000000000000_0_01000000#32 = .ok .bcopy := by decide
theorem test_decode_table_word : decodeTableWord 32 0x131 = some (.period .bitout) := by decide
theorem test_decode_refuses :
    decodeWord 0x00000200#32 = .error .reservedBits ∧ decodeWord 0x80000001#32 = .error .reservedBits ∧
    decodeWord 0x00000041#32 = .error .unassignedOpcode ∧ decodeWord 0x00000101#32 = .error .unitNotTaken := by
  decide

/-! ### The commands, from the examples of their rules -/

/-- 45_control.md R370: STATUS = 0x00000002. -/
theorem test_nop : nextIs (fun t => statusWord t == 2) (step (inFlight 0x00 reset)) = true := by
  decide +kernel
/-- 41_prefix_coder.md R200: codes "0", "10", "11"; parity codes "00", "101", "110". -/
theorem test_build_results : (built.res0, built.res1, built.res2, built.res3) =
    (65536#32, 3#32, 1#32, 3#32) := by decide +kernel
theorem test_build_table : (codeEntry built 1, codeEntry built 2, (codeEntry built 3).valid) =
    ({ valid := true, blen := 2, bcode := 0b10, plen := 3, pcode := 0b101, rank := 1 },
      { valid := true, blen := 2, bcode := 0b11, plen := 3, pcode := 0b110, rank := 2 }, false) := by
  decide +kernel
/-- 41_prefix_coder.md R220: BITOUT = "00101110". -/
theorem test_encode : nextIs (fun t => t.bitoutLen == 8 && t.res0 == 3 &&
    (readWord t.mem 0x1A000).value == 0x2E000000#32) (exec .encode (withSyms built [0, 1, 2])) = true := by
  decide +kernel
/-- 41_prefix_coder.md R221: a symbol without a code. -/
theorem test_encode_unknown : nextIs (fun t => t.errcode == 1 && t.bitoutLen == 0)
    (exec .encode (withSyms built [0, 3])) = true := by decide +kernel
/-- 41_prefix_coder.md R223: SYMOUT = [0, 1, 2], records (1, 2, 5) and (2, 5, 8). -/
theorem test_decode : nextIs (fun t => t.symoutLen == 3 && t.rptLen == 3 && !t.desync &&
    (readWord t.mem 0x10008).value == 2 && (readWord t.mem 0x40010).value == 1 &&
    (readWord t.mem 0x40014).value == 2 && (readWord t.mem 0x40018).value == 5)
    (exec .decode (withBitin built (bits [0, 0, 1, 0, 1, 1, 1, 0]))) = true := by decide +kernel
/-- 41_prefix_coder.md R232: before any BUILD every bit is a desync record. -/
theorem test_decode_desync : nextIs (fun t => t.symoutLen == 0 && t.desyncCnt == 3 && t.desync &&
    (readWord t.mem 0x40020).value == 0x10000000#32)
    (exec .decode (withBitin reset (bits [1, 0, 1]))) = true := by decide +kernel
/-- 41_prefix_coder.md R218: "10110" gives "1010101". -/
theorem test_addpar : nextIs (fun t => t.res0 == 0x55 && t.res1 == 7)
    (exec .addpar { reset with arg0 := 0b10110, arg1 := 5 }) = true := by decide +kernel
/-- 41_prefix_coder.md R219. -/
theorem test_stripchk : nextIs (fun t => t.res0 == 25 && t.res1 == 5 && t.res2 == 3 && t.perr)
    (exec .stripchk { reset with arg0 := 0b1101010, arg1 := 0x0507 }) = true := by decide +kernel
/-- 42_hamming.md R268. -/
theorem test_henc : nextIs (fun t => t.res0 == 0x2B) (exec .henc { reset with arg0 := 11 }) = true := by
  decide +kernel
theorem test_henc_out_of_range : nextIs (fun t => t.errcode == 2 && t.res0 == 0)
    (exec .henc { reset with arg0 := 16, res0 := 7 }) = true := by decide +kernel
/-- 42_hamming.md R270: "10000111011010". -/
theorem test_hencs : nextIs (fun t => t.bitoutLen == 14 && t.res0 == 2 &&
    (readWord t.mem 0x1A000).value == 0x87680000#32) (exec .hencs (withSyms reset [3, 10])) = true := by
  decide +kernel
/-- 42_hamming.md R272. -/
theorem test_hdecb : nextIs (fun t => t.res0 == 11 && t.res1 == 4 && t.res2 == 1 && t.res3 == 1 && t.hcorr)
    (exec .hdecb { reset with arg0 := 0x6B }) = true := by decide +kernel
/-- 42_hamming.md R274: the second record is (10, 7, 14, S=1, e=3, f=1). -/
theorem test_hdec : nextIs (fun t => t.res0 == 2 && t.hcorrCnt == 1 && t.hcorr &&
    (readWord t.mem 0x10000).value == 3 && (readWord t.mem 0x10004).value == 10 &&
    (readWord t.mem 0x40010).value == 0x2000000A#32 && (readWord t.mem 0x4001C).value == 0x131#32)
    (exec .hdec (withBitin reset (bits [1, 0, 0, 0, 0, 1, 1, 1, 0, 0, 1, 0, 1, 0]))) = true := by
  decide +kernel
/-- 42_hamming.md R275. -/
theorem test_hdec_malformed : nextIs (fun t => t.errcode == 4)
    (exec .hdec (withBitin reset (bits [1, 0, 0]))) = true := by decide +kernel
/-- 43_lfsr.md R306. -/
theorem test_lstep : nextIs (fun t => t.res0 == 1 && t.lfsrA.state == 1 && t.lfsrS == (withUnits reset).lfsrS)
    (exec (.lstep .a) (withUnits reset)) = true := by decide +kernel
/-- 43_lfsr.md R304, R313. -/
theorem test_lstep_unconfigured : nextIs (fun t => t.errcode == 11 && t.lfsrS.state == 5)
    (exec (.lstep .s) { reset with lfsrS := { len := 33, taps := 0, state := 5 } }) = true := by decide +kernel
/-- 43_lfsr.md R307: the first 30 bits are "100010011010111100010011010111". -/
theorem test_lgen : nextIs (fun t => t.bitoutLen == 30 && t.lfsrA.state == 8 &&
    (readWord t.mem 0x1A000).value == 0b10001001101011110001001101011100#32)
    (exec (.lgen .a) { withUnits reset with arg0 := 30 }) = true := by decide +kernel
/-- 43_lfsr.md R308: "100011111010" in 21 steps. -/
theorem test_sggen : nextIs (fun t => t.res0 == 21 && t.lfsrA.state == 6 && t.lfsrS.state == 4 &&
    (readWord t.mem 0x1A000).value == 0b10001111101000000000000000000000#32)
    (exec .sggen { withUnits reset with arg0 := 12 }) = true := by decide +kernel
/-- 43_lfsr.md R309: a zero selector never completes. -/
theorem test_sggen_hang : nextIs (fun t => t.seqState == .busy && !t.done)
    (step (inFlight 0x22 { reset with
      lfsrA := { len := 4, taps := 4, state := 8 }, lfsrS := { len := 3, taps := 2, state := 0 },
      arg0 := 1 })) = true := by decide +kernel
/-- 44_statistics.md R342: 3 zeros and 7 ones. -/
theorem test_chisq : nextIs (fun t => t.res0 == 3 && t.res1 == 7 && t.res2 == 104857 && t.res3 == 1)
    (exec (.chisq .bitin) (withBitin reset (bits [1, 1, 0, 1, 1, 0, 1, 1, 0, 1]))) = true := by decide +kernel
/-- 44_statistics.md R345. -/
theorem test_chisq_empty : nextIs (fun t => t.errcode == 12) (exec (.chisq .bitout) reset) = true := by
  decide +kernel
/-- 44_statistics.md R346: "01010" has period 2. -/
theorem test_period : nextIs (fun t => t.res0 == 2)
    (exec (.period .bitout) (withBitout reset (bits [0, 1, 0, 1, 0]))) = true := by decide +kernel
/-- 44_statistics.md R347: a sequence without a candidate period gives its length. -/
theorem test_period_none : nextIs (fun t => t.res0 == 4)
    (exec (.period .bitin) (withBitin reset (bits [0, 0, 0, 1]))) = true := by decide +kernel
/-- 45_control.md R371: positions 8 and above keep their values. -/
theorem test_bcopy : nextIs (fun t => t.bitinLen == 8 && (readWord t.mem 0x18000).value == 0x2EFFFFFF#32)
    (exec .bcopy (withBitout { reset with mem := storeWord Memory.reset 0x18000 0xFFFFFFFF }
      (bits [0, 0, 1, 0, 1, 1, 1, 0]))) = true := by decide +kernel
/-- 10_state.md R93: an unwritten position faults. -/
theorem test_hencs_unwritten_faults : faultedAs (.unwrittenRead .symin 2)
    (exec .hencs { withSyms reset [1, 0] with syminLen := 3 }) = true := by decide +kernel

/-! ### The host port and the step -/

/-- 30_encoding.md R134, 60_exceptions.md R403: ADDPAR's opcode with U = 1. -/
theorem test_illegal_word : nextIs (fun t => t.errcode == 8 && t.res0 == 0 && t.res1 == 0 && t.res2 == 9)
    (step { inFlight 0x104 reset with res0 := 9, res1 := 9, res2 := 9 }) = true := by decide +kernel
/-- 10_state.md R64: a write while BUSY is dropped and sets WBUSY. -/
theorem test_busy_write : nextIs (fun t => t.wbusy && t.arg0 == 0) (hostWrites 0x010 5 (inFlight 1 reset)) = true := by
  decide +kernel
/-- 10_state.md R71: bits [31:22] of DIST read 0. -/
theorem test_dist_write : nextIs (fun t => nextIs (fun u => u.hostData == 0x003FFFFF) (hostReads 0x01004 t))
    (hostWrites 0x01004 0xFFFFFFFF reset) = true := by decide +kernel
/-- 30_encoding.md R152: EXEC issues, waits and reads the results of the completion. -/
theorem test_exec_line : nextIs (fun t => nextIs (fun u => nextIs (fun v => v.res0 == 0x2B && v.done) (step u)) (step t))
    (step (withProgram [.exec 0x10] { reset with arg0 := 11 })) = true := by decide +kernel
/-- 95_test_vectors.md P6 from its ISSUE on, the write before the completion: it is dropped. -/
theorem test_late_completion : nextIs (fun t => t.arg0 == 3 && t.wbusy && nextIs (fun u => nextIs (fun v =>
      v.res0 == 0x43 && statusWord v == 0x42) (step u)) (step t))
    (step (withProgram [.wr (.reg .arg0) 5, .wait] (inFlight 0x10 { reset with arg0 := 3 }))) = true := by
  decide +kernel
/-- 95_test_vectors.md P6 from its ISSUE on, the completion before the write: it takes effect. -/
theorem test_early_completion : nextIs (fun t => nextIs (fun u =>
      u.arg0 == 5 && u.res0 == 0x43 && statusWord u == 0x02) (step t))
    (step (withProgram [.turn, .wr (.reg .arg0) 5, .wait] (inFlight 0x10 { reset with arg0 := 3 }))) = true := by
  decide +kernel
/-- 20_memory.md R102, 70_reset_and_hazards.md R516. -/
theorem test_refusals : refusedAs (.misalignedAccess 2) (does (.host (.read 2 4)) reset) &&
    refusedAs (.narrowAccess 2) (does (.host (.write 0 2 0)) reset) &&
    refusedAs (.outsideWindow 0x80000) (does (.host (.read 0x80000 4)) reset) = true := by decide +kernel
/-- 60_exceptions.md R440: the other instance keeps its state. -/
theorem test_platform : (match platformStep 1 [reset, inFlight 0 reset] with
    | .next p => p.map (fun t => t.done)
    | _ => []) = [false, true] := by decide +kernel

/-! ### Witnesses: for each statement with hypotheses, a state and operands that meet them -/

def busy : State := inFlight 0x22 { reset with lfsrA := { len := 4, taps := 4, state := 8 }, lfsrS := { len := 3, taps := 2, state := 0 }, arg0 := 1 }

theorem witness_StepRunsTheDecodedCommand : (busy.seqState = .busy ∧ decodeWord busy.cmd = .ok .sggen ∧
    busy.schedule = []) ∧ reset.seqState = .idle ∧ reset.schedule = [] := by decide +kernel

theorem witness_IllegalWordCompletesWithIllegalCommand :
    ((inFlight 0x101 reset).seqState = .busy ∧ decodeWord (inFlight 0x101 reset).cmd = .error .unitNotTaken) ∧
    decodeWord (inFlight 0xFF reset).cmd = .error .unassignedOpcode ∧
    decodeWord (inFlight 0x80000013 reset).cmd = .error .reservedBits := by decide +kernel

theorem witness_AcceptedCmdWriteIssues : reset.seqState = .idle := rfl

theorem witness_BusyWritesAreDropped : busy.seqState = .busy ∧
    ∀ a ∈ [0x000, 0x004, 0x008, 0x00C, 0x7FFFC], a < 0x80000 ∧ a % 4 = 0 := by decide +kernel

theorem witness_CompletionEndsTheCommand : Continues (exec .nop reset) ∧
    ∃ t, exec .sggen busy = .next t ∧ decide (t = busy) = true :=
  ⟨⟨_, rfl⟩, next_of (p := fun t => decide (t = busy)) (by decide +kernel)⟩

theorem witness_BusyAndIrqChangeOnlyAtTheirEvents :
    nextIs (fun t => t.seqState == .busy) (hostWrites 0x00C 0 reset) = true ∧
    nextIs (fun t => t.seqState == .idle && irq t) (does .seq (inFlight 0 { reset with ie := true })) = true ∧
    nextIs (fun t => irq t) (hostWrites 0x004 1 { reset with done := true }) = true ∧
    nextIs (fun t => !irq t) (hostWrites 0x008 2 { reset with done := true, ie := true }) = true := by
  decide +kernel

theorem witness_FailureIsPrecise :
    (reset.errcode = 0 ∧ nextIs (fun t => t.errcode != 0) (exec .addpar { reset with arg1 := 22 }) = true) ∧
    nextIs (fun t => t.errcode != 0) (exec .build { reset with distCount := 65 }) = true ∧
    nextIs (fun t => t.errcode != 0) (exec .encode { reset with syminLen := 8193 }) = true ∧
    nextIs (fun t => t.errcode != 0) (exec .decode { reset with bitinLen := 16385 }) = true := by
  decide +kernel

theorem witness_OperandAndLengthErrors :
    21 < (22#32).toNat % 64 ∧ 32 < (33#32).toNat % 64 ∧ 32 < (0x2100#32).toNat / 256 % 64 ∧
    15 < (16#32).toNat ∧ reset.cfg.maxSym < (65#11).toNat ∧ reset.cfg.symbufDepth < (8193#14).toNat ∧
    reset.cfg.bitbufBits < (16385#15).toNat ∧ ((8#15).toNat ≤ reset.cfg.bitbufBits ∧ (8#15).toNat % 7 ≠ 0) ∧
    (28 ≤ tiny.bitbufBits ∧ 28 % 7 = 0 ∧ ({ tiny with symbufDepth := 3 } : Config).symbufDepth < 28 / 7) ∧
    reset.bitinLen = 0 ∧ reset.bitoutLen = 0 := by decide +kernel

theorem witness_LfsrConfigurationErrors : reset.errcode = 0 ∧ reset.lfsrA.len = 0 ∧
    (withUnits reset).errcode = 0 ∧ configured (withUnits reset).lfsrA = true := by decide +kernel

theorem witness_FirstOffendingEntryDecides :
    (DistWritten (withDist small [16, 17]) ∧ (withDist small [16, 17]).distCount.toNat ≤ small.cfg.maxSym) ∧
    (SyminWritten (withSyms small [15, 16, 4, 3]) ∧
      (withSyms small [15, 16, 4, 3]).syminLen.toNat ≤ small.cfg.symbufDepth) := by decide +kernel

theorem witness_RegisterReadsReturnTheirValues : built.seqState = .idle ∧
    ((inFlight 1 built).seqState = .busy ∧ (inFlight 1 built).cfg.Legal ∧
      0x048 ∈ flightOffsets (inFlight 1 built) ∧ 0x040 ∉ flightOffsets (inFlight 1 built) ∧
      0x020 ∈ flightOffsets (inFlight 0x101 reset) ∧ 0x020 ∉ flightOffsets (inFlight 0xFF reset)) ∧
    (WordAt (inFlight 0x40 (withBitout reset (bits [1, 0, 1]))).cfg .bitin 0x18000 ∧
      FlightWrites (inFlight 0x40 (withBitout reset (bits [1, 0, 1]))) .bitin 0x18000) ∧
    WordAt reset.cfg .bitin 0x187FC ∧
    ¬ FlightWrites (inFlight 0x40 (withBitout reset (bits [1, 0, 1]))) .bitin 0x18004 := by decide +kernel

theorem witness_RegisterWritesStoreTheirFields : reset.seqState = .idle := rfl

theorem witness_RefusedAccesses : reset.cfg.blockBase = 0 ∧ (0x7FFFC < 0 + 0x80000 ∧ (0x7FFFC - 0) % 4 = 0) ∧
    ¬ 0x80000 < 0 + 0x80000 ∧ (2 - 0) % 4 ≠ 0 := by decide

theorem witness_ReservedOffsetsReadZero : ∀ a ∈ [0x018, 0x100, 0x01010, 0x02040, 0x06000, 0x08010, 0x10010,
    0x18004, 0x1A004, 0x40200, 0x7FFFC], a < 0x80000 ∧ a % 4 = 0 ∧ locate tiny a = .reserved := by
  decide +kernel

theorem witness_HostMemoryWritesStoreTheirEntry : small.seqState = .idle ∧ small.cfg.Legal ∧
    3 < small.cfg.maxSym ∧ 3 < small.cfg.symbufDepth ∧ 0 < small.cfg.bitbufBits / 32 := by
  decide +kernel

theorem witness_HostMemoryWritesStoreTheirEntry_words :
    WordAt small.cfg .dist 0x01000 ∧ WordAt small.cfg .dist 0x0100C ∧ ¬ WordAt small.cfg .dist 0x01010 ∧
    WordAt small.cfg .ctab 0x0203C ∧ WordAt small.cfg .symin 0x0800C ∧ WordAt small.cfg .symout 0x10000 ∧
    WordAt small.cfg .bitin 0x18000 ∧ WordAt small.cfg .bitout 0x1A000 ∧ WordAt small.cfg .rpt 0x40000 := by
  decide +kernel

theorem witness_ResetsClearEveryRegister : (2#32).getLsbD 1 = true ∧ (1#32).getLsbD 1 = false := by decide

theorem witness_ResetValues : ∃ t, hostWrites 0x004 0x00000002#32 busy = .next t ∧
    (t.seqState == .idle) = true := next_of (by decide +kernel)

theorem witness_CapabilityRegistersShowTheParameters : reset.cfg.Legal ∧ small.cfg.Legal ∧
    reset.cfg = Config.reference := by decide +kernel

theorem witness_BcopyCopiesTheValidBits :
    BitsWritten (withBitout reset (bits [1, 0, 1])) .bitout
      (withBitout reset (bits [1, 0, 1])).bitoutLen.toNat := by decide +kernel

theorem witness_AddparAppendsBlockParities : (21#32).toNat % 64 ≤ 21 ∧ (0#32).toNat % 64 ≤ 21 := by decide

theorem witness_StripchkReportsOddChunks : (0x2020#32).toNat % 64 ≤ 32 ∧ (0x2020#32).toNat / 256 % 64 ≤ 32 := by
  decide

theorem witness_ParityCodewordLength : (List.replicate 21 true).length ≤ 21 := by decide

theorem witness_StripCheckFindsOddFlips : 1 < (stripChunksOf (bits [1, 1, 0, 1, 0, 1, 0]) 5).length ∧
    (bits [0, 1, 1]).length = ((stripChunksOf (bits [1, 1, 0, 1, 0, 1, 0]) 5).getD 1 []).length ∧
    (bits [0, 1, 1]).getLastD false = xorBits (bits [0, 1, 1]).dropLast := by decide +kernel

theorem witness_ShannonBitsClosedForm : 16 ≤ 16 ∧ 65535 < 2 ^ 16 ∧ 2 ^ 16 ≤ 65536 := by decide

theorem witness_CodeLenIsTheCeilingOfTheLogarithm : 1 ≤ 1 ∧ 1 ≤ 2 ^ 21 ∧ 1 ≤ 65536 ∧ 65536 ≤ 2 ^ 16 := by decide

def distribution : State := withDist small [4, 8, 0, 4]

theorem witness_BuildWritesTheShannonTable : distribution.cfg.Legal ∧ DistWritten distribution ∧
    distribution.distCount.toNat ≤ distribution.cfg.maxSym ∧
    (∀ i < distribution.distCount.toNat, numAt distribution i ≤ 2 ^ distribution.cfg.pw) ∧
    numAt distribution 1 = 8 ∧ numAt distribution 2 = 0 := by decide +kernel

theorem witness_BuildReportsKraftAndPrefixFlags : distribution.cfg.Legal ∧ DistWritten distribution ∧
    distribution.distCount.toNat ≤ distribution.cfg.maxSym ∧
    ∀ i < distribution.distCount.toNat, numAt distribution i ≤ 2 ^ distribution.cfg.pw := by decide +kernel

theorem witness_KraftHoldsForDistributions : distribution.cfg.Legal ∧ DistWritten distribution ∧
    distribution.distCount.toNat ≤ distribution.cfg.maxSym ∧
    ((List.range distribution.distCount.toNat).map (numAt distribution)).sum ≤ 2 ^ distribution.cfg.pw ∧
    ∀ i < distribution.distCount.toNat, numAt distribution i ≠ 2 ^ distribution.cfg.pw := by decide +kernel

/-- The table of `distribution` with symbols to encode. -/
def coded : State := withSyms (after (exec .build distribution) small) [1, 0, 3, 1]

theorem witness_EncodeConcatenatesParityCodewords : coded.cfg.Legal ∧ SyminWritten coded ∧
    coded.syminLen.toNat ≤ coded.cfg.symbufDepth ∧
    (∀ j < coded.syminLen.toNat, symAt coded j < coded.cfg.maxSym ∧ (codeEntry coded (symAt coded j)).valid = true) ∧
    ((List.range coded.syminLen.toNat).flatMap fun j => codeOf coded (symAt coded j)).length ≤
      coded.cfg.bitbufBits := by decide +kernel

theorem witness_DecodeTilesTheStream :
    (withBitin coded (bits [0, 0, 1, 0, 1, 1])).cfg.Legal ∧
    (withBitin coded (bits [0, 0, 1, 0, 1, 1])).bitinLen.toNat ≤ tiny.bitbufBits ∧
    BitsWritten (withBitin coded (bits [0, 0, 1, 0, 1, 1])) .bitin
      (withBitin coded (bits [0, 0, 1, 0, 1, 1])).bitinLen.toNat := by decide +kernel

theorem witness_NoParityMismatchOnBuiltTables : coded.cfg.Legal ∧ TableOk (withBitin coded (bits [0, 0, 1])) ∧
    nextIs (fun t => t.errcode == 0) (exec .decode (withBitin coded (bits [0, 0, 1]))) = true := by
  decide +kernel

theorem witness_ShannonRoundTrip :
    nextIs (fun t => decide (t = after (exec .build distribution) small) && t.errcode == 0 && t.res3.getLsbD 0)
      (exec .build distribution) = true ∧
    coded.cfg = (after (exec .build distribution) small).cfg ∧ coded.cfg.Legal ∧
    coded.mem = (withSyms (after (exec .build distribution) small) [1, 0, 3, 1]).mem ∧ SyminWritten coded ∧
    coded.syminLen.toNat ≤ coded.cfg.symbufDepth ∧
    (∀ j < coded.syminLen.toNat, symAt coded j < coded.cfg.maxSym ∧
      (codeEntry coded (symAt coded j)).valid = true ∧ 0 < (codeEntry coded (symAt coded j)).plen) ∧
    ((List.range coded.syminLen.toNat).flatMap fun j => codeOf coded (symAt coded j)).length ≤
      coded.cfg.bitbufBits := by decide +kernel

theorem witness_HencGivesTheCodeword : small.cfg.Legal ∧ (15#32).toNat ≤ 15 := by decide +kernel

theorem witness_ReferenceCodebook : reset.cfg = Config.reference := rfl

theorem witness_HammingCorrectsSingleErrors : Config.reference.Legal ∧ 15 < 16 ∧ 1 ≤ 7 ∧ 7 ≤ 7 := by
  decide +kernel

theorem witness_HammingMiscorrectsDoubleErrors : Config.reference.Legal ∧ 15 < 16 ∧ (1 : Nat) ≠ 7 := by
  decide +kernel

def values : State := withSyms small [15, 0, 9, 4]

theorem witness_HencsConcatenatesCodewords : values.cfg.Legal ∧ SyminWritten values ∧
    values.syminLen.toNat ≤ values.cfg.symbufDepth ∧ (∀ j < values.syminLen.toNat, symAt values j ≤ 15) ∧
    7 * values.syminLen.toNat ≤ values.cfg.bitbufBits := by decide +kernel

theorem witness_HdecbDecodesTheBlock : small.cfg.Legal ∧ reset.cfg.Legal := by decide +kernel

theorem witness_HdecDecodesEachBlock :
    let s := withBitin small (List.replicate 28 true)
    s.cfg.Legal ∧ s.bitinLen.toNat ≤ s.cfg.bitbufBits ∧ s.bitinLen.toNat % 7 = 0 ∧
      s.bitinLen.toNat / 7 ≤ s.cfg.symbufDepth ∧ BitsWritten s .bitin s.bitinLen.toNat := by decide +kernel

theorem witness_HammingStreamSurvivesOneFlip : values.cfg.Legal ∧ SyminWritten values ∧
    values.syminLen.toNat ≤ values.cfg.symbufDepth ∧ (∀ j < values.syminLen.toNat, symAt values j ≤ 15) ∧
    7 * values.syminLen.toNat ≤ values.cfg.bitbufBits ∧ 27 < 7 * values.syminLen.toNat := by decide +kernel

theorem witness_LstepShiftsTheRegister : 1 ≤ (32#6).toNat ∧ (32#6).toNat ≤ 32 ∧
    1 ≤ (withUnits small).lfsrA.len.toNat ∧ (withUnits small).lfsrA.len.toNat ≤ 32 := by decide +kernel

theorem witness_LgenWritesTheNextBits : (withUnits small).cfg.Legal ∧
    configured (lfsrOf (withUnits small) .s) = true ∧ (32#32).toNat ≤ small.cfg.bitbufBits := by decide +kernel

theorem witness_LfsrOutputSatisfiesItsRecurrence : configured (withUnits reset).lfsrA = true ∧
    (configured busy.lfsrS = true ∧ busy.lfsrS.state.toNat % 2 ^ busy.lfsrS.len.toNat = 0) := by decide +kernel

/-- A selector at 0 outputs no 1 (43_lfsr.md R305). -/
theorem zero_selector (ph : TapPhase) (l : Lfsr) (h : l.state = 0) (k : Nat) : onesBefore ph l k = 0 := by
  have step0 : ∀ n t, lfsrStep ph n t 0 = (false, 0) := by
    intro n t
    have par0 : ∀ m, parityOf 0 m = false := by
      intro m
      induction m with
      | zero => rfl
      | succ m ih => simp [parityOf, ih]
    cases ph <;> simp [lfsrStep, par0]
  have reg0 : ∀ j, lfsrAfter ph l j = 0 := by
    intro j
    induction j with
    | zero => simp [lfsrAfter, h]
    | succ j ih => rw [lfsrAfter, ih, step0]
  simp [onesBefore, lfsrBit, reg0, step0]

theorem witness_SggenCompletesWithEnoughOnes :
    ((withUnits reset).cfg.Legal ∧ configured (withUnits reset).lfsrA = true ∧
      configured (withUnits reset).lfsrS = true ∧ 12 ≤ reset.cfg.bitbufBits ∧
      onesBefore .pre (withUnits reset).lfsrS 21 = 12 ∧
      ∀ j < 21, onesBefore .pre (withUnits reset).lfsrS j < 12) ∧
    (configured busy.lfsrA = true ∧ configured busy.lfsrS = true ∧ busy.arg0.toNat ≤ busy.cfg.bitbufBits) ∧
    ∀ k, onesBefore busy.cfg.tapPhase busy.lfsrS k < busy.arg0.toNat := by
  refine ⟨by decide +kernel, by decide +kernel, fun k => ?_⟩
  rw [zero_selector _ _ rfl]
  decide

theorem witness_SelectorOnesAreDecidedInTwoRuns : configured busy.lfsrS = true ∧
    configured (withUnits reset).lfsrS = true := by decide +kernel

theorem witness_HangEndsOnlyByReset : (busy.seqState = .busy ∧ decodeWord busy.cmd = .ok .sggen ∧
      configured busy.lfsrA = true ∧ configured busy.lfsrS = true ∧ busy.arg0.toNat ≤ busy.cfg.bitbufBits) ∧
    (∀ k, onesBefore busy.cfg.tapPhase busy.lfsrS k < busy.arg0.toNat) ∧
    Continues (does .seq busy) ∧ Continues (does .powerOn busy) ∧ Continues (hostWrites 0x004 2 busy) := by
  refine ⟨by decide +kernel, fun k => ?_, continues_of (p := fun _ => true) (by decide +kernel),
    ⟨_, rfl⟩, continues_of (p := fun _ => true) (by decide +kernel)⟩
  rw [zero_selector _ _ rfl]
  decide

theorem witness_ChisqGivesTheExactStatistic :
    (0 < 3 ∧ 3 ≤ reset.cfg.bitbufBits ∧ BitsWritten (withBitin reset (bits [1, 0, 1])) .bitin 3) ∧
    BitsWritten (withBitout reset (bits [1, 0, 1])) .bitout 3 := by decide +kernel

theorem witness_PeriodGivesTheSmallestPeriod :
    (3 ≤ reset.cfg.bitbufBits ∧ BitsWritten (withBitin reset (bits [1, 0, 1])) .bitin 3) ∧
    BitsWritten (withBitout reset (bits [1, 0, 1])) .bitout 3 ∧ BitsWritten reset .bitin 0 := by decide +kernel

theorem witness_CommandsWriteOnlyTheirRegisters : Continues (exec .bcopy reset) ∧
    Continues (exec .hdecb reset) := ⟨⟨_, rfl⟩, ⟨_, rfl⟩⟩

theorem witness_CommandsWriteOnlyTheirMemories : coded.cfg.Legal ∧
    coded.bitoutLen.toNat ≤ coded.cfg.bitbufBits ∧
    nextIs (fun t => decide (readByte t.mem 0x1A003 ≠ readByte coded.mem 0x1A003)) (exec .encode coded) = true := by
  decide +kernel

theorem witness_OnlyUnwrittenInputFaults : InputsWritten values .hencs ∧
    exec .decode { reset with bitinLen := 1 } = .fault (.unwrittenRead .bitin 0) := by
  refine ⟨?_, fault_of (by decide +kernel)⟩
  show SyminWritten values
  decide +kernel

/-- The second unwritten position, behind a written one, of each kind of input. -/
theorem witness_OnlyUnwrittenInputFaults_first :
    (BitsWritten (withBitin reset (bits [1])) .bitin 1 ∧
      readBit (withBitin reset (bits [1])).mem (windowBase .bitin) 32 = none) ∧
    (BitsWritten (withBitout reset (bits [1])) .bitout 1 ∧
      readBit (withBitout reset (bits [1])).mem (windowBase .bitout) 32 = none) ∧
    (distEntry (withDist small [16]) 1 = none ∧ (distEntry (withDist small [16]) 0).isSome ∧
      numAt (withDist small [16]) 0 ≤ 2 ^ small.cfg.pw) ∧
    (syminEntry (withSyms small [15]) 1 = none ∧ (syminEntry (withSyms small [15]) 0).isSome ∧
      symAt (withSyms small [15]) 0 ≤ 15 ∧ 7 * 1 ≤ small.cfg.bitbufBits) := by decide +kernel

/-- Such an input faults each of the eight commands. -/
theorem test_unwritten_faults :
    (faultedAs (.unwrittenRead .bitin 0) (exec .hdec { reset with bitinLen := 7 }) &&
      faultedAs (.unwrittenRead .bitin 0) (exec (.chisq .bitin) { reset with bitinLen := 1 }) &&
      faultedAs (.unwrittenRead .bitin 0) (exec (.period .bitin) { reset with bitinLen := 1 }) &&
      faultedAs (.unwrittenRead .bitout 0) (exec .bcopy { reset with bitoutLen := 1 }) &&
      faultedAs (.unwrittenRead .dist 1) (exec .build { withDist small [16] with distCount := 2 }) &&
      faultedAs (.unwrittenRead .symin 1) (exec .hencs { withSyms small [15] with syminLen := 2 }) &&
      faultedAs (.unwrittenRead .symin 0) (exec .encode { small with syminLen := 1 })) = true := by
  decide +kernel

theorem witness_ResultsIgnoreTheHostsSide : Continues (exec .encode coded) :=
  continues_of (p := fun _ => true) (by decide +kernel)

/-- A state with a BUILD in flight that meets the invariant. -/
theorem witness_StepKeepsTheInvariant : Inv (inFlight 1 distribution) ∧
    Continues (step (inFlight 1 distribution)) := by
  refine ⟨?_, continues_of (p := fun t => t.res1 == 3) (by decide +kernel)⟩
  constructor <;> decide +kernel

end Sys2Proof.Tests
end

/-! Proofs of the statements about one step of the block (00_scope.md). -/

namespace Sys2Proof.Proofs

open Sys2Proof.Machine Sys2Proof.Safety

/-- SEQ moves both at a step with no move left to make and at its own turn (log entry 5), so what holds of
its move holds of either step. -/
theorem seq_moves_of_seqStep_eq {s : State} {o : Machine.Outcome} (h : seqStep s = o) :
    (s.schedule = [] → step s = o) ∧ does .seq s = o :=
  ⟨fun hs => (step_nil hs).trans h, (does_seq s).trans h⟩

/-- Settles O5: SEQ's move while BUSY is `exec` of the decoded word, while IDLE it is no change, and both
kinds of step at which SEQ moves are that move. -/
theorem stepRunsTheDecodedCommand : Obligations.StepRunsTheDecodedCommand := by
  intro s
  constructor
  · intro i hbusy hdecode
    exact seq_moves_of_seqStep_eq (seqStep_busy hbusy hdecode)
  · intro hidle
    exact seq_moves_of_seqStep_eq (seqStep_idle hidle)

end Sys2Proof.Proofs

/-! What each command answers when it reaches its end, and the registers outside its Writes list. -/

namespace Sys2Proof.Proofs

open Sys2Proof.Machine Sys2Proof.Safety

/-! ### What each command's pseudocode answers when it reaches its end -/

section Ends

variable {s u : State}

theorem runBuild_ok (h : runBuild s = .ok u) :
    ∃ dist, s.distCount.toNat ≤ s.cfg.maxSym ∧ readDist s s.distCount.toNat 0 = .ok dist ∧
      u = writeTable (codesOf s.cfg.pw dist) s := by
  unfold runBuild at h
  split at h
  · cases h
  · next hc =>
    split at h <;> cases h
    next dist hd => exact ⟨dist, by omega, hd, rfl⟩

theorem runEncode_ok (h : runEncode s = .ok u) :
    ∃ out, encodeFrom s s.syminLen.toNat 0 [] = .ok out ∧
      u = { writeBitout out s with res0 := wordOf s.syminLen.toNat } := by
  unfold runEncode at h
  split at h
  · cases h
  · split at h <;> cases h
    next out ho => exact ⟨out, ho, rfl⟩

theorem runDecode_ok (h : runDecode s = .ok u) :
    ∃ x r, s.bitinLen.toNat ≤ s.cfg.bitbufBits ∧ bufferBits s .bitin s.bitinLen.toNat = .ok x ∧
      decodeFrom s.cfg.symbufDepth (matchable s s.cfg.maxSym) x.length 0 0 x = .ok r ∧
      u = writeDecoded r.1 r.2 s := by
  unfold runDecode at h
  split at h
  · cases h
  · next hl =>
    split at h
    · next x hx =>
      split at h <;> cases h
      next r hr => exact ⟨x, r, by omega, hx, hr, rfl⟩
    all_goals cases h

theorem runAddpar_ok (h : runAddpar s = .ok u) :
    addparLen s ≤ 21 ∧
      u = { s with
        res0 := wordOf (valBits (addParity (addparWord s)))
        res1 := wordOf (addParity (addparWord s)).length } := by
  unfold runAddpar at h
  split at h <;> cases h
  exact ⟨by omega, rfl⟩

theorem runStripchk_ok (h : runStripchk s = .ok u) :
    ∃ r, r = stripCheck (stripWord s) (stripOl s) ∧
      u = reportParity r.2
        { s with res0 := wordOf (valBits r.1), res1 := wordOf r.1.length, res2 := wordOf r.2 } := by
  unfold runStripchk at h
  split at h
  · cases h
  · split at h <;> cases h
    exact ⟨_, rfl, rfl⟩

theorem runHenc_ok (h : runHenc s = .ok u) :
    hencValue s ≤ 15 ∧ u = { s with res0 := wordOf (valBits (hammingEnc s.cfg (hencValue s))) } := by
  unfold runHenc at h
  split at h <;> cases h
  exact ⟨by omega, rfl⟩

theorem runHencs_ok (h : runHencs s = .ok u) :
    ∃ out, hencsFrom s s.syminLen.toNat 0 [] = .ok out ∧
      u = { writeBitout out s with res0 := wordOf s.syminLen.toNat } := by
  unfold runHencs at h
  split at h
  · cases h
  · split at h <;> cases h
    next out ho => exact ⟨out, ho, rfl⟩

theorem runHdec_ok (h : runHdec s = .ok u) :
    ∃ x, s.bitinLen.toNat ≤ s.cfg.bitbufBits ∧ s.bitinLen.toNat / 7 ≤ s.cfg.symbufDepth ∧
      bufferBits s .bitin s.bitinLen.toNat = .ok x ∧
      u = writeBlocks (decodeBlocks s.cfg (s.bitinLen.toNat / 7) x) s := by
  unfold runHdec at h
  split at h
  · cases h
  · split at h
    · cases h
    · split at h
      · cases h
      · split at h <;> cases h
        next x hx => exact ⟨x, by omega, by omega, hx, rfl⟩

theorem runLstep_ok {k : LfsrUnit} (h : runLstep k s = .ok u) :
    ∃ r, r = lfsrStep s.cfg.tapPhase (lfsrOf s k).len.toNat (lfsrOf s k).taps.toNat
        (lfsrOf s k).state.toNat ∧
      u = { setLfsrState k r.2 s with res0 := wordOf r.1.toNat } := by
  unfold runLstep at h
  dsimp only at h
  split at h <;> cases h
  exact ⟨_, rfl, rfl⟩

theorem runLgen_ok {k : LfsrUnit} (h : runLgen k s = .ok u) :
    ∃ r, bitCount s ≤ s.cfg.bitbufBits ∧
      r = lfsrRun s.cfg.tapPhase (lfsrOf s k).len.toNat (lfsrOf s k).taps.toNat (bitCount s)
        (lfsrOf s k).state.toNat ∧
      u = { writeBitout r.1 (setLfsrState k r.2 s) with res0 := wordOf (bitCount s) } := by
  unfold runLgen at h
  dsimp only at h
  split at h
  · cases h
  · split at h <;> cases h
    exact ⟨_, by omega, rfl, rfl⟩

theorem runSggen_ok (h : runSggen s = .ok u) :
    ∃ r, bitCount s ≤ s.cfg.bitbufBits ∧
      sgRun s.cfg.tapPhase s.lfsrA.len.toNat s.lfsrA.taps.toNat s.lfsrS.len.toNat s.lfsrS.taps.toNat
        (sgBound s.lfsrS.len.toNat (bitCount s)) (bitCount s) s.lfsrA.state.toNat
        s.lfsrS.state.toNat = some r ∧
      u = { writeBitout r.bits (setLfsrState .s r.stateS (setLfsrState .a r.stateA s)) with
        res0 := wordOf (min r.steps (2 ^ 32 - 1)) } := by
  unfold runSggen at h
  dsimp only at h
  split at h
  · cases h
  · split at h
    · cases h
    · split at h
      · cases h
      · split at h <;> cases h
        next r hr => exact ⟨r, by omega, hr, rfl⟩

theorem runChisq_ok {b : BitSource} (h : runChisq b s = .ok u) :
    ∃ x, bufferBits s (sourceMem b) (sourceLen s b) = .ok x ∧ u = writeChisq x s := by
  unfold runChisq at h
  split at h
  · cases h
  · split at h
    · cases h
    · split at h <;> cases h
      next x hx => exact ⟨x, hx, rfl⟩

theorem runPeriod_ok {b : BitSource} (h : runPeriod b s = .ok u) :
    ∃ x, bufferBits s (sourceMem b) (sourceLen s b) = .ok x ∧
      u = { s with res0 := wordOf (findPeriod x) } := by
  unfold runPeriod at h
  split at h
  · cases h
  · split at h <;> cases h
    next x hx => exact ⟨x, hx, rfl⟩

theorem runBcopy_ok (h : runBcopy s = .ok u) :
    ∃ x, bufferBits s .bitout s.bitoutLen.toNat = .ok x ∧
      u = { s with mem := storeBits s.mem (windowBase .bitin) 0 x, bitinLen := s.bitoutLen } := by
  unfold runBcopy at h
  split at h <;> cases h
  next x hx => exact ⟨x, hx, rfl⟩

end Ends

/-! ### The registers outside a command's Writes list -/

/-- The state `s` with the fields that command `i` may write taken from `w`: the completion's own
(60_exceptions.md R402), the registers of its Writes list, the report flags it sets (10_state.md R40 to R42) and memory. -/
def listedFrom (i : Instr) (w s : State) : State :=
  { s with
    seqState := w.seqState
    done := w.done
    errcode := w.errcode
    desync := if i = .decode then w.desync else s.desync
    perr := if i = .decode ∨ i = .stripchk then w.perr else s.perr
    hcorr := if i = .hdec ∨ i = .hdecb then w.hcorr else s.hcorr
    res0 := if 0 < resCount i then w.res0 else s.res0
    res1 := if 1 < resCount i then w.res1 else s.res1
    res2 := if 2 < resCount i then w.res2 else s.res2
    res3 := if 3 < resCount i then w.res3 else s.res3
    symoutLen := if producesRecords i then w.symoutLen else s.symoutLen
    bitinLen := if i = .bcopy then w.bitinLen else s.bitinLen
    bitoutLen := if producesBits i then w.bitoutLen else s.bitoutLen
    rptLen := if producesRecords i then w.rptLen else s.rptLen
    codeCount := if i = .build then w.codeCount else s.codeCount
    lfsrA := if stepsUnit .a i then { s.lfsrA with state := w.lfsrA.state } else s.lfsrA
    lfsrS := if stepsUnit .s i then { s.lfsrS with state := w.lfsrS.state } else s.lfsrS
    desyncCnt := if i = .decode then w.desyncCnt else s.desyncCnt
    perrCnt := if i = .decode then w.perrCnt else s.perrCnt
    hcorrCnt := if i = .hdec then w.hcorrCnt else s.hcorrCnt
    mem := w.mem }

/-- A command that reaches its end changes nothing outside its Writes list. -/
theorem runOf_ok_listed {i : Instr} {s u : State} (h : runOf i s = .ok u) : u = listedFrom i u s := by
  cases i with
  | nop => cases h; rfl
  | build => obtain ⟨_, -, -, rfl⟩ := runBuild_ok h; rfl
  | encode => obtain ⟨_, -, rfl⟩ := runEncode_ok h; rfl
  | decode => obtain ⟨_, _, -, -, -, rfl⟩ := runDecode_ok h; rfl
  | addpar => obtain ⟨-, rfl⟩ := runAddpar_ok h; rfl
  | stripchk => obtain ⟨_, -, rfl⟩ := runStripchk_ok h; rfl
  | henc => obtain ⟨-, rfl⟩ := runHenc_ok h; rfl
  | hencs => obtain ⟨_, -, rfl⟩ := runHencs_ok h; rfl
  | hdec => obtain ⟨_, -, -, -, rfl⟩ := runHdec_ok h; rfl
  | hdecb => cases h; rfl
  | lstep k => obtain ⟨_, -, rfl⟩ := runLstep_ok h; cases k <;> rfl
  | lgen k => obtain ⟨_, -, -, rfl⟩ := runLgen_ok h; cases k <;> rfl
  | sggen => obtain ⟨_, -, -, rfl⟩ := runSggen_ok h; rfl
  | chisq b => obtain ⟨_, -, rfl⟩ := runChisq_ok h; rfl
  | period b => obtain ⟨_, -, rfl⟩ := runPeriod_ok h; rfl
  | bcopy => obtain ⟨_, -, rfl⟩ := runBcopy_ok h; rfl

/-- A failure changes nothing outside the command's Writes list (60_exceptions.md R403). -/
theorem fail_listed (i : Instr) (c : ErrCode) (s : State) : fail i c s = listedFrom i (fail i c s) s := by
  cases i with
  | lstep k => cases k <;> rfl
  | lgen k => cases k <;> rfl
  | _ => rfl

theorem listedFrom_self (i : Instr) (s : State) : listedFrom i s s = s := by
  simp only [listedFrom, ite_self]

/-- Whatever state a command answers, nothing outside its Writes list has changed. -/
theorem exec_listed {i : Instr} {s t : State} (h : exec i s = .next t) : t = listedFrom i t s := by
  rcases exec_next h with ⟨u, hu, rfl⟩ | ⟨c, -, rfl⟩ | ⟨-, rfl⟩
  · exact congrArg complete (runOf_ok_listed hu)
  · exact fail_listed i c s
  · exact (listedFrom_self i t).symm

/-- How many RES registers a command writes, from its opcode (30_encoding.md R146). -/
theorem resColumn_opcodeOf (i : Instr) : resColumn (opcodeOf i).toNat = resCount i := by
  cases i <;> rfl

/-- The commands that write BITOUT (20_memory.md R118). -/
theorem producesBits_iff (i : Instr) :
    producesBits i = true ↔ i ∈ [.encode, .hencs, .lgen .a, .lgen .s, .sggen] := by
  cases i with
  | lgen k => cases k <;> decide
  | _ => simp [producesBits]

/-- The commands that write SYMOUT and RPT (20_memory.md R118). -/
theorem producesRecords_iff (i : Instr) : producesRecords i = true ↔ i ∈ [.decode, .hdec] := by
  cases i <;> simp [producesRecords]

/-- The commands that step unit `k` (43_lfsr.md R306 to R308). -/
theorem stepsUnit_iff (k : LfsrUnit) (i : Instr) :
    stepsUnit k i = true ↔ i ∈ [.lstep k, .lgen k, .sggen] := by
  cases i <;> simp [stepsUnit]

/-- LEN and TAPS of a unit stay where at most its STATE is written (10_state.md R58). -/
theorem len_taps_of_state_written (p : Prop) [Decidable p] (l : Lfsr) (v : Word) :
    (if p then { l with state := v } else l).len = l.len ∧
      (if p then { l with state := v } else l).taps = l.taps := by
  split <;> exact ⟨rfl, rfl⟩

/-- Settles O55: a command answers `listedFrom`, of which every clause reads one field. -/
theorem commandsWriteOnlyTheirRegisters : Obligations.CommandsWriteOnlyTheirRegisters := by
  intro i s t h
  obtain ⟨w, rfl⟩ : ∃ w, t = listedFrom i w s := ⟨t, exec_listed h⟩
  rw [resColumn_opcodeOf]
  obtain ⟨hlenA, htapsA⟩ := len_taps_of_state_written (stepsUnit .a i = true) s.lfsrA w.lfsrA.state
  obtain ⟨hlenS, htapsS⟩ := len_taps_of_state_written (stepsUnit .s i = true) s.lfsrS w.lfsrS.state
  refine ⟨rfl, rfl, rfl, rfl, rfl, rfl, rfl, rfl, rfl, rfl, rfl, hlenA, htapsA, hlenS, htapsS,
    fun hn => if_neg (by omega), fun hn => if_neg (by omega), fun hn => if_neg (by omega),
    fun hn => if_neg (by omega), fun hi => if_neg hi, fun hi => if_neg hi,
    fun hi => if_neg ((producesBits_iff i).not.2 hi), fun hi => ?records,
    fun hi => if_neg ((stepsUnit_iff .a i).not.2 hi), fun hi => if_neg ((stepsUnit_iff .s i).not.2 hi),
    fun hi => ⟨if_neg hi, if_neg hi, if_neg hi⟩, fun hi => if_neg (by simpa using hi),
    fun hi => if_neg hi, fun hi => if_neg (by simpa using hi)⟩
  case records =>
    have hp := (producesRecords_iff i).not.2 hi
    exact ⟨if_neg hp, if_neg hp⟩

end Sys2Proof.Proofs

/-! What a command stores in memory, and the windows it leaves alone (20_memory.md R118). -/

namespace Sys2Proof.Proofs

open Sys2Proof.Machine Sys2Proof.Safety

/-! ### How long a command's outputs are -/

theorem pointWord_length (ps : List Nat) : (pointWord ps).length = 7 := rfl

theorem dataWord_length (c : Config) (x : Nat) : (dataWord c x).length = 7 := rfl

/-- A codeword has seven bits (42_hamming.md R261). -/
theorem hammingEnc_length (c : Config) (x : Nat) : (hammingEnc c x).length = 7 := by
  unfold hammingEnc
  dsimp only
  split
  · next p hp =>
    obtain ⟨ps, -, rfl⟩ := List.mem_map.1 (List.mem_of_find?_eq_some hp)
    simp [xorWords, dataWord_length, pointWord_length]
  · exact dataWord_length c x

theorem encodeFrom_length {s : State} {n : Nat} {out : Bits} (h : encodeFrom s n 0 [] = .ok out) :
    out.length ≤ s.cfg.bitbufBits := by
  obtain ⟨syms, hn, -, rfl, rfl | hl⟩ := encodeFrom_ok h
  · simp [List.length_eq_zero_iff.1 hn]
  · exact hl

theorem hencsFrom_length {s : State} {n : Nat} {out : Bits} (h : hencsFrom s n 0 [] = .ok out) :
    out.length ≤ s.cfg.bitbufBits := by
  obtain ⟨xs, hn, -, rfl, hb⟩ := hencsFrom_ok h
  have hlen : (xs.flatMap (hammingEnc s.cfg)).length = n * 7 := by
    simp [List.length_flatMap, hammingEnc_length, hn]
  rw [List.nil_append, hlen]
  omega

/-- DECODE makes at most one record for each bit, and no more symbols than SYMOUT has room for. -/
theorem decodeFrom_length {depth : Nat} {codes : List (Nat × CodeEntry)} {fuel i ns : Nat} {x : Bits}
    {r : List Record × List Nat} (h : decodeFrom depth codes fuel i ns x = .ok r) (hns : ns ≤ depth) :
    r.1.length ≤ fuel ∧ ns + r.2.length ≤ depth := by
  induction fuel generalizing i ns x r with
  | zero => cases h; exact ⟨le_refl _, hns⟩
  | succ fuel ih =>
    cases x with
    | nil => cases h; exact ⟨Nat.zero_le _, hns⟩
    | cons b rest =>
      unfold decodeFrom at h
      dsimp only at h
      split at h
      · split at h
        · next q hq =>
          cases h
          obtain ⟨hrecs, hsyms⟩ := ih hq hns
          exact ⟨Nat.succ_le_succ hrecs, hsyms⟩
        · next hq => exact absurd h (hq r)
      · split at h
        · cases h
        · next hroom =>
          split at h
          · next q hq =>
            cases h
            obtain ⟨hrecs, hsyms⟩ := ih hq (by omega)
            exact ⟨Nat.succ_le_succ hrecs, by simp only [List.length_cons]; omega⟩
          · next hq => exact absurd h (hq r)

theorem decodeBlocks_length (c : Config) (nb : Nat) (x : Bits) : (decodeBlocks c nb x).length = nb := by
  induction nb generalizing x with
  | zero => rfl
  | succ nb ih => simp [decodeBlocks, ih]

/-! ### What a command that reaches its end stores -/

/-- What command `i` has stored in memory when it reaches its end (20_memory.md R118), with the length
registers that say how much. -/
inductive Stored (i : Instr) (s u : State) : Prop
  | nothing (hw : writtenMems i = []) (hm : u.mem = s.mem)
  | bits (out : Bits) (hw : writtenMems i = [.bitout]) (hl : out.length ≤ s.cfg.bitbufBits)
      (hm : u.mem = (writeBitout out s).mem) (hn : u.bitoutLen = (writeBitout out s).bitoutLen)
  | records (syms : List Nat) (recs : List Record) (hw : writtenMems i = [.symout, .rpt])
      (hs : syms.length ≤ s.cfg.symbufDepth) (hr : recs.length ≤ s.cfg.bitbufBits)
      (hm : u.mem = (writeRecords syms recs s).mem)
      (hns : u.symoutLen = (writeRecords syms recs s).symoutLen)
      (hnr : u.rptLen = (writeRecords syms recs s).rptLen)
  | table (dist : List (Nat × Nat)) (hi : i = .build) (hc : s.distCount.toNat ≤ s.cfg.maxSym)
      (hd : readDist s s.distCount.toNat 0 = .ok dist)
      (hu : u = writeTable (codesOf s.cfg.pw dist) s)
  | copy (x : Bits) (hi : i = .bcopy) (hl : x.length = s.bitoutLen.toNat)
      (hm : u.mem = storeBits s.mem (windowBase .bitin) 0 x)

theorem runOf_ok_stored {i : Instr} {s u : State} (h : runOf i s = .ok u) : Stored i s u := by
  cases i with
  | nop => cases h; exact .nothing rfl rfl
  | build => obtain ⟨dist, hc, hd, hu⟩ := runBuild_ok h; exact .table dist rfl hc hd hu
  | encode =>
    obtain ⟨out, ho, rfl⟩ := runEncode_ok h
    exact .bits out rfl (encodeFrom_length ho) rfl rfl
  | decode =>
    obtain ⟨x, r, hl, hx, hr, rfl⟩ := runDecode_ok h
    obtain ⟨hrecs, hsyms⟩ := decodeFrom_length hr (Nat.zero_le _)
    rw [((bufferBits_ok_iff ..).1 hx).1] at hrecs
    exact .records r.2 r.1 rfl (by omega) (by omega) rfl rfl rfl
  | addpar => obtain ⟨-, rfl⟩ := runAddpar_ok h; exact .nothing rfl rfl
  | stripchk => obtain ⟨_, -, rfl⟩ := runStripchk_ok h; exact .nothing rfl rfl
  | henc => obtain ⟨-, rfl⟩ := runHenc_ok h; exact .nothing rfl rfl
  | hencs =>
    obtain ⟨out, ho, rfl⟩ := runHencs_ok h
    exact .bits out rfl (hencsFrom_length ho) rfl rfl
  | hdec =>
    obtain ⟨x, hl, hd, -, rfl⟩ := runHdec_ok h
    have hlen := decodeBlocks_length s.cfg (s.bitinLen.toNat / 7) x
    exact .records _ _ rfl (by rw [List.length_map, hlen]; exact hd)
      (by rw [List.length_mapIdx, hlen]; omega) rfl rfl rfl
  | hdecb => cases h; exact .nothing rfl rfl
  | lstep k => obtain ⟨_, -, rfl⟩ := runLstep_ok h; cases k <;> exact .nothing rfl rfl
  | lgen k =>
    obtain ⟨r, hl, rfl, rfl⟩ := runLgen_ok h
    cases k <;> exact .bits _ rfl (by rw [lfsrRun_length]; exact hl) rfl rfl
  | sggen =>
    obtain ⟨r, hl, hr, rfl⟩ := runSggen_ok h
    exact .bits r.bits rfl (by rw [(sgRun_some hr).1]; exact hl) rfl rfl
  | chisq b => obtain ⟨_, -, rfl⟩ := runChisq_ok h; exact .nothing rfl rfl
  | period b => obtain ⟨_, -, rfl⟩ := runPeriod_ok h; exact .nothing rfl rfl
  | bcopy =>
    obtain ⟨x, hx, rfl⟩ := runBcopy_ok h
    exact .copy x rfl ((bufferBits_ok_iff ..).1 hx).1 rfl

/-- A command that reaches its end keeps memory in canonical form. -/
theorem runOf_ok_wf {i : Instr} {s u : State} (h : runOf i s = .ok u) (hwf : s.mem.wf) : u.mem.wf := by
  cases runOf_ok_stored h with
  | nothing _ hm => rw [hm]; exact hwf
  | bits out _ _ hm _ => rw [hm]; exact writeBitout_wf out hwf
  | records syms recs _ _ _ hm _ _ => rw [hm]; exact writeRecords_wf syms recs hwf
  | table dist _ _ _ hu => rw [hu]; exact storeCodes_wf (forget_wf hwf _) _
  | copy x _ _ hm => rw [hm]; exact storeBits_wf hwf (by decide) _ _

/-! ### The windows a command leaves alone -/

/-- Every byte of the window of memory `n` reads in `M'` as in `M`. -/
abbrev SameWindow (n : MemName) (M M' : Memory) : Prop :=
  ∀ a, inWindow n a = true → readByte M' a = readByte M a

/-- An offset in one memory's window is in no other's. -/
theorem not_inWindow {m n : MemName} {a : Nat} (hn : inWindow n a = true) (hne : n ≠ m) :
    inWindow m a = false := by
  by_contra hm
  exact hne (inWindow_unique hn (by simpa using hm))

/-- The offsets of a window, between its ends. -/
theorem inWindow_iff (n : MemName) (a : Nat) :
    inWindow n a = true ↔ windowBase n ≤ a ∧ a < windowBase n + windowBytes n := by
  simp [inWindow]

/-- A byte outside a window lies outside any `k` bytes at its start. -/
theorem outside_of_le {n : MemName} {a k : Nat} (h : inWindow n a = false) (hk : k ≤ windowBytes n) :
    a < windowBase n ∨ windowBase n + k ≤ a := by
  by_contra hc
  push Not at hc
  rw [(inWindow_iff n a).2 ⟨hc.1, by omega⟩] at h
  cases h

/-! ### The code table that BUILD makes -/

/-- The symbols of the code table are symbols of the distribution, in its order. -/
theorem buildCodes_symbols_sublist (pw r f : Nat) (l : List (Nat × Nat)) :
    ((buildCodes pw r f l).map Prod.fst).Sublist (l.map Prod.fst) := by
  induction l generalizing r f with
  | nil => exact List.Sublist.slnil
  | cons q l ih =>
    obtain ⟨t, p⟩ := q
    unfold buildCodes
    split
    · exact (ih _ _).cons t
    · exact (ih _ _).cons_cons t

/-- Every entry of the code table is a Shannon entry, its rank the place of its symbol. -/
theorem buildCodes_entry {pw r f : Nat} {l : List (Nat × Nat)} {c : Nat × CodeEntry}
    (h : c ∈ buildCodes pw r f l) :
    ∃ r' f' p, r' < r + l.length ∧ c.2 = shannonEntry pw r' f' p := by
  induction l generalizing r f with
  | nil => cases h
  | cons q l ih =>
    obtain ⟨t, p⟩ := q
    unfold buildCodes at h
    simp only [List.length_cons]
    split at h
    · obtain ⟨r', f', p', hr, he⟩ := ih h
      exact ⟨r', f', p', by omega, he⟩
    · rcases List.mem_cons.1 h with rfl | h
      · exact ⟨r, f, p, by omega, rfl⟩
      · obtain ⟨r', f', p', hr, he⟩ := ih h
        exact ⟨r', f', p', by omega, he⟩

/-- A distribution read whole has one numerator for each symbol below its length. -/
theorem readDist_symbols {s : State} {n : Nat} {dist : List (Nat × Nat)}
    (h : readDist s n 0 = .ok dist) : dist.map Prod.fst = List.range n := by
  obtain ⟨hlen, hget⟩ := (readDist_ok_iff ..).1 h
  refine List.ext_getElem (by simp [hlen]) fun j h1 _ => ?_
  have := (hget j (by simpa using h1)).1
  simpa using this

/-- The code table of a distribution of `n` entries: distinct symbols below `n`, each with a Shannon entry. -/
theorem codesOf_entries {s : State} {pw n : Nat} {dist : List (Nat × Nat)}
    (h : readDist s n 0 = .ok dist) :
    ((codesOf pw dist).map Prod.fst).Nodup ∧
      ∀ c ∈ codesOf pw dist, c.1 < n ∧ ∃ r f p, r < n ∧ c.2 = shannonEntry pw r f p := by
  have hperm : (stableSortDesc dist).Perm dist := List.perm_insertionSort _ dist
  have hsymbols : ((stableSortDesc dist).map Prod.fst).Perm (List.range n) :=
    readDist_symbols h ▸ hperm.map Prod.fst
  have hsub := buildCodes_symbols_sublist pw 0 0 (stableSortDesc dist)
  refine ⟨hsub.nodup (hsymbols.nodup_iff.2 List.nodup_range), fun c hc => ⟨?_, ?_⟩⟩
  · exact List.mem_range.1 (hsymbols.subset (hsub.subset (List.mem_map_of_mem hc)))
  · obtain ⟨r, f, p, hr, he⟩ := buildCodes_entry hc
    rw [hperm.length_eq, ((readDist_ok_iff ..).1 h).1, Nat.zero_add] at hr
    exact ⟨r, f, p, hr, he⟩

/-! ### A command changes no window but those of the memories it writes -/

theorem runOf_ok_sameWindow {i : Instr} {s u : State} {n : MemName} (hl : s.cfg.Legal)
    (hb : s.bitoutLen.toNat ≤ s.cfg.bitbufBits) (h : runOf i s = .ok u) (hn : n ∉ writtenMems i) :
    SameWindow n s.mem u.mem := by
  intro a ha
  obtain ⟨-, ⟨-, hms⟩, ⟨-, hsd⟩, ⟨-, hbb, -⟩, -⟩ := hl
  have hout : ∀ m ∈ writtenMems i, ∀ k ≤ windowBytes m, a < windowBase m ∨ windowBase m + k ≤ a :=
    fun m hm k hk => outside_of_le (not_inWindow ha fun e => hn (e ▸ hm)) hk
  cases runOf_ok_stored h with
  | nothing _ hm => rw [hm]
  | bits out hw hlen hm _ =>
    rw [hm]
    obtain ⟨-, -, -, hsame⟩ := writeBitout_writes out s (by omega)
    exact hsame a (hout .bitout (by simp [hw]) _ (by simp only [wordBytes, windowBytes]; omega))
  | records syms recs hw hs hr hm _ _ =>
    rw [hm]
    obtain ⟨-, -, -, -, hsame⟩ := writeRecords_writes syms recs s (by omega) (by omega)
    exact hsame a (hout .symout (by simp [hw]) _ (by simp only [windowBytes]; omega))
      (hout .rpt (by simp [hw]) _ (by simp only [windowBytes]; omega))
  | table dist hi hc hd hu =>
    subst hi
    have hctab := hout .ctab (by simp [writtenMems])
    rw [hu, writeTable_mem, readByte_storeCodes_outside _ _ fun c hcodes => ?_,
      readByte_forget_outside _ _ (not_inWindow ha fun e => hn (by simp [e, writtenMems]))]
    have hsym := ((codesOf_entries hd).2 c hcodes).1
    have := hctab (16 * c.1 + 16) (by simp only [windowBytes]; omega)
    simp only [windowBase] at this
    omega
  | copy x hi hlen hm =>
    subst hi
    rw [hm]
    refine readByte_storeBits_outside _ _ _ _ fun j _ hj => ?_
    have hbyte := bitByte_in_words (base := windowBase .bitin) (q := 512) (k := j) (by omega)
    have := hout .bitin (by simp [writtenMems]) 0x800 (by decide)
    omega

theorem bitout_mem_writtenMems (i : Instr) : .bitout ∈ writtenMems i ↔ producesBits i = true := by
  cases i <;> simp [writtenMems, producesBits]

theorem symout_mem_writtenMems (i : Instr) : .symout ∈ writtenMems i ↔ producesRecords i = true := by
  cases i <;> simp [writtenMems, producesRecords]

theorem rpt_mem_writtenMems (i : Instr) : .rpt ∈ writtenMems i ↔ producesRecords i = true := by
  cases i <;> simp [writtenMems, producesRecords]

theorem ctab_mem_writtenMems (i : Instr) : .ctab ∈ writtenMems i ↔ i = .build := by
  cases i <;> simp [writtenMems]

/-- A failure changes no window but those of the memories the command writes. -/
theorem fail_sameWindow {i : Instr} {c : ErrCode} {s : State} {n : MemName} (hn : n ∉ writtenMems i) :
    SameWindow n s.mem (fail i c s).mem := by
  intro a ha
  have hout : ∀ m ∈ writtenMems i, inWindow m a = false := fun m hm => not_inWindow ha fun e => hn (e ▸ hm)
  exact fail_readByte i c s (fun hp => hout _ ((bitout_mem_writtenMems i).2 hp))
    (fun hp => ⟨hout _ ((symout_mem_writtenMems i).2 hp), hout _ ((rpt_mem_writtenMems i).2 hp)⟩)
    (fun hp => hout _ ((ctab_mem_writtenMems i).2 hp))

end Sys2Proof.Proofs

/-! What the parts of the invariant read of memory. -/

namespace Sys2Proof.Proofs

open Sys2Proof.Machine Sys2Proof.Safety

/-! ### What the parts of the invariant read of memory -/

/-- A word that lies in a window reads the same when the window's bytes do. -/
theorem SameWindow.readWord {n : MemName} {M M' : Memory} (h : SameWindow n M M') {a : Nat}
    (h0 : inWindow n a = true) (h3 : inWindow n (a + 3) = true) :
    Machine.readWord M' a = Machine.readWord M a := by
  have hin : ∀ j < 4, inWindow n (a + j) = true := by
    intro j hj
    rw [inWindow_iff] at *
    omega
  have hbyte := fun j hj => h (a + j) (hin j hj)
  simp only [Machine.readWord, h a h0, hbyte 1 (by omega), hbyte 2 (by omega), hbyte 3 (by omega)]

/-- The words of the entries within capacity lie in their memory's window. -/
theorem inWindow_wordOffset {c : Config} (hl : c.Legal) {n : MemName} {e k : Nat} (he : e < capacity c n)
    (hk : 4 * k < entryBytes n) :
    inWindow n (wordOffset n e k) = true ∧ inWindow n (wordOffset n e k + 3) = true := by
  obtain ⟨-, ⟨-, hms⟩, ⟨-, hsd⟩, ⟨-, hbb, -⟩, -⟩ := hl
  simp only [inWindow_iff]
  cases n <;> simp only [wordOffset, windowBase, windowBytes, entryBytes, capacity, Config.rptDepth] at * <;>
    omega

/-- The words of an entry within capacity read the same when the bytes of its window do. -/
theorem SameWindow.readEntry {n : MemName} {M M' : Memory} (h : SameWindow n M M') {c : Config}
    (hl : c.Legal) {e k : Nat} (he : e < capacity c n) (hk : 4 * k < entryBytes n) :
    Machine.readWord M' (wordOffset n e k) = Machine.readWord M (wordOffset n e k) :=
  h.readWord (inWindow_wordOffset hl he hk).1 (inWindow_wordOffset hl he hk).2

/-- A code-table entry is that of its four words. -/
theorem codeEntry_congr {s t : State} {e : Nat}
    (h : ∀ k < 4, readWord t.mem (wordOffset .ctab e k) = readWord s.mem (wordOffset .ctab e k)) :
    codeEntry t e = codeEntry s e := by
  simp only [codeEntry, h 0 (by omega), h 1 (by omega), h 2 (by omega), h 3 (by omega)]

/-- The code table stays one that BUILD makes where its window and CODE_COUNT do not change. -/
theorem tableOk_of_sameWindow {s t : State} (hl : s.cfg.Legal) (hcfg : t.cfg = s.cfg)
    (hcount : t.codeCount = s.codeCount) (hm : SameWindow .ctab s.mem t.mem) (h : TableOk s) : TableOk t := by
  have hword : ∀ e < s.cfg.maxSym, ∀ k < 4,
      readWord t.mem (wordOffset .ctab e k) = readWord s.mem (wordOffset .ctab e k) :=
    fun e he k hk => hm.readEntry hl he (by simp only [entryBytes]; omega)
  have hentry : ∀ e < s.cfg.maxSym, codeEntry t e = codeEntry s e :=
    fun e he => codeEntry_congr (hword e he)
  obtain ⟨hc, he⟩ := h
  refine ⟨?_, fun e hlt => ?_⟩
  · rw [hcount, hc, hcfg]
    exact List.countP_congr fun e hmem => by rw [hentry e (List.mem_range.1 hmem)]
  · rw [hcfg] at hlt ⊢
    simp only [codeOf, hentry e hlt]
    exact ⟨(he e hlt).1, fun hv k hk => (hword e hlt k hk).trans ((he e hlt).2 hv k hk)⟩

/-- The entries of DIST and SYMIN keep their reserved bits 0 where their windows do not change. -/
theorem entriesOk_of_sameWindow {s t : State} (hl : s.cfg.Legal) (hcfg : t.cfg = s.cfg)
    (hd : SameWindow .dist s.mem t.mem) (hs : SameWindow .symin s.mem t.mem) (h : EntriesOk s) :
    EntriesOk t := by
  unfold EntriesOk
  rw [hcfg]
  refine ⟨fun i hi => ?_, fun j hj => ?_⟩
  · rw [hd.readEntry hl hi (by decide)]; exact h.1 i hi
  · rw [hs.readEntry hl hj (by decide)]; exact h.2 j hj

/-- The positions of BITOUT stay written where its window does not change. -/
theorem bitsWritten_of_sameWindow {s t : State} {n : Nat} (hn : n ≤ 16384)
    (hm : SameWindow .bitout s.mem t.mem) (h : BitsWritten s .bitout n) : BitsWritten t .bitout n := by
  intro k hk
  have hbyte := bitByte_in_words (base := windowBase .bitout) (q := 512) (k := k) (by omega)
  have hin : inWindow .bitout (bitByte (windowBase .bitout) k) = true :=
    (inWindow_iff ..).2 ⟨hbyte.1, by simp only [windowBytes]; omega⟩
  have := h k hk
  unfold readBit at this ⊢
  rwa [hm _ hin]

/-- A window that nothing is stored in reads 0. -/
theorem readWord_value_unstored {n : MemName} {M : Memory} {a : Nat}
    (h : ∀ b, inWindow n b = true → readByte M b = readByte Memory.reset b)
    (h0 : inWindow n a = true) (h3 : inWindow n (a + 3) = true) : (readWord M a).value = 0 := by
  have hsame : SameWindow n Memory.reset M := h
  rw [hsame.readWord h0 h3]
  simp [readWord, readByte_reset]

/-- A code table in whose window nothing is stored reads 0, every bit defined (10_state.md R78). -/
theorem readWord_ctab_unstored {M : Memory} {a : Nat}
    (h : ∀ b, inWindow .ctab b = true → readByte M b = readByte Memory.reset b)
    (h0 : inWindow .ctab a = true) (h3 : inWindow .ctab (a + 3) = true) :
    readWord M a = { value := 0, undef := 0 } := by
  have hsame : SameWindow .ctab Memory.reset M := h
  have hin : ∀ j < 4, inWindow .ctab (a + j) = true := by
    intro j hj
    rw [inWindow_iff] at *
    omega
  rw [hsame.readWord h0 h3]
  simp [readWord, readByte_reset, h0, hin 1, hin 2, h3]

/-- The words of an entry of a code table in whose window nothing is stored. -/
theorem readEntry_ctab_unstored {c : Config} {M : Memory} (hl : c.Legal)
    (h : ∀ b, inWindow .ctab b = true → readByte M b = readByte Memory.reset b) {e k : Nat}
    (he : e < c.maxSym) (hk : k < 4) :
    readWord M (wordOffset .ctab e k) = { value := 0, undef := 0 } := by
  obtain ⟨h0, h3⟩ := inWindow_wordOffset hl (n := .ctab) (k := k) he (by simp only [entryBytes]; omega)
  exact readWord_ctab_unstored h h0 h3

/-- An entry whose words are 0 is not valid. -/
theorem codeEntry_valid_of_zero {s : State} {e : Nat}
    (h : readWord s.mem (wordOffset .ctab e 0) = { value := 0, undef := 0 }) :
    (codeEntry s e).valid = false := by
  simp [codeEntry, h]

/-- An empty code table is one that BUILD makes. -/
theorem tableOk_of_unstored {s : State} (hl : s.cfg.Legal) (hcount : s.codeCount = 0)
    (h : ∀ b, inWindow .ctab b = true → readByte s.mem b = readByte Memory.reset b) : TableOk s := by
  have hzero := fun e (he : e < s.cfg.maxSym) k (hk : k < 4) => readEntry_ctab_unstored hl h he hk
  have hinvalid := fun e (he : e < s.cfg.maxSym) => codeEntry_valid_of_zero (hzero e he 0 (by omega))
  refine ⟨?_, fun e he => ⟨fun hv => ?_, fun _ => hzero e he⟩⟩
  · rw [hcount]
    exact (List.countP_eq_zero.2 fun e he => by simp [hinvalid e (List.mem_range.1 he)]).symm
  · rw [hinvalid e he] at hv; cases hv

end Sys2Proof.Proofs

/-! The code table that BUILD stores is one that the invariant allows (41_prefix_coder.md R200). -/

namespace Sys2Proof.Proofs

open Sys2Proof.Machine Sys2Proof.Safety

/-! ### Bit strings and their values -/

theorem valBits_foldl (x : Bits) (v : Nat) :
    x.foldl (fun v b => 2 * v + b.toNat) v = v * 2 ^ x.length + valBits x := by
  induction x generalizing v with
  | nil => simp [valBits]
  | cons b x ih =>
    simp only [valBits, List.foldl_cons, List.length_cons]
    rw [ih, ih]
    ring

theorem valBits_cons (b : Bool) (x : Bits) : valBits (b :: x) = b.toNat * 2 ^ x.length + valBits x := by
  rw [← valBits_foldl]
  simp [valBits]

theorem valBits_lt (x : Bits) : valBits x < 2 ^ x.length := by
  induction x with
  | nil => decide
  | cons b x ih =>
    rw [valBits_cons, List.length_cons, pow_succ]
    cases b <;> simp only [Bool.toNat_true, Bool.toNat_false] <;> omega

/-- The last bits of a number are the string whose value stands there (00_scope.md R12). -/
theorem strBits_mul_add_valBits (x : Bits) (q : Nat) :
    strBits x.length (2 ^ x.length * q + valBits x) = x := by
  induction x generalizing q with
  | nil => rfl
  | cons b x ih =>
    have hsplit : 2 ^ (b :: x).length * q + valBits (b :: x) =
        2 ^ x.length * (2 * q + b.toNat) + valBits x := by
      rw [valBits_cons, List.length_cons, pow_succ]
      ring
    have hbit : (2 ^ x.length * (2 * q + b.toNat) + valBits x).testBit x.length = b := by
      rw [Nat.testBit_two_pow_mul_add _ (valBits_lt x), if_neg (lt_irrefl _), Nat.sub_self]
      cases b <;> simp
    rw [hsplit, List.length_cons, strBits, hbit, ih]

/-- `str_L(val(x)) = x` for the length of `x` (00_scope.md R12). -/
theorem strBits_valBits (x : Bits) : strBits x.length (valBits x) = x := by
  simpa using strBits_mul_add_valBits x 0

/-! ### The parity codeword in closed form -/

theorem xorBits_foldl (x : Bits) (p : Bool) : x.foldl (fun p b => p ^^ b) p = (p ^^ oddOnes x) := by
  induction x generalizing p with
  | nil => simp [oddOnes]
  | cons b x ih =>
    rw [List.foldl_cons, ih]
    have hcount : (b :: x).count true = x.count true + b.toNat := by cases b <;> simp
    simp only [oddOnes, hcount]
    cases b
    · simp
    · cases p <;> simp only [Bool.toNat_true] <;> by_cases h : x.count true % 2 = 1 <;> simp [h] <;> omega

/-- The XOR of the bits of a block says whether it holds an odd number of ones. -/
theorem xorBits_eq_oddOnes (x : Bits) : xorBits x = oddOnes x := by
  simp [xorBits, xorBits_foldl]

/-- The blocks of a string are its first positions and the blocks of the rest. -/
theorem chunksOf_cons {n : Nat} (hn : 0 < n) (b : Bool) (x : Bits) :
    chunksOf n (b :: x) = (b :: x).take n :: chunksOf n ((b :: x).drop n) := by
  have hlen : ((b :: x).length + n - 1) / n = (((b :: x).drop n).length + n - 1) / n + 1 := by
    rw [List.length_drop]
    rcases Nat.le_total n (b :: x).length with h | h
    · rw [show (b :: x).length + n - 1 = ((b :: x).length - n + n - 1) + n by omega,
        Nat.add_div_right _ hn]
    · rw [Nat.sub_eq_zero_of_le h, Nat.div_eq_of_lt (by omega : 0 + n - 1 < n), List.length_cons]
      simp only [List.length_cons] at h
      exact Nat.div_eq_of_lt_le (by omega) (by omega)
  unfold chunksOf
  rw [hlen, List.range_succ_eq_map, List.map_cons, List.map_map]
  refine congrArg₂ _ (by simp) (List.map_congr_left fun k _ => ?_)
  simp only [Function.comp_apply, List.drop_drop]
  rw [Nat.mul_succ, Nat.add_comm]

/-- The blocks of a string, each followed by its parity bit, one block after another. -/
theorem parityBlocks_eq {bs : Nat} (hbs : 0 < bs) (fuel : Nat) (x : Bits) (hf : x.length ≤ fuel) :
    parityBlocks bs fuel x = (chunksOf bs x).flatMap fun b => b ++ [oddOnes b] := by
  induction fuel generalizing x with
  | zero =>
    obtain rfl := List.length_eq_zero_iff.1 (Nat.le_zero.1 hf)
    simp [parityBlocks, chunksOf, Nat.div_eq_of_lt (Nat.sub_lt hbs Nat.one_pos)]
  | succ fuel ih =>
    cases x with
    | nil => simp [parityBlocks, chunksOf, Nat.div_eq_of_lt (Nat.sub_lt hbs Nat.one_pos)]
    | cons b x =>
      simp only [List.length_cons] at hf
      rw [parityBlocks, ih _ (by rw [List.length_drop, List.length_cons]; omega), chunksOf_cons hbs,
        List.flatMap_cons, xorBits_eq_oddOnes]
      simp

/-- `AddParity` appends to each block its parity bit (41_prefix_coder.md R209). -/
theorem addParity_eq (x : Bits) : addParity x = parityOfBlocks x := by
  have hbs : 0 < blockSize x.length := by unfold blockSize; split <;> omega
  exact parityBlocks_eq hbs _ x (le_refl _)

/-- Parity bits make a string of blocks of at least two positions at most half as long again, rounded up. -/
theorem parityBlocks_length {bs : Nat} (hbs : 2 ≤ bs) (fuel : Nat) (x : Bits) :
    2 * (parityBlocks bs fuel x).length ≤ 3 * x.length + 1 := by
  induction fuel generalizing x with
  | zero => simp [parityBlocks]
  | succ fuel ih =>
    cases x with
    | nil => simp [parityBlocks]
    | cons b x =>
      have hrest := ih ((b :: x).drop bs)
      simp only [parityBlocks, List.length_append, List.length_take, List.length_cons,
        List.length_drop] at hrest ⊢
      omega

/-- The parity codeword of at most 21 bits has at most 32. -/
theorem addParity_length_le {x : Bits} (h : x.length ≤ 21) : (addParity x).length ≤ 32 := by
  have hbs : 2 ≤ blockSize x.length := by unfold blockSize; split <;> omega
  have : 2 * (addParity x).length ≤ 3 * x.length + 1 := parityBlocks_length hbs _ x
  omega

/-! ### The entries that BUILD stores -/

theorem shannonBits_length (pw l x : Nat) : (shannonBits pw l x).length = l := by
  induction l generalizing x with
  | zero => rfl
  | succ l ih => unfold shannonBits; split <;> simp [ih]

/-- The fields of an entry fit their places in its four words (10_state.md R74 to R77). -/
structure FieldsFit (e : CodeEntry) : Prop where
  blen : e.blen < 64
  plen : e.plen < 64
  bcode : e.bcode < 2 ^ 32
  pcode : e.pcode < 2 ^ 32
  rank : e.rank < 2048

/-- An entry of the code table that BUILD makes, as the invariant wants it. -/
structure EntryOk (pw : Nat) (e : CodeEntry) : Prop where
  fit : FieldsFit e
  valid : e.valid = true
  blen_le : e.blen ≤ pw
  parity : parityCode e = parityOfBlocks (baseCode e)

theorem shannonEntry_ok {pw r f p : Nat} (hpw : pw ≤ 21) (hr : r < 2048) :
    EntryOk pw (shannonEntry pw r f p) := by
  have hlen : (shannonBits pw (codeLen pw p) f).length ≤ pw := by
    rw [shannonBits_length]; exact Nat.sub_le _ _
  have hplen := addParity_length_le (hlen.trans hpw)
  have hvalue : ∀ x : Bits, x.length ≤ 32 → valBits x < 2 ^ 32 := fun x hx =>
    (valBits_lt x).trans_le (Nat.pow_le_pow_right (by decide) hx)
  refine ⟨⟨?_, ?_, ?_, ?_, hr⟩, rfl, hlen, ?_⟩
  · show (shannonBits pw (codeLen pw p) f).length < 64; omega
  · show (addParity (shannonBits pw (codeLen pw p) f)).length < 64; omega
  · exact hvalue _ (by omega)
  · exact hvalue _ hplen
  · simp only [parityCode, baseCode, shannonEntry, strBits_valBits, addParity_eq]

/-- An entry whose four words stand in memory reads back field by field. -/
theorem codeEntry_of_holdsWords {s : State} {t : Nat} {e : CodeEntry} (he : FieldsFit e)
    (h : HoldsWords s.mem (0x2000 + 16 * t) (codeWords e)) : codeEntry s t = e := by
  obtain ⟨valid, blen, bcode, plen, pcode, rank⟩ := e
  obtain ⟨hb, hp, hbc, hpc, hr⟩ := he
  dsimp only at hb hp hbc hpc hr
  have hword : ∀ k (hk : k < 4), readWord s.mem (wordOffset .ctab t k) =
      { value := (codeWords ⟨valid, blen, bcode, plen, pcode, rank⟩).getD k 0, undef := 0 } :=
    fun k hk => h k hk
  have hv := Bool.toNat_lt valid
  have hbit : (wordOf (valid.toNat * 2 ^ 31 + blen * 2 ^ 16 + plen)).getLsbD 31 = valid := by
    rw [BitVec.getLsbD_ofNat, Nat.testBit_eq_decide_div_mod_eq,
      show (valid.toNat * 2 ^ 31 + blen * 2 ^ 16 + plen) / 2 ^ 31 = valid.toNat by omega]
    cases valid <;> rfl
  simp only [codeEntry, hword 0 (by omega), hword 1 (by omega), hword 2 (by omega), hword 3 (by omega),
    codeWords, List.getD_cons_zero, List.getD_cons_succ, hbit, BitVec.toNat_ofNat, CodeEntry.mk.injEq,
    true_and]
  omega

/-- A list of distinct numbers below `n` has as many members as there are numbers below `n` in it. -/
theorem countP_range_mem {l : List Nat} {n : Nat} (hd : l.Nodup) (hl : ∀ t ∈ l, t < n) :
    (List.range n).countP (fun t => decide (t ∈ l)) = l.length := by
  rw [List.countP_eq_length_filter]
  refine List.Perm.length_eq ((List.perm_ext_iff_of_nodup (List.nodup_range.filter _) hd).2 fun t => ?_)
  simp only [List.mem_filter, List.mem_range, decide_eq_true_eq]
  exact ⟨fun h => h.2, fun h => ⟨hl t h, h⟩⟩

/-- An entry that BUILD does not store is empty: the table was cleared before (41_prefix_coder.md R202). -/
theorem readWord_storeCodes_absent {c : Config} (hl : c.Legal) (m : Memory)
    {codes : List (Nat × CodeEntry)} {t k : Nat} (hnot : t ∉ codes.map Prod.fst) (ht : t < c.maxSym)
    (hk : k < 4) :
    readWord (storeCodes (forget .ctab m) codes) (wordOffset .ctab t k) = { value := 0, undef := 0 } := by
  rw [← readEntry_ctab_unstored hl (M := forget .ctab m)
    (fun b hb => readByte_forget_inside .ctab m hb) ht hk]
  have hbyte : ∀ j < 4, readByte (storeCodes (forget .ctab m) codes) (wordOffset .ctab t k + j) =
      readByte (forget .ctab m) (wordOffset .ctab t k + j) := by
    intro j hj
    refine readByte_storeCodes_outside _ _ fun c hmem => ?_
    have hne : c.1 ≠ t := fun e => hnot (e ▸ List.mem_map_of_mem hmem)
    simp only [wordOffset, windowBase, entryBytes]
    omega
  have h0 := hbyte 0 (by omega)
  rw [Nat.add_zero] at h0
  simp only [readWord, h0, hbyte 1 (by omega), hbyte 2 (by omega), hbyte 3 (by omega)]

/-- The table that BUILD stores meets the invariant's clause on the code table. -/
theorem writeTable_tableOk {s : State} {codes : List (Nat × CodeEntry)} (hl : s.cfg.Legal)
    (hd : (codes.map Prod.fst).Nodup)
    (hc : ∀ c ∈ codes, c.1 < s.cfg.maxSym ∧ EntryOk s.cfg.pw c.2) : TableOk (writeTable codes s) := by
  have hms : s.cfg.maxSym ≤ 1024 := by obtain ⟨-, ⟨-, hms⟩, -⟩ := hl; exact hms
  have hcount := countP_range_mem hd (n := s.cfg.maxSym) (by
    intro t ht
    obtain ⟨c, hmem, rfl⟩ := List.mem_map.1 ht
    exact (hc c hmem).1)
  have hstored : ∀ c ∈ codes, codeEntry (writeTable codes s) c.1 = c.2 := fun c hmem =>
    codeEntry_of_holdsWords (hc c hmem).2.fit (readWord_storeCodes (forget .ctab s.mem) codes hd hmem)
  have hempty : ∀ t < s.cfg.maxSym, t ∉ codes.map Prod.fst → ∀ k < 4,
      readWord (writeTable codes s).mem (wordOffset .ctab t k) = { value := 0, undef := 0 } := by
    intro t ht hnot k hk
    rw [writeTable_mem, readWord_storeCodes_absent hl s.mem hnot ht hk]
  have hvalid : ∀ t < s.cfg.maxSym,
      (codeEntry (writeTable codes s) t).valid = decide (t ∈ codes.map Prod.fst) := by
    intro t ht
    by_cases hmem : t ∈ codes.map Prod.fst
    · obtain ⟨c, hcm, rfl⟩ := List.mem_map.1 hmem
      rw [hstored c hcm, (hc c hcm).2.valid, decide_eq_true hmem]
    · rw [codeEntry_valid_of_zero (hempty t ht hmem 0 (by omega)), decide_eq_false hmem]
  refine ⟨?_, fun t ht => ?_⟩
  · rw [writeTable_cfg, List.countP_congr fun t ht => by rw [hvalid t (List.mem_range.1 ht)], hcount,
      writeTable_codeCount, List.length_map, BitVec.toNat_ofNat]
    have : codes.length ≤ s.cfg.maxSym := by
      rw [← List.length_map (f := Prod.fst), ← hcount]
      exact List.countP_le_length.trans_eq List.length_range
    omega
  · rw [hvalid t ht]
    refine ⟨fun hmem => ?_, fun hmem => hempty t ht (of_decide_eq_false hmem)⟩
    obtain ⟨c, hcm, rfl⟩ := List.mem_map.1 (of_decide_eq_true hmem)
    rw [codeOf, hstored c hcm]
    exact ⟨(hc c hcm).2.blen_le, (hc c hcm).2.parity⟩

end Sys2Proof.Proofs

/-! The invariant of the block holds after a reset and every step keeps it. -/

namespace Sys2Proof.Proofs

open Sys2Proof.Machine Sys2Proof.Safety

/-! ### Where the invariant comes from without a command -/

/-- The invariant reads only memory, the parameters, the flags with their counters, CODE_COUNT and the
output lengths, so it holds of a state that differs elsewhere. -/
theorem Inv.of_sameRead {s t : State} (h : Inv s)
    (ht : t = { s with
      cmd := t.cmd, ie := t.ie, wbusy := t.wbusy, arg0 := t.arg0, arg1 := t.arg1, res0 := t.res0,
      res1 := t.res1, res2 := t.res2, res3 := t.res3, distCount := t.distCount, syminLen := t.syminLen,
      bitinLen := t.bitinLen, lfsrA := t.lfsrA, lfsrS := t.lfsrS, schedule := t.schedule,
      hostData := t.hostData, freeCount := t.freeCount }) : Inv t := by
  obtain ⟨hmem, hlegal, htable, houtputs, hflags, hentries⟩ := h
  rw [ht]
  exact ⟨hmem, hlegal, htable, houtputs, hflags, hentries⟩

/-- Memory with nothing stored gives DIST and SYMIN entries without reserved bits. -/
theorem entriesOk_of_unstored {s : State} (hl : s.cfg.Legal) (h : s.mem = Memory.reset) : EntriesOk s := by
  have hzero : ∀ n e, e < capacity s.cfg n → (readWord s.mem (wordOffset n e 0)).value = 0 := by
    intro n e he
    obtain ⟨h0, h3⟩ := inWindow_wordOffset hl (k := 0) he (by cases n <;> decide)
    exact readWord_value_unstored (fun b _ => by rw [h]) h0 h3
  refine ⟨fun i hi => ?_, fun j hj => ?_⟩
  · rw [hzero .dist i hi]; decide
  · rw [hzero .symin j hj]; decide

/-- The invariant holds right after a reset of a block with legal parameters (70_reset_and_hazards.md R501). -/
theorem resetBlock_inv {s : State} (hl : s.cfg.Legal) : Inv (resetBlock s) where
  mem := Memory.reset_wf
  legal := hl
  table := tableOk_of_unstored hl rfl fun _ _ => rfl
  outputs := ⟨Nat.zero_le _, Nat.zero_le _, Nat.zero_le _, fun k hk => absurd hk (Nat.not_lt_zero k)⟩
  flags := by simp [FlagsOk]
  entries := entriesOk_of_unstored hl rfl

theorem reference_legal : Config.reference.Legal := by decide

/-- Settles O60: State.reset is a reset block with the reference parameters, which are legal. -/
theorem resetHasTheInvariant : Obligations.ResetHasTheInvariant :=
  resetBlock_inv (s := State.reset) reference_legal

/-! ### A command keeps the invariant -/

/-- The report flags and their counters are all clear. -/
abbrev ReportsClear (s : State) : Prop :=
  s.desync = false ∧ s.perr = false ∧ s.hcorr = false ∧ s.desyncCnt = 0 ∧ s.perrCnt = 0 ∧ s.hcorrCnt = 0

/-- The clauses of the invariant that tie each report flag to its counter. -/
abbrev ReportsAgree (s : State) : Prop :=
  (s.desync = true ↔ s.desyncCnt ≠ 0) ∧ (s.perrCnt ≠ 0 → s.perr = true) ∧
    (s.hcorrCnt ≠ 0 → s.hcorr = true)

theorem ReportsClear.agree {s : State} (h : ReportsClear s) : ReportsAgree s := by
  obtain ⟨h1, -, -, h4, h5, h6⟩ := h
  simp [ReportsAgree, h1, h4, h5, h6]

/-- The flags of an idle block agree when its report flags do and a failure has left none. -/
theorem flagsOk_of_idle {s : State} (hidle : s.seqState = .idle) (ha : ReportsAgree s)
    (he : s.errcode.toNat ∈ [0, 1, 2, 4, 8, 9, 10, 11, 12, 13]) (hc : s.errcode ≠ 0 → ReportsClear s) :
    FlagsOk s := by
  obtain ⟨hd, hp, hh⟩ := ha
  refine ⟨fun h => ?_, fun h => hc (h.resolve_left fun h => ?_), hd, hp, hh, he⟩ <;>
    rw [hidle] at h <;> cases h

/-- While a command is in flight the report flags and their counters are clear. -/
theorem FlagsOk.reportsClear {s : State} (h : FlagsOk s) (hb : s.seqState = .busy) : ReportsClear s :=
  let ⟨_, hclear, _⟩ := h
  hclear (.inl hb)

theorem errByte_mem (c : ErrCode) : (errByte c).toNat ∈ [0, 1, 2, 4, 8, 9, 10, 11, 12, 13] := by
  cases c <;> decide

/-- A flag over a count that fits its counter is up exactly when the counter is not 0. -/
theorem count_flag_iff {n : Nat} (h : n < 2 ^ 15) : decide (0 < n) = true ↔ BitVec.ofNat 15 n ≠ 0 := by
  rw [Ne, ← BitVec.toNat_inj, BitVec.toNat_ofNat, Nat.mod_eq_of_lt h]
  simp [Nat.pos_iff_ne_zero]

/-- The reports of a command that reaches its end agree: it starts with all of them clear, and DECODE and HDEC
set each flag with its counter. -/
theorem runOf_ok_reportsAgree {i : Instr} {s u : State} (hl : s.cfg.Legal) (hclear : ReportsClear s)
    (h : runOf i s = .ok u) : ReportsAgree u := by
  obtain ⟨-, -, -, ⟨-, hbb, -⟩, -⟩ := hl
  obtain ⟨hdesync, hperr, hhcorr⟩ := hclear.agree
  by_cases hdecode : i = .decode
  · subst hdecode
    obtain ⟨x, r, hl, hx, hr, rfl⟩ := runDecode_ok h
    have hrecs := (decodeFrom_length hr (Nat.zero_le _)).1
    rw [((bufferBits_ok_iff ..).1 hx).1] at hrecs
    have hcount : ∀ p : Record → Bool, r.1.countP p < 2 ^ 15 := fun p => by
      have := List.countP_le_length (p := p) (l := r.1)
      omega
    exact ⟨count_flag_iff (hcount _), (count_flag_iff (hcount _)).2, hhcorr⟩
  by_cases hhdec : i = .hdec
  · subst hhdec
    obtain ⟨x, hl, -, -, rfl⟩ := runHdec_ok h
    have hcount := List.countP_le_length (p := fun d : Decoded => d.corrected)
      (l := decodeBlocks s.cfg (s.bitinLen.toNat / 7) x)
    rw [decodeBlocks_length] at hcount
    exact ⟨hdesync, hperr, (count_flag_iff (by omega)).2⟩
  · obtain ⟨-, -, -, -, hpc, hhc⟩ := hclear
    rw [runOf_ok_listed h]
    simpa [ReportsAgree, listedFrom, hdecode, hhdec, hpc, hhc] using hdesync

/-- The lengths of SYMOUT and RPT are within capacity. -/
abbrev RecordsFit (s : State) : Prop :=
  s.symoutLen.toNat ≤ s.cfg.symbufDepth ∧ s.rptLen.toNat ≤ s.cfg.rptDepth

/-- BITOUT_LEN is within capacity, and every position below it is written. -/
abbrev BitoutFits (s : State) : Prop :=
  s.bitoutLen.toNat ≤ s.cfg.bitbufBits ∧ BitsWritten s .bitout s.bitoutLen.toNat

theorem outputsOk_iff (s : State) : OutputsOk s ↔ RecordsFit s ∧ BitoutFits s := and_assoc.symm

theorem bitoutFits_of_sameWindow {s t : State} (hl : s.cfg.Legal) (hcfg : t.cfg = s.cfg)
    (hlen : t.bitoutLen = s.bitoutLen) (hm : SameWindow .bitout s.mem t.mem) (h : BitoutFits s) :
    BitoutFits t := by
  obtain ⟨-, -, -, ⟨-, hbb, -⟩, -⟩ := hl
  unfold BitoutFits
  rw [hlen, hcfg]
  exact ⟨h.1, bitsWritten_of_sameWindow (h.1.trans hbb) hm h.2⟩

/-- The outputs of a command that reaches its end are within capacity, and BITOUT is written below its
length. -/
theorem runOf_ok_outputsOk {i : Instr} {s u : State} (hl : s.cfg.Legal) (h : runOf i s = .ok u)
    (ho : OutputsOk s) : OutputsOk u := by
  obtain ⟨hrecords, hbitout⟩ := (outputsOk_iff s).1 ho
  have hu := runOf_ok_listed h
  have hcfg : u.cfg = s.cfg := by rw [hu]; rfl
  have hkeepRecords (hn : .rpt ∉ writtenMems i) : RecordsFit u := by
    have hp := (rpt_mem_writtenMems i).not.1 hn
    have hsym : u.symoutLen = s.symoutLen := by rw [hu]; exact if_neg hp
    have hrpt : u.rptLen = s.rptLen := by rw [hu]; exact if_neg hp
    unfold RecordsFit
    rwa [hsym, hrpt, hcfg]
  have hkeepBitout (hn : .bitout ∉ writtenMems i) : BitoutFits u := by
    have hlen : u.bitoutLen = s.bitoutLen := by
      rw [hu]; exact if_neg ((bitout_mem_writtenMems i).not.1 hn)
    exact bitoutFits_of_sameWindow hl hcfg hlen (runOf_ok_sameWindow hl hbitout.1 h hn) hbitout
  obtain ⟨-, -, ⟨-, hsd⟩, ⟨-, hbb, -⟩, -⟩ := hl
  refine (outputsOk_iff u).2 ?_
  cases runOf_ok_stored h with
  | nothing hw _ => exact ⟨hkeepRecords (by simp [hw]), hkeepBitout (by simp [hw])⟩
  | bits out hw hlen hm hn =>
    obtain ⟨hlength, hholds, -, -⟩ := writeBitout_writes out s (by omega)
    refine ⟨hkeepRecords (by simp [hw]), ?_, fun k hk => ?_⟩
    · rw [hn, hlength, hcfg]; exact hlen
    · rw [hn, hlength] at hk
      rw [hm, hholds k hk, List.getElem?_eq_getElem hk]
      rfl
  | records syms recs hw hs hr _ hns hnr =>
    obtain ⟨hsym, hrpt, -⟩ := writeRecords_writes syms recs s (by omega) (by omega)
    refine ⟨⟨?_, ?_⟩, hkeepBitout (by simp [hw])⟩
    · rw [hns, hsym, hcfg]; exact hs
    · rw [hnr, hrpt, hcfg]; exact hr
  | table dist hi _ _ _ => subst hi; exact ⟨hkeepRecords (by decide), hkeepBitout (by decide)⟩
  | copy x hi _ _ => subst hi; exact ⟨hkeepRecords (by decide), hkeepBitout (by decide)⟩

/-- The output lengths a failure leaves are 0 or as before, and so is BITOUT below its length. -/
theorem fail_outputsOk {i : Instr} {c : ErrCode} {s : State} (hl : s.cfg.Legal) (h : OutputsOk s) :
    OutputsOk (fail i c s) := by
  obtain ⟨hrecords, hbitout⟩ := (outputsOk_iff s).1 h
  have hcfg : (fail i c s).cfg = s.cfg := by rw [fail_eq]
  have hlen : (fail i c s).bitoutLen = if producesBits i then 0 else s.bitoutLen := by rw [fail_eq]
  refine (outputsOk_iff _).2 ⟨?_, ?_⟩
  · rw [fail_eq]
    unfold RecordsFit
    dsimp only
    split
    · exact ⟨Nat.zero_le _, Nat.zero_le _⟩
    · exact hrecords
  · by_cases hp : producesBits i = true
    · rw [if_pos hp] at hlen
      unfold BitoutFits
      rw [hlen]
      exact ⟨Nat.zero_le _, fun k hk => absurd hk (Nat.not_lt_zero k)⟩
    · rw [if_neg hp] at hlen
      exact bitoutFits_of_sameWindow hl hcfg hlen
        (fail_sameWindow ((bitout_mem_writtenMems i).not.2 hp)) hbitout

/-- The code table after a command that reaches its end: BUILD's, or as before. -/
theorem runOf_ok_tableOk {i : Instr} {s u : State} (hl : s.cfg.Legal)
    (hb : s.bitoutLen.toNat ≤ s.cfg.bitbufBits) (h : runOf i s = .ok u) (ht : TableOk s) : TableOk u := by
  by_cases hi : i = .build
  · subst hi
    obtain ⟨dist, hc, hd, rfl⟩ := runBuild_ok h
    obtain ⟨hnodup, hentries⟩ := codesOf_entries (pw := s.cfg.pw) hd
    obtain ⟨⟨-, hpw⟩, ⟨-, hms⟩, -⟩ := id hl
    refine writeTable_tableOk hl hnodup fun c hmem => ?_
    obtain ⟨hsym, r, f, p, hr, he⟩ := hentries c hmem
    exact ⟨by omega, he ▸ shannonEntry_ok hpw (by omega)⟩
  · have hu := runOf_ok_listed h
    have hcount : u.codeCount = s.codeCount := by rw [hu]; exact if_neg hi
    exact tableOk_of_sameWindow hl (by rw [hu]; rfl) hcount
      (runOf_ok_sameWindow hl hb h ((ctab_mem_writtenMems i).not.2 hi)) ht

/-- The code table after a failure: empty after BUILD's, and otherwise as before. -/
theorem fail_tableOk {i : Instr} {c : ErrCode} {s : State} (hl : s.cfg.Legal) (ht : TableOk s) :
    TableOk (fail i c s) := by
  by_cases hi : i = .build
  · subst hi
    exact tableOk_of_unstored hl rfl fun b hb => readByte_forget_inside .ctab _ hb
  · exact tableOk_of_sameWindow hl (by rw [fail_eq]) (by rw [fail_eq]; exact if_neg hi)
      (fail_sameWindow ((ctab_mem_writtenMems i).not.2 hi)) ht

/-- No command writes DIST or SYMIN (20_memory.md R118). -/
theorem host_memories_not_written (i : Instr) : .dist ∉ writtenMems i ∧ .symin ∉ writtenMems i := by
  cases i <;> simp [writtenMems]

/-- The completion sets ERRCODE, DONE and SEQ_STATE, of which only the flags' clause of the invariant
speaks. -/
theorem complete_inv {u : State} (hmem : u.mem.wf) (hl : u.cfg.Legal) (ht : TableOk u) (ho : OutputsOk u)
    (hr : ReportsAgree u) (he : EntriesOk u) : Inv (complete u) :=
  ⟨hmem, hl, ht, ho, flagsOk_of_idle rfl hr (List.mem_cons_self ..) fun hne => absurd rfl hne, he⟩

/-- A command in flight that reaches its end keeps the invariant. -/
theorem runOf_ok_inv {i : Instr} {s u : State} (hi : Inv s) (hb : s.seqState = .busy)
    (h : runOf i s = .ok u) : Inv (complete u) := by
  have hcfg : u.cfg = s.cfg := by rw [runOf_ok_listed h]; rfl
  obtain ⟨-, -, hbits, -⟩ := hi.outputs
  obtain ⟨hdist, hsymin⟩ := host_memories_not_written i
  have hsame := fun {n} => runOf_ok_sameWindow (n := n) hi.legal hbits h
  exact complete_inv (runOf_ok_wf h hi.mem) (hcfg ▸ hi.legal)
    (runOf_ok_tableOk hi.legal hbits h hi.table) (runOf_ok_outputsOk hi.legal h hi.outputs)
    (runOf_ok_reportsAgree hi.legal (FlagsOk.reportsClear hi.flags hb) h)
    (entriesOk_of_sameWindow hi.legal hcfg (hsame hdist) (hsame hsymin) hi.entries)

/-- The failure of a command in flight keeps the invariant (60_exceptions.md R403, R407). -/
theorem fail_inv {i : Instr} {c : ErrCode} {s : State} (hi : Inv s) (hb : s.seqState = .busy) :
    Inv (fail i c s) where
  mem := fail_wf i c hi.mem
  legal := by rw [fail_eq]; exact hi.legal
  table := fail_tableOk hi.legal hi.table
  outputs := fail_outputsOk hi.legal hi.outputs
  flags := by
    have hstart := FlagsOk.reportsClear hi.flags hb
    have hclear : ReportsClear (fail i c s) := by rw [fail_eq]; exact hstart
    have hcode : (fail i c s).errcode = errByte c := by rw [fail_eq]
    exact flagsOk_of_idle (by rw [fail_eq]) hclear.agree (hcode ▸ errByte_mem c) fun _ => hclear
  entries := entriesOk_of_sameWindow hi.legal (by rw [fail_eq])
    (fail_sameWindow (host_memories_not_written i).1) (fail_sameWindow (host_memories_not_written i).2)
    hi.entries

/-- The completion of a word that selects no command keeps the invariant (30_encoding.md R134). -/
theorem failIllegal_inv {s : State} (hi : Inv s) (hb : s.seqState = .busy) : Inv (failIllegal s) := by
  have hclear := FlagsOk.reportsClear hi.flags hb
  exact ⟨hi.mem, hi.legal, hi.table, hi.outputs,
    flagsOk_of_idle rfl hclear.agree (errByte_mem .illegalCommand) fun _ => hclear, hi.entries⟩

/-- SEQ's step keeps the invariant. -/
theorem seqStep_inv {s t : State} (hi : Inv s) (h : seqStep s = .next t) : Inv t := by
  rcases seqStep_next h with ⟨-, rfl⟩ | ⟨hb, ⟨i, -, he⟩ | ⟨-, rfl⟩⟩
  · exact hi
  · rcases exec_next he with ⟨u, hu, rfl⟩ | ⟨c, -, rfl⟩ | ⟨-, rfl⟩
    · exact runOf_ok_inv hi hb hu
    · exact fail_inv hi hb
    · exact hi
  · exact failIllegal_inv hi hb

/-! ### The host's accesses keep the invariant -/

/-- An accepted CMD write clears every flag that the invariant wants clear (30_encoding.md R132). -/
theorem issue_inv {s : State} (hi : Inv s) (v : Word) : Inv (issue v s) :=
  ⟨hi.mem, hi.legal, hi.table, hi.outputs, by simp [FlagsOk], hi.entries⟩

theorem writeReg_inv {s : State} (hi : Inv s) (v : Word) (r : Reg) : Inv (writeReg v s r) := by
  cases r with
  | cmd => exact issue_inv hi v
  | _ => exact Inv.of_sameRead hi rfl

theorem writeCtrl_inv {s : State} (hi : Inv s) (v : Word) : Inv (writeCtrl v s) := by
  unfold writeCtrl
  split
  · exact resetBlock_inv hi.legal
  · exact Inv.of_sameRead hi rfl

/-- A STATUS write can only clear DONE, which is clear while BUSY. -/
theorem writeStatus_inv {s : State} (hi : Inv s) (v : Word) : Inv (writeStatus v s) := by
  obtain ⟨hbusy, hrest⟩ := hi.flags
  refine ⟨hi.mem, hi.legal, hi.table, hi.outputs, ⟨fun hb => ⟨?_, (hbusy hb).2⟩, hrest⟩, hi.entries⟩
  rw [writeStatus_done, (hbusy hb).1, Bool.false_and]

/-- Storing a word of one window changes no other window. -/
theorem storeWord_sameWindow {m n : MemName} {a : Nat} (M : Memory) (w : Word)
    (h0 : inWindow m a = true) (h3 : inWindow m (a + 3) = true) (hne : n ≠ m) :
    SameWindow n M (storeWord M a w) := by
  intro b hb
  have hout := not_inWindow hb hne
  have hbyte : ∀ j < 4, b ≠ a + j := by
    rintro j hj rfl
    rw [(inWindow_iff m (a + j)).2 (by rw [inWindow_iff] at h0 h3; omega)] at hout
    cases hout
  rw [readByte_storeWord, if_neg (by simpa using hbyte 0 (by omega)),
    if_neg (hbyte 1 (by omega)), if_neg (hbyte 2 (by omega)), if_neg (hbyte 3 (by omega))]

/-- An entry of one word after a word of its memory is stored. -/
theorem readWord_storeWord_entry {n : MemName} (M : Memory) (hn : entryBytes n = 4) (e i : Nat) (w : Word) :
    readWord (storeWord M (wordOffset n e 0) w) (wordOffset n i 0) =
      if i = e then { value := w, undef := 0 } else readWord M (wordOffset n i 0) := by
  split
  · next h => rw [h, readWord_storeWord_same]
  · next h =>
    refine readWord_storeWord_other M ?_ w
    simp only [wordOffset, hn]
    omega

/-- A host write of a word of DIST, SYMIN or BITIN stores the bits that its entry holds (10_state.md R70). -/
theorem writeMem_eq {s : State} {m : MemName} {mask : Word} (hm : writeMask m = some mask) (v : Word)
    (e k : Nat) :
    writeMem v s m e k = { s with mem := storeWord s.mem (wordOffset m e k) (v &&& mask) } := by
  simp only [writeMem, hm]

theorem toNat_and_le (v mask : Word) : (v &&& mask).toNat ≤ mask.toNat := by
  rw [BitVec.toNat_and]; exact Nat.and_le_right

/-- A one-word field stays within its bits when the host writes an entry through the field's mask. -/
theorem field_lt_after_write {s : State} {m : MemName} {mask : Word} {e : Nat} (hl : s.cfg.Legal)
    (he : e < capacity s.cfg m) (hk : entryBytes m = 4) (v : Word) (n : MemName) (b : Nat)
    (hn : entryBytes n = 4) (hm : m = n → mask.toNat < b)
    (h : ∀ i < capacity s.cfg n, (readWord s.mem (wordOffset n i 0)).value.toNat < b) :
    ∀ i < capacity s.cfg n, (readWord (storeWord s.mem (wordOffset m e 0) (v &&& mask))
      (wordOffset n i 0)).value.toNat < b := by
  intro i hi
  by_cases hmn : m = n
  · subst hmn
    rw [readWord_storeWord_entry _ hn]
    split
    · exact (toNat_and_le v mask).trans_lt (hm rfl)
    · exact h i hi
  · obtain ⟨h0, h3⟩ := inWindow_wordOffset hl (k := 0) he (by omega)
    have hsame := storeWord_sameWindow s.mem (v &&& mask) h0 h3 (Ne.symm hmn)
    rw [hsame.readEntry hl hi (by omega)]
    exact h i hi

/-- A memory word that the host writes lies in its memory's window alone, and its entry keeps the reserved
bits of DIST and SYMIN 0 (10_state.md R71, R80). -/
theorem writeMem_inv {s : State} {m : MemName} {e k : Nat} (hi : Inv s) (v : Word)
    (he : e < capacity s.cfg m) (hk : 4 * k < entryBytes m) : Inv (writeMem v s m e k) := by
  cases hmask : writeMask m with
  | none => simpa only [writeMem, hmask] using hi
  | some mask =>
    have hone : entryBytes m = 4 := by cases m <;> first | rfl | cases hmask
    obtain rfl : k = 0 := by omega
    obtain ⟨h0, h3⟩ := inWindow_wordOffset hi.legal he hk
    obtain ⟨hrecords, hbitout⟩ := (outputsOk_iff s).1 hi.outputs
    obtain ⟨hdist, hsymin⟩ := hi.entries
    have hsame := fun n (hne : n ≠ m) => storeWord_sameWindow s.mem (v &&& mask) h0 h3 hne
    rw [writeMem_eq hmask]
    refine ⟨storeWord_wf hi.mem _ _, hi.legal,
      tableOk_of_sameWindow hi.legal rfl rfl (hsame .ctab ?_) hi.table,
      (outputsOk_iff _).2 ⟨hrecords, bitoutFits_of_sameWindow hi.legal rfl rfl (hsame .bitout ?_) hbitout⟩,
      hi.flags, field_lt_after_write hi.legal he hone v .dist _ rfl ?_ hdist,
      field_lt_after_write hi.legal he hone v .symin _ rfl ?_ hsymin⟩
    · rintro rfl; cases hmask
    · rintro rfl; cases hmask
    · rintro rfl; cases hmask; decide
    · rintro rfl; cases hmask; decide

/-- A host write at an offset of the window keeps the invariant. -/
theorem hostWrite_inv {s : State} (hi : Inv s) (v : Word) (a : Nat) :
    Inv (hostWrite (locate s.cfg a) v s) := by
  have hbusy : Inv { s with wbusy := true } := Inv.of_sameRead hi rfl
  cases ht : locate s.cfg a with
  | reg r =>
    have hreg : Inv (if isBusy s then { s with wbusy := true } else writeReg v s r) := by
      split
      · exact hbusy
      · exact writeReg_inv hi v r
    cases r with
    | ctrl => exact writeCtrl_inv hi v
    | status => exact writeStatus_inv hi v
    | _ => exact hreg
  | mem m e k =>
    obtain ⟨-, he, -, hk⟩ := locate_eq_mem ht
    have hk4 : 4 * k < entryBytes m := by
      have := Nat.mod_lt (a - windowBase m) (show 0 < entryBytes m by cases m <;> decide)
      have hdiv : entryBytes m % 4 = 0 := by cases m <;> rfl
      omega
    unfold hostWrite
    dsimp only
    split
    · exact hbusy
    · exact writeMem_inv hi v he hk4
  | reserved =>
    unfold hostWrite
    dsimp only
    split
    · exact hbusy
    · exact hi

/-- A host read changes nothing that the invariant reads. -/
theorem hostRead_inv {s : State} (hi : Inv s) (t : Target) : Inv (hostRead t s) := by
  rw [hostRead_eq]; exact Inv.of_sameRead hi rfl

theorem access_inv {s t : State} {a : Access} (hi : Inv s) (h : access a s = .next t) : Inv t := by
  cases a with
  | read addr bytes => obtain ⟨o, -, -, -, rfl⟩ := performAt_next h; exact hostRead_inv hi _
  | write addr bytes v =>
    obtain ⟨o, -, -, -, rfl⟩ := performAt_next (f := fun t => hostWrite t v) h
    exact hostWrite_inv hi v o

/-- A poll reads STATUS and puts SEQ's turn and the next poll in the schedule. -/
theorem poll_inv {s : State} (hi : Inv s) : Inv (poll s) := by
  unfold poll
  dsimp only
  split
  · exact Inv.of_sameRead (hostRead_inv hi (.reg .status)) rfl
  · exact hostRead_inv hi _

/-- Every move keeps the invariant. -/
theorem perform_inv {s t : State} {m : Move} (hi : Inv s) (h : perform m s = .next t) : Inv t := by
  rcases perform_next h with ⟨a, -, ha⟩ | ⟨-, rfl⟩ | ⟨-, hs⟩ | ⟨-, rfl⟩
  · exact access_inv hi ha
  · exact poll_inv hi
  · exact seqStep_inv hi hs
  · exact resetBlock_inv hi.legal

/-- Settles O59: a step is SEQ's or the schedule's next move, and each keeps the invariant. -/
theorem stepKeepsTheInvariant : Obligations.StepKeepsTheInvariant := by
  intro s t hi h
  cases hs : s.schedule with
  | nil => rw [step_nil hs] at h; exact seqStep_inv hi h
  | cons m ms =>
    rw [step_cons hs] at h
    exact perform_inv (Inv.of_sameRead hi rfl) h

end Sys2Proof.Proofs

/-! What one host access to a register or a reserved offset does (10_state.md, 20_memory.md). -/

namespace Sys2Proof.Proofs

open Sys2Proof.Machine Sys2Proof.Safety

/-! ### Reads and writes of a register -/

theorem isBusy_iff (s : State) : isBusy s = true ↔ s.seqState = .busy := by
  simp [isBusy]

/-- What a host read of a register does in either SEQ_STATE (20_memory.md R110, R113). -/
theorem hostReads_reg_eq (s : State) (r : Reg) :
    hostReads (regOffset r) s = .next (if s.seqState = .busy ∧ regOffset r ∈ flightOffsets s then { s with
        hostData := Config.freeWord s.freeCount &&& regMask r
        freeCount := s.freeCount + 1 }
      else { s with hostData := readReg s r }) := by
  rw [hostReads_reg]
  by_cases h : s.seqState = .busy ∧ regOffset r ∈ flightOffsets s <;>
    simp [hostRead, inFlightWrites_reg, h, drawData, returnData]

/-- A read of a register whose field is its low `n` bits and whose value is `v`. -/
theorem hostReads_field (s : State) (r : Reg) (n : Nat) (v : Word) (hm : regMask r = wordOf (2 ^ n - 1))
    (hv : readReg s r = v) :
    hostReads (regOffset r) s = .next (if s.seqState = .busy ∧ regOffset r ∈ flightOffsets s then { s with
        hostData := Config.freeWord s.freeCount &&& wordOf (2 ^ n - 1)
        freeCount := s.freeCount + 1 }
      else { s with hostData := v }) := by
  rw [hostReads_reg_eq, hm, hv]

/-- A register that no command writes reads its value in either SEQ_STATE. -/
theorem hostReads_unwritten (s : State) {r : Reg} (hw : ∀ i, writesReg i r = false)
    (hi : ∀ w, illegalWritesReg w r = false) :
    hostReads (regOffset r) s = .next { s with hostData := readReg s r } := by
  have hf : inFlightWrites s (.reg r) = false := by
    unfold inFlightWrites
    cases decodeWord s.cmd <;> simp [hw, hi]
  rw [hostReads_reg, hostRead, hf, if_neg Bool.false_ne_true, returnData]

/-- While IDLE a register reads its value. -/
theorem hostReads_reg_idle {s : State} (h : s.seqState = .idle) (r : Reg) :
    hostReads (regOffset r) s = .next { s with hostData := readReg s r } := by
  rw [hostReads_reg, hostRead_reg_idle h]

/-- A host write to a register other than CTRL and STATUS (10_state.md R64). -/
theorem hostWrite_reg {r : Reg} (h1 : r ≠ .ctrl) (h2 : r ≠ .status) (v : Word) (s : State) :
    hostWrite (.reg r) v s = if s.seqState = .busy then { s with wbusy := true } else writeReg v s r := by
  have hbody : hostWrite (.reg r) v s = if isBusy s then { s with wbusy := true } else writeReg v s r := by
    cases r with
    | ctrl => exact absurd rfl h1
    | status => exact absurd rfl h2
    | _ => rfl
  simp only [hbody, isBusy_iff]

/-- A register other than CTRL and STATUS written while IDLE. -/
theorem hostWrites_reg_idle {s : State} (h : s.seqState = .idle) {r : Reg} (h1 : r ≠ .ctrl)
    (h2 : r ≠ .status) (v : Word) : hostWrites (regOffset r) v s = .next (writeReg v s r) := by
  rw [hostWrites_reg, hostWrite_reg h1 h2, if_neg (by rw [h]; decide)]

theorem hostWrites_ctrl (s : State) (v : Word) : hostWrites 0x004 v s = .next (writeCtrl v s) :=
  hostWrites_reg s .ctrl v

/-! ### STATUS -/

/-- The bits of STATUS (10_state.md R36). -/
theorem statusWord_getLsbD (s : State) (k : Nat) :
    (statusWord s).getLsbD k =
      if k = 0 then isBusy s else if k = 1 then s.done else if k = 2 then isErr s
      else if k = 3 then s.desync else if k = 4 then s.perr else if k = 5 then s.hcorr
      else if k = 6 then s.wbusy else if k = 7 then false else s.errcode.getLsbD (k - 8) := by
  by_cases hk : k < 8
  · simp only [statusWord, BitVec.getLsbD_append]
    interval_cases k <;> simp
  · simp only [statusWord, BitVec.getLsbD_append, BitVec.getLsbD_zero]
    simp (disch := omega) only [if_neg]
    split
    · congr 1
    · exact (BitVec.getLsbD_of_ge _ _ (by omega)).symm

/-- Settles O16: no command has STATUS in its Writes list, so a read returns its word, and the write is
`writeStatus` in either SEQ_STATE. -/
theorem statusReadsItsFlagsAndClearsByOnes : Obligations.StatusReadsItsFlagsAndClearsByOnes := by
  intro s
  have hbit := statusWord_getLsbD s
  refine ⟨⟨statusWord s, hostReads_unwritten s (r := .status) (fun _ => rfl) (fun _ => rfl), ?_, hbit 1, ?_,
    hbit 3, hbit 4, hbit 5, hbit 6, hbit 7, ?errcode, ?upper⟩, fun v => hostWrites_reg s .status v⟩
  · rw [hbit, ← isBusy_iff]; rfl
  · rw [hbit]; simp [isErr]
  case errcode =>
    refine BitVec.eq_of_getLsbD_eq fun k hk => ?_
    rw [BitVec.getLsbD_extractLsb', hbit]
    simp (disch := omega) only [if_neg]
    simp [hk]
  case upper =>
    refine BitVec.eq_of_getLsbD_eq fun k hk => ?_
    rw [BitVec.getLsbD_extractLsb', hbit]
    simp (disch := omega) only [if_neg]
    rw [BitVec.getLsbD_of_ge _ _ (by omega : 8 ≤ 16 + k - 8), Bool.and_false, BitVec.getLsbD_zero]

/-! ### Registers while IDLE -/

/-- Settles O17: each write is `writeReg` of the register at that offset. -/
theorem registerWritesStoreTheirFields : Obligations.RegisterWritesStoreTheirFields := by
  intro s v h
  have hwrite := fun r h1 h2 => hostWrites_reg_idle h (r := r) h1 h2 v
  simp only [← BitVec.setWidth_eq_extractLsb' (by decide : 11 ≤ 32),
    ← BitVec.setWidth_eq_extractLsb' (by decide : 14 ≤ 32),
    ← BitVec.setWidth_eq_extractLsb' (by decide : 15 ≤ 32),
    ← BitVec.setWidth_eq_extractLsb' (by decide : 6 ≤ 32)]
  have hreadOnly : ∀ r ∈ ([.id, .res0, .res1, .res2, .res3, .symoutLen, .bitoutLen, .rptLen, .codeCount,
      .desyncCnt, .perrCnt, .hcorrCnt, .capHcol, .capHdat, .capChi, .cap0, .cap1, .cap2, .cap3] : List Reg),
      hostWrites (regOffset r) v s = .next s := by
    intro r hr
    rw [hwrite r (by rintro rfl; revert hr; decide) (by rintro rfl; revert hr; decide)]
    cases r <;> first | rfl | exact absurd hr (by decide)
  have hignored := (List.forall_mem_map (f := regOffset)
    (P := fun a => hostWrites a v s = .next s)).2 hreadOnly
  exact ⟨hwrite .arg0 nofun nofun, hwrite .arg1 nofun nofun, hwrite .distCount nofun nofun,
    hwrite .syminLen nofun nofun, hwrite .bitinLen nofun nofun, hwrite .laLen nofun nofun,
    hwrite .laTaps nofun nofun, hwrite .laState nofun nofun, hwrite .lsLen nofun nofun,
    hwrite .lsTaps nofun nofun, hwrite .lsState nofun nofun, hignored⟩

/-! ### Accesses while BUSY -/

/-- Settles O8: CTRL and STATUS are written as usual, any other target only sets WBUSY, and a read changes
nothing of the block. -/
theorem busyWritesAreDropped : Obligations.BusyWritesAreDropped := by
  intro s a v hb ha h4
  refine ⟨?_, (hostRead (locate s.cfg a) s).hostData, (hostRead (locate s.cfg a) s).freeCount, ?_⟩
  · split
    · next hctrl => subst hctrl; exact hostWrites_ctrl s v
    · next hctrl =>
      split
      · next hstatus => subst hstatus; exact hostWrites_reg s .status v
      · next hstatus =>
        rw [hostWrites_eq s v ha h4, hostWrite_busy hb (fun h => hctrl (locate_eq_reg h))
          (fun h => hstatus (locate_eq_reg h))]
  · rw [hostReads_eq s ha h4, ← hostRead_eq]

/-! ### Reserved offsets -/

/-- An offset of the window that is no register's and lies in no entry within capacity is reserved. -/
theorem locate_reserved {c : Config} {a : Nat} (hr : ∀ r, a ≠ regOffset r)
    (hm : ∀ m, inWindow m a = true → capacity c m ≤ (a - windowBase m) / entryBytes m) :
    locate c a = .reserved := by
  cases h : locate c a with
  | reg r => exact absurd (locate_eq_reg h) (hr r)
  | mem m e k =>
    obtain ⟨hw, he, rfl, -⟩ := locate_eq_mem h
    exact absurd (hm m hw) (by omega)
  | reserved => rfl

theorem regOffset_lt (r : Reg) : regOffset r < 0x100 := by cases r <;> decide

/-- The offsets of the registers (10_state.md R32 to R66). -/
theorem regOffset_mem (r : Reg) : regOffset r ∈ [0x000, 0x004, 0x008, 0x00C, 0x010, 0x014, 0x020, 0x024,
    0x028, 0x02C, 0x030, 0x034, 0x038, 0x03C, 0x040, 0x044, 0x048, 0x050, 0x054, 0x058, 0x060, 0x064,
    0x068, 0x070, 0x074, 0x078, 0x0E0, 0x0E4, 0x0EC, 0x0F0, 0x0F4, 0x0F8, 0x0FC] := by
  cases r <;> decide

/-- Settles O18: such an offset is reserved, a read of which returns 0 and a write to which is ignored. -/
theorem reservedOffsetsReadZero : Obligations.ReservedOffsetsReadZero := by
  intro s a ha h4 hranges
  have hloc : locate s.cfg a = .reserved := by
    refine locate_reserved (fun r hr => ?_) (fun m hm => ?_)
    · subst hr
      have := regOffset_lt r
      rcases hranges with ⟨-, hnot⟩ | hrange
      · exact hnot (regOffset_mem r)
      · omega
    · rw [inWindow_iff] at hm
      cases m <;>
        simp only [windowBase, windowBytes, entryBytes, capacity, Config.rptDepth] at hm ⊢ <;> omega
  refine ⟨by rw [hostReads_eq s ha h4, hloc]; rfl, fun v h => ?_⟩
  rw [hostWrites_eq s v ha h4, hloc, hostWrite, isBusy, h]
  rfl

/-! ### Resets -/

/-- A CTRL write with bit 1 = 1 resets the block, as a power-on reset does (70_reset_and_hazards.md R503). -/
theorem softReset_eq (s : State) {v : Word} (hv : v.getLsbD 1 = true) :
    hostWrites 0x004 v s = .next (resetBlock s) := by
  rw [hostWrites_ctrl, writeCtrl, if_pos hv]

/-- Settles O20: both resets are `resetBlock`, and CTRL holds IE alone. -/
theorem resetsClearEveryRegister : Obligations.ResetsClearEveryRegister := by
  intro s
  refine ⟨⟨resetBlock s, does_powerOn s, fun v hv => softReset_eq s hv, rfl, fun e he k hk => ?_, rfl⟩,
    fun v hv => ?_, readReg s .ctrl, hostReads_unwritten s (r := .ctrl) (fun _ => rfl) (fun _ => rfl), ?_, ?_⟩
  · have hin : ∀ j < 4, inWindow .ctab (0x02000 + 16 * e + 4 * k + j) = true := by
      intro j hj
      rw [inWindow_iff]
      simp only [windowBase, windowBytes]
      omega
    exact readWord_ctab_unstored (fun _ _ => rfl) (hin 0 (by omega)) (hin 3 (by omega))
  · rw [hostWrites_ctrl, writeCtrl, hv, if_neg Bool.false_ne_true]
  · cases hie : s.ie <;> simp [readReg, hie]
  · cases hie : s.ie <;> simp [readReg, hie]

/-- The registers that read 0 after a reset (10_state.md R92). -/
def zeroAfterReset : List Reg :=
  [.ctrl, .status, .cmd, .arg0, .arg1, .res0, .res1, .res2, .res3, .distCount, .syminLen, .symoutLen,
    .bitinLen, .bitoutLen, .rptLen, .codeCount, .laLen, .laTaps, .laState, .lsLen, .lsTaps, .lsState,
    .desyncCnt, .perrCnt, .hcorrCnt]

theorem readReg_resetBlock (s : State) {r : Reg} (hr : r ∈ zeroAfterReset) :
    readReg (resetBlock s) r = 0 := by
  cases r with
  | status =>
    have hbusy : isBusy (resetBlock s) = false := rfl
    have herr : isErr (resetBlock s) = false := rfl
    simp [readReg, statusWord, hbusy, herr]
  | ctrl => simp [readReg]
  | _ => first | rfl | exact absurd hr (by decide)

/-- Settles O21: the state after any reset is a `resetBlock`, State.reset too. -/
theorem resetValues : Obligations.ResetValues := by
  intro t ht
  obtain ⟨s, rfl⟩ : ∃ s, t = resetBlock s := by
    rcases ht with rfl | ⟨s, h | h⟩
    · exact ⟨State.reset, rfl⟩
    · rw [does_powerOn] at h; cases h; exact ⟨s, rfl⟩
    · rw [softReset_eq s (by decide)] at h; cases h; exact ⟨s, rfl⟩
  have hzero := (List.forall_mem_map (f := regOffset)
    (P := fun a => hostReads a (resetBlock s) = .next { resetBlock s with hostData := 0 })).2
    fun r hr => by rw [hostReads_reg_idle (s := resetBlock s) rfl r, readReg_resetBlock s hr]
  refine ⟨hzero, hostReads_reg_idle (s := resetBlock s) rfl .id, rfl, rfl, rfl, rfl, rfl,
    fun e _ => ?_⟩
  have hword : (readWord Memory.reset (wordOffset .ctab e 0)).value = 0 := by
    simp [readWord, readByte_reset]
  simp [codeEntry, hword]

/-! ### The capability registers -/

/-- The fields of a register packed from its low bits up, each `2 ^ b` wide. -/
theorem packed_field {b : Nat} {l : List Nat} (hl : ∀ d ∈ l, d < 2 ^ b) (k : Nat) :
    l.foldr (fun d v => d + 2 ^ b * v) 0 / 2 ^ (b * k) % 2 ^ b = l.getD k 0 := by
  induction l generalizing k with
  | nil => simp
  | cons d l ih =>
    have hd : d < 2 ^ b := hl d List.mem_cons_self
    rw [List.foldr_cons]
    cases k with
    | zero => simp [Nat.mod_eq_of_lt hd]
    | succ k =>
      rw [show b * (k + 1) = b + b * k by ring, pow_add, ← Nat.div_div_eq_div_mul,
        Nat.add_mul_div_left _ _ (Nat.two_pow_pos b), Nat.div_eq_of_lt hd, Nat.zero_add,
        ih fun e he => hl e (List.mem_cons_of_mem _ he), List.getD_cons_succ]

theorem packed_lt {b : Nat} {l : List Nat} (hl : ∀ d ∈ l, d < 2 ^ b) :
    l.foldr (fun d v => d + 2 ^ b * v) 0 < 2 ^ (b * l.length) := by
  induction l with
  | nil => simp
  | cons d l ih =>
    have hd : d < 2 ^ b := hl d List.mem_cons_self
    have hrest := ih fun e he => hl e (List.mem_cons_of_mem _ he)
    rw [List.foldr_cons, List.length_cons, Nat.mul_succ, Nat.add_comm (b * _), pow_add]
    calc d + 2 ^ b * _ < 2 ^ b * (l.foldr (fun d v => d + 2 ^ b * v) 0 + 1) := by rw [Nat.mul_succ]; omega
      _ ≤ 2 ^ b * 2 ^ (b * l.length) := Nat.mul_le_mul_left _ hrest

/-- The bits of a register at and beyond those of its value are 0. -/
theorem getLsbD_wordOf_of_lt {n m k : Nat} (h : n < 2 ^ m) (hk : m ≤ k) : (wordOf n).getLsbD k = false := by
  rw [BitVec.getLsbD_ofNat, Nat.testBit_lt_two_pow (h.trans_le (Nat.pow_le_pow_right (by decide) hk)),
    Bool.and_false]

theorem toNat_wordOf_of_lt {n : Nat} (h : n < 2 ^ 32) : (wordOf n).toNat = n := by
  rw [BitVec.toNat_ofNat, Nat.mod_eq_of_lt h]

/-- CAP0 holds PW at [4:0] and TAP_PHASE at [8] (10_state.md R66). -/
theorem cap0_fields {c : Config} (h : c.pw ≤ 21) :
    (cap0 c).toNat % 32 = c.pw ∧ ((cap0 c).getLsbD 8 = true ↔ c.tapPhase = .post) ∧
      ∀ k, 5 ≤ k → k ≠ 8 → (cap0 c).getLsbD k = false := by
  obtain ⟨b, hb, hphase, hcap⟩ : ∃ b, b < 2 ∧ (b.testBit 0 = true ↔ c.tapPhase = .post) ∧
      cap0 c = wordOf (2 ^ 8 * b + c.pw) := by
    rw [cap0, Nat.mod_eq_of_lt (by omega : c.pw < 32), Nat.add_comm]
    cases c.tapPhase
    · exact ⟨0, by decide, by decide, rfl⟩
    · exact ⟨1, by decide, by decide, rfl⟩
  have hbit : ∀ k < 32, (cap0 c).getLsbD k = if k < 8 then c.pw.testBit k else b.testBit (k - 8) := by
    intro k hk
    rw [hcap, BitVec.getLsbD_ofNat, decide_eq_true hk, Bool.true_and,
      Nat.testBit_two_pow_mul_add _ (by omega : c.pw < 2 ^ 8)]
  refine ⟨?_, ?_, fun k h5 h8 => ?_⟩
  · rw [hcap, toNat_wordOf_of_lt (by omega)]; omega
  · rw [hbit 8 (by decide)]; exact hphase
  · by_cases hk : k < 32
    · rw [hbit k hk]
      split
      · exact Nat.testBit_lt_two_pow
          ((by omega : c.pw < 2 ^ 5).trans_le (Nat.pow_le_pow_right (by decide) h5))
      · exact Nat.testBit_lt_two_pow
          ((by omega : b < 2 ^ 1).trans_le (Nat.pow_le_pow_right (by decide) (by omega)))
    · exact BitVec.getLsbD_of_ge _ _ (by omega)

/-- CAP_HCOL holds the columns in fields of three bits (10_state.md R66). -/
theorem capHcol_fields (c : Config) :
    (∀ j, 1 ≤ j → j ≤ 7 → (capHcol c).extractLsb' (3 * j - 3) 3 = c.hamCol j) ∧
      ∀ k, 21 ≤ k → (capHcol c).getLsbD k = false := by
  have hd : ∀ d ∈ c.hamCols.toList.map BitVec.toNat, d < 2 ^ 3 := by
    intro d hmem
    obtain ⟨x, -, rfl⟩ := List.mem_map.1 hmem
    exact x.isLt
  have hcap : capHcol c =
      wordOf ((c.hamCols.toList.map BitVec.toNat).foldr (fun d v => d + 2 ^ 3 * v) 0) := by
    rw [capHcol, List.foldr_map]
    rfl
  have hlt := packed_lt hd
  rw [List.length_map, Vector.length_toList] at hlt
  refine ⟨fun j h1 h7 => ?_, fun k hk => hcap ▸ getLsbD_wordOf_of_lt hlt hk⟩
  apply BitVec.eq_of_toNat_eq
  rw [BitVec.extractLsb'_toNat, hcap, toNat_wordOf_of_lt (hlt.trans (by decide)), Nat.shiftRight_eq_div_pow,
    show 3 * j - 3 = 3 * (j - 1) by omega, packed_field hd, Config.hamCol]
  exact List.getD_map (f := BitVec.toNat) (d := 0) ..

/-- CAP_HDAT holds the data positions in fields of three bits (10_state.md R66). -/
theorem capHdat_fields {c : Config} (h : ∀ j ∈ c.hamDataPos.toList, 1 ≤ j ∧ j ≤ 7) :
    (∀ k < 4, (capHdat c).toNat / 2 ^ (3 * k) % 8 = c.hamDataPos.toList.getD k 0) ∧
      ∀ k, 12 ≤ k → (capHdat c).getLsbD k = false := by
  have hd : ∀ d ∈ c.hamDataPos.toList, d < 2 ^ 3 := fun d hmem => by have := h d hmem; omega
  have hcap : capHdat c = wordOf (c.hamDataPos.toList.foldr (fun d v => d + 2 ^ 3 * v) 0) := by
    rw [capHdat]
    refine congrArg wordOf (List.foldr_ext _ _ _ fun d hmem v => ?_)
    rw [Nat.mod_eq_of_lt (show d < 8 from hd d hmem)]
    rfl
  have hlt := packed_lt hd
  rw [Vector.length_toList] at hlt
  refine ⟨fun k _ => ?_, fun k hk => hcap ▸ getLsbD_wordOf_of_lt hlt hk⟩
  rw [hcap, toNat_wordOf_of_lt (hlt.trans (by decide))]
  exact packed_field hd k

/-- The capability registers (10_state.md R66). -/
def capRegs : List Reg := [.cap0, .cap1, .cap2, .cap3, .capHcol, .capHdat, .capChi]

/-- A capability register is in no command's Writes list, so it reads its value in either SEQ_STATE. -/
theorem hostReads_cap (s : State) {r : Reg} (hr : r ∈ capRegs) :
    hostReads (regOffset r) s = .next { s with hostData := readReg s r } := by
  refine hostReads_unwritten s (fun i => ?_) (fun w => ?_) <;>
    cases r <;> first | rfl | exact absurd hr (by decide)

/-- A write to a capability register stores nothing (10_state.md R64, R66). -/
theorem hostWrites_cap (s : State) (v : Word) {r : Reg} (hr : r ∈ capRegs) :
    hostWrites (regOffset r) v s = .next (if s.seqState = .busy then { s with wbusy := true } else s) := by
  have hkeep : writeReg v s r = s := by cases r <;> first | rfl | exact absurd hr (by decide)
  rw [hostWrites_reg, hostWrite_reg (by rintro rfl; revert hr; decide) (by rintro rfl; revert hr; decide),
    hkeep]

/-- The capability registers of the default parameters (10_state.md R66). -/
theorem readReg_reference {s : State} (h : s.cfg = Config.reference) :
    readReg s .cap0 = 0x00000010#32 ∧ readReg s .cap1 = 64#32 ∧ readReg s .cap2 = 8192#32 ∧
      readReg s .cap3 = 16384#32 ∧ readReg s .capHcol = 0x001DDC54#32 ∧
      readReg s .capHdat = 0x00000FAC#32 ∧ readReg s .capChi = 0x0003D76A#32 := by
  simp only [readReg, h]
  decide

/-- Settles O22: each register's fields, its value on the default parameters, and its writes. -/
theorem capabilityRegistersShowTheParameters : Obligations.CapabilityRegistersShowTheParameters := by
  refine ⟨fun s hl => ?_, fun s hs => ?_, fun s v => ?_⟩
  · obtain ⟨⟨-, hpw⟩, ⟨-, hms⟩, ⟨-, hsd⟩, ⟨-, hbb, -⟩, -, ⟨-, hpos⟩, -, ⟨-, hchi⟩⟩ := hl
    have hread := fun r (hr : r ∈ capRegs) => hostReads_cap s hr
    exact ⟨⟨_, hread .cap0 (by decide), cap0_fields hpw⟩,
      ⟨_, hread .cap1 (by decide), toNat_wordOf_of_lt (by omega)⟩,
      ⟨_, hread .cap2 (by decide), toNat_wordOf_of_lt (by omega)⟩,
      ⟨_, hread .cap3 (by decide), toNat_wordOf_of_lt (by omega)⟩,
      ⟨_, hread .capHcol (by decide), capHcol_fields s.cfg⟩,
      ⟨_, hread .capHdat (by decide), capHdat_fields hpos⟩,
      ⟨_, hread .capChi (by decide), toNat_wordOf_of_lt (by omega)⟩⟩
  · obtain ⟨h0, h1, h2, h3, hcol, hdat, hchi⟩ := readReg_reference hs
    have hread : ∀ (r : Reg) (v : Word), r ∈ capRegs → readReg s r = v →
        hostReads (regOffset r) s = .next { s with hostData := v } :=
      fun r v hr hv => hv ▸ hostReads_cap s hr
    simp only [List.forall_mem_cons]
    exact ⟨hread .cap0 _ (by decide) h0, hread .cap1 _ (by decide) h1, hread .cap2 _ (by decide) h2,
      hread .cap3 _ (by decide) h3, hread .capHcol _ (by decide) hcol, hread .capHdat _ (by decide) hdat,
      hread .capChi _ (by decide) hchi, fun _ h => absurd h List.not_mem_nil⟩
  · exact (List.forall_mem_map (f := regOffset)
      (P := fun a => hostWrites a v s = .next (if s.seqState = .busy then { s with wbusy := true } else s))).2
      fun r hr => hostWrites_cap s v hr

/-! ### When BUSY and IRQ change -/

/-- SEQ_STATE, IE and DONE, on which BUSY and IRQ rest, are as before. -/
abbrev SameBusyIrq (s t : State) : Prop := t.seqState = s.seqState ∧ t.ie = s.ie ∧ t.done = s.done

/-- The host writes of which BUSY or IRQ takes notice; any other changes neither. -/
theorem hostWrite_cases (t : Target) (v : Word) (s : State) :
    (t = .reg .ctrl ∧ hostWrite t v s = writeCtrl v s) ∨
      (t = .reg .status ∧ hostWrite t v s = writeStatus v s) ∨
      (t = .reg .cmd ∧ s.seqState = .idle ∧ hostWrite t v s = issue v s) ∨
      SameBusyIrq s (hostWrite t v s) := by
  cases hs : s.seqState with
  | busy =>
    by_cases hctrl : t = .reg .ctrl
    · subst hctrl; exact .inl ⟨rfl, rfl⟩
    by_cases hstatus : t = .reg .status
    · subst hstatus; exact .inr (.inl ⟨rfl, rfl⟩)
    rw [hostWrite_busy hs hctrl hstatus]
    exact .inr (.inr (.inr ⟨rfl, rfl, rfl⟩))
  | idle =>
    have hb : isBusy s = false := by simp [isBusy, hs]
    cases t with
    | reg r =>
      cases r with
      | ctrl => exact .inl ⟨rfl, rfl⟩
      | status => exact .inr (.inl ⟨rfl, rfl⟩)
      | cmd => exact .inr (.inr (.inl ⟨rfl, rfl, by simp [hostWrite, hb, writeReg]⟩))
      | _ => simp [SameBusyIrq, hostWrite, hb, writeReg]
    | mem m e k =>
      have hmem : SameBusyIrq s (writeMem v s m e k) := by
        unfold writeMem; split <;> exact ⟨rfl, rfl, rfl⟩
      rw [hostWrite, hb]
      exact .inr (.inr (.inr hmem))
    | reserved => simp [SameBusyIrq, hostWrite, hb]

/-- An access of the host that names a register is at that register's address. -/
theorem addr_of_locate {c : Config} {addr a : Nat} {r : Reg} (hw : windowOffset c addr = some a)
    (h : locate c a = .reg r) : addr = c.blockBase + regOffset r := by
  rw [← locate_eq_reg h]
  unfold windowOffset at hw
  split at hw
  · cases hw; omega
  · cases hw

/-- SEQ's move in a state without a command changes nothing; with one in flight it leaves the block as it is
(a hang) or ends the command with DONE, and IE stays. -/
theorem seqStep_busyIrq {s t : State} (h : seqStep s = .next t) :
    t = s ∨ (s.seqState = .busy ∧ t.seqState = .idle ∧ t.done = true ∧ t.ie = s.ie) := by
  rcases seqStep_next h with ⟨-, rfl⟩ | ⟨hb, ⟨i, -, he⟩ | ⟨-, rfl⟩⟩
  · exact .inl rfl
  · have hie : t.ie = s.ie := by rw [exec_listed he]; rfl
    rcases exec_next he with ⟨u, -, rfl⟩ | ⟨c, -, rfl⟩ | ⟨-, rfl⟩
    · exact .inr ⟨hb, rfl, rfl, hie⟩
    · exact .inr ⟨hb, rfl, rfl, hie⟩
    · exact .inl rfl
  · exact .inr ⟨hb, rfl, rfl, rfl⟩

/-- What one move does to BUSY and IRQ, with the events of 10_state.md R37 and 60_exceptions.md R409. -/
inductive BusyIrqEvent (s t : State) : Move → Prop
  | none (m : Move) (h : SameBusyIrq s t) : BusyIrqEvent s t m
  | completion (hb : s.seqState = .busy) (ht : t.seqState = .idle) (hd : t.done = true)
      (hie : t.ie = s.ie) : BusyIrqEvent s t .seq
  | powerOn (h : t = resetBlock s) : BusyIrqEvent s t .powerOn
  | ctrl (v : Word) (h : t = writeCtrl v s) :
      BusyIrqEvent s t (.host (.write (s.cfg.blockBase + 0x004) 4 v))
  | status (v : Word) (h : t = writeStatus v s) :
      BusyIrqEvent s t (.host (.write (s.cfg.blockBase + 0x008) 4 v))
  | cmd (v : Word) (hi : s.seqState = .idle) (h : t = issue v s) :
      BusyIrqEvent s t (.host (.write (s.cfg.blockBase + 0x00C) 4 v))

theorem does_busyIrqEvent {s t : State} {m : Move} (h : does m s = .next t) : BusyIrqEvent s t m := by
  rcases perform_next (s := s) h with ⟨a, rfl, ha⟩ | ⟨rfl, rfl⟩ | ⟨rfl, hs⟩ | ⟨rfl, rfl⟩
  · cases a with
    | read addr bytes =>
      obtain ⟨o, -, -, -, rfl⟩ := performAt_next ha
      refine .none _ ?_
      rw [hostRead_eq]
      exact ⟨rfl, rfl, rfl⟩
    | write addr bytes v =>
      obtain ⟨o, hw, rfl, -, rfl⟩ := performAt_next (f := fun t => hostWrite t v) ha
      rcases hostWrite_cases (locate s.cfg o) v s with ⟨hl, he⟩ | ⟨hl, he⟩ | ⟨hl, hi, he⟩ | hsame
      · rw [addr_of_locate hw hl]; exact .ctrl v he
      · rw [addr_of_locate hw hl]; exact .status v he
      · rw [addr_of_locate hw hl]; exact .cmd v hi he
      · exact .none _ hsame
  · refine .none _ ?_
    unfold poll
    rw [hostRead_status]
    dsimp only
    split <;> exact ⟨rfl, rfl, rfl⟩
  · rcases seqStep_busyIrq hs with rfl | ⟨hb, ht, hd, hie⟩
    · exact .none _ ⟨rfl, rfl, rfl⟩
    · exact .completion hb ht hd hie
  · exact .powerOn rfl

/-- Settles O10: each kind of move that changes BUSY or IRQ is one that the statement names. -/
theorem busyAndIrqChangeOnlyAtTheirEvents : Obligations.BusyAndIrqChangeOnlyAtTheirEvents := by
  intro s t m h
  cases does_busyIrqEvent h with
  | none _ hsame =>
    obtain ⟨hseq, hie, hdone⟩ := hsame
    have hirq : irq t = irq s := by rw [irq, irq, hie, hdone]
    rw [hseq, hirq]
    exact ⟨fun hi hb => absurd (hi.symm.trans hb) (by decide),
      fun hb hi => absurd (hb.symm.trans hi) (by decide),
      fun hf ht => absurd (hf.symm.trans ht) Bool.false_ne_true,
      fun ht hf => absurd (hf.symm.trans ht) Bool.false_ne_true⟩
  | completion hb ht hd hie =>
    refine ⟨fun hs => ?_, fun _ _ => .inl rfl, fun _ _ => .inl ⟨rfl, hb⟩, fun hs hf => ?_⟩
    · rw [hb] at hs; cases hs
    · rw [irq, hd, hie] at hf
      rw [irq, Bool.and_eq_true] at hs
      rw [hs.1] at hf
      cases hf
  | powerOn ht =>
    subst ht
    exact ⟨fun _ hf => (by cases hf), fun _ _ => .inr (.inl rfl), fun _ hf => (by cases hf),
      fun _ _ => .inl (.inl rfl)⟩
  | ctrl v ht =>
    cases hv : v.getLsbD 1 with
    | true =>
      rw [writeCtrl, if_pos hv] at ht
      subst ht
      exact ⟨fun _ hf => (by cases hf), fun _ _ => .inr (.inr ⟨v, rfl, hv⟩), fun _ hf => (by cases hf),
        fun _ _ => .inl (.inr ⟨v, rfl, hv⟩)⟩
    | false =>
      rw [writeCtrl, hv, if_neg Bool.false_ne_true] at ht
      subst ht
      refine ⟨fun hi hb => ?_, fun hb hi => ?_, fun _ hrise => .inr ⟨v, rfl, ?_⟩,
        fun hs hf => .inr (.inl ⟨v, rfl, ?_⟩)⟩
      · exact absurd (hi.symm.trans hb) (by decide)
      · exact absurd (hb.symm.trans hi) (by decide)
      · exact (Bool.and_eq_true_iff.1 hrise).1
      · simp_all [irq]
  | status v ht =>
    subst ht
    refine ⟨fun hi hb => ?_, fun hb hi => ?_, fun hs hrise => ?_,
      fun hs hf => .inr (.inr (.inl ⟨v, rfl, ?_⟩))⟩
    · exact absurd (hi.symm.trans hb) (by decide)
    · exact absurd (hb.symm.trans hi) (by decide)
    · simp_all [irq]
    · simp_all [irq]
  | cmd v hi ht =>
    subst ht
    refine ⟨fun _ _ => ⟨v, rfl, trivial⟩, fun hb => ?_, fun _ hrise => ?_,
      fun _ _ => .inr (.inr (.inr ⟨hi, v, rfl, trivial⟩))⟩
    · exact absurd (hi.symm.trans hb) (by decide)
    · simp [irq] at hrise

end Sys2Proof.Proofs

/-! What one host access to a memory word does (10_state.md R70 to R93). -/

namespace Sys2Proof.Proofs

open Sys2Proof.Machine Sys2Proof.Safety

/-! ### Reads of a memory word -/

/-- The reserved bits of a memory's word are those above its field (10_state.md R71, R80). -/
theorem memMask_getLsbD (m : MemName) {k : Nat} (hk : k < 32) :
    (memMask m).getLsbD k = decide (k < fieldBits m) := by
  have hmask : memMask m = wordOf (2 ^ fieldBits m - 1) := by cases m <;> rfl
  rw [hmask, BitVec.getLsbD_ofNat, Nat.testBit_two_pow_sub_one, decide_eq_true hk, Bool.true_and]

/-- A host read of a memory word that the command in flight does not write (20_memory.md R110, R112). -/
theorem hostReads_mem {s : State} {m : MemName} {a : Nat} (hl : s.cfg.Legal) (hw : WordAt s.cfg m a)
    (hf : ¬ (s.seqState = .busy ∧ FlightWrites s m a)) :
    hostReads a s = .next (if (readWord s.mem a).undef = 0 then returnData (readWord s.mem a).value s
      else drawData (readWord s.mem a).value ((readWord s.mem a).undef &&& memMask m) s) := by
  obtain ⟨hlt, e, k, hloc, hoff⟩ := locate_word hl hw
  have h4 : a % 4 = 0 := hw.1
  have hfree := (inFlightWrites_mem s hloc h4).not.2 hf
  rw [hostReads_eq s hlt h4, hloc, hostRead, if_neg hfree, readMem, hoff]

/-- A word with every bit stored reads back without a draw. -/
theorem hostReads_stored {s : State} {m : MemName} {a : Nat} {w : Word} (hl : s.cfg.Legal)
    (hw : WordAt s.cfg m a) (hi : s.seqState = .idle) (h : readWord s.mem a = { value := w, undef := 0 }) :
    hostReads a s = .next { s with hostData := w } := by
  rw [hostReads_mem hl hw (by rw [hi]; exact fun hb => by cases hb.1), h, if_pos rfl, returnData]

/-- A word that the command in flight does not write reads what memory holds, with a draw for the bits that
nothing has stored (10_state.md R93). -/
theorem readsMemory_of_not_flightWrites {s : State} {m : MemName} {a : Nat} (hl : s.cfg.Legal)
    (hw : WordAt s.cfg m a) (hf : ¬ (s.seqState = .busy ∧ FlightWrites s m a)) : ReadsMemory s m a := by
  have hread := hostReads_mem hl hw hf
  unfold ReadsMemory
  dsimp only
  generalize readWord s.mem a = w at hread ⊢
  by_cases hu : w.undef = 0
  · rw [if_pos hu] at hread
    exact ⟨w.value, by rw [hread, if_pos hu, returnData], fun k _ => by simp [hu]⟩
  · rw [if_neg hu] at hread
    refine ⟨_, by rw [hread, if_neg hu, drawData], fun k hk => ?_⟩
    simp only [BitVec.getLsbD_or, BitVec.getLsbD_and, BitVec.getLsbD_not, memMask_getLsbD m hk, hk,
      decide_true, Bool.true_and]
    cases w.undef.getLsbD k && decide (k < fieldBits m) <;> simp

/-- A word that the command in flight writes reads as a draw of the whole word: no command writes DIST or
SYMIN, whose words alone have reserved bits (20_memory.md R113). -/
theorem hostReads_mem_inFlight {s : State} {m : MemName} {a : Nat} (hl : s.cfg.Legal) (hw : WordAt s.cfg m a)
    (hb : s.seqState = .busy) (hf : FlightWrites s m a) :
    hostReads a s = .next { s with
      hostData := Config.freeWord s.freeCount
      freeCount := s.freeCount + 1 } := by
  obtain ⟨hlt, e, k, hloc, -⟩ := locate_word hl hw
  have h4 : a % 4 = 0 := hw.1
  have hmask : memMask m = BitVec.allOnes 32 := by
    obtain ⟨hm, -⟩ := hf
    unfold flightMems at hm
    split at hm
    · next i _ =>
      obtain ⟨hd, hs⟩ := host_memories_not_written i
      cases m with
      | dist => exact absurd hm hd
      | symin => exact absurd hm hs
      | _ => rfl
    · cases hm
  rw [hostReads_eq s hlt h4, hloc, hostRead, if_pos ((inFlightWrites_mem s hloc h4).2 ⟨hb, hf⟩), drawData]
  simp only [hmask, BitVec.and_allOnes, BitVec.ofNat_eq_ofNat, BitVec.zero_and, BitVec.zero_or]

/-- Settles O15: a register reads by `hostReads_field`, a memory word as the command in flight lets it. -/
theorem registerReadsReturnTheirValues : Obligations.RegisterReadsReturnTheirValues := by
  intro s
  refine ⟨?_, fun hb hl m a hw => ⟨fun hf => hostReads_mem_inFlight hl hw hb hf,
    fun hf => readsMemory_of_not_flightWrites hl hw fun h => hf h.2⟩⟩
  have hread := hostReads_field s
  have hie : readReg s .ctrl = if s.ie then 1#32 else 0#32 := by cases h : s.ie <;> simp [readReg, h]
  have hw : ∀ {n : Nat} (x : BitVec n), x.setWidth 32 = wordOf x.toNat :=
    fun x => (BitVec.ofNat_toNat 32 x).symm
  simp only [List.forall_mem_cons]
  exact ⟨hread .id 32 _ rfl rfl, hread .ctrl 1 _ rfl hie, hread .cmd 32 _ rfl rfl, hread .arg0 32 _ rfl rfl,
    hread .arg1 32 _ rfl rfl, hread .res0 32 _ rfl rfl, hread .res1 32 _ rfl rfl, hread .res2 32 _ rfl rfl,
    hread .res3 32 _ rfl rfl, hread .distCount 11 _ rfl (hw _), hread .syminLen 14 _ rfl (hw _),
    hread .symoutLen 14 _ rfl (hw _), hread .bitinLen 15 _ rfl (hw _), hread .bitoutLen 15 _ rfl (hw _),
    hread .rptLen 15 _ rfl (hw _), hread .codeCount 11 _ rfl (hw _), hread .laLen 6 _ rfl (hw _),
    hread .laTaps 32 _ rfl rfl, hread .laState 32 _ rfl rfl, hread .lsLen 6 _ rfl (hw _),
    hread .lsTaps 32 _ rfl rfl, hread .lsState 32 _ rfl rfl, hread .desyncCnt 15 _ rfl (hw _),
    hread .perrCnt 15 _ rfl (hw _), hread .hcorrCnt 15 _ rfl (hw _), fun _ h => absurd h List.not_mem_nil⟩

/-! ### Writes of a memory word while IDLE -/

/-- The words of entries within capacity stand where the memory map says (10_state.md R70). -/
theorem wordAt_wordOffset {c : Config} {m : MemName} {e k : Nat} (he : e < capacity c m)
    (hk : 4 * k < entryBytes m) : WordAt c m (wordOffset m e k) := by
  cases m <;> simp only [capacity, entryBytes, Config.rptDepth] at he hk <;>
    simp [WordAt, memoryMap, wordOffset, windowBase, entryBytes] <;> omega

/-- What a host write to a word of DIST, SYMIN or BITIN does while IDLE, and what the word then reads. -/
theorem hostWrites_entry {s : State} {m : MemName} {mask : Word} {e : Nat} (hi : s.seqState = .idle)
    (hl : s.cfg.Legal) (hm : writeMask m = some mask) (he : e < capacity s.cfg m) (v : Word) :
    ∃ t, hostWrites (wordOffset m e 0) v s = .next t ∧ t = { s with mem := t.mem } ∧
      t.mem = storeWord s.mem (wordOffset m e 0) (v &&& mask) ∧
      SameOutside s.mem t.mem (wordOffset m e 0) 4 ∧
      hostReads (wordOffset m e 0) t = .next { t with hostData := v &&& mask } := by
  have hword : WordAt s.cfg m (wordOffset m e 0) := wordAt_wordOffset he (by cases m <;> decide)
  obtain ⟨hlt, e', k', hloc, hoff⟩ := locate_word hl hword
  have h4 : wordOffset m e 0 % 4 = 0 := hword.1
  have hidle : isBusy s = false := by simp [isBusy, hi]
  refine ⟨{ s with mem := storeWord s.mem (wordOffset m e 0) (v &&& mask) }, ?_, rfl, rfl, fun b hb => ?_, ?_⟩
  · rw [hostWrites_eq s v hlt h4, hloc, hostWrite, hidle, if_neg Bool.false_ne_true, writeMem_eq hm, hoff]
  · rw [readByte_storeWord, if_neg (by omega), if_neg (by omega), if_neg (by omega), if_neg (by omega)]
  · exact hostReads_stored hl hword hi (readWord_storeWord_same ..)

/-- The bits of a stored word, most significant first, are the positions of the word in a bit buffer
(10_state.md R83). -/
theorem readBit_storeWord (M : Memory) (base q : Nat) (v : Word) {k : Nat} (hk : k < 32) :
    readBit (storeWord M (base + 4 * q) v) base (32 * q + k) = some (v.getLsbD (31 - k)) := by
  have hbyte : ∀ j < 4, readByte (storeWord M (base + 4 * q) v) (base + 4 * q + j) =
      { value := v.extractLsb' (8 * j) 8, undef := 0 } := by
    intro j hj
    rw [readByte_storeWord]
    interval_cases j <;> simp
  have hplace : bitByte base (32 * q + k) = base + 4 * q + (3 - k / 8) := by unfold bitByte; omega
  rw [readBit, hplace, hbyte _ (by omega), if_neg (by simp), BitVec.getLsbD_extractLsb',
    decide_eq_true (bitPlace_lt _), Bool.true_and]
  refine congrArg (fun n => some (v.getLsbD n)) ?_
  unfold bitPlace
  omega

/-- A host write in a window whose memory the host cannot write changes nothing while IDLE (10_state.md R70,
R79). -/
theorem hostWrites_readOnly {s : State} {a : Nat} (hi : s.seqState = .idle) (ha : 0x100 ≤ a)
    (hlt : a < 0x80000) (h4 : a % 4 = 0) (hm : ∀ m, inWindow m a = true → writeMask m = none) (v : Word) :
    hostWrites a v s = .next s := by
  have hidle : isBusy s = false := by simp [isBusy, hi]
  rw [hostWrites_eq s v hlt h4]
  cases hloc : locate s.cfg a with
  | reg r =>
    have := regOffset_lt r
    have := locate_eq_reg hloc
    omega
  | mem m e k =>
    obtain ⟨hin, -⟩ := locate_eq_mem hloc
    rw [hostWrite, hidle, if_neg Bool.false_ne_true, writeMem, hm m hin]
  | reserved => rw [hostWrite, hidle, if_neg Bool.false_ne_true]

/-- A field stored through its mask is the word's low bits. -/
theorem mod_of_masked {v mask : Word} {n : Nat} (h : mask.toNat = 2 ^ n - 1) :
    (v &&& mask).toNat % 2 ^ n = v.toNat % 2 ^ n := by
  rw [BitVec.toNat_and, h, Nat.and_two_pow_sub_one_eq_mod, Nat.mod_mod]

/-- Settles O19: the three memories that the host writes store the word through their mask, the others ignore
it, and a read while IDLE returns what memory holds. -/
theorem hostMemoryWritesStoreTheirEntry : Obligations.HostMemoryWritesStoreTheirEntry := by
  intro s v hi hl
  refine ⟨fun i hlt => ?dist, fun j hlt => ?symin, fun w hlt => ?bitin, fun a h4 ha => ?ignored,
    fun m a hw => readsMemory_of_not_flightWrites hl hw (by rw [hi]; exact fun hb => by cases hb.1)⟩
  case dist =>
    obtain ⟨t, hwrite, hframe, hmem, hsame, hread⟩ := hostWrites_entry hi hl (m := .dist) rfl hlt v
    refine ⟨t, hwrite, hframe, hsame, ?_, hread⟩
    rw [distEntry, hmem, readWord_storeWord_same]
    exact congrArg some (mod_of_masked (by decide))
  case symin =>
    obtain ⟨t, hwrite, hframe, hmem, hsame, hread⟩ := hostWrites_entry hi hl (m := .symin) rfl hlt v
    refine ⟨t, hwrite, hframe, hsame, ?_, hread⟩
    rw [syminEntry, hmem, readWord_storeWord_same]
    exact congrArg some (mod_of_masked (by decide))
  case bitin =>
    obtain ⟨t, hwrite, hframe, hmem, hsame, hread⟩ := hostWrites_entry hi hl (m := .bitin) rfl hlt v
    have hall : v &&& (0xFFFFFFFF : Word) = v := BitVec.and_allOnes
    refine ⟨t, hwrite, hframe, hsame, fun k hk => ?_, ?_⟩
    · rw [hmem, hall]; exact readBit_storeWord s.mem 0x18000 w v hk
    · rw [hall] at hread; exact hread
  case ignored =>
    refine hostWrites_readOnly hi (by omega) (by omega) h4 (fun m hm => ?_) v
    rw [inWindow_iff] at hm
    cases m <;> first | rfl | (simp only [windowBase, windowBytes] at hm; omega)

end Sys2Proof.Proofs

/-! A command's result does not depend on IE, WBUSY, CMD or the host's own fields (20_memory.md R111,
R119). -/

namespace Sys2Proof.Proofs

open Sys2Proof.Machine Sys2Proof.Safety

/-! ### The fields on the host's side -/

/-- The fields that belong to the host's side: IE, WBUSY and CMD, and the model's own fields of the port and
the schedule. -/
structure HostSide where
  ie : Bool
  wbusy : Bool
  cmd : Word
  hostData : Word
  freeCount : Nat
  schedule : List Move

/-- The state `s` with its host's side replaced by `h`. -/
def HostSide.on (h : HostSide) (s : State) : State :=
  { s with
    ie := h.ie
    wbusy := h.wbusy
    cmd := h.cmd
    hostData := h.hostData
    freeCount := h.freeCount
    schedule := h.schedule }

/-- What pseudocode answers, with `f` applied to the state it reaches. -/
def mapEnd (f : State → State) : Attempt State → Attempt State
  | .ok u => .ok (f u)
  | .raise c => .raise c
  | .fault x => .fault x
  | .hang => .hang

/-- Pseudocode that first raises where a check fails commutes with `f` where the rest of it does. The check
reads either state, so the two sides may bring different proofs that it is decidable. -/
theorem mapEnd_check {p : Prop} {dp dp' : Decidable p} {f : State → State} {c : ErrCode}
    {r r' : Attempt State} (hr : r' = mapEnd f r) :
    @ite _ p dp' (.raise c) r' = mapEnd f (@ite _ p dp (.raise c) r) := by
  by_cases hp : p
  · rw [if_pos hp, if_pos hp]; rfl
  · rw [if_neg hp, if_neg hp]; exact hr

section HostSide

variable (h : HostSide) (s : State)

/-! ### What a command reads of a state has no part on the host's side -/

@[simp] theorem HostSide.on_cfg : (h.on s).cfg = s.cfg := rfl
@[simp] theorem HostSide.on_distCount : (h.on s).distCount = s.distCount := rfl
@[simp] theorem HostSide.on_syminLen : (h.on s).syminLen = s.syminLen := rfl
@[simp] theorem HostSide.on_bitinLen : (h.on s).bitinLen = s.bitinLen := rfl
@[simp] theorem HostSide.on_bitoutLen : (h.on s).bitoutLen = s.bitoutLen := rfl
@[simp] theorem HostSide.on_lfsrA : (h.on s).lfsrA = s.lfsrA := rfl
@[simp] theorem HostSide.on_lfsrS : (h.on s).lfsrS = s.lfsrS := rfl
@[simp] theorem bitCount_on : bitCount (h.on s) = bitCount s := rfl
@[simp] theorem distEntry_on (i : Nat) : distEntry (h.on s) i = distEntry s i := rfl
@[simp] theorem syminEntry_on (j : Nat) : syminEntry (h.on s) j = syminEntry s j := rfl
@[simp] theorem codeEntry_on (t : Nat) : codeEntry (h.on s) t = codeEntry s t := rfl
@[simp] theorem matchable_on (n : Nat) : matchable (h.on s) n = matchable s n := rfl
@[simp] theorem bufferBits_on (m : MemName) (n : Nat) : bufferBits (h.on s) m n = bufferBits s m n := rfl

@[simp] theorem lfsrOf_on (k : LfsrUnit) : lfsrOf (h.on s) k = lfsrOf s k := by cases k <;> rfl

@[simp] theorem sourceLen_on (b : BitSource) : sourceLen (h.on s) b = sourceLen s b := by cases b <;> rfl

@[simp] theorem readDist_on (n i : Nat) : readDist (h.on s) n i = readDist s n i := by
  induction n generalizing i with
  | zero => rfl
  | succ n ih => simp only [readDist, distEntry_on, HostSide.on_cfg, ih]

@[simp] theorem encodeFrom_on (n j : Nat) (out : Bits) :
    encodeFrom (h.on s) n j out = encodeFrom s n j out := by
  induction n generalizing j out with
  | zero => rfl
  | succ n ih =>
    simp only [encodeFrom, syminEntry_on, codeEntry_on, HostSide.on_cfg, ih]
    rfl

@[simp] theorem hencsFrom_on (n j : Nat) (out : Bits) : hencsFrom (h.on s) n j out = hencsFrom s n j out := by
  induction n generalizing j out with
  | zero => rfl
  | succ n ih => simp only [hencsFrom, syminEntry_on, HostSide.on_cfg, ih]

theorem setLfsrState_on (k : LfsrUnit) (v : Nat) :
    setLfsrState k v (h.on s) = h.on (setLfsrState k v s) := by cases k <;> rfl

/-! ### What a command answers carries the host's side along -/

/-- The pseudocode of a command goes the same way from any host's side and leaves it as it is. -/
theorem runOf_on (i : Instr) : runOf i (h.on s) = mapEnd h.on (runOf i s) := by
  cases i with
  | nop => rfl
  | hdecb => rfl
  | build =>
    simp only [runOf, runBuild, readDist_on, HostSide.on_cfg, HostSide.on_distCount]
    refine mapEnd_check ?_
    cases readDist s s.distCount.toNat 0 <;> rfl
  | encode =>
    simp only [runOf, runEncode, encodeFrom_on, HostSide.on_cfg, HostSide.on_syminLen]
    refine mapEnd_check ?_
    cases encodeFrom s s.syminLen.toNat 0 [] <;> rfl
  | decode =>
    simp only [runOf, runDecode, bufferBits_on, matchable_on, HostSide.on_cfg, HostSide.on_bitinLen]
    refine mapEnd_check ?_
    cases bufferBits s .bitin s.bitinLen.toNat with
    | ok x =>
      dsimp only
      cases decodeFrom s.cfg.symbufDepth (matchable s s.cfg.maxSym) x.length 0 0 x <;> rfl
    | _ => rfl
  | addpar => exact mapEnd_check rfl
  | stripchk => exact mapEnd_check (mapEnd_check rfl)
  | henc => exact mapEnd_check rfl
  | hencs =>
    simp only [runOf, runHencs, hencsFrom_on, HostSide.on_cfg, HostSide.on_syminLen]
    refine mapEnd_check ?_
    cases hencsFrom s s.syminLen.toNat 0 [] <;> rfl
  | hdec =>
    simp only [runOf, runHdec, bufferBits_on, HostSide.on_cfg, HostSide.on_bitinLen]
    refine mapEnd_check (mapEnd_check (mapEnd_check ?_))
    cases bufferBits s .bitin s.bitinLen.toNat <;> rfl
  | lstep k =>
    simp only [runOf, runLstep, lfsrOf_on, HostSide.on_cfg, setLfsrState_on]
    exact mapEnd_check rfl
  | lgen k =>
    simp only [runOf, runLgen, lfsrOf_on, bitCount_on, HostSide.on_cfg, setLfsrState_on]
    exact mapEnd_check (mapEnd_check rfl)
  | sggen =>
    simp only [runOf, runSggen, bitCount_on, HostSide.on_cfg, HostSide.on_lfsrA, HostSide.on_lfsrS]
    refine mapEnd_check (mapEnd_check (mapEnd_check ?_))
    split <;> rfl
  | chisq b =>
    simp only [runOf, runChisq, sourceLen_on, bufferBits_on, HostSide.on_cfg]
    refine mapEnd_check (mapEnd_check ?_)
    cases bufferBits s (sourceMem b) (sourceLen s b) <;> rfl
  | period b =>
    simp only [runOf, runPeriod, sourceLen_on, bufferBits_on, HostSide.on_cfg]
    refine mapEnd_check ?_
    cases bufferBits s (sourceMem b) (sourceLen s b) <;> rfl
  | bcopy =>
    simp only [runOf, runBcopy, bufferBits_on, HostSide.on_bitoutLen]
    cases bufferBits s .bitout s.bitoutLen.toNat <;> rfl

theorem fail_on (i : Instr) (c : ErrCode) : fail i c (h.on s) = h.on (fail i c s) := by cases i <;> rfl

/-- The completion step from another host's side. -/
theorem conclude_on {i : Instr} {r : Attempt State} {t : State} (hr : conclude i s r = .next t) :
    conclude i (h.on s) (mapEnd h.on r) = .next (h.on t) := by
  rcases conclude_next hr with ⟨u, rfl, rfl⟩ | ⟨c, rfl, rfl⟩ | ⟨rfl, rfl⟩
  · rfl
  · exact congrArg Host.Outcome.next (fail_on h s i c)
  · rfl

/-- A command that answers a next state answers the same one from another host's side. -/
theorem exec_on {i : Instr} {t : State} (ht : exec i s = .next t) :
    exec i (h.on s) = .next (h.on t) := by
  rw [exec_eq_conclude] at ht ⊢
  rw [runOf_on]
  exact conclude_on h s ht

end HostSide

/-- Settles O58: pseudocode and completion commute with replacing the host's side. -/
theorem resultsIgnoreTheHostsSide : Obligations.ResultsIgnoreTheHostsSide := by
  intro i s t ie wbusy cmd data n ms h
  exact exec_on ⟨ie, wbusy, cmd, data, n, ms⟩ s h

end Sys2Proof.Proofs

/-! The bytes that a command may change (20_memory.md R118, 41_prefix_coder.md R233). -/

namespace Sys2Proof.Proofs

open Sys2Proof.Machine Sys2Proof.Safety

/-! ### The shared writes stay in their windows -/

section Windows

variable {s : State} {a : Nat}

theorem readByte_writeBitout_outside {out : Bits} (hl : out.length ≤ 16384)
    (ha : inWindow .bitout a = false) :
    readByte (writeBitout out s).mem a = readByte s.mem a := by
  obtain ⟨-, -, -, hsame⟩ := writeBitout_writes out s (by omega)
  exact hsame a (outside_of_le ha (by simp only [wordBytes, windowBytes]; omega))

theorem readByte_writeRecords_outside {syms : List Nat} {recs : List Record} (hs : syms.length ≤ 8192)
    (hr : recs.length ≤ 16384) (hsym : inWindow .symout a = false) (hrpt : inWindow .rpt a = false) :
    readByte (writeRecords syms recs s).mem a = readByte s.mem a := by
  obtain ⟨-, -, -, -, hsame⟩ := writeRecords_writes syms recs s hs (by omega)
  exact hsame a (outside_of_le hsym (by simp only [windowBytes]; omega))
    (outside_of_le hrpt (by simp only [windowBytes]; omega))

theorem readByte_writeTable_outside {codes : List (Nat × CodeEntry)} (hc : ∀ c ∈ codes, c.1 < 1024)
    (ha : inWindow .ctab a = false) : readByte (writeTable codes s).mem a = readByte s.mem a := by
  rw [writeTable_mem, readByte_storeCodes_outside _ _ fun c hmem => ?_, readByte_forget_outside _ _ ha]
  have hlt := hc c hmem
  have hout := outside_of_le ha (k := 0x4000) (le_refl _)
  simp only [windowBase] at hout
  omega

theorem readByte_storeBits_bitin_outside (m : Memory) {x : Bits} (hl : x.length ≤ 16384)
    (ha : inWindow .bitin a = false) : readByte (storeBits m (windowBase .bitin) 0 x) a = readByte m a := by
  refine readByte_storeBits_outside _ _ _ _ fun j _ hj => ?_
  have hbyte := bitByte_in_words (base := windowBase .bitin) (q := 512) (k := j) (by omega)
  have hout := outside_of_le ha (k := 0x800) (le_refl _)
  omega

end Windows

/-! ### A command changes no byte outside the windows of the memories it writes -/

theorem bitin_mem_writtenMems (i : Instr) : .bitin ∈ writtenMems i ↔ i = .bcopy := by
  cases i <;> simp [writtenMems]

section Commands

variable {i : Instr} {s t u : State} {a : Nat}

theorem runOf_ok_readByte_outside (hl : s.cfg.Legal) (hb : s.bitoutLen.toNat ≤ s.cfg.bitbufBits)
    (h : runOf i s = .ok u) (ha : ∀ m ∈ writtenMems i, inWindow m a = false) :
    readByte u.mem a = readByte s.mem a := by
  obtain ⟨-, ⟨-, hms⟩, ⟨-, hsd⟩, ⟨-, hbb, -⟩, -⟩ := hl
  cases runOf_ok_stored h with
  | nothing _ hm => rw [hm]
  | bits out hw hlen hm _ =>
    rw [hm]
    exact readByte_writeBitout_outside (by omega) (ha _ (by simp [hw]))
  | records syms recs hw hs hr hm _ _ =>
    rw [hm]
    exact readByte_writeRecords_outside (by omega) (by omega) (ha _ (by simp [hw])) (ha _ (by simp [hw]))
  | table dist hi hc hd hu =>
    rw [hu]
    refine readByte_writeTable_outside (fun c hcodes => ?_) (ha _ ((ctab_mem_writtenMems i).2 hi))
    have hsym := ((codesOf_entries hd).2 c hcodes).1
    omega
  | copy x hi hlen hm =>
    rw [hm]
    exact readByte_storeBits_bitin_outside _ (by omega) (ha _ ((bitin_mem_writtenMems i).2 hi))

theorem fail_readByte_outside (c : ErrCode) (ha : ∀ m ∈ writtenMems i, inWindow m a = false) :
    readByte (fail i c s).mem a = readByte s.mem a :=
  fail_readByte i c s (fun hp => ha _ ((bitout_mem_writtenMems i).2 hp))
    (fun hp => ⟨ha _ ((symout_mem_writtenMems i).2 hp), ha _ ((rpt_mem_writtenMems i).2 hp)⟩)
    (fun hp => ha _ ((ctab_mem_writtenMems i).2 hp))

/-- A byte that a command changes lies in the window of a memory it writes. -/
theorem exec_changed_inWindow (hl : s.cfg.Legal) (hb : s.bitoutLen.toNat ≤ s.cfg.bitbufBits)
    (h : exec i s = .next t) (hne : readByte t.mem a ≠ readByte s.mem a) :
    ∃ m ∈ writtenMems i, inWindow m a = true := by
  by_contra hnone
  have ha : ∀ m ∈ writtenMems i, inWindow m a = false := fun m hm => by
    simpa using fun hin => hnone ⟨m, hm, hin⟩
  refine hne ?_
  rcases exec_next h with ⟨u, hu, rfl⟩ | ⟨c, -, rfl⟩ | ⟨-, rfl⟩
  · rw [complete_mem]; exact runOf_ok_readByte_outside hl hb hu ha
  · exact fail_readByte_outside c ha
  · rfl

end Commands

/-- Settles O56: the changed byte's window is one of `writtenMems`, which are those of each clause. -/
theorem commandsWriteOnlyTheirMemories : Obligations.CommandsWriteOnlyTheirMemories := by
  intro i s t hl hb h a hne
  obtain ⟨m, hm, hin⟩ := exec_changed_inWindow hl hb h hne
  cases m with
  | ctab => exact .inl ⟨(ctab_mem_writtenMems i).1 hm, hin⟩
  | bitout => exact .inr (.inl ⟨(producesBits_iff i).1 ((bitout_mem_writtenMems i).1 hm), hin⟩)
  | symout =>
    exact .inr (.inr (.inl ⟨(producesRecords_iff i).1 ((symout_mem_writtenMems i).1 hm), .inl hin⟩))
  | rpt =>
    exact .inr (.inr (.inl ⟨(producesRecords_iff i).1 ((rpt_mem_writtenMems i).1 hm), .inr hin⟩))
  | bitin => exact .inr (.inr (.inr ⟨(bitin_mem_writtenMems i).1 hm, hin⟩))
  | dist => exact absurd hm (host_memories_not_written i).1
  | symin => exact absurd hm (host_memories_not_written i).2

end Sys2Proof.Proofs

/-! Which accesses of the host the port performs (20_memory.md R102, 70_reset_and_hazards.md R516). -/

namespace Sys2Proof.Proofs

open Sys2Proof.Machine Sys2Proof.Safety

theorem windowOffset_eq_some_iff (c : Config) (addr a : Nat) :
    windowOffset c addr = some a ↔
      c.blockBase ≤ addr ∧ addr < c.blockBase + 0x80000 ∧ addr - c.blockBase = a := by
  unfold windowOffset windowSize
  split
  · next hin => simp [hin]
  · next hout => exact ⟨nofun, fun ⟨hlo, hhi, _⟩ => absurd ⟨hlo, hhi⟩ hout⟩

/-- An access is admitted: with parameters `c` its first byte lies in the block's window, at an aligned
offset, and it is 32 bits wide (log entry 15). -/
abbrev Admitted (c : Config) (addr bytes : Nat) : Prop :=
  c.blockBase ≤ addr ∧ addr < c.blockBase + 0x80000 ∧ bytes = 4 ∧ (addr - c.blockBase) % 4 = 0

/-- The port performs an access or refuses it; it never faults. -/
theorem performAt_next_or_refused (addr bytes : Nat) (f : Target → State → State) (s : State) :
    Continues (performAt addr bytes f s) ∨ ∃ r, performAt addr bytes f s = .refused r := by
  unfold performAt
  split
  · exact .inr ⟨_, rfl⟩
  · split
    · exact .inr ⟨_, rfl⟩
    · split
      · exact .inr ⟨_, rfl⟩
      · exact .inl ⟨_, rfl⟩

/-- The port performs exactly the admitted accesses. -/
theorem performAt_continues_iff (addr bytes : Nat) (f : Target → State → State) (s : State) :
    Continues (performAt addr bytes f s) ↔ Admitted s.cfg addr bytes := by
  constructor
  · rintro ⟨t, h⟩
    obtain ⟨a, hw, hbytes, h4, -⟩ := performAt_next h
    obtain ⟨hlo, hhi, rfl⟩ := (windowOffset_eq_some_iff ..).1 hw
    exact ⟨hlo, hhi, hbytes, h4⟩
  · rintro ⟨hlo, hhi, rfl, h4⟩
    exact ⟨_, performAt_ok ((windowOffset_eq_some_iff ..).2 ⟨hlo, hhi, rfl⟩) h4⟩

theorem performAt_refused {addr bytes : Nat} {f : Target → State → State} {s : State}
    (h : ¬ Admitted s.cfg addr bytes) : ∃ r, performAt addr bytes f s = .refused r :=
  (performAt_next_or_refused addr bytes f s).resolve_left ((performAt_continues_iff ..).not.2 h)

/-- Settles O23: reads and writes are admitted by the one test of the port. -/
theorem refusedAccesses : Obligations.RefusedAccesses := by
  intro s addr bytes v
  exact ⟨fun h => ⟨(performAt_continues_iff addr bytes (fun t => hostWrite t v) s).2 h,
      (performAt_continues_iff addr bytes hostRead s).2 h⟩,
    fun h => ⟨performAt_refused (f := fun t => hostWrite t v) h, performAt_refused (f := hostRead) h⟩⟩

end Sys2Proof.Proofs

/-! The opcode map: which word decodes to each command, and which check turns the other words away
(30_encoding.md R134 to R138, R145, R153). -/

namespace Sys2Proof.Proofs

open Sys2Proof.Machine Sys2Proof.Safety

/-! ### The fields of a word -/

/-- The three fields of the format `CMD32` make up the whole word (30_encoding.md R130). -/
theorem append_fieldsOf (w : Word) :
    (fieldsOf w).rsv ++ BitVec.ofBool (fieldsOf w).u ++ (fieldsOf w).opc = w := by
  refine BitVec.eq_of_getLsbD_eq fun k hk => ?_
  simp only [fieldsOf, BitVec.getLsbD_append, BitVec.getLsbD_extractLsb', BitVec.getLsbD_ofBool]
  by_cases hopc : k < 8
  · simp [hopc]
  · by_cases hu : k = 8
    · simp [hu]
    · rw [if_neg hopc, if_neg (by omega), show 9 + (k - 8 - 1) = k by omega,
        decide_eq_true (by omega : k - 8 - 1 < 23), Bool.true_and]

theorem fieldsOf_injective : Function.Injective fieldsOf := fun w v h => by
  rw [← append_fieldsOf w, h, append_fieldsOf]

/-- The fields of a command's own word (30_encoding.md R153). -/
theorem fieldsOf_encode (i : Instr) :
    fieldsOf (encode i) = { opc := opcodeOf i, u := unitBitOf i, rsv := 0 } := by
  have hfields : Laws.EncodeFields.Statement i :=
    match i with
    | .nop => Laws.EncodeFields.nop
    | .build => Laws.EncodeFields.build
    | .encode => Laws.EncodeFields.encode
    | .decode => Laws.EncodeFields.decode
    | .addpar => Laws.EncodeFields.addpar
    | .stripchk => Laws.EncodeFields.stripchk
    | .henc => Laws.EncodeFields.henc
    | .hencs => Laws.EncodeFields.hencs
    | .hdec => Laws.EncodeFields.hdec
    | .hdecb => Laws.EncodeFields.hdecb
    | .lstep u => Laws.EncodeFields.lstep u
    | .lgen u => Laws.EncodeFields.lgen u
    | .sggen => Laws.EncodeFields.sggen
    | .chisq b => Laws.EncodeFields.chisq b
    | .period b => Laws.EncodeFields.period b
    | .bcopy => Laws.EncodeFields.bcopy
  obtain ⟨hopc, hu, hwf⟩ := hfields
  have hrsv : (fieldsOf (encode i)).rsv = 0 := by
    simp only [CmdFields.wf, CmdFields.rsvOk, Bool.and_eq_true, beq_iff_eq] at hwf
    obtain ⟨⟨hrsv, -⟩, -⟩ := hwf
    exact hrsv
  rw [← hopc, ← hu, ← hrsv]

/-- A word is the command's own exactly when its opcode, its U bit and its reserved bits are. -/
theorem eq_encode_iff (w : Word) (i : Instr) :
    w = encode i ↔
      (fieldsOf w).rsv = 0 ∧ (fieldsOf w).opc = opcodeOf i ∧ (fieldsOf w).u = unitBitOf i := by
  rw [← fieldsOf_injective.eq_iff, fieldsOf_encode]
  constructor
  · intro h
    rw [h]
    exact ⟨rfl, rfl, rfl⟩
  · rintro ⟨hrsv, hopc, hu⟩
    rw [← hrsv, ← hopc, ← hu]

/-! ### The opcode map -/

/-- An opcode and a U bit select a command exactly when they are the command's (30_encoding.md R138). -/
theorem commandOf_eq_ok_iff (opc : BitVec 8) (u : Bool) (i : Instr) :
    commandOf opc u = .ok i ↔ opc = opcodeOf i ∧ u = unitBitOf i := by
  constructor
  · intro h
    unfold commandOf at h
    split at h
    all_goals cases u <;> cases h <;> exact ⟨rfl, rfl⟩
  · rintro ⟨rfl, rfl⟩
    cases i with
    | lstep u => cases u <;> rfl
    | lgen u => cases u <;> rfl
    | chisq b => cases b <;> rfl
    | period b => cases b <;> rfl
    | _ => rfl

/-- The reserved bits are checked first, so every other answer is that of the opcode map (30_encoding.md
R134). -/
theorem decodeWord_eq_iff (w : Word) {r : Except Illegal Instr} (hr : r ≠ .error .reservedBits) :
    decodeWord w = r ↔ (fieldsOf w).rsv = 0 ∧ commandOf (fieldsOf w).opc (fieldsOf w).u = r := by
  unfold decodeWord
  split
  · next hrsv => exact ⟨fun h => absurd h.symm hr, fun h => absurd h.1 hrsv⟩
  · next hrsv => simp only [not_not.1 hrsv, true_and]

/-- Decoding inverts encoding: of all words, exactly the command's own decodes to it. -/
theorem decodeWord_eq_ok_iff (w : Word) (i : Instr) : decodeWord w = .ok i ↔ w = encode i := by
  rw [eq_encode_iff, ← commandOf_eq_ok_iff, decodeWord_eq_iff w (r := .ok i) nofun]

theorem decodeWord_encode (i : Instr) : decodeWord (encode i) = .ok i := (decodeWord_eq_ok_iff _ i).2 rfl

/-- Settles O1: a word decodes to a command exactly when it is the command's own. -/
theorem decodeInvertsEncode : Obligations.DecodeInvertsEncode :=
  fun i => ⟨decodeWord_encode i, fun w => (decodeWord_eq_ok_iff w i).1⟩

/-- Settles O4: each word is its command's own. -/
theorem wordsOfTheSpecDecode : Obligations.WordsOfTheSpecDecode :=
  ⟨decodeWord_encode .build, decodeWord_encode (.lgen .s), decodeWord_encode (.chisq .bitout),
    decodeWord_encode .nop, decodeWord_encode .hdecb, decodeWord_encode (.lstep .a),
    decodeWord_encode (.period .bitin), decodeWord_encode .bcopy⟩

/-! ### The rows of the opcode map as masks and matches -/

/-- A row whose mask is all ones. -/
theorem decodeWord_eq_ok_iff_match (w : Word) (i : Instr) :
    decodeWord w = .ok i ↔ w &&& 0xFFFFFFFF#32 = encode i := by
  rw [decodeWord_eq_ok_iff, show 0xFFFFFFFF#32 = BitVec.allOnes 32 from rfl, BitVec.and_allOnes]

/-- The mask of a row that takes U leaves every bit but bit 8. -/
theorem eq_iff_unitMask (w v : Word) :
    w = v ↔ w &&& 0xFFFFFEFF#32 = v &&& 0xFFFFFEFF#32 ∧ w.getLsbD 8 = v.getLsbD 8 := by
  refine ⟨fun h => h ▸ ⟨rfl, rfl⟩, fun ⟨hmask, hu⟩ => BitVec.eq_of_getLsbD_eq fun k hk => ?_⟩
  by_cases h8 : k = 8
  · rw [h8, hu]
  · have hset : ∀ k < 32, k ≠ 8 → (0xFFFFFEFF#32).getLsbD k = true := by decide
    have hbit := congrArg (fun x => BitVec.getLsbD x k) hmask
    simpa [hset k hk h8] using hbit

/-- A row that takes U: `m` is its match, and `p` says which of its commands `i` is. -/
theorem decodeWord_eq_ok_iff_match_unit (w : Word) {i : Instr} {m : Word} {p : Prop}
    (hm : encode i &&& 0xFFFFFEFF#32 = m) (hp : (encode i).getLsbD 8 = true ↔ p) :
    decodeWord w = .ok i ↔ w &&& 0xFFFFFEFF#32 = m ∧ (w.getLsbD 8 = true ↔ p) := by
  rw [decodeWord_eq_ok_iff, eq_iff_unitMask, hm, ← hp, ← Bool.eq_iff_iff]

/-- Settles O2: a row without U is its command's own word, and a row with U those of its two commands. -/
theorem opcodeMapSelectsByMaskAndMatch : Obligations.OpcodeMapSelectsByMaskAndMatch := by
  intro w
  have hrow := decodeWord_eq_ok_iff_match w
  exact ⟨hrow .nop, hrow .build, hrow .encode, hrow .decode, hrow .addpar, hrow .stripchk, hrow .henc,
    hrow .hencs, hrow .hdec, hrow .hdecb,
    fun u => decodeWord_eq_ok_iff_match_unit w (by cases u <;> rfl) (by cases u <;> decide),
    fun u => decodeWord_eq_ok_iff_match_unit w (by cases u <;> rfl) (by cases u <;> decide),
    hrow .sggen,
    fun b => decodeWord_eq_ok_iff_match_unit w (by cases b <;> rfl) (by cases b <;> decide),
    fun b => decodeWord_eq_ok_iff_match_unit w (by cases b <;> rfl) (by cases b <;> decide),
    hrow .bcopy⟩

/-! ### The words that select no command -/

/-- The opcode map turns an opcode away exactly when it assigns it no command (30_encoding.md R137). -/
theorem commandOf_eq_unassigned_iff (opc : BitVec 8) (u : Bool) :
    commandOf opc u = .error .unassignedOpcode ↔ opc ∉ assignedOpcodes := by
  unfold commandOf
  split
  case h_17 => simp_all [assignedOpcodes]
  all_goals cases u <;> simp [withoutUnit, assignedOpcodes]

/-- The opcode map turns U = 1 away exactly for the commands that take no U (30_encoding.md R145). -/
theorem commandOf_eq_unitNotTaken_iff (opc : BitVec 8) (u : Bool) :
    commandOf opc u = .error .unitNotTaken ↔ u = true ∧ opc ∈ assignedOpcodes ∧ opc ∉ unitOpcodes := by
  unfold commandOf
  split
  case h_17 => simp_all [assignedOpcodes]
  all_goals cases u <;> simp [withoutUnit, assignedOpcodes, unitOpcodes]

theorem commandOf_ne_reservedBits (opc : BitVec 8) (u : Bool) :
    commandOf opc u ≠ .error .reservedBits := by
  unfold commandOf
  split
  all_goals cases u <;> simp [withoutUnit]

theorem rsv_eq_zero_iff (w : Word) : (fieldsOf w).rsv = 0 ↔ w >>> 9 = 0 := by
  have hlt := w.isLt
  rw [← BitVec.toNat_inj, ← BitVec.toNat_inj]
  simp only [fieldsOf, BitVec.extractLsb'_toNat, BitVec.toNat_ushiftRight, Nat.shiftRight_eq_div_pow]
  simp only [BitVec.ofNat_eq_ofNat, BitVec.toNat_ofNat]
  omega

theorem opc_toNat (w : Word) : (fieldsOf w).opc.toNat = w.toNat % 256 := by
  simp [fieldsOf]

theorem decodeWord_eq_reservedBits_iff (w : Word) :
    decodeWord w = .error .reservedBits ↔ (fieldsOf w).rsv ≠ 0 := by
  unfold decodeWord
  split
  · next hrsv => exact iff_of_true rfl hrsv
  · next hrsv => exact iff_of_false (commandOf_ne_reservedBits _ _) hrsv

/-- The ranges of the unassigned opcodes (30_encoding.md R137). -/
theorem not_mem_assignedOpcodes_iff : ∀ opc : BitVec 8, opc ∉ assignedOpcodes ↔
    (0x06 ≤ opc.toNat ∧ opc.toNat ≤ 0x0F ∨ 0x14 ≤ opc.toNat ∧ opc.toNat ≤ 0x1F ∨
      0x23 ≤ opc.toNat ∧ opc.toNat ≤ 0x2F ∨ 0x32 ≤ opc.toNat ∧ opc.toNat ≤ 0x3F ∨
      0x41 ≤ opc.toNat) := by decide

/-- The opcodes of the commands that take no U (30_encoding.md R145). -/
theorem assigned_without_unit_iff : ∀ opc : BitVec 8,
    (opc ∈ assignedOpcodes ∧ opc ∉ unitOpcodes) ↔
      opc.toNat ∈ [0x00, 0x01, 0x02, 0x03, 0x04, 0x05, 0x10, 0x11, 0x12, 0x13, 0x22, 0x40] := by decide

/-- Settles O3: the reserved bits are checked first, and a word that passes is turned away as its opcode and
U bit are. -/
theorem illegalWordsFailTheirCheck : Obligations.IllegalWordsFailTheirCheck := by
  intro w o
  have hopc : (fieldsOf w).opc.toNat = o := opc_toNat w
  have hu : (fieldsOf w).u = w.getLsbD 8 := rfl
  refine ⟨?reserved, ?opcode, ?unit⟩
  case reserved => rw [decodeWord_eq_reservedBits_iff, Ne, rsv_eq_zero_iff]
  case opcode =>
    rw [decodeWord_eq_iff w (r := .error .unassignedOpcode) nofun, commandOf_eq_unassigned_iff,
      not_mem_assignedOpcodes_iff, hopc, rsv_eq_zero_iff]
  case unit =>
    rw [decodeWord_eq_iff w (r := .error .unitNotTaken) nofun, commandOf_eq_unitNotTaken_iff,
      assigned_without_unit_iff, hopc, hu, rsv_eq_zero_iff]

end Sys2Proof.Proofs

/-! The issue of a command, and the errors that are decided by a register alone (30_encoding.md R132, R134,
60_exceptions.md R402, R403). -/

namespace Sys2Proof.Proofs

open Sys2Proof.Machine Sys2Proof.Safety

/-! ### Issue and the illegal word -/

/-- Settles O7: the write is `issue`, and IRQ is low after it since DONE = 0. -/
theorem acceptedCmdWriteIssues : Obligations.AcceptedCmdWriteIssues := by
  intro s v hidle
  have hirq : irq (issue v s) = false := Bool.and_false s.ie
  exact ⟨issue v s, hostWrites_reg_idle hidle (r := .cmd) nofun nofun v, hirq, rfl⟩

/-- Settles O6: SEQ's step is the completion with ILLEGAL_COMMAND, which clears the RES registers that
`illegalResCount` counts. -/
theorem illegalWordCompletesWithIllegalCommand : Obligations.IllegalWordCompletesWithIllegalCommand := by
  intro s e hbusy hdecode
  dsimp only
  rw [does_seq, seqStep_illegal hbusy hdecode, ← illegalResCount_eq]
  rfl

/-! ### What a command answers when its pseudocode raises an error -/

theorem exec_of_raise {i : Instr} {c : ErrCode} {s : State} (h : runOf i s = .raise c) :
    exec i s = .next (fail i c s) := by
  rw [exec_eq_conclude, h]
  rfl

theorem exec_errcode_of_raise {i : Instr} {c : ErrCode} {s : State} (h : runOf i s = .raise c) :
    ∃ t, exec i s = .next t ∧ t.errcode = errByte c :=
  ⟨fail i c s, exec_of_raise h, finish_errcode ..⟩

/-- STRIPCHK checks PL and OL with one code (41_prefix_coder.md R219). -/
theorem runStripchk_badOperand {s : State} (h : 32 < stripPl s ∨ 32 < stripOl s) :
    runStripchk s = .raise .badOperand := by
  unfold runStripchk
  by_cases hpl : 32 < stripPl s
  · exact if_pos hpl
  · rw [if_neg hpl, if_pos (h.resolve_left hpl)]

theorem runHdec_malformedLength {s : State} (hfit : s.bitinLen.toNat ≤ s.cfg.bitbufBits)
    (h : s.bitinLen.toNat % 7 ≠ 0) : runHdec s = .raise .malformedLength := by
  rw [runHdec, if_neg hfit.not_gt, if_pos h]

theorem runHdec_tooManyBlocks {s : State} (hfit : s.bitinLen.toNat ≤ s.cfg.bitbufBits)
    (h7 : s.bitinLen.toNat % 7 = 0) (h : s.cfg.symbufDepth < s.bitinLen.toNat / 7) :
    runHdec s = .raise .capacity := by
  rw [runHdec, if_neg hfit.not_gt, if_neg (not_not.2 h7), if_pos h]

theorem runChisq_emptySequence {b : BitSource} {s : State} (h : sourceLen s b = 0) :
    runChisq b s = .raise .emptySequence := by
  rw [runChisq, if_neg (by omega), if_pos h]

/-- Settles O12: each clause is the check of the command's pseudocode that raises its error, and the failure
completion of that error. -/
theorem operandAndLengthErrors : Obligations.OperandAndLengthErrors := by
  intro s
  refine ⟨?addpar, ?stripchk, ?henc, ?build, ?syminLen, ?bitinLen, ?hdecLength, ?hdecBlocks, ?chisqIn,
    ?chisqOut⟩
  case addpar => exact fun h => exec_of_raise (i := .addpar) (if_pos h)
  case stripchk => exact fun h => exec_of_raise (i := .stripchk) (runStripchk_badOperand h)
  case henc => exact fun h => exec_of_raise (i := .henc) (if_pos h)
  case build => exact fun h => exec_errcode_of_raise (i := .build) (if_pos h)
  case syminLen =>
    exact fun h => ⟨exec_errcode_of_raise (i := .encode) (if_pos h),
      exec_errcode_of_raise (i := .hencs) (if_pos h)⟩
  case bitinLen =>
    exact fun h => ⟨exec_errcode_of_raise (i := .decode) (if_pos h),
      exec_errcode_of_raise (i := .hdec) (if_pos h),
      exec_errcode_of_raise (i := .chisq .bitin) (if_pos h),
      exec_errcode_of_raise (i := .period .bitin) (if_pos h)⟩
  case hdecLength =>
    exact fun hfit h => exec_errcode_of_raise (i := .hdec) (runHdec_malformedLength hfit h)
  case hdecBlocks =>
    exact fun hfit h7 h => exec_errcode_of_raise (i := .hdec) (runHdec_tooManyBlocks hfit h7 h)
  case chisqIn =>
    exact fun h => exec_of_raise (i := .chisq .bitin)
      (runChisq_emptySequence (congrArg BitVec.toNat h))
  case chisqOut =>
    exact fun h => exec_of_raise (i := .chisq .bitout)
      (runChisq_emptySequence (congrArg BitVec.toNat h))

end Sys2Proof.Proofs

/-! The parity codec: ADDPAR, STRIPCHK, and what StripCheck finds (41_prefix_coder.md R209, R210, R216 to
R219). -/

namespace Sys2Proof.Proofs

open Sys2Proof.Machine Sys2Proof.Safety

/-! ### The chunks of a string -/

theorem chunksOf_nil {n : Nat} (hn : 0 < n) : chunksOf n [] = [] := by
  simp [chunksOf, Nat.div_eq_of_lt (Nat.sub_lt hn Nat.one_pos)]

theorem chunksOf_length (n : Nat) (x : Bits) : (chunksOf n x).length = (x.length + n - 1) / n := by
  simp [chunksOf]

/-- A nonempty string of at most `n` positions is one chunk. -/
theorem chunksOf_of_length_le {n : Nat} {x : Bits} (hne : x ≠ []) (hle : x.length ≤ n) :
    chunksOf n x = [x] := by
  have hpos := List.length_pos_iff.2 hne
  cases x with
  | nil => exact absurd rfl hne
  | cons b x =>
    rw [chunksOf_cons (by omega), List.take_of_length_le hle, List.drop_eq_nil_of_le hle,
      chunksOf_nil (by omega)]

/-- The first `n` positions of a string are its first chunk. -/
theorem chunksOf_append {n : Nat} {x y : Bits} (hn : 0 < n) (hx : x.length = n) :
    chunksOf n (x ++ y) = x :: chunksOf n y := by
  cases x with
  | nil => simp only [List.length_nil] at hx; omega
  | cons b x =>
    rw [List.cons_append, chunksOf_cons hn, ← List.cons_append, List.take_left' hx, List.drop_left' hx]

/-- A property of every string holds if it holds of the empty one, of every string of one chunk, and of a
full chunk before a string of which it holds. -/
theorem chunks_induction {n : Nat} (hn : 0 < n) {P : Bits → Prop} (nil : P [])
    (short : ∀ x, x ≠ [] → x.length ≤ n → P x)
    (full : ∀ x y, x.length = n → P y → P (x ++ y)) (x : Bits) : P x := by
  induction hlen : x.length using Nat.strong_induction_on generalizing x with
  | _ l ih =>
    by_cases hx : x = []
    · exact hx ▸ nil
    by_cases hle : x.length ≤ n
    · exact short x hx hle
    · rw [← List.take_append_drop n x]
      exact full _ _ (by rw [List.length_take]; omega)
        (ih (x.drop n).length (by rw [List.length_drop]; omega) _ rfl)

theorem flatten_chunksOf {n : Nat} (hn : 0 < n) (x : Bits) : (chunksOf n x).flatten = x := by
  induction x using chunks_induction hn with
  | nil => rw [chunksOf_nil hn]; rfl
  | short x hx hle => simp [chunksOf_of_length_le hx hle]
  | full x y hx ih => rw [chunksOf_append hn hx, List.flatten_cons, ih]

/-! ### The number of ones of a chunk -/

theorem oddOnes_append (x y : Bits) : oddOnes (x ++ y) = (oddOnes x ^^ oddOnes y) := by
  simp only [← xorBits_eq_oddOnes, xorBits, List.foldl_append]
  rw [xorBits_foldl, ← xorBits_eq_oddOnes y, xorBits]

theorem oddOnes_singleton (b : Bool) : oddOnes [b] = b := by cases b <;> rfl

/-- A block followed by its parity bit holds an even number of ones. -/
theorem oddOnes_append_parity (x : Bits) : oddOnes (x ++ [oddOnes x]) = false := by
  rw [oddOnes_append, oddOnes_singleton, Bool.xor_self]

/-- The check bit of a chunk disagrees with the XOR of the rest exactly when the chunk holds an odd number of
ones (41_prefix_coder.md R216). -/
theorem checkBit_disagrees (c : Bits) : (c.getLastD false != xorBits c.dropLast) = oddOnes c := by
  rcases List.eq_nil_or_concat c with rfl | ⟨p, b, rfl⟩
  · rfl
  · rw [List.concat_eq_append, List.dropLast_concat, List.getLastD_concat, xorBits_eq_oddOnes,
      oddOnes_append, oddOnes_singleton, ← Bool.xor, Bool.xor_comm]

/-- Two strings of one length differ in an odd number of positions exactly when one of them holds an odd
number of ones and the other does not. -/
theorem distance_odd_iff {x y : Bits} (h : x.length = y.length) :
    distance x y % 2 = 1 ↔ (oddOnes x ^^ oddOnes y) = true := by
  have hbit : oddOnes (List.zipWith (fun a b => a != b) x y) = (oddOnes x ^^ oddOnes y) := by
    induction x generalizing y with
    | nil => obtain rfl := List.length_eq_zero_iff.1 h.symm; rfl
    | cons a x ih =>
      cases y with
      | nil => cases h
      | cons b y =>
        have hcons : ∀ (c : Bool) (z : Bits), oddOnes (c :: z) = (c ^^ oddOnes z) := fun c z => by
          rw [← List.singleton_append, oddOnes_append, oddOnes_singleton]
        rw [List.zipWith_cons_cons, hcons, hcons, hcons, ih (Nat.succ_inj.1 h)]
        cases a <;> cases b <;> simp
  rw [← hbit]
  simp [oddOnes, distance]

/-! ### StripCheck in closed form -/

/-- The mask of the chunks that hold an odd number of ones, chunk `k` at bit `k`. -/
def oddMask (cs : List Bits) : Nat :=
  (cs.map fun c => (oddOnes c).toNat).foldr (fun d v => d + 2 ^ 1 * v) 0

theorem oddMask_cons (c : Bits) (cs : List Bits) :
    oddMask (c :: cs) = (oddOnes c).toNat + 2 * oddMask cs := rfl

theorem oddMask_digit_lt (cs : List Bits) : ∀ d ∈ cs.map fun c => (oddOnes c).toNat, d < 2 ^ 1 := by
  intro d hd
  obtain ⟨c, -, rfl⟩ := List.mem_map.1 hd
  exact Bool.toNat_lt _

theorem oddMask_lt (cs : List Bits) : oddMask cs < 2 ^ cs.length := by
  simpa [oddMask] using packed_lt (oddMask_digit_lt cs)

theorem testBit_oddMask (cs : List Bits) (k : Nat) : (oddMask cs).testBit k = oddOnes (cs.getD k []) := by
  have hdigit : oddMask cs / 2 ^ k % 2 = (oddOnes (cs.getD k [])).toNat := by
    have hfield := packed_field (oddMask_digit_lt cs) k
    rw [Nat.one_mul, show (0 : Nat) = (fun c => (oddOnes c).toNat) [] from rfl, List.getD_map] at hfield
    exact hfield
  rw [Nat.testBit_eq_decide_div_mod_eq, hdigit]
  cases oddOnes (cs.getD k []) <;> rfl

/-- The mask as the sum of its bits. -/
theorem oddMask_eq_sum (cs : List Bits) :
    oddMask cs = ((List.range cs.length).map fun k => if oddOnes (cs.getD k []) then 2 ^ k else 0).sum := by
  induction cs with
  | nil => rfl
  | cons c cs ih =>
    have hshift : ∀ k, (if oddOnes (cs.getD k []) then 2 ^ (k + 1) else 0) =
        2 * if oddOnes (cs.getD k []) then 2 ^ k else 0 := fun k => by
      split
      · rw [pow_succ, Nat.mul_comm]
      · rfl
    rw [oddMask_cons, ih, List.length_cons, List.range_succ_eq_map, List.map_cons, List.map_map,
      List.sum_cons, ← List.sum_map_mul_left]
    simp only [Function.comp_def, List.getD_cons_succ, List.getD_cons_zero, hshift]
    cases oddOnes c <;> rfl

theorem stripChunks_eq {bs : Nat} (fuel : Nat) (y : Bits) (hf : y.length ≤ fuel) :
    stripChunks bs fuel y =
      ((chunksOf (bs + 1) y).flatMap List.dropLast, oddMask (chunksOf (bs + 1) y)) := by
  induction fuel generalizing y with
  | zero =>
    obtain rfl := List.length_eq_zero_iff.1 (Nat.le_zero.1 hf)
    rw [chunksOf_nil (Nat.succ_pos bs)]; rfl
  | succ fuel ih =>
    cases y with
    | nil => rw [chunksOf_nil (Nat.succ_pos bs)]; rfl
    | cons b y =>
      rw [List.length_cons] at hf
      rw [stripChunks, ih _ (by rw [List.length_drop, List.length_cons]; omega),
        chunksOf_cons (Nat.succ_pos bs), checkBit_disagrees, oddMask_cons, List.flatMap_cons]

/-- StripCheck takes the last position of each chunk off and marks the chunks with an odd number of ones
(41_prefix_coder.md R216). -/
theorem stripCheck_eq (y : Bits) (ol : Nat) :
    stripCheck y ol =
      (((stripChunksOf y ol).flatMap List.dropLast).take ol, oddMask (stripChunksOf y ol)) := by
  have hchunks : chunksOf (blockSize ol + 1) y = stripChunksOf y ol := by
    unfold stripChunksOf blockSize
    split <;> rfl
  rw [stripCheck, stripChunks_eq _ y (le_refl _), hchunks]

/-! ### StripCheck of a parity codeword -/

theorem blockSize_pos (l : Nat) : 0 < blockSize l := by unfold blockSize; split <;> omega

/-- The parity codeword, block by block. -/
theorem addParity_eq_flatMap (x : Bits) :
    addParity x = (chunksOf (blockSize x.length) x).flatMap fun b => b ++ [oddOnes b] :=
  parityBlocks_eq (blockSize_pos _) _ x (le_refl _)

/-- The chunks of a parity codeword are the blocks with their parity bits. -/
theorem chunksOf_flatMap_parity {bs : Nat} (hbs : 0 < bs) (x : Bits) :
    chunksOf (bs + 1) ((chunksOf bs x).flatMap fun b => b ++ [oddOnes b]) =
      (chunksOf bs x).map fun b => b ++ [oddOnes b] := by
  induction x using chunks_induction hbs with
  | nil => rw [chunksOf_nil hbs]; exact chunksOf_nil (Nat.succ_pos bs)
  | short x hx hle =>
    rw [chunksOf_of_length_le hx hle, List.flatMap_singleton, List.map_singleton,
      chunksOf_of_length_le (by simp) (by rw [List.length_append, List.length_singleton]; omega)]
  | full x y hx ih =>
    rw [chunksOf_append hbs hx, List.flatMap_cons, List.map_cons,
      chunksOf_append (Nat.succ_pos bs) (by rw [List.length_append, List.length_singleton, hx]), ih]

theorem stripChunksOf_addParity (x : Bits) :
    stripChunksOf (addParity x) x.length =
      (chunksOf (blockSize x.length) x).map fun b => b ++ [oddOnes b] := by
  rw [addParity_eq_flatMap, ← chunksOf_flatMap_parity (blockSize_pos _)]
  unfold stripChunksOf blockSize
  split <;> rfl

/-- Chunks that each end in their parity bit have mask 0. -/
theorem oddMask_map_parity (cs : List Bits) : oddMask (cs.map fun b => b ++ [oddOnes b]) = 0 := by
  induction cs with
  | nil => rfl
  | cons c cs ih => rw [List.map_cons, oddMask_cons, ih, oddOnes_append_parity]; rfl

/-- StripCheck gives back what AddParity was given, with mask 0 (41_prefix_coder.md R217). -/
theorem stripCheck_addParity (x : Bits) : stripCheck (addParity x) x.length = (x, 0) := by
  have hpayload : ((chunksOf (blockSize x.length) x).map fun b => b ++ [oddOnes b]).flatMap List.dropLast =
      x := by
    simp only [List.flatMap_map, List.dropLast_concat, List.flatMap_id', flatten_chunksOf (blockSize_pos _)]
  rw [stripCheck_eq, stripChunksOf_addParity, hpayload, oddMask_map_parity, List.take_length]

/-- Settles O29: a chunk's mask bit is the parity of its ones, and a correctly formed chunk has an even
number of them. -/
theorem stripCheckFindsOddFlips : Obligations.StripCheckFindsOddFlips := by
  refine ⟨stripCheck_addParity, fun y ol k good _ hlen hgood => ?_⟩
  have heven : oddOnes good = false := by rw [← checkBit_disagrees, hgood, bne_self_eq_false]
  rw [distance_odd_iff hlen, heven, Bool.false_xor, stripCheck_eq, testBit_oddMask]

/-! ### The length of a parity codeword -/

theorem addParity_length (x : Bits) :
    (addParity x).length =
      x.length + if x.length % 2 = 0 then (x.length + 1) / 2 else (x.length + 2) / 3 := by
  have hsum : ∀ cs : List Bits, (cs.flatMap fun b => b ++ [oddOnes b]).length =
      cs.flatten.length + cs.length := by
    intro cs
    induction cs with
    | nil => rfl
    | cons c cs ih => simp only [List.flatMap_cons, List.length_append, ih, List.flatten_cons,
        List.length_cons, List.length_nil]; omega
  rw [addParity_eq_flatMap, hsum, flatten_chunksOf (blockSize_pos _), chunksOf_length]
  unfold blockSize
  split <;> rfl

/-- Settles O28: the general length, and its values up to 21. -/
theorem parityCodewordLength : Obligations.ParityCodewordLength := by
  refine ⟨addParity_length, fun x hx => ?_⟩
  rw [addParity_length]
  generalize x.length = l at hx ⊢
  interval_cases l <;> decide

/-! ### ADDPAR and STRIPCHK -/

theorem exec_of_ok {i : Instr} {s u : State} (h : runOf i s = .ok u) : exec i s = .next (complete u) := by
  rw [exec_eq_conclude, h]
  rfl

theorem strBits_eq_map (n v : Nat) : strBits n v = (List.range n).map fun j => v.testBit (n - 1 - j) := by
  induction n with
  | zero => rfl
  | succ n ih =>
    rw [strBits, ih, List.range_succ_eq_map, List.map_cons, List.map_map]
    refine congrArg₂ _ rfl (List.map_congr_left fun j _ => ?_)
    simp only [Function.comp_apply]
    congr 1
    omega

/-- A register's low bits as a string (20_memory.md R106). -/
theorem strBits_mod_eq_wordBits (w : Word) (n : Nat) : strBits n (w.toNat % 2 ^ n) = wordBits w n := by
  rw [strBits_eq_map, wordBits]
  refine List.map_congr_left fun j hj => ?_
  have hlt := List.mem_range.1 hj
  rw [Nat.testBit_mod_two_pow, decide_eq_true (by omega), Bool.true_and, BitVec.testBit_toNat]

theorem wordBits_length (w : Word) (n : Nat) : (wordBits w n).length = n := by simp [wordBits]

/-- Settles O26: the pseudocode's AddParity is that of the blocks. -/
theorem addparAppendsBlockParities : Obligations.AddparAppendsBlockParities := by
  intro s hlen
  have hrun : runOf .addpar s = .ok { s with
      res0 := wordOf (valBits (addParity (addparWord s)))
      res1 := wordOf (addParity (addparWord s)).length } := if_neg (Nat.not_lt.2 hlen)
  rw [addParity_eq, addparWord, strBits_mod_eq_wordBits] at hrun
  exact exec_of_ok hrun

/-- A string of at most 32 bits has at most eleven chunks (41_prefix_coder.md R219). -/
theorem stripChunksOf_length_le {y : Bits} (hy : y.length ≤ 32) (ol : Nat) :
    (stripChunksOf y ol).length ≤ 11 := by
  rw [stripChunksOf, chunksOf_length]
  split <;> omega

/-- Settles O27: the pseudocode's StripCheck is that of the chunks. -/
theorem stripchkReportsOddChunks : Obligations.StripchkReportsOddChunks := by
  intro s hpl hol
  dsimp only
  rw [← oddMask_eq_sum]
  have hrun : runOf .stripchk s = .ok (reportParity (stripCheck (stripWord s) (stripOl s)).2 { s with
      res0 := wordOf (valBits (stripCheck (stripWord s) (stripOl s)).1)
      res1 := wordOf (stripCheck (stripWord s) (stripOl s)).1.length
      res2 := wordOf (stripCheck (stripWord s) (stripOl s)).2 }) :=
    (if_neg (Nat.not_lt.2 hpl)).trans (if_neg (Nat.not_lt.2 hol))
  rw [stripCheck_eq, stripWord, strBits_mod_eq_wordBits] at hrun
  refine ⟨(oddMask_lt _).trans_le (Nat.pow_le_pow_right (by decide)
    (stripChunksOf_length_le (by rw [wordBits_length]; exact hpl) _)), exec_of_ok hrun⟩

end Sys2Proof.Proofs

/-! The lengths and the bits of the Shannon codewords (41_prefix_coder.md R206 to R208). -/

namespace Sys2Proof.Proofs

open Sys2Proof.Machine Sys2Proof.Safety

/-! ### The length of a codeword -/

theorem bitlen_of_pos {p : Nat} (hp : 0 < p) : bitlen p = Nat.log2 p + 1 := if_neg (by omega)

theorem codeLen_of_pos (pw : Nat) {p : Nat} (hp : 0 < p) : codeLen pw p = pw - Nat.log2 p := by
  rw [codeLen, bitlen_of_pos hp, Nat.add_sub_cancel]

theorem log2_le_of_le {pw p : Nat} (hp : 0 < p) (h : p ≤ 2 ^ pw) : Nat.log2 p ≤ pw :=
  (Nat.pow_le_pow_iff_right (by decide)).1 ((Nat.log2_self_le (by omega)).trans h)

/-- A codeword's share of the Kraft sum is the greatest power of two in the numerator. -/
theorem sub_codeLen {pw p : Nat} (hp : 0 < p) (h : p ≤ 2 ^ pw) : pw - codeLen pw p = Nat.log2 p := by
  have := log2_le_of_le hp h
  rw [codeLen_of_pos pw hp]
  omega

/-- Settles O31: with `k` the place of the highest one of `P`, `2^k ≤ P < 2^(k+1)` and CodeLen is `PW − k`. -/
theorem codeLenIsTheCeilingOfTheLogarithm : Obligations.CodeLenIsTheCeilingOfTheLogarithm := by
  refine ⟨fun pw p hp hle => ?_, by decide, by decide, by decide, by decide⟩
  have hk := log2_le_of_le hp hle
  have hlow : 2 ^ Nat.log2 p ≤ p := Nat.log2_self_le (by omega)
  have hhigh : p < 2 ^ (Nat.log2 p + 1) := Nat.lt_log2_self
  refine ⟨rfl, ?_⟩
  rw [codeLen_of_pos pw hp]
  refine ⟨?atMost, fun l hl => ?least, Nat.sub_le _ _, fun h => ?zero, fun h => ?one⟩
  case atMost =>
    calc 2 ^ pw = 2 ^ Nat.log2 p * 2 ^ (pw - Nat.log2 p) := by rw [← pow_add, Nat.add_sub_cancel' hk]
      _ ≤ p * 2 ^ (pw - Nat.log2 p) := Nat.mul_le_mul_right _ hlow
  case least =>
    calc p * 2 ^ l < 2 ^ (Nat.log2 p + 1) * 2 ^ l := Nat.mul_lt_mul_of_pos_right hhigh (Nat.two_pow_pos l)
      _ = 2 ^ (Nat.log2 p + 1 + l) := (pow_add ..).symm
      _ ≤ 2 ^ pw := Nat.pow_le_pow_right (by decide) (by omega)
  case zero => rw [show pw = Nat.log2 p by omega] at hle ⊢; exact hle.antisymm hlow
  case one => rw [h, Nat.log2_two_pow, Nat.sub_self]

/-! ### The bits of a codeword -/

/-- One turn of the doubling accumulator emits the top fraction bit and keeps the others (41_prefix_coder.md
R207). -/
theorem shannonBits_succ_of_lt {k f : Nat} (l : Nat) (hf : f < 2 ^ (k + 1)) :
    shannonBits (k + 1) (l + 1) f = f.testBit k :: shannonBits (k + 1) l (2 * f % 2 ^ (k + 1)) := by
  have hpow : 2 ^ (k + 1) = 2 * 2 ^ k := by rw [pow_succ, Nat.mul_comm]
  rw [shannonBits, Nat.testBit_eq_decide_div_mod_eq]
  split
  · next hge =>
    rw [Nat.div_eq_of_lt_le (k := 1) (by omega) (by omega), Nat.mod_eq_sub_mod hge,
      Nat.mod_eq_of_lt (show 2 * f - 2 ^ (k + 1) < 2 ^ (k + 1) by omega)]
    rfl
  · next hlt =>
    rw [Nat.div_eq_of_lt (by omega), Nat.mod_eq_of_lt (Nat.not_le.1 hlt)]
    rfl

/-- Below `2^PW` the accumulator gives the first bits of the binary expansion (41_prefix_coder.md R208). -/
theorem shannonBits_of_lt {pw l f : Nat} (hl : l ≤ pw) (hf : f < 2 ^ pw) :
    shannonBits pw l f = strBits l (f / 2 ^ (pw - l)) := by
  induction l generalizing f with
  | zero => rfl
  | succ l ih =>
    obtain ⟨k, rfl⟩ : ∃ k, pw = k + 1 := ⟨pw - 1, by omega⟩
    rw [shannonBits_succ_of_lt l hf, ih (by omega) (Nat.mod_lt _ (Nat.two_pow_pos _)), strBits]
    refine congrArg₂ _ ?head ?tail
    case head => rw [Nat.testBit_div_two_pow, show l + (k + 1 - (l + 1)) = k by omega]
    case tail =>
      rw [strBits_eq_map, strBits_eq_map]
      refine List.map_congr_left fun j hj => ?_
      have hlt := List.mem_range.1 hj
      rw [Nat.testBit_div_two_pow, Nat.testBit_div_two_pow, Nat.testBit_mod_two_pow,
        decide_eq_true (by omega), Bool.true_and,
        show l - 1 - j + (k + 1 - l) = l - 1 - j + (k + 1 - (l + 1)) + 1 by omega, Nat.testBit_succ,
        Nat.mul_div_cancel_left _ (by decide)]

/-- At `2^PW` and above the accumulator stays there and emits ones (41_prefix_coder.md R208). -/
theorem shannonBits_of_ge {pw l f : Nat} (hf : 2 ^ pw ≤ f) : shannonBits pw l f = List.replicate l true := by
  induction l generalizing f with
  | zero => rfl
  | succ l ih => rw [shannonBits, if_pos (by omega), ih (by omega), List.replicate_succ]

/-- Settles O30: the accumulator below `2^PW`, and at or above it. -/
theorem shannonBitsClosedForm : Obligations.ShannonBitsClosedForm :=
  fun _ _ _ hl => ⟨shannonBits_of_lt hl, shannonBits_of_ge⟩

end Sys2Proof.Proofs

/-! The code table of a distribution in closed form, and what BUILD writes and reports (41_prefix_coder.md
R200 to R215). -/

namespace Sys2Proof.Proofs

open Sys2Proof.Machine Sys2Proof.Safety

/-! ### The builder's order -/

/-- The entries below `n` by falling numerator, and by number among equal ones (41_prefix_coder.md R203). -/
def builderOrder (P : Nat → Nat) (n : Nat) : List Nat :=
  (List.range n).insertionSort fun i j => P j ≤ P i

/-- Sorting the pairs of a distribution sorts its symbols. -/
theorem stableSortDesc_eq (P : Nat → Nat) (n : Nat) :
    stableSortDesc ((List.range n).map fun i => (i, P i)) = (builderOrder P n).map fun i => (i, P i) :=
  (List.map_insertionSort (fun i j => P j ≤ P i) (fun x y : Nat × Nat => y.2 ≤ x.2) _ _
    fun _ _ _ _ => Iff.rfl).symm

theorem builderOrder_perm (P : Nat → Nat) (n : Nat) : (builderOrder P n).Perm (List.range n) :=
  List.perm_insertionSort _ _

theorem before_iff (P : Nat → Nat) (i j : Nat) :
    before P i j = true ↔ P i < P j ∨ P j = P i ∧ j < i := by
  simp [before]

/-- An entry put before entries of greater number finds its place in the builder's order. -/
theorem orderedInsert_sorted {P : Nat → Nat} {i : Nat} {l : List Nat} (hi : ∀ j ∈ l, i < j)
    (hl : l.Pairwise fun a b => before P b a = true) :
    (l.orderedInsert (fun i j => P j ≤ P i) i).Pairwise fun a b => before P b a = true := by
  induction l with
  | nil => simp
  | cons j l ih =>
    obtain ⟨hj, hrest⟩ := List.pairwise_cons.1 hl
    have hij := hi j List.mem_cons_self
    have hil := fun k hk => hi k (List.mem_cons_of_mem _ hk)
    rw [List.orderedInsert_cons]
    split
    · next hle =>
      refine List.pairwise_cons.2 ⟨fun k hk => ?_, hl⟩
      have hik := hi k hk
      have hkj : P k ≤ P j := by
        rcases List.mem_cons.1 hk with rfl | hk
        · exact le_refl _
        · have := (before_iff ..).1 (hj k hk); omega
      rw [before_iff]
      omega
    · next hgt =>
      refine List.pairwise_cons.2 ⟨fun k hk => ?_, ih hil hrest⟩
      rcases (List.mem_orderedInsert _).1 hk with rfl | hk
      · rw [before_iff]; omega
      · exact hj k hk

theorem builderOrder_sorted (P : Nat → Nat) (n : Nat) :
    (builderOrder P n).Pairwise fun a b => before P b a = true := by
  have hsort : ∀ l : List Nat, l.Pairwise (· < ·) →
      (l.insertionSort fun i j => P j ≤ P i).Pairwise fun a b => before P b a = true := by
    intro l hl
    induction l with
    | nil => exact List.Pairwise.nil
    | cons i l ih =>
      obtain ⟨hi, hrest⟩ := List.pairwise_cons.1 hl
      exact orderedInsert_sorted (fun j hj => hi j ((List.mem_insertionSort _).1 hj)) (ih hrest)
  exact hsort _ List.pairwise_lt_range

/-- The entries that stand before one are those that the builder's order lists before it. -/
theorem filter_before_builderOrder {P : Nat → Nat} {n i : Nat} {pre post : List Nat}
    (h : builderOrder P n = pre ++ i :: post) : (builderOrder P n).filter (before P i) = pre := by
  have hsorted := builderOrder_sorted P n
  rw [h] at hsorted ⊢
  obtain ⟨-, hpost, hpre⟩ := List.pairwise_append.1 hsorted
  have hafter := (List.pairwise_cons.1 hpost).1
  rw [List.filter_append, List.filter_eq_self.2 fun j hj => hpre j hj i List.mem_cons_self,
    List.filter_eq_nil_iff.2 fun j hj => ?_, List.append_nil]
  rw [before_iff]
  rcases List.mem_cons.1 hj with rfl | hj
  · omega
  · have := (before_iff ..).1 (hafter j hj); omega

/-- An entry's rank is its place in the builder's order (41_prefix_coder.md R204). -/
theorem rankIn_eq {P : Nat → Nat} {n i : Nat} {pre post : List Nat}
    (h : builderOrder P n = pre ++ i :: post) : rankIn P n i = pre.length := by
  rw [rankIn, ← (builderOrder_perm P n).countP_eq, List.countP_eq_length_filter,
    filter_before_builderOrder h]

/-- `F` of an entry sums the numerators that the builder's order lists before it (41_prefix_coder.md R205). -/
theorem sumBefore_eq {P : Nat → Nat} {n i : Nat} {pre post : List Nat}
    (h : builderOrder P n = pre ++ i :: post) : sumBefore P n i = (pre.map P).sum := by
  rw [sumBefore, ← (((builderOrder_perm P n).filter _).map P).sum_eq, filter_before_builderOrder h]

/-! ### The code table in closed form -/

/-- The entry that BUILD gives to symbol `i` of a distribution of `n` numerators (10_state.md R74 to R77). -/
def tableEntry (pw : Nat) (P : Nat → Nat) (n i : Nat) : CodeEntry where
  valid := true
  blen := (baseOf pw P n i).length
  bcode := valBits (baseOf pw P n i)
  plen := (parityOfBlocks (baseOf pw P n i)).length
  pcode := valBits (parityOfBlocks (baseOf pw P n i))
  rank := rankIn P n i

@[simp] theorem tableEntry_blen (pw : Nat) (P : Nat → Nat) (n i : Nat) :
    (tableEntry pw P n i).blen = (baseOf pw P n i).length := rfl

@[simp] theorem tableEntry_plen (pw : Nat) (P : Nat → Nat) (n i : Nat) :
    (tableEntry pw P n i).plen = (parityOfBlocks (baseOf pw P n i)).length := rfl

@[simp] theorem baseCode_tableEntry (pw : Nat) (P : Nat → Nat) (n i : Nat) :
    baseCode (tableEntry pw P n i) = baseOf pw P n i := strBits_valBits _

@[simp] theorem parityCode_tableEntry (pw : Nat) (P : Nat → Nat) (n i : Nat) :
    parityCode (tableEntry pw P n i) = parityOfBlocks (baseOf pw P n i) := strBits_valBits _

/-- The four words of a coded symbol's entry (10_state.md R74 to R77). -/
theorem codeWords_tableEntry (pw : Nat) (P : Nat → Nat) (n i : Nat) :
    codeWords (tableEntry pw P n i) =
      [wordOf (2 ^ 31 + 2 ^ 16 * (baseOf pw P n i).length + (parityOfBlocks (baseOf pw P n i)).length),
        wordOf (valBits (baseOf pw P n i)), wordOf (valBits (parityOfBlocks (baseOf pw P n i))),
        wordOf (rankIn P n i)] := by
  simp [codeWords, tableEntry, Nat.mul_comm]

theorem lenOf_eq_codeLen (pw : Nat) {p : Nat} (hp : 0 < p) : lenOf pw p = codeLen pw p := by
  rw [lenOf, codeLen, bitlen_of_pos hp]
  omega

theorem lenOf_le {pw p : Nat} (hp : 0 < p) : lenOf pw p ≤ pw := by
  rw [lenOf_eq_codeLen pw hp]; exact Nat.sub_le _ _

theorem strBits_length (n v : Nat) : (strBits n v).length = n := by simp [strBits_eq_map]

theorem baseOf_length (pw : Nat) (P : Nat → Nat) (n i : Nat) :
    (baseOf pw P n i).length = lenOf pw (P i) := by
  unfold baseOf
  split
  · exact strBits_length _ _
  · exact List.length_replicate

/-- The base codeword is what the accumulator emits (41_prefix_coder.md R208). -/
theorem shannonBits_eq_baseOf {pw : Nat} {P : Nat → Nat} {n i : Nat} (hi : 0 < P i) :
    shannonBits pw (codeLen pw (P i)) (sumBefore P n i) = baseOf pw P n i := by
  have hlen := lenOf_le (pw := pw) hi
  rw [← lenOf_eq_codeLen pw hi, baseOf]
  split
  · next hlt => exact shannonBits_of_lt hlen hlt
  · next hge => exact shannonBits_of_ge (Nat.not_lt.1 hge)

theorem shannonEntry_eq_tableEntry {pw : Nat} {P : Nat → Nat} {n i : Nat} (hi : 0 < P i) :
    shannonEntry pw (rankIn P n i) (sumBefore P n i) (P i) = tableEntry pw P n i := by
  simp only [shannonEntry, shannonBits_eq_baseOf hi, addParity_eq, tableEntry]

/-- The symbols that get a code: those of nonzero numerator (41_prefix_coder.md R215). -/
def coded (P : Nat → Nat) (n : Nat) : List Nat := (List.range n).filter fun i => 0 < P i

theorem mem_coded {P : Nat → Nat} {n i : Nat} : i ∈ coded P n ↔ i < n ∧ 0 < P i := by
  simp [coded]

/-- The code table of a distribution of `n` numerators, in the builder's order. -/
def tableOf (pw : Nat) (P : Nat → Nat) (n : Nat) : List (Nat × CodeEntry) :=
  ((builderOrder P n).filter fun i => 0 < P i).map fun i => (i, tableEntry pw P n i)

/-- The rest of the code table, when the builder has come to the symbols of `l`. -/
theorem buildCodes_eq {pw : Nat} {P : Nat → Nat} {n : Nat} {pre l : List Nat}
    (h : builderOrder P n = pre ++ l) :
    buildCodes pw pre.length (pre.map P).sum (l.map fun i => (i, P i)) =
      (l.filter fun i => 0 < P i).map fun i => (i, tableEntry pw P n i) := by
  induction l generalizing pre with
  | nil => rfl
  | cons i l ih =>
    have hrest := ih (pre := pre ++ [i]) (by rw [h, List.append_cons])
    rw [List.length_append, List.length_singleton, List.map_append, List.sum_append, List.map_singleton,
      List.sum_singleton] at hrest
    rw [List.map_cons, buildCodes]
    by_cases hi : P i = 0
    · rw [if_pos hi, List.filter_cons_of_neg (by simp [hi]), ← hrest, hi]
      rfl
    · have hpos : 0 < P i := Nat.pos_of_ne_zero hi
      rw [if_neg hi, List.filter_cons_of_pos (by simp [hpos]), List.map_cons, ← hrest,
        ← rankIn_eq h, ← sumBefore_eq h, shannonEntry_eq_tableEntry hpos]

theorem codesOf_eq_tableOf (pw : Nat) (P : Nat → Nat) (n : Nat) :
    codesOf pw ((List.range n).map fun i => (i, P i)) = tableOf pw P n := by
  rw [codesOf, stableSortDesc_eq]
  exact buildCodes_eq (pre := []) rfl

theorem tableOf_perm (pw : Nat) (P : Nat → Nat) (n : Nat) :
    (tableOf pw P n).Perm ((coded P n).map fun i => (i, tableEntry pw P n i)) :=
  ((builderOrder_perm P n).filter _).map _

theorem mem_tableOf {pw : Nat} {P : Nat → Nat} {n : Nat} {c : Nat × CodeEntry} :
    c ∈ tableOf pw P n ↔ ∃ i ∈ coded P n, (i, tableEntry pw P n i) = c := by
  rw [(tableOf_perm pw P n).mem_iff, List.mem_map]

theorem tableOf_length (pw : Nat) (P : Nat → Nat) (n : Nat) :
    (tableOf pw P n).length = (coded P n).length := by
  rw [(tableOf_perm pw P n).length_eq, List.length_map]

theorem coded_length_le (P : Nat → Nat) (n : Nat) : (coded P n).length ≤ n :=
  (List.length_filter_le _ _).trans_eq List.length_range

theorem tableOf_symbols_nodup (pw : Nat) (P : Nat → Nat) (n : Nat) :
    ((tableOf pw P n).map Prod.fst).Nodup := by
  rw [((tableOf_perm pw P n).map Prod.fst).nodup_iff, List.map_map]
  have hcoded : (coded P n).Nodup := List.nodup_range.filter _
  simpa [Function.comp_def] using hcoded

theorem mem_tableOf_symbols {pw : Nat} {P : Nat → Nat} {n i : Nat} :
    i ∈ (tableOf pw P n).map Prod.fst ↔ i < n ∧ 0 < P i := by
  rw [((tableOf_perm pw P n).map Prod.fst).mem_iff, List.map_map, ← mem_coded]
  simp [Function.comp_def]

/-! ### What BUILD answers on a legal distribution -/

section Build

variable {s : State}

/-- The table that BUILD writes from the numerators of DIST. -/
abbrev builtTable (s : State) : List (Nat × CodeEntry) := tableOf s.cfg.pw (numAt s) s.distCount.toNat

theorem distEntry_of_written (hw : DistWritten s) {i : Nat} (hi : i < s.distCount.toNat) :
    distEntry s i = some (numAt s i) := by
  obtain ⟨p, hp⟩ := Option.isSome_iff_exists.1 (hw i hi)
  rw [numAt, hp, Option.getD_some]

theorem readDist_of_written (hw : DistWritten s) (hp : ∀ i < s.distCount.toNat, numAt s i ≤ 2 ^ s.cfg.pw) :
    readDist s s.distCount.toNat 0 =
      .ok ((List.range s.distCount.toNat).map fun i => (i, numAt s i)) := by
  refine (readDist_ok_iff ..).2 ⟨by simp, fun j hj => ?_⟩
  have hlt : j < s.distCount.toNat := by simpa using hj
  simpa using ⟨distEntry_of_written hw hlt, hp j hlt⟩

/-- BUILD of a legal distribution that fits writes its table. -/
theorem exec_build_eq (hw : DistWritten s) (hc : s.distCount.toNat ≤ s.cfg.maxSym)
    (hp : ∀ i < s.distCount.toNat, numAt s i ≤ 2 ^ s.cfg.pw) :
    exec .build s = .next (complete (writeTable (builtTable s) s)) := by
  refine exec_of_ok ?_
  rw [runOf, runBuild, if_neg (Nat.not_lt.2 hc), readDist_of_written hw hp]
  dsimp only
  rw [codesOf_eq_tableOf]

end Build

/-- Settles O32: BUILD writes the closed form of the table into a cleared code table. -/
theorem buildWritesTheShannonTable : Obligations.BuildWritesTheShannonTable := by
  intro s hl hw hc hp
  have hms : s.cfg.maxSym ≤ 1024 := by obtain ⟨-, ⟨-, hms⟩, -⟩ := hl; exact hms
  refine ⟨_, exec_build_eq hw hc hp, rfl, fun i hi => ?entry, fun a ha => ?outside⟩
  case entry =>
    split
    · next hi =>
      have hmem : (i, tableEntry s.cfg.pw (numAt s) s.distCount.toNat i) ∈ builtTable s :=
        mem_tableOf.2 ⟨i, mem_coded.2 hi, rfl⟩
      have hwords := readWord_storeCodes (forget .ctab s.mem) _ (tableOf_symbols_nodup _ _ _) hmem
      rw [codeWords_tableEntry] at hwords
      exact hwords
    · next hnot =>
      intro k hk
      have habsent : i ∉ (builtTable s).map Prod.fst := mt mem_tableOf_symbols.1 hnot
      have hzero := readWord_storeCodes_absent hl s.mem habsent hi hk
      rw [show ([0, 0, 0, 0] : List Word).getD k 0 = 0 by
        have hk : k < 4 := hk
        interval_cases k <;> rfl]
      exact hzero
  case outside =>
    refine readByte_writeTable_outside (fun c hmem => ?_) ?_
    · obtain ⟨i, hi, rfl⟩ := mem_tableOf.1 hmem
      have := (mem_coded.1 hi).1
      dsimp only
      omega
    · rw [← Bool.not_eq_true, inWindow_iff]
      simp only [windowBase, windowBytes]
      omega

/-! ### The Kraft sum and the flags on codewords that begin others -/

theorem kraftNum_tableOf (pw : Nat) (P : Nat → Nat) (n : Nat) :
    kraftNum pw (tableOf pw P n) = ((coded P n).map fun i => 2 ^ (pw - lenOf pw (P i))).sum := by
  rw [kraftNum, ((tableOf_perm pw P n).map _).sum_eq, List.map_map]
  simp only [Function.comp_def, tableEntry_blen, baseOf_length]

/-- The Kraft sum fits a register (41_prefix_coder.md R211). -/
theorem kraftNum_tableOf_lt {pw n : Nat} (P : Nat → Nat) (hpw : pw ≤ 21) (hn : n ≤ 1024) :
    kraftNum pw (tableOf pw P n) < 2 ^ 32 := by
  have hterm : ∀ k ∈ (coded P n).map fun i => 2 ^ (pw - lenOf pw (P i)), k ≤ 2 ^ 21 := by
    intro k hk
    obtain ⟨i, -, rfl⟩ := List.mem_map.1 hk
    exact Nat.pow_le_pow_right (by decide) (by omega)
  have hsum := List.sum_le_card_nsmul _ _ hterm
  have hlen := coded_length_le P n
  rw [List.length_map, smul_eq_mul] at hsum
  rw [kraftNum_tableOf]
  omega

/-- A check of all pairs of a table is one of all pairs of coded symbols. -/
theorem all_all_tableOf_iff {pw n : Nat} {P : Nat → Nat} {q : Nat × CodeEntry → Nat × CodeEntry → Bool} :
    ((tableOf pw P n).all fun c => (tableOf pw P n).all fun d => q c d) = true ↔
      ∀ i ∈ coded P n, ∀ j ∈ coded P n, q (i, tableEntry pw P n i) (j, tableEntry pw P n j) = true := by
  simp only [List.all_eq_true, mem_tableOf, forall_exists_index, and_imp, forall_apply_eq_imp_iff₂]

theorem parityPrefixFree_tableOf_iff (pw : Nat) (P : Nat → Nat) (n : Nat) :
    parityPrefixFree (tableOf pw P n) = true ↔
      ∀ i ∈ coded P n, ∀ j ∈ coded P n, i ≠ j → parityOfBlocks (baseOf pw P n i) ≠ [] →
        parityOfBlocks (baseOf pw P n j) ≠ [] →
        ¬ parityOfBlocks (baseOf pw P n i) <+: parityOfBlocks (baseOf pw P n j) := by
  rw [parityPrefixFree, all_all_tableOf_iff]
  refine forall₄_congr fun i _ j _ => ?_
  simp only [Bool.or_eq_true, beq_iff_eq, Bool.not_eq_true', tableEntry_plen, parityCode_tableEntry,
    List.length_eq_zero_iff, ← Bool.not_eq_true, List.isPrefixOf_iff_prefix]
  tauto

theorem basePrefixFree_tableOf_iff (pw : Nat) (P : Nat → Nat) (n : Nat) :
    basePrefixFree (tableOf pw P n) = true ↔
      ∀ i ∈ coded P n, ∀ j ∈ coded P n, i ≠ j → ¬ baseOf pw P n i <+: baseOf pw P n j := by
  rw [basePrefixFree, all_all_tableOf_iff]
  refine forall₄_congr fun i _ j _ => ?_
  simp only [Bool.or_eq_true, beq_iff_eq, Bool.not_eq_true', baseCode_tableEntry, ← Bool.not_eq_true,
    List.isPrefixOf_iff_prefix]
  tauto

/-- A register that holds two flags (41_prefix_coder.md R213). -/
theorem flagWord_bits (a b : Bool) :
    (wordOf (a.toNat + 2 * b.toNat)).toNat < 4 ∧ (wordOf (a.toNat + 2 * b.toNat)).getLsbD 0 = a ∧
      (wordOf (a.toNat + 2 * b.toNat)).getLsbD 1 = b := by
  cases a <;> cases b <;> decide

/-- Settles O33: each report is that of the table in closed form. -/
theorem buildReportsKraftAndPrefixFlags : Obligations.BuildReportsKraftAndPrefixFlags := by
  intro s hl hw hc hp
  obtain ⟨⟨-, hpw⟩, ⟨-, hms⟩, -⟩ := hl
  have hlen : (builtTable s).length ≤ 1024 := by
    rw [tableOf_length]; exact (coded_length_le _ _).trans (hc.trans hms)
  obtain ⟨hlt4, hbit0, hbit1⟩ :=
    flagWord_bits (parityPrefixFree (builtTable s)) (basePrefixFree (builtTable s))
  have hkraft := kraftNum_tableOf_lt (numAt s) hpw (hc.trans hms)
  dsimp only
  rw [← coded, ← kraftNum_tableOf, ← tableOf_length s.cfg.pw]
  refine ⟨_, exec_build_eq hw hc hp, rfl, toNat_wordOf_of_lt hkraft, toNat_wordOf_of_lt (by omega),
    ?count, ?kraftOk, hlt4, ?parity, ?base⟩
  case count => exact Nat.mod_eq_of_lt (by omega)
  case kraftOk =>
    show wordOf _ = _
    split
    · next h => rw [decide_eq_true h]; rfl
    · next h => rw [decide_eq_false h]; rfl
  case parity => rw [← parityPrefixFree_tableOf_iff, ← hbit0]; rfl
  case base => rw [← basePrefixFree_tableOf_iff, ← hbit1]; rfl

/-! ### Distributions of total at most 1 -/

/-- A codeword's share of the Kraft sum is at most the numerator (41_prefix_coder.md R211). -/
theorem two_pow_sub_lenOf_le {pw p : Nat} (hp : 0 < p) (h : p ≤ 2 ^ pw) : 2 ^ (pw - lenOf pw p) ≤ p := by
  rw [lenOf_eq_codeLen pw hp, sub_codeLen hp h]
  exact Nat.log2_self_le (by omega)

theorem valBits_strBits (l v : Nat) : valBits (strBits l v) = v % 2 ^ l := by
  induction l with
  | zero => simp [strBits, valBits, Nat.mod_one]
  | succ l ih => rw [strBits, valBits_cons, strBits_length, ih, Nat.mod_pow_succ, Nat.toNat_testBit,
      Nat.mul_comm, Nat.add_comm]

/-- Numbers of `l` bits with one string are one. -/
theorem strBits_injOn {l v w : Nat} (hv : v < 2 ^ l) (hw : w < 2 ^ l) (h : strBits l v = strBits l w) :
    v = w := by
  rw [← Nat.mod_eq_of_lt hv, ← Nat.mod_eq_of_lt hw, ← valBits_strBits, ← valBits_strBits, h]

/-- The first fraction bits of a number are the first of any more of them. -/
theorem take_strBits_div {pw l m f : Nat} (hm : m ≤ l) (hl : l ≤ pw) :
    (strBits l (f / 2 ^ (pw - l))).take m = strBits m (f / 2 ^ (pw - m)) := by
  rw [strBits_eq_map, strBits_eq_map, ← List.map_take, List.take_range, Nat.min_eq_left hm]
  refine List.map_congr_left fun j hj => ?_
  have hlt := List.mem_range.1 hj
  rw [Nat.testBit_div_two_pow, Nat.testBit_div_two_pow]
  congr 1
  omega

theorem div_two_pow_lt {pw l f : Nat} (hl : l ≤ pw) (hf : f < 2 ^ pw) : f / 2 ^ (pw - l) < 2 ^ l := by
  rw [Nat.div_lt_iff_lt_mul (Nat.two_pow_pos _), ← pow_add, Nat.add_sub_cancel' hl]
  exact hf

theorem div_lt_div_of_add_le {a b d : Nat} (hd : 0 < d) (h : a + d ≤ b) : a / d < b / d := by
  have hle := Nat.div_le_div_right (c := d) h
  rw [Nat.add_div_right a hd] at hle
  exact hle

section Distribution

variable {pw n : Nat} {P : Nat → Nat}

theorem le_of_sum_le (h : ((List.range n).map P).sum ≤ 2 ^ pw) {i : Nat} (hi : i < n) : P i ≤ 2 ^ pw :=
  (List.single_le_sum (by simp) _ (List.mem_map_of_mem (List.mem_range.2 hi))).trans h

/-- The Kraft inequality (41_prefix_coder.md R214). -/
theorem kraftNum_le (h : ((List.range n).map P).sum ≤ 2 ^ pw) : kraftNum pw (tableOf pw P n) ≤ 2 ^ pw := by
  rw [kraftNum_tableOf]
  calc ((coded P n).map fun i => 2 ^ (pw - lenOf pw (P i))).sum ≤ ((coded P n).map P).sum :=
        List.sum_le_sum fun i hi => by
          obtain ⟨hlt, hpos⟩ := mem_coded.1 hi
          exact two_pow_sub_lenOf_le hpos (le_of_sum_le h hlt)
    _ ≤ ((List.range n).map P).sum := (List.filter_sublist.map P).sum_le_sum fun _ _ => Nat.zero_le _
    _ ≤ 2 ^ pw := h

/-- The sums before two entries differ by at least the numerator of the earlier one. -/
theorem sumBefore_add_le {i j : Nat} (hi : i < n) (hj : j < n) (h : before P j i = true) :
    sumBefore P n i + P i ≤ sumBefore P n j := by
  obtain ⟨pre, post, hsplit⟩ := List.append_of_mem ((builderOrder_perm P n).mem_iff.2 (List.mem_range.2 hj))
  have hmem : i ∈ pre := by
    rw [← filter_before_builderOrder hsplit, List.mem_filter]
    exact ⟨(builderOrder_perm P n).mem_iff.2 (List.mem_range.2 hi), h⟩
  obtain ⟨pre', mid, rfl⟩ := List.append_of_mem hmem
  rw [List.append_assoc, List.cons_append] at hsplit
  rw [sumBefore_eq hsplit, sumBefore_eq (pre := pre' ++ i :: mid) (post := post) (by rw [hsplit]; simp)]
  simp only [List.map_append, List.map_cons, List.sum_append, List.sum_cons]
  omega

theorem sumBefore_add_le_total {i : Nat} (hi : i < n) :
    sumBefore P n i + P i ≤ ((List.range n).map P).sum := by
  obtain ⟨pre, post, hsplit⟩ := List.append_of_mem ((builderOrder_perm P n).mem_iff.2 (List.mem_range.2 hi))
  rw [← ((builderOrder_perm P n).map P).sum_eq, sumBefore_eq hsplit, hsplit]
  simp only [List.map_append, List.map_cons, List.sum_append, List.sum_cons]
  omega

/-- Of two entries one stands before the other. -/
theorem before_total {i j : Nat} (h : i ≠ j) : before P i j = true ∨ before P j i = true := by
  simp only [before_iff]
  omega

/-- Two entries' codewords differ within the length of either: the sums before them differ by at least the
share of it. -/
theorem baseOf_not_isPrefix (h : ((List.range n).map P).sum ≤ 2 ^ pw) {i j : Nat} (hi : i ∈ coded P n)
    (hj : j ∈ coded P n) (hne : i ≠ j) : ¬ baseOf pw P n i <+: baseOf pw P n j := by
  intro hpre
  obtain ⟨hin, hip⟩ := mem_coded.1 hi
  obtain ⟨hjn, hjp⟩ := mem_coded.1 hj
  have hlen := hpre.length_le
  rw [baseOf_length, baseOf_length] at hlen
  have hiF := (sumBefore_add_le_total (P := P) hin).trans h
  have hjF := (sumBefore_add_le_total (P := P) hjn).trans h
  have hshare := two_pow_sub_lenOf_le hip (le_of_sum_le h hin)
  have hquot : sumBefore P n i / 2 ^ (pw - lenOf pw (P i)) = sumBefore P n j / 2 ^ (pw - lenOf pw (P i)) := by
    have htake := List.prefix_iff_eq_take.1 hpre
    rw [baseOf_length, baseOf, if_pos (by omega), baseOf, if_pos (by omega),
      take_strBits_div hlen (lenOf_le hjp)] at htake
    exact strBits_injOn (div_two_pow_lt (lenOf_le hip) (by omega))
      (div_two_pow_lt (lenOf_le hip) (by omega)) htake
  rcases before_total (P := P) hne with hbefore | hbefore
  · have hsum := sumBefore_add_le hjn hin hbefore
    have hle : P i ≤ P j := by have := (before_iff ..).1 hbefore; omega
    exact (div_lt_div_of_add_le (Nat.two_pow_pos _) (by omega)).ne hquot.symm
  · have hsum := sumBefore_add_le hin hjn hbefore
    exact (div_lt_div_of_add_le (Nat.two_pow_pos _) (by omega)).ne hquot

end Distribution

/-- Settles O34: the sum of the shares is at most that of the numerators, and no base codeword begins
another. -/
theorem kraftHoldsForDistributions : Obligations.KraftHoldsForDistributions := by
  intro s hl hw hc hsum
  refine ⟨_, exec_build_eq hw hc fun i hi => le_of_sum_le hsum hi, rfl, ?_, fun _ => ?_⟩
  · show wordOf _ = _
    rw [decide_eq_true (kraftNum_le hsum)]
    rfl
  · obtain ⟨-, -, hbit⟩ := flagWord_bits (parityPrefixFree (builtTable s)) (basePrefixFree (builtTable s))
    exact hbit.trans ((basePrefixFree_tableOf_iff ..).2 fun i hi j hj hne =>
      baseOf_not_isPrefix hsum hi hj hne)

end Sys2Proof.Proofs

/-! Which entry decides the error of BUILD, ENCODE and HENCS, and what ENCODE writes when no entry is at fault
(41_prefix_coder.md R201, R220, R221; 42_hamming.md R271; 60_exceptions.md R406). -/

namespace Sys2Proof.Proofs

open Sys2Proof.Machine Sys2Proof.Safety

/-! ### The code of a command that ends -/

theorem errByte_inj {c d : ErrCode} (h : errByte c = errByte d) : c = d := by
  revert h
  cases c <;> cases d <;> decide

theorem errByte_ne_zero (c : ErrCode) : errByte c ≠ 0 := by cases c <;> decide

/-- A command that ends reports the error that its pseudocode raises, and no other. -/
theorem exec_errcode_iff {i : Instr} {s : State}
    (h : (∃ u, runOf i s = .ok u) ∨ ∃ c, runOf i s = .raise c) :
    ∃ t, exec i s = .next t ∧ ∀ c, t.errcode = errByte c ↔ runOf i s = .raise c := by
  rcases h with ⟨u, hu⟩ | ⟨d, hd⟩
  · exact ⟨_, exec_of_ok hu, fun c => iff_of_false (errByte_ne_zero c).symm (by rw [hu]; exact nofun)⟩
  · refine ⟨_, exec_of_raise hd, fun c => ?_⟩
    rw [hd, Attempt.raise.injEq]
    exact ⟨errByte_inj, congrArg errByte⟩

/-! ### A loop that stops at the first entry at fault -/

/-- How a loop over `m` entries ends that raises `c` at an entry that is `bad`, and CAPACITY at one with which
the output passes `cap`, where `len j` is the length of the output of the first `j` entries. -/
inductive LoopEnd {α : Type} (m : Nat) (bad : Nat → Prop) (cap : Nat) (len : Nat → Nat) (c : ErrCode)
    (out : α) : Attempt α → Prop
  | done (hgood : ∀ k < m, ¬ bad k) (hfit : ∀ k < m, len (k + 1) ≤ cap) :
      LoopEnd m bad cap len c out (.ok out)
  | bad (j : Nat) (hj : j < m) (hbad : bad j) (hgood : ∀ k < j, ¬ bad k)
      (hfit : ∀ k < j, len (k + 1) ≤ cap) : LoopEnd m bad cap len c out (.raise c)
  | overflow (j : Nat) (hj : j < m) (hover : cap < len (j + 1)) (hgood : ∀ k ≤ j, ¬ bad k)
      (hfit : ∀ k < j, len (k + 1) ≤ cap) : LoopEnd m bad cap len c out (.raise .capacity)

section LoopEnd

variable {α : Type} {m cap : Nat} {bad : Nat → Prop} {len : Nat → Nat} {c : ErrCode} {out : α}
  {r : Attempt α}

/-- Such a loop ends with a result or an error. -/
theorem LoopEnd.ok_or_raise (h : LoopEnd m bad cap len c out r) : r = .ok out ∨ ∃ d, r = .raise d := by
  cases h with
  | done => exact .inl rfl
  | bad => exact .inr ⟨_, rfl⟩
  | overflow => exact .inr ⟨_, rfl⟩

/-- A loop over entries none of which is at fault gives its output. -/
theorem LoopEnd.eq_ok (h : LoopEnd m bad cap len c out r) (hgood : ∀ k < m, ¬ bad k)
    (hfit : ∀ k < m, len (k + 1) ≤ cap) : r = .ok out := by
  cases h with
  | done => rfl
  | bad j hj hbad => exact absurd hbad (hgood j hj)
  | overflow j hj hover => exact absurd (hfit j hj) (Nat.not_le.2 hover)

/-- The error is `c` exactly when the first bad entry comes before the output passes the capacity. -/
theorem LoopEnd.eq_raise_bad_iff (h : LoopEnd m bad cap len c out r) (hmono : Monotone len) (h0 : len 0 ≤ cap)
    (hc : c ≠ .capacity) :
    r = .raise c ↔ ∃ j < m, bad j ∧ (∀ k < j, ¬ bad k) ∧ len j ≤ cap := by
  cases h with
  | done hgood =>
    refine ⟨nofun, ?_⟩
    rintro ⟨j, hj, hbad, -⟩
    exact absurd hbad (hgood j hj)
  | bad j hj hbad hgood hfit =>
    refine iff_of_true rfl ⟨j, hj, hbad, hgood, ?_⟩
    cases j with
    | zero => exact h0
    | succ j => exact hfit j (Nat.lt_succ_self j)
  | overflow j hj hover hgood hfit =>
    refine ⟨fun he => absurd (Attempt.raise.inj he).symm hc, ?_⟩
    rintro ⟨k, -, hbad, -, hle⟩
    have hjk : j < k := by
      by_contra hkj
      exact hgood k (Nat.not_lt.1 hkj) hbad
    exact absurd (hmono hjk) (by show ¬ len (j + 1) ≤ len k; omega)

/-- The error is CAPACITY exactly when the output passes the capacity before a bad entry. -/
theorem LoopEnd.eq_raise_capacity_iff (h : LoopEnd m bad cap len c out r) (hc : c ≠ .capacity) :
    r = .raise .capacity ↔ ∃ j < m, (∀ k ≤ j, ¬ bad k) ∧ cap < len (j + 1) := by
  cases h with
  | done _ hfit =>
    refine ⟨nofun, ?_⟩
    rintro ⟨j, hj, -, hover⟩
    exact absurd (hfit j hj) (Nat.not_le.2 hover)
  | bad j hj hbad _ hfit =>
    refine ⟨fun he => absurd (Attempt.raise.inj he) hc, ?_⟩
    rintro ⟨k, -, hgood, hover⟩
    have hkj : k < j := by
      by_contra hjk
      exact hgood j (Nat.not_lt.1 hjk) hbad
    exact absurd (hfit k hkj) (Nat.not_le.2 hover)
  | overflow j hj hover hgood => exact iff_of_true rfl ⟨j, hj, hgood, hover⟩

end LoopEnd

/-! ### The loops over SYMIN -/

section Symin

variable {s : State}

theorem syminEntry_of_written (hw : SyminWritten s) {j : Nat} (hj : j < s.syminLen.toNat) :
    syminEntry s j = some (symAt s j) := by
  obtain ⟨t, ht⟩ := Option.isSome_iff_exists.1 (hw j hj)
  rw [symAt, ht, Option.getD_some]

/-- The symbol `t` has no code (41_prefix_coder.md R221). -/
abbrev Absent (s : State) (t : Nat) : Prop := s.cfg.maxSym ≤ t ∨ (codeEntry s t).valid = false

/-- The parity codewords of the first `j` symbols of SYMIN, one after another (41_prefix_coder.md R220). -/
abbrev encoded (s : State) (j : Nat) : Bits := (List.range j).flatMap fun k => codeOf s (symAt s k)

theorem encoded_succ (s : State) (j : Nat) : encoded s (j + 1) = encoded s j ++ codeOf s (symAt s j) := by
  simp [encoded, List.range_succ]

theorem encoded_length (s : State) (j : Nat) :
    (encoded s j).length = ((List.range j).map fun k => (codeOf s (symAt s k)).length).sum :=
  List.length_flatMap

theorem encoded_length_mono (s : State) : Monotone fun j => (encoded s j).length :=
  monotone_nat_of_le_succ fun j => by rw [encoded_succ, List.length_append]; omega

/-- ENCODE's loop from entry `j` on, where no entry before it was at fault. -/
theorem encodeFrom_loopEnd (hw : SyminWritten s) {n j : Nat} (hn : j + n = s.syminLen.toNat)
    (hgood : ∀ k < j, ¬ Absent s (symAt s k)) (hfit : ∀ k < j, (encoded s (k + 1)).length ≤ s.cfg.bitbufBits) :
    LoopEnd s.syminLen.toNat (fun k => Absent s (symAt s k)) s.cfg.bitbufBits
      (fun k => (encoded s k).length) .unknownSymbol (encoded s s.syminLen.toNat)
      (encodeFrom s n j (encoded s j)) := by
  induction n generalizing j with
  | zero =>
    obtain rfl : j = s.syminLen.toNat := by omega
    exact .done hgood hfit
  | succ n ih =>
    have hj : j < s.syminLen.toNat := by omega
    have habsent : (s.cfg.maxSym ≤ symAt s j || !(codeEntry s (symAt s j)).valid) = true ↔
        Absent s (symAt s j) := by simp
    rw [encodeFrom, syminEntry_of_written hw hj]
    dsimp only
    rw [← codeOf, ← encoded_succ]
    split
    · next hbad => exact .bad j hj (habsent.1 hbad) hgood hfit
    · next hok =>
      have hgood' : ∀ k < j + 1, ¬ Absent s (symAt s k) :=
        Nat.forall_lt_succ_right.2 ⟨hgood, mt habsent.2 hok⟩
      split
      · next hover => exact .overflow j hj hover (fun k hk => hgood' k (by omega)) hfit
      · next hle => exact ih (by omega) hgood' (Nat.forall_lt_succ_right.2 ⟨hfit, Nat.not_lt.1 hle⟩)

/-- HENCS's loop from entry `j` on, where no entry before it was at fault. -/
theorem hencsFrom_loopEnd (hw : SyminWritten s) {n j : Nat} (hn : j + n = s.syminLen.toNat)
    (hgood : ∀ k < j, ¬ 15 < symAt s k) (hfit : ∀ k < j, 7 * (k + 1) ≤ s.cfg.bitbufBits) :
    LoopEnd s.syminLen.toNat (fun k => 15 < symAt s k) s.cfg.bitbufBits (fun k => 7 * k) .outOfRange
      ((List.range s.syminLen.toNat).flatMap fun k => hammingEnc s.cfg (symAt s k))
      (hencsFrom s n j ((List.range j).flatMap fun k => hammingEnc s.cfg (symAt s k))) := by
  induction n generalizing j with
  | zero =>
    obtain rfl : j = s.syminLen.toNat := by omega
    exact .done hgood hfit
  | succ n ih =>
    have hj : j < s.syminLen.toNat := by omega
    rw [hencsFrom, syminEntry_of_written hw hj]
    dsimp only
    split
    · next hbad => exact .bad j hj hbad hgood hfit
    · next hok =>
      have hgood' : ∀ k < j + 1, ¬ 15 < symAt s k := Nat.forall_lt_succ_right.2 ⟨hgood, hok⟩
      split
      · next hover => exact .overflow j hj hover (fun k hk => hgood' k (by omega)) hfit
      · next hle =>
        have hrest := ih (by omega) hgood' (Nat.forall_lt_succ_right.2 ⟨hfit, Nat.not_lt.1 hle⟩)
        simp only [List.range_succ, List.flatMap_append, List.flatMap_singleton] at hrest
        exact hrest

/-- ENCODE's loop over the whole of SYMIN. -/
theorem encodeFrom_end (hw : SyminWritten s) :
    LoopEnd s.syminLen.toNat (fun k => Absent s (symAt s k)) s.cfg.bitbufBits
      (fun k => (encoded s k).length) .unknownSymbol (encoded s s.syminLen.toNat)
      (encodeFrom s s.syminLen.toNat 0 []) :=
  encodeFrom_loopEnd hw (Nat.zero_add _) nofun nofun

/-- HENCS's loop over the whole of SYMIN. -/
theorem hencsFrom_end (hw : SyminWritten s) :
    LoopEnd s.syminLen.toNat (fun k => 15 < symAt s k) s.cfg.bitbufBits (fun k => 7 * k) .outOfRange
      ((List.range s.syminLen.toNat).flatMap fun k => hammingEnc s.cfg (symAt s k))
      (hencsFrom s s.syminLen.toNat 0 []) :=
  hencsFrom_loopEnd hw (Nat.zero_add _) nofun nofun

theorem runEncode_of_ok {out : Bits} (hl : s.syminLen.toNat ≤ s.cfg.symbufDepth)
    (h : encodeFrom s s.syminLen.toNat 0 [] = .ok out) :
    runOf .encode s = .ok { writeBitout out s with res0 := wordOf s.syminLen.toNat } := by
  rw [runOf, runEncode, if_neg (Nat.not_lt.2 hl), h]

theorem runHencs_of_ok {out : Bits} (hl : s.syminLen.toNat ≤ s.cfg.symbufDepth)
    (h : hencsFrom s s.syminLen.toNat 0 [] = .ok out) :
    runOf .hencs s = .ok { writeBitout out s with res0 := wordOf s.syminLen.toNat } := by
  rw [runOf, runHencs, if_neg (Nat.not_lt.2 hl), h]

theorem runEncode_raise_iff (hl : s.syminLen.toNat ≤ s.cfg.symbufDepth) (c : ErrCode) :
    runOf .encode s = .raise c ↔ encodeFrom s s.syminLen.toNat 0 [] = .raise c := by
  rw [runOf, runEncode, if_neg (Nat.not_lt.2 hl)]
  cases encodeFrom s s.syminLen.toNat 0 [] <;> simp

theorem runHencs_raise_iff (hl : s.syminLen.toNat ≤ s.cfg.symbufDepth) (c : ErrCode) :
    runOf .hencs s = .raise c ↔ hencsFrom s s.syminLen.toNat 0 [] = .raise c := by
  rw [runOf, runHencs, if_neg (Nat.not_lt.2 hl)]
  cases hencsFrom s s.syminLen.toNat 0 [] <;> simp

end Symin

/-! ### The loop over DIST -/

/-- Reading a written distribution with a numerator above `2^PW` raises BAD_PROBABILITY (41_prefix_coder.md
R201). -/
theorem readDist_raise {s : State} {n i : Nat} (hw : ∀ k < n, distEntry s (i + k) = some (numAt s (i + k)))
    (hbad : ∃ k < n, 2 ^ s.cfg.pw < numAt s (i + k)) : readDist s n i = .raise .badProbability := by
  induction n generalizing i with
  | zero => obtain ⟨k, hk, -⟩ := hbad; exact absurd hk (Nat.not_lt_zero k)
  | succ n ih =>
    have h0 := hw 0 (Nat.succ_pos n)
    rw [Nat.add_zero] at h0
    rw [readDist, h0]
    dsimp only
    split
    · rfl
    · next hle =>
      have hshift : ∀ k, i + 1 + k = i + (k + 1) := by omega
      rw [ih (fun k hk => by rw [hshift]; exact hw (k + 1) (by omega))]
      obtain ⟨k, hk, hover⟩ := hbad
      cases k with
      | zero => exact absurd hover hle
      | succ k => exact ⟨k, by omega, by rw [hshift]; exact hover⟩

/-- BUILD of a written distribution that fits, with a numerator above `2^PW`. -/
theorem runBuild_badProbability {s : State} (hw : DistWritten s) (hc : s.distCount.toNat ≤ s.cfg.maxSym)
    (hbad : ∃ i < s.distCount.toNat, 2 ^ s.cfg.pw < numAt s i) :
    runOf .build s = .raise .badProbability := by
  rw [runOf, runBuild, if_neg (Nat.not_lt.2 hc), readDist_raise]
  · simpa using fun k hk => distEntry_of_written hw hk
  · simpa using hbad

/-! ### The obligations -/

/-- Settles O14: each loop stops at its first entry at fault, so the error it raises says which fault came
first. -/
theorem firstOffendingEntryDecides : Obligations.FirstOffendingEntryDecides := by
  intro s
  refine ⟨fun hw hc => ?build, fun hw hl => ⟨?encode, ?hencs⟩⟩
  case build =>
    by_cases hbad : ∃ i < s.distCount.toNat, 2 ^ s.cfg.pw < numAt s i
    · exact ⟨_, exec_of_raise (runBuild_badProbability hw hc hbad), iff_of_true rfl hbad⟩
    · push Not at hbad
      refine ⟨_, exec_build_eq hw hc hbad, iff_of_false (show ¬ (0 : BitVec 8) = 9 by decide) ?_⟩
      rintro ⟨i, hi, hover⟩
      exact absurd (hbad i hi) (Nat.not_le.2 hover)
  case encode =>
    have hend := encodeFrom_end hw
    obtain ⟨t, ht, hcode⟩ := exec_errcode_iff (i := .encode) (s := s) <| hend.ok_or_raise.imp
      (fun h => ⟨_, runEncode_of_ok hl h⟩) fun ⟨c, h⟩ => ⟨c, (runEncode_raise_iff hl c).2 h⟩
    simp only [← encoded_length]
    refine ⟨t, ht, ?_, ?_⟩
    · rw [← hend.eq_raise_bad_iff (encoded_length_mono s) (Nat.zero_le _) nofun, ← runEncode_raise_iff hl]
      exact hcode .unknownSymbol
    · rw [← hend.eq_raise_capacity_iff nofun, ← runEncode_raise_iff hl]
      exact hcode .capacity
  case hencs =>
    have hend := hencsFrom_end hw
    have hmono : Monotone fun k => 7 * k := fun _ _ h => Nat.mul_le_mul_left 7 h
    obtain ⟨t, ht, hcode⟩ := exec_errcode_iff (i := .hencs) (s := s) <| hend.ok_or_raise.imp
      (fun h => ⟨_, runHencs_of_ok hl h⟩) fun ⟨c, h⟩ => ⟨c, (runHencs_raise_iff hl c).2 h⟩
    simp only [← Nat.not_lt (a := 15)]
    refine ⟨t, ht, ?_, ?_⟩
    · rw [← hend.eq_raise_bad_iff hmono (Nat.zero_le _) nofun, ← runHencs_raise_iff hl]
      exact hcode .outOfRange
    · rw [← hend.eq_raise_capacity_iff nofun, ← runHencs_raise_iff hl]
      exact hcode .capacity

/-- ENCODE of symbols that all have codes, whose output fits. -/
theorem exec_encode_eq {s : State} (hw : SyminWritten s) (hl : s.syminLen.toNat ≤ s.cfg.symbufDepth)
    (hcoded : ∀ j < s.syminLen.toNat, symAt s j < s.cfg.maxSym ∧ (codeEntry s (symAt s j)).valid = true)
    (hfit : (encoded s s.syminLen.toNat).length ≤ s.cfg.bitbufBits) :
    exec .encode s = .next (complete { writeBitout (encoded s s.syminLen.toNat) s with
      res0 := wordOf s.syminLen.toNat }) := by
  refine exec_of_ok (runEncode_of_ok hl ((encodeFrom_end hw).eq_ok (fun k hk => ?_) fun k hk =>
    (encoded_length_mono s hk).trans hfit))
  obtain ⟨hlt, hvalid⟩ := hcoded k hk
  rw [not_or, Bool.not_eq_false]
  exact ⟨Nat.not_le.2 hlt, hvalid⟩

/-- Settles O35: no entry is at fault, so ENCODE writes its whole output. -/
theorem encodeConcatenatesParityCodewords : Obligations.EncodeConcatenatesParityCodewords := by
  intro s hlegal hw hl hcoded out hfit
  have hbb : s.cfg.bitbufBits ≤ 16384 := by obtain ⟨-, -, -, ⟨-, hbb, -⟩, -⟩ := hlegal; exact hbb
  exact ⟨_, exec_encode_eq hw hl hcoded hfit, writeBitout_writes out s (by omega), rfl⟩

end Sys2Proof.Proofs

/-! DECODE: the longest match at a position and its owner, the records that tile the stream, and the parity
check of their segments (41_prefix_coder.md R223 to R230). -/

namespace Sys2Proof.Proofs

open Sys2Proof.Machine Sys2Proof.Safety

/-! ### The longest match and its owner -/

theorem parityCode_length (e : CodeEntry) : (parityCode e).length = e.plen := strBits_length _ _

theorem codeOf_length (s : State) (t : Nat) : (codeOf s t).length = (codeEntry s t).plen :=
  parityCode_length _

/-- A string stands at a position exactly when it begins what follows. -/
theorem isPrefix_drop_iff {y x : Bits} (i : Nat) (hpos : 0 < y.length) :
    y <+: x.drop i ↔ i + y.length ≤ x.length ∧ (x.drop i).take y.length = y := by
  rw [List.prefix_iff_eq_take]
  constructor
  · intro h
    have hlen := congrArg List.length h
    rw [List.length_take, List.length_drop] at hlen
    exact ⟨by omega, h.symm⟩
  · exact fun h => h.2.symm

/-- The match set of the model is MatchSet (41_prefix_coder.md R224). -/
theorem mem_matchSet_iff {s : State} {x : Bits} {i : Nat} {c : Nat × CodeEntry} :
    c ∈ matchSet (matchable s s.cfg.maxSym) (x.drop i) ↔
      c.2 = codeEntry s c.1 ∧ MatchAt s x i c.1 := by
  obtain ⟨t, e⟩ := c
  simp only [matchSet, matchable, List.mem_filter, List.mem_map, List.mem_range, Prod.mk.injEq,
    Bool.and_eq_true, bne_iff_ne, List.isPrefixOf_iff_prefix, MatchAt]
  constructor
  · rintro ⟨⟨⟨t, ht, rfl, rfl⟩, hv, hp⟩, hpre⟩
    have hpos : 0 < (codeEntry s t).plen := Nat.pos_of_ne_zero hp
    rw [isPrefix_drop_iff i (by rw [parityCode_length]; exact hpos), parityCode_length] at hpre
    exact ⟨rfl, ht, hv, hpos, hpre⟩
  · rintro ⟨rfl, ht, hv, hpos, hpre⟩
    refine ⟨⟨⟨t, ht, rfl, rfl⟩, hv, by omega⟩, ?_⟩
    rw [isPrefix_drop_iff i (by rw [parityCode_length]; exact hpos), parityCode_length]
    exact hpre

theorem longestLen_append_singleton (m : List (Nat × CodeEntry)) (c : Nat × CodeEntry) :
    longestLen (m ++ [c]) = max (longestLen m) c.2.plen := by
  simp [longestLen]

theorem le_longestLen {m : List (Nat × CodeEntry)} {c : Nat × CodeEntry} (h : c ∈ m) :
    c.2.plen ≤ longestLen m := by
  induction m using List.reverseRecOn with
  | nil => cases h
  | append_singleton m d ih =>
    rw [longestLen_append_singleton]
    rcases List.mem_append.1 h with h | h
    · exact (ih h).trans (le_max_left _ _)
    · obtain rfl := List.mem_singleton.1 h
      exact le_max_right _ _

theorem exists_longest {m : List (Nat × CodeEntry)} (h : m ≠ []) : ∃ c ∈ m, c.2.plen = longestLen m := by
  induction m using List.reverseRecOn with
  | nil => exact absurd rfl h
  | append_singleton m d ih =>
    rw [longestLen_append_singleton]
    by_cases hle : longestLen m ≤ d.2.plen
    · exact ⟨d, by simp, (max_eq_right hle).symm⟩
    · have hm : m ≠ [] := by rintro rfl; exact hle (Nat.zero_le _)
      obtain ⟨c, hc, hlen⟩ := ih hm
      exact ⟨c, List.mem_append_left _ hc, by rw [hlen, max_eq_left (by omega)]⟩

/-! How `Owner` takes a further member into account (41_prefix_coder.md R225). -/

section Owner

variable {m : List (Nat × CodeEntry)} {c d : Nat × CodeEntry} {len : Nat}

theorem ownerOf_append_of_ne (hd : d.2.plen ≠ len) : ownerOf (m ++ [d]) len = ownerOf m len := by
  simp [ownerOf, List.filter_append, hd]

theorem ownerOf_append_of_none (hd : d.2.plen = len) (h : ownerOf m len = none) :
    ownerOf (m ++ [d]) len = some d := by
  unfold ownerOf at h ⊢
  simp [List.filter_append, hd, h]

theorem ownerOf_append_of_some (hd : d.2.plen = len) (h : ownerOf m len = some c) :
    ownerOf (m ++ [d]) len = if c.2.rank ≤ d.2.rank then some d else some c := by
  unfold ownerOf at h ⊢
  simp [List.filter_append, hd, h]

end Owner

/-- The owner among the members of length `len` is one of the greatest rank; there is none only where no
member has that length (41_prefix_coder.md R225). -/
theorem ownerOf_spec (m : List (Nat × CodeEntry)) (len : Nat) :
    (ownerOf m len = none ∧ ∀ c ∈ m, c.2.plen ≠ len) ∨
      ∃ c ∈ m, ownerOf m len = some c ∧ c.2.plen = len ∧
        ∀ d ∈ m, d.2.plen = len → d.2.rank ≤ c.2.rank := by
  induction m using List.reverseRecOn with
  | nil => exact .inl ⟨rfl, nofun⟩
  | append_singleton m d ih =>
    have hlast : d ∈ m ++ [d] := List.mem_append_right _ (List.mem_singleton_self d)
    simp only [List.forall_mem_append, List.forall_mem_singleton]
    by_cases hd : d.2.plen = len
    · rcases ih with ⟨hnone, hno⟩ | ⟨c, hc, howner, hlen, hmax⟩
      · exact .inr ⟨d, hlast, ownerOf_append_of_none hd hnone, hd, fun e he h => absurd h (hno e he),
          fun _ => le_refl _⟩
      · have hstep := ownerOf_append_of_some hd howner
        by_cases hr : c.2.rank ≤ d.2.rank
        · rw [if_pos hr] at hstep
          exact .inr ⟨d, hlast, hstep, hd, fun e he h => (hmax e he h).trans hr, fun _ => le_refl _⟩
        · rw [if_neg hr] at hstep
          exact .inr ⟨c, List.mem_append_left _ hc, hstep, hlen, hmax, fun _ => by omega⟩
    · rw [ownerOf_append_of_ne hd]
      rcases ih with ⟨hnone, hno⟩ | ⟨c, hc, howner, hlen, hmax⟩
      · exact .inl ⟨hnone, hno, hd⟩
      · exact .inr ⟨c, List.mem_append_left _ hc, howner, hlen, hmax, fun h => absurd h hd⟩

/-- Where something matches, the longest match has an owner; where nothing does, it has none. -/
theorem ownerOf_longestLen (m : List (Nat × CodeEntry)) :
    (ownerOf m (longestLen m) = none ∧ m = []) ∨
      ∃ c ∈ m, ownerOf m (longestLen m) = some c ∧ c.2.plen = longestLen m ∧
        ∀ d ∈ m, d.2.plen = longestLen m → d.2.rank ≤ c.2.rank := by
  refine (ownerOf_spec m (longestLen m)).imp_left fun ⟨hnone, hno⟩ => ⟨hnone, ?_⟩
  by_contra hm
  obtain ⟨c, hc, hlen⟩ := exists_longest hm
  exact hno c hc hlen

/-! ### The records that tile the stream -/

/-- The record of the segment that symbol `t` owns at position `i` (41_prefix_coder.md R227). -/
def symRecord (s : State) (x : Bits) (i t : Nat) : Record where
  type := .sym
  symbol := t
  start := i
  stop := i + (codeEntry s t).plen
  w3 := (stripCheck ((x.drop i).take (codeEntry s t).plen) (codeEntry s t).blen).2

/-- What DECODE finds at a position: nothing, or the owner of the longest match. -/
theorem longest_match_cases {s : State} {x : Bits} {i : Nat} {m : List (Nat × CodeEntry)}
    (hm : m = matchSet (matchable s s.cfg.maxSym) (x.drop i)) :
    (ownerOf m (longestLen m) = none ∧ RecordOk s x (desyncRecord i)) ∨
      ∃ t, ownerOf m (longestLen m) = some (t, codeEntry s t) ∧ longestLen m = (codeEntry s t).plen ∧
        0 < (codeEntry s t).plen ∧ i + (codeEntry s t).plen ≤ x.length ∧
        RecordOk s x (symRecord s x i t) := by
  have hin : ∀ t, MatchAt s x i t → (t, codeEntry s t) ∈ m := fun t ht => by
    rw [hm]
    exact mem_matchSet_iff.2 ⟨rfl, ht⟩
  rcases ownerOf_longestLen m with ⟨hnone, hempty⟩ | ⟨⟨t, e⟩, hmem, howner, hlen, hmax⟩
  · refine .inl ⟨hnone, rfl, rfl, rfl, fun t ht => ?_⟩
    have hmem := hin t ht
    rw [hempty] at hmem
    cases hmem
  · rw [hm] at hmem
    obtain ⟨he, hmatch⟩ := mem_matchSet_iff.1 hmem
    dsimp only at he hlen hmax hmatch
    subst he
    obtain ⟨-, -, hpos, hfit, -⟩ := id hmatch
    refine .inr ⟨t, howner, hlen.symm, hpos, hfit, hmatch, rfl, fun u hu => ?_, rfl⟩
    exact ⟨(le_longestLen (hin u hu)).trans_eq hlen.symm, fun h => hmax _ (hin u hu) (h.trans hlen)⟩

theorem symbolsOf_desyncRecord (i : Nat) (recs : List Record) :
    symbolsOf (desyncRecord i :: recs) = symbolsOf recs := rfl

theorem symbolsOf_symRecord (s : State) (x : Bits) (i t : Nat) (recs : List Record) :
    symbolsOf (symRecord s x i t :: recs) = t :: symbolsOf recs := rfl

/-- DECODE's loop from position `i` on: there are records that tile the rest of the stream, and whatever the
number `ns` of symbols before, it ends with them, or with CAPACITY where they hold too many symbols. -/
theorem decodeFrom_tiles {s : State} {x : Bits} (depth : Nat) {fuel i : Nat} (hi : i ≤ x.length)
    (hf : x.length ≤ i + fuel) :
    ∃ recs, Tiles x.length i recs ∧ (∀ r ∈ recs, RecordOk s x r) ∧ ∀ ns ≤ depth,
      decodeFrom depth (matchable s s.cfg.maxSym) fuel i ns (x.drop i) =
        if depth < ns + (symbolsOf recs).length then .raise .capacity else .ok (recs, symbolsOf recs) := by
  induction fuel generalizing i with
  | zero =>
    refine ⟨[], by unfold Tiles; omega, nofun, fun ns hns => ?_⟩
    exact (if_neg (Nat.not_lt.2 hns)).symm
  | succ fuel ih =>
    cases hx : x.drop i with
    | nil =>
      have hlen := List.drop_eq_nil_iff.1 hx
      refine ⟨[], by unfold Tiles; omega, nofun, fun ns hns => ?_⟩
      exact (if_neg (Nat.not_lt.2 hns)).symm
    | cons b rest =>
      have hlt : i < x.length := by
        by_contra hge
        rw [List.drop_eq_nil_iff.2 (Nat.not_lt.1 hge)] at hx
        cases hx
      have hrest : matchSet (matchable s s.cfg.maxSym) (b :: rest) =
          matchSet (matchable s s.cfg.maxSym) (x.drop i) := by rw [hx]
      rcases longest_match_cases hrest with ⟨hnone, hok⟩ | ⟨t, howner, hlen, hpos, hfit, hok⟩
      · obtain ⟨recs, htiles, hrecs, hrun⟩ := ih (i := i + 1) hlt (by omega)
        rw [show x.drop (i + 1) = rest by rw [← List.drop_drop, hx]; rfl] at hrun
        refine ⟨desyncRecord i :: recs, ⟨rfl, Nat.lt_succ_self i, htiles⟩,
          List.forall_mem_cons.2 ⟨hok, hrecs⟩, fun ns hns => ?_⟩
        rw [decodeFrom, hnone, symbolsOf_desyncRecord]
        dsimp only
        rw [hrun ns hns]
        by_cases hover : depth < ns + (symbolsOf recs).length
        · simp only [hover, if_true]
        · simp only [hover, if_false]
      · obtain ⟨recs, htiles, hrecs, hrun⟩ := ih (i := i + (codeEntry s t).plen) hfit (by omega)
        rw [← List.drop_drop, hx] at hrun
        refine ⟨symRecord s x i t :: recs, ⟨rfl, Nat.lt_add_of_pos_right hpos, htiles⟩,
          List.forall_mem_cons.2 ⟨hok, hrecs⟩, fun ns hns => ?_⟩
        rw [decodeFrom, howner, hlen, symbolsOf_symRecord, List.length_cons]
        dsimp only
        by_cases hfull : ns = depth
        · rw [if_pos hfull, if_pos (by omega)]
        · rw [if_neg hfull, hrun (ns + 1) (by omega), symRecord, hx]
          by_cases hover : depth < ns + 1 + (symbolsOf recs).length
          · rw [if_pos hover, if_pos (by omega)]
          · rw [if_neg hover, if_neg (by omega)]

/-- Records that tile a stretch are at most as many as its positions. -/
theorem tiles_length {n i : Nat} {recs : List Record} (h : Tiles n i recs) : i + recs.length ≤ n := by
  induction recs generalizing i with
  | nil => exact Nat.le_of_eq h
  | cons r recs ih =>
    obtain ⟨-, hlt, hrest⟩ := h
    have := ih hrest
    rw [List.length_cons]
    omega

/-! ### What DECODE answers -/

section Decode

variable {s : State}

/-- A buffer whose positions are written is read whole. -/
theorem bufferBits_of_written {m : MemName} {n : Nat} (h : BitsWritten s m n) :
    bufferBits s m n = .ok (bufferOf s m n) := by
  refine (bufferBits_ok_iff ..).2 ⟨by simp [bufferOf], fun k hk => ?_⟩
  have hlt : k < n := by simpa [bufferOf] using hk
  obtain ⟨b, hb⟩ := Option.isSome_iff_exists.1 (h k hlt)
  simp [bufferOf, bitAt, hb]

/-- DECODE of a stream `x` ends with records that tile it, or with CAPACITY where they hold too many
symbols. -/
theorem runDecode_of_bits {x : Bits} (hl : s.bitinLen.toNat ≤ s.cfg.bitbufBits)
    (hx : bufferBits s .bitin s.bitinLen.toNat = .ok x) :
    ∃ recs, Tiles x.length 0 recs ∧ (∀ r ∈ recs, RecordOk s x r) ∧
      runOf .decode s = if s.cfg.symbufDepth < (symbolsOf recs).length then .raise .capacity
        else .ok (writeDecoded recs (symbolsOf recs) s) := by
  obtain ⟨recs, htiles, hrecs, hrun⟩ :=
    decodeFrom_tiles (s := s) (x := x) s.cfg.symbufDepth (fuel := x.length) (Nat.zero_le _) (by omega)
  have hall := hrun 0 (Nat.zero_le _)
  rw [List.drop_zero, Nat.zero_add] at hall
  refine ⟨recs, htiles, hrecs, ?_⟩
  rw [runOf, runDecode, if_neg (Nat.not_lt.2 hl), hx]
  dsimp only
  rw [hall]
  by_cases hover : s.cfg.symbufDepth < (symbolsOf recs).length
  · simp only [hover, if_true]
  · simp only [hover, if_false]

/-- How DECODE can end. -/
theorem runDecode_cases (s : State) :
    (∃ c, runOf .decode s = .raise c) ∨ (∃ f, runOf .decode s = .fault f) ∨
      ∃ x recs, (∀ r ∈ recs, RecordOk s x r) ∧
        runOf .decode s = .ok (writeDecoded recs (symbolsOf recs) s) := by
  by_cases hl : s.cfg.bitbufBits < s.bitinLen.toNat
  · exact .inl ⟨.capacity, if_pos hl⟩
  rcases bufferBits_cases s .bitin s.bitinLen.toNat with ⟨x, hx⟩ | ⟨k, hk, -⟩
  · obtain ⟨recs, -, hrecs, hrun⟩ := runDecode_of_bits (Nat.not_lt.1 hl) hx
    by_cases hover : s.cfg.symbufDepth < (symbolsOf recs).length
    · exact .inl ⟨.capacity, hrun.trans (if_pos hover)⟩
    · exact .inr (.inr ⟨x, recs, hrecs, hrun.trans (if_neg hover)⟩)
  · exact .inr (.inl ⟨_, by rw [runOf, runDecode, if_neg hl, hk]⟩)

theorem decide_countP_pos (p : Record → Bool) (recs : List Record) :
    decide (0 < recs.countP p) = recs.any p := by
  rw [Bool.eq_iff_iff, decide_eq_true_iff, List.countP_pos_iff, List.any_eq_true]

end Decode

/-- Settles O36: the records are those of the loop from position 0, and DECODE writes them unless they hold too
many symbols. -/
theorem decodeTilesTheStream : Obligations.DecodeTilesTheStream := by
  intro s hlegal hl hw x
  obtain ⟨recs, htiles, hrecs, hrun⟩ := runDecode_of_bits hl (bufferBits_of_written hw)
  refine ⟨recs, htiles, hrecs, ?_⟩
  by_cases hover : s.cfg.symbufDepth < (symbolsOf recs).length
  · rw [if_pos hover] at hrun
    exact ⟨_, exec_of_raise hrun, by rw [if_pos hover]; rfl⟩
  · rw [if_neg hover] at hrun
    obtain ⟨-, -, ⟨-, hsd⟩, ⟨-, hbb, -⟩, -⟩ := hlegal
    have hlen := tiles_length htiles
    rw [bufferOf, List.length_map, List.length_range] at hlen
    refine ⟨_, exec_of_ok hrun, ?_⟩
    rw [if_neg hover, ← decide_countP_pos, ← decide_countP_pos]
    exact ⟨writeRecords_writes (symbolsOf recs) recs s (by omega) (by omega), rfl⟩

/-! ### The parity check of the segments -/

theorem recordOk_sym {s : State} {x : Bits} {r : Record} (h : RecordOk s x r) (ht : r.type = .sym) :
    MatchAt s x r.start r.symbol ∧ r.stop = r.start + (codeEntry s r.symbol).plen ∧
      r.w3 = (stripCheck ((x.drop r.start).take (codeEntry s r.symbol).plen)
        (codeEntry s r.symbol).blen).2 := by
  rw [RecordOk, ht] at h
  obtain ⟨hmatch, hstop, -, hmask⟩ := h
  exact ⟨hmatch, hstop, hmask⟩

/-- Every coded symbol's parity codeword is AddParity of its base codeword (41_prefix_coder.md R200). -/
abbrev ParityTable (s : State) : Prop :=
  ∀ t < s.cfg.maxSym, (codeEntry s t).valid = true → codeOf s t = parityOfBlocks (baseCode (codeEntry s t))

theorem parityTable_of_tableOk {s : State} (h : TableOk s) : ParityTable s := by
  obtain ⟨-, hentries⟩ := h
  intro t ht hv
  obtain ⟨hvalid, -⟩ := hentries t ht
  exact (hvalid hv).2

/-- A segment that matches a parity codeword is one, so its parity check finds nothing (41_prefix_coder.md
R230). -/
theorem sym_w3_eq_zero {s : State} {x : Bits} {r : Record} (htable : ParityTable s) (h : RecordOk s x r)
    (ht : r.type = .sym) : r.w3 = 0 := by
  obtain ⟨⟨hlt, hv, -, -, hseg⟩, -, hmask⟩ := recordOk_sym h ht
  have hbase : (codeEntry s r.symbol).blen = (baseCode (codeEntry s r.symbol)).length :=
    (strBits_length _ _).symm
  rw [hmask, hseg, htable _ hlt hv, hbase, ← addParity_eq, stripCheck_addParity]

/-- No record of such a table reports a mismatch. -/
theorem countP_mismatch_eq_zero {s : State} {x : Bits} {recs : List Record} (htable : ParityTable s)
    (h : ∀ r ∈ recs, RecordOk s x r) : (recs.countP fun r => r.type == .sym && r.w3 != 0) = 0 := by
  rw [List.countP_eq_zero]
  intro r hr hbad
  rw [Bool.and_eq_true, beq_iff_eq, bne_iff_ne] at hbad
  exact hbad.2 (sym_w3_eq_zero htable (h r hr) hbad.1)

theorem writeDecoded_perrCnt (recs : List Record) (syms : List Nat) (s : State) :
    (writeDecoded recs syms s).perrCnt =
      BitVec.ofNat 15 (recs.countP fun r => r.type == .sym && r.w3 != 0) := rfl

theorem writeDecoded_perr (recs : List Record) (syms : List Nat) (s : State) :
    (writeDecoded recs syms s).perr = decide (0 < recs.countP fun r => r.type == .sym && r.w3 != 0) := rfl

/-- DECODE's parity report on such a table. -/
theorem writeDecoded_no_mismatch {s : State} {x : Bits} {recs : List Record} (htable : ParityTable s)
    (h : ∀ r ∈ recs, RecordOk s x r) (syms : List Nat) :
    (writeDecoded recs syms s).perrCnt = 0 ∧ (writeDecoded recs syms s).perr = false := by
  rw [writeDecoded_perrCnt, writeDecoded_perr, countP_mismatch_eq_zero htable h]
  exact ⟨rfl, rfl⟩

/-- Settles O37: a DECODE that succeeds writes its records, none of which has a mismatch. -/
theorem noParityMismatchOnBuiltTables : Obligations.NoParityMismatchOnBuiltTables := by
  intro s t _ htable h herr
  rcases runDecode_cases s with ⟨c, hc⟩ | ⟨f, hf⟩ | ⟨x, recs, hrecs, hrun⟩
  · rw [exec_of_raise hc] at h
    cases h
    exact absurd herr (errByte_ne_zero c)
  · rw [exec_eq_conclude, hf] at h
    cases h
  · rw [exec_of_ok hrun] at h
    cases h
    exact writeDecoded_no_mismatch (parityTable_of_tableOk htable) hrecs (symbolsOf recs)

end Sys2Proof.Proofs

/-! The round trip: after a BUILD with PFREE_P = 1, ENCODE, BCOPY and DECODE give the symbols back
(41_prefix_coder.md R234). -/

namespace Sys2Proof.Proofs

open Sys2Proof.Machine Sys2Proof.Safety

/-! ### The table that a BUILD leaves -/

/-- The code tables of two states of one block agree. -/
structure SameTable (s t : State) : Prop where
  cfg : t.cfg = s.cfg
  entry : ∀ k < s.cfg.maxSym, codeEntry t k = codeEntry s k

theorem sameTable_of_sameWindow {s t : State} (hl : s.cfg.Legal) (hcfg : t.cfg = s.cfg)
    (hm : SameWindow .ctab s.mem t.mem) : SameTable s t :=
  ⟨hcfg, fun _ hk => codeEntry_congr fun _ hj =>
    hm.readEntry hl hk (by simp only [entryBytes]; omega)⟩

/-- Symbol `t` has a code that is not empty. -/
abbrev NonemptyCode (s : State) (t : Nat) : Prop :=
  t < s.cfg.maxSym ∧ (codeEntry s t).valid = true ∧ 0 < (codeEntry s t).plen

/-- A table with which a stream of codewords decodes to its symbols: each parity codeword is AddParity of its
base codeword, and no nonempty one begins another symbol's (41_prefix_coder.md R213, R234). -/
structure Decodable (s : State) : Prop where
  parity : ParityTable s
  free : ∀ t u, NonemptyCode s t → NonemptyCode s u → codeOf s t <+: codeOf s u → t = u

theorem SameTable.trans {s t u : State} (h : SameTable s t) (h' : SameTable t u) : SameTable s u :=
  ⟨h'.cfg.trans h.cfg, fun k hk => (h'.entry k (h.cfg ▸ hk)).trans (h.entry k hk)⟩

theorem SameTable.nonemptyCode_iff {s t : State} (h : SameTable s t) (k : Nat) :
    NonemptyCode t k ↔ NonemptyCode s k := by
  unfold NonemptyCode
  rw [h.cfg]
  exact and_congr_right fun hk => by rw [h.entry k hk]

theorem SameTable.codeOf_eq {s t : State} (h : SameTable s t) {k : Nat} (hk : k < s.cfg.maxSym) :
    codeOf t k = codeOf s k := by rw [codeOf, codeOf, h.entry k hk]

theorem SameTable.decodable {s t : State} (h : SameTable s t) (hd : Decodable s) : Decodable t := by
  refine ⟨fun k hk hv => ?_, fun k j hk hj hpre => ?_⟩
  · rw [h.cfg] at hk
    rw [h.entry k hk] at hv
    rw [h.codeOf_eq hk, h.entry k hk]
    exact hd.parity k hk hv
  · rw [h.nonemptyCode_iff] at hk hj
    rw [h.codeOf_eq hk.1, h.codeOf_eq hj.1] at hpre
    exact hd.free k j hk hj hpre

/-- A symbol that has a code in the table BUILD writes is one that it coded. -/
theorem mem_codes_of_valid {s : State} {codes : List (Nat × CodeEntry)} (hl : s.cfg.Legal)
    (hd : (codes.map Prod.fst).Nodup) (hfit : ∀ c ∈ codes, FieldsFit c.2) {t : Nat} (ht : t < s.cfg.maxSym)
    (hv : (codeEntry (writeTable codes s) t).valid = true) :
    (t, codeEntry (writeTable codes s) t) ∈ codes := by
  by_cases hmem : t ∈ codes.map Prod.fst
  · obtain ⟨c, hc, rfl⟩ := List.mem_map.1 hmem
    have hstored : codeEntry (writeTable codes s) c.1 = c.2 :=
      codeEntry_of_holdsWords (hfit c hc) (readWord_storeCodes (forget .ctab s.mem) codes hd hc)
    rw [hstored]
    exact hc
  · have hzero : readWord (writeTable codes s).mem (wordOffset .ctab t 0) = { value := 0, undef := 0 } :=
      readWord_storeCodes_absent hl s.mem hmem ht (by omega)
    rw [codeEntry_valid_of_zero hzero] at hv
    cases hv

theorem parityPrefixFree_apply {codes : List (Nat × CodeEntry)} (h : parityPrefixFree codes = true)
    {c d : Nat × CodeEntry} (hc : c ∈ codes) (hd : d ∈ codes) (hcl : 0 < c.2.plen) (hdl : 0 < d.2.plen)
    (hpre : parityCode c.2 <+: parityCode d.2) : c.1 = d.1 := by
  have hpair := List.all_eq_true.1 (List.all_eq_true.1 h c hc) d hd
  simpa [Nat.pos_iff_ne_zero.1 hcl, Nat.pos_iff_ne_zero.1 hdl,
    List.isPrefixOf_iff_prefix.2 hpre] using hpair

/-- Reading DIST always ends. -/
theorem readDist_ne_hang (s : State) (n i : Nat) : readDist s n i ≠ .hang := by
  induction n generalizing i with
  | zero => exact nofun
  | succ n ih =>
    rw [readDist]
    split
    · exact nofun
    · split
      · exact nofun
      · split
        · exact nofun
        · exact ih (i + 1)

theorem runBuild_ne_hang (s : State) : runOf .build s ≠ .hang := by
  rw [runOf, runBuild]
  split
  · exact nofun
  · split
    · exact nofun
    · exact nofun
    · exact nofun
    · next h => exact absurd h (readDist_ne_hang s _ _)

/-- A BUILD that succeeds has written a table. -/
theorem exec_build_success {s t : State} (h : exec .build s = .next t) (herr : t.errcode = 0) :
    ∃ u, runOf .build s = .ok u ∧ t = complete u := by
  rcases exec_next h with hok | ⟨c, -, rfl⟩ | ⟨hhang, -⟩
  · exact hok
  · exact absurd herr (errByte_ne_zero c)
  · exact absurd hhang (runBuild_ne_hang s)

/-- A BUILD that reports PFREE_P = 1 leaves a decodable table (41_prefix_coder.md R213). -/
theorem decodable_of_build {s t : State} (hl : s.cfg.Legal) (h : exec .build s = .next t)
    (herr : t.errcode = 0) (hfree : t.res3.getLsbD 0 = true) : Decodable t := by
  obtain ⟨u, hu, rfl⟩ := exec_build_success h herr
  obtain ⟨dist, hc, hd, rfl⟩ := runBuild_ok hu
  obtain ⟨⟨-, hpw⟩, ⟨-, hms⟩, -⟩ := id hl
  obtain ⟨hnodup, hentries⟩ := codesOf_entries (pw := s.cfg.pw) hd
  have hok : ∀ c ∈ codesOf s.cfg.pw dist, c.1 < s.cfg.maxSym ∧ EntryOk s.cfg.pw c.2 := by
    intro c hmem
    obtain ⟨hsym, r, f, p, hr, he⟩ := hentries c hmem
    exact ⟨by omega, he ▸ shannonEntry_ok hpw (by omega)⟩
  obtain ⟨-, hbit, -⟩ := flagWord_bits (parityPrefixFree (codesOf s.cfg.pw dist))
    (basePrefixFree (codesOf s.cfg.pw dist))
  have hmem := fun t => mem_codes_of_valid (t := t) hl hnodup fun c hc => (hok c hc).2.fit
  refine ⟨parityTable_of_tableOk (s := writeTable (codesOf s.cfg.pw dist) s)
    (writeTable_tableOk hl hnodup hok), fun k j hk hj hpre => ?_⟩
  obtain ⟨hkm, hkv, hkl⟩ := hk
  obtain ⟨hjm, hjv, hjl⟩ := hj
  exact parityPrefixFree_apply (hbit.symm.trans hfree) (hmem k hkm hkv) (hmem j hjm hjv) hkl hjl hpre

/-! ### A stream of codewords has one tiling -/

/-- A codeword of a symbol that begins what follows a position matches there. -/
theorem matchAt_of_append {s : State} {x rest : Bits} {i t : Nat} (ht : NonemptyCode s t)
    (hx : x.drop i = codeOf s t ++ rest) : MatchAt s x i t := by
  obtain ⟨hlt, hv, hpos⟩ := ht
  have hpre : codeOf s t <+: x.drop i := ⟨rest, hx.symm⟩
  rw [isPrefix_drop_iff i (by rw [codeOf_length]; exact hpos), codeOf_length] at hpre
  exact ⟨hlt, hv, hpos, hpre⟩

/-- Two symbols of a decodable table that match at one position are one. -/
theorem Decodable.match_unique {s : State} (hd : Decodable s) {x : Bits} {i t u : Nat}
    (ht : MatchAt s x i t) (hu : MatchAt s x i u) : t = u := by
  have hbegins : ∀ {k}, MatchAt s x i k → NonemptyCode s k ∧ codeOf s k <+: x.drop i := by
    rintro k ⟨hlt, hv, hpos, hfit, htake⟩
    exact ⟨⟨hlt, hv, hpos⟩, htake ▸ List.take_prefix _ _⟩
  obtain ⟨htn, htp⟩ := hbegins ht
  obtain ⟨hun, hup⟩ := hbegins hu
  rcases Nat.le_total (codeOf s t).length (codeOf s u).length with hle | hle
  · exact hd.free t u htn hun (List.prefix_of_prefix_length_le htp hup hle)
  · exact (hd.free u t hun htn (List.prefix_of_prefix_length_le hup htp hle)).symm

/-- Records that tile a stream of codewords from position `i` on are those of its symbols. -/
theorem symbolsOf_tiles {s : State} {x : Bits} (hd : Decodable s) {syms : List Nat} {i : Nat}
    {recs : List Record} (hsyms : ∀ t ∈ syms, NonemptyCode s t) (hx : x.drop i = syms.flatMap (codeOf s))
    (hi : i ≤ x.length) (htiles : Tiles x.length i recs) (hrecs : ∀ r ∈ recs, RecordOk s x r) :
    symbolsOf recs = syms ∧ ∀ r ∈ recs, r.type = .sym := by
  induction syms generalizing i recs with
  | nil =>
    have hend := List.drop_eq_nil_iff.1 hx
    have hlen := tiles_length htiles
    obtain rfl := List.length_eq_zero_iff.1 (show recs.length = 0 by omega)
    exact ⟨rfl, nofun⟩
  | cons t syms ih =>
    obtain ⟨ht, hrest⟩ := List.forall_mem_cons.1 hsyms
    rw [List.flatMap_cons] at hx
    have hmatch := matchAt_of_append ht hx
    obtain ⟨-, -, hpos, hfit, -⟩ := id hmatch
    cases recs with
    | nil =>
      have hend : i = x.length := htiles
      omega
    | cons r recs =>
      obtain ⟨hstart, -, htiles⟩ := htiles
      obtain ⟨hr, hrecs⟩ := List.forall_mem_cons.1 hrecs
      have htype : r.type = .sym := by
        cases hty : r.type with
        | sym => rfl
        | desync =>
          rw [RecordOk, hty] at hr
          obtain ⟨-, -, -, hnomatch⟩ := hr
          exact absurd (hstart ▸ hmatch) (hnomatch t)
        | ham =>
          rw [RecordOk, hty] at hr
          exact hr.elim
      obtain ⟨hrmatch, hstop, -⟩ := recordOk_sym hr htype
      rw [hstart] at hrmatch hstop
      obtain rfl := hd.match_unique hrmatch hmatch
      rw [hstop] at htiles
      obtain ⟨hsymbols, htypes⟩ := ih hrest
        (by rw [← List.drop_drop, hx, ← codeOf_length, List.drop_left]) hfit htiles hrecs
      refine ⟨?_, List.forall_mem_cons.2 ⟨htype, htypes⟩⟩
      rw [← hsymbols, symbolsOf, List.filter_cons_of_pos (by simp [htype]), List.map_cons, symbolsOf]

/-! ### The three commands -/

/-- ENCODE of symbols that have codes leaves their codewords in BITOUT, and the code table as it was. -/
theorem run_encode {s : State} (hl : s.cfg.Legal) (hw : SyminWritten s)
    (hlen : s.syminLen.toNat ≤ s.cfg.symbufDepth)
    (hcoded : ∀ j < s.syminLen.toNat, symAt s j < s.cfg.maxSym ∧ (codeEntry s (symAt s j)).valid = true)
    (hfit : (encoded s s.syminLen.toNat).length ≤ s.cfg.bitbufBits) :
    ∃ e, run .encode s = .next e ∧ SameTable s e ∧
      e.bitoutLen.toNat = (encoded s s.syminLen.toNat).length ∧
      HoldsBits e.mem .bitout (encoded s s.syminLen.toNat) := by
  have hbb : s.cfg.bitbufBits ≤ 16384 := by obtain ⟨-, -, -, ⟨-, hbb, -⟩, -⟩ := hl; exact hbb
  obtain ⟨hbits, hholds, -, -⟩ := writeBitout_writes (encoded s s.syminLen.toNat)
    (issue (encode .encode) s) (by omega)
  refine ⟨_, exec_encode_eq (s := issue (encode .encode) s) hw hlen hcoded hfit,
    sameTable_of_sameWindow hl rfl fun a ha => ?_, hbits, hholds⟩
  exact readByte_writeBitout_outside (s := issue (encode .encode) s) (hfit.trans hbb)
    (not_inWindow ha (by decide))

/-- BCOPY moves the bits of BITOUT to BITIN (45_control.md R371), and leaves the code table as it was. -/
theorem run_bcopy {s : State} {x : Bits} (hl : s.cfg.Legal) (hlen : s.bitoutLen.toNat = x.length)
    (hx : HoldsBits s.mem .bitout x) (hfit : x.length ≤ s.cfg.bitbufBits) :
    ∃ b, run .bcopy s = .next b ∧ SameTable s b ∧ b.bitinLen.toNat = x.length ∧
      HoldsBits b.mem .bitin x := by
  have hbb : s.cfg.bitbufBits ≤ 16384 := by obtain ⟨-, -, -, ⟨-, hbb, -⟩, -⟩ := hl; exact hbb
  have hread : bufferBits (issue (encode .bcopy) s) .bitout s.bitoutLen.toNat = .ok x :=
    (bufferBits_ok_iff ..).2 ⟨hlen.symm, fun k hk => (hx k hk).trans (List.getElem?_eq_getElem hk)⟩
  have hrun : runOf .bcopy (issue (encode .bcopy) s) = .ok { issue (encode .bcopy) s with
      mem := storeBits s.mem (windowBase .bitin) 0 x
      bitinLen := s.bitoutLen } := by
    rw [runOf, runBcopy, issue_bitoutLen, hread]
    rfl
  refine ⟨_, exec_of_ok hrun, sameTable_of_sameWindow hl rfl fun a ha => ?_, hlen, fun k hk => ?_⟩
  · exact readByte_storeBits_bitin_outside _ (hfit.trans hbb) (not_inWindow ha (by decide))
  · show readBit (storeBits s.mem (windowBase .bitin) 0 x) (windowBase .bitin) k = _
    rw [readBit_storeBits _ (by decide)]
    simp [hk]

/-- DECODE of a stream of codewords gives their symbols (41_prefix_coder.md R223, R230, R234). -/
theorem run_decode {s : State} {syms : List Nat} (hl : s.cfg.Legal) (hd : Decodable s)
    (hsyms : ∀ t ∈ syms, NonemptyCode s t) (hroom : syms.length ≤ s.cfg.symbufDepth)
    (hlen : s.bitinLen.toNat = (syms.flatMap (codeOf s)).length)
    (hx : HoldsBits s.mem .bitin (syms.flatMap (codeOf s)))
    (hfit : (syms.flatMap (codeOf s)).length ≤ s.cfg.bitbufBits) :
    ∃ d, run .decode s = .next d ∧ d.errcode = 0 ∧ d.symoutLen.toNat = syms.length ∧
      HoldsWords d.mem (windowBase .symout) (syms.map wordOf) ∧
      d.desyncCnt = 0 ∧ d.desync = false ∧ d.perrCnt = 0 ∧ d.perr = false := by
  obtain ⟨-, -, ⟨-, hsd⟩, ⟨-, hbb, -⟩, -⟩ := id hl
  have hread : bufferBits (issue (encode .decode) s) .bitin s.bitinLen.toNat =
      .ok (syms.flatMap (codeOf s)) :=
    (bufferBits_ok_iff ..).2 ⟨hlen.symm, fun k hk => (hx k hk).trans (List.getElem?_eq_getElem hk)⟩
  obtain ⟨recs, htiles, hrecs, hrun⟩ := runDecode_of_bits (s := issue (encode .decode) s)
    (hlen.trans_le hfit) hread
  obtain ⟨hsymbols, htypes⟩ := symbolsOf_tiles (s := issue (encode .decode) s) ⟨hd.parity, hd.free⟩ hsyms rfl
    (Nat.zero_le _) htiles hrecs
  have hnodesync : (recs.countP fun r => r.type == .desync) = 0 := by
    rw [List.countP_eq_zero]
    intro r hr
    simp [htypes r hr]
  have hcount := tiles_length htiles
  rw [hsymbols, issue_cfg, if_neg (Nat.not_lt.2 hroom)] at hrun
  obtain ⟨hsymLen, -, hwords, -⟩ := writeRecords_writes syms recs (issue (encode .decode) s) (by omega)
    (by omega)
  refine ⟨_, exec_of_ok hrun, rfl, hsymLen, hwords, ?_, ?_,
    writeDecoded_no_mismatch (s := issue (encode .decode) s) hd.parity hrecs syms⟩
  · show BitVec.ofNat 15 _ = _
    rw [hnodesync]
    rfl
  · show decide (0 < _) = _
    rw [hnodesync]
    rfl

/-- Settles O38: BUILD's table is decodable and the commands leave it as it is, so DECODE reads in BITIN the
codewords of SYMIN's symbols. -/
theorem shannonRoundTrip : Obligations.ShannonRoundTrip := by
  intro s0 s1 s hbuild herr hfree hcfg hl hctab hw hlen hcoded hfit
  have hcfg0 : s1.cfg = s0.cfg := by rw [exec_listed hbuild]; rfl
  have hl1 : s1.cfg.Legal := hcfg ▸ hl
  have hd : Decodable s :=
    (sameTable_of_sameWindow hl1 hcfg hctab).decodable
      (decodable_of_build (hcfg0 ▸ hl1) hbuild herr hfree)
  have hvalid : ∀ j < s.syminLen.toNat,
      symAt s j < s.cfg.maxSym ∧ (codeEntry s (symAt s j)).valid = true := fun j hj => by
    obtain ⟨hlt, hv, -⟩ := hcoded j hj
    exact ⟨hlt, hv⟩
  obtain ⟨e, he, hse, helen, hebits⟩ := run_encode hl hw hlen hvalid hfit
  obtain ⟨b, hb, heb, hblen, hbbits⟩ :=
    run_bcopy (hse.cfg ▸ hl) helen hebits (by rw [hse.cfg]; exact hfit)
  have hsb := hse.trans heb
  have hsyms : ∀ t ∈ (List.range s.syminLen.toNat).map (symAt s), NonemptyCode b t := by
    intro t ht
    obtain ⟨j, hj, rfl⟩ := List.mem_map.1 ht
    exact (hsb.nonemptyCode_iff _).2 (hcoded j (List.mem_range.1 hj))
  have hstream : encoded s s.syminLen.toNat =
      ((List.range s.syminLen.toNat).map (symAt s)).flatMap (codeOf b) := by
    rw [List.flatMap_map]
    exact List.flatMap_congr fun j hj => (hsb.codeOf_eq (hvalid j (List.mem_range.1 hj)).1).symm
  have hfitb : (encoded s s.syminLen.toNat).length ≤ b.cfg.bitbufBits := hsb.cfg ▸ hfit
  rw [hstream] at hblen hbbits hfitb
  obtain ⟨d, hrun, hderr, hdlen, hdwords, hreports⟩ := run_decode (hsb.cfg ▸ hl) (hsb.decodable hd) hsyms
    (by simpa [hsb.cfg] using hlen) hblen hbbits hfitb
  rw [List.map_map] at hdwords
  exact ⟨e, b, d, he, hb, hrun, hderr, by simpa using hdlen, hdwords, hreports⟩

end Sys2Proof.Proofs

/-! The (7,4) code: words of seven bits, their syndromes, and the codewords as the words of syndrome 0
(42_hamming.md R260, R261). -/

namespace Sys2Proof.Proofs

open Sys2Proof.Machine Sys2Proof.Safety

/-! ### Words bit by bit -/

/-- The bit at position `j`, 1..7, of a word (42_hamming.md R260). -/
abbrev posBit (x : Bits) (j : Nat) : Bool := x.getD (j - 1) false

/-- Two words of seven bits with the same bits are one. -/
theorem word_ext {x y : Bits} (hx : x.length = 7) (hy : y.length = 7)
    (h : ∀ j, 1 ≤ j → j ≤ 7 → posBit x j = posBit y j) : x = y := by
  refine List.ext_getElem (hx.trans hy.symm) fun i hi hi' => ?_
  simpa [hi, hi'] using h (i + 1) (by omega) (by omega)

theorem posBit_map (f : Nat → Bool) {j : Nat} (h1 : 1 ≤ j) (h7 : j ≤ 7) :
    posBit ([1, 2, 3, 4, 5, 6, 7].map f) j = f j := by
  interval_cases j <;> rfl

theorem posBit_pointWord (ps : List Nat) {j : Nat} (h1 : 1 ≤ j) (h7 : j ≤ 7) :
    posBit (pointWord ps) j = ps.contains j := posBit_map _ h1 h7

theorem xorWords_length {x y : Bits} (h : x.length = y.length) : (xorWords x y).length = x.length := by
  simp [xorWords, h]

theorem getD_xorWords {x y : Bits} (h : x.length = y.length) (i : Nat) :
    (xorWords x y).getD i false = (x.getD i false ^^ y.getD i false) := by
  by_cases hi : i < x.length
  · simp [xorWords, hi, h ▸ hi]
  · simp [xorWords, Nat.not_lt.1 hi, h ▸ Nat.not_lt.1 hi]

theorem xorWords_xorWords {x y : Bits} (h : x.length = y.length) : xorWords x (xorWords x y) = y := by
  refine List.ext_getElem (by simp [xorWords, h]) fun i _ _ => ?_
  simp [xorWords]

theorem flipAt_length (e : Nat) (x : Bits) : (flipAt e x).length = x.length := List.length_set

theorem posBit_flipAt {x : Bits} (hx : x.length = 7) {e j : Nat} (h1 : 1 ≤ e) (h7 : e ≤ 7) (hj : 1 ≤ j) :
    posBit (flipAt e x) j = (posBit x j != decide (e = j)) := by
  by_cases hej : e = j
  · subst hej
    have hi : e - 1 < x.length := by omega
    simp [flipAt, hi]
  · have hne : e - 1 ≠ j - 1 := by omega
    simp [flipAt, hej, List.getElem?_set_ne hne]

/-- Flipping a bit is adding the word with that bit alone. -/
theorem xorWords_pointWord_singleton {x : Bits} (hx : x.length = 7) {e : Nat} (h1 : 1 ≤ e) (h7 : e ≤ 7) :
    xorWords x (pointWord [e]) = flipAt e x := by
  have hlen : x.length = (pointWord [e]).length := hx
  refine word_ext ((xorWords_length hlen).trans hx) ((flipAt_length e x).trans hx) fun j hj hj7 => ?_
  rw [posBit_flipAt hx h1 h7 hj, posBit, getD_xorWords hlen, ← posBit, ← posBit, posBit_pointWord _ hj hj7]
  by_cases hej : e = j
  · simp [hej]
  · simp [hej, Ne.symm hej]

theorem flipAt_flipAt {x : Bits} (hx : x.length = 7) {e : Nat} (h1 : 1 ≤ e) (h7 : e ≤ 7) :
    flipAt e (flipAt e x) = x := by
  have hlen : (flipAt e x).length = 7 := (flipAt_length e x).trans hx
  refine word_ext ((flipAt_length e _).trans hlen) hx fun j hj _ => ?_
  rw [posBit_flipAt hlen h1 h7 hj, posBit_flipAt hx h1 h7 hj]
  simp

/-- A further position in the list flips one more bit. -/
theorem pointWord_cons {e : Nat} {ps : List Nat} (h1 : 1 ≤ e) (h7 : e ≤ 7) (he : e ∉ ps) :
    pointWord (e :: ps) = flipAt e (pointWord ps) := by
  refine word_ext (pointWord_length _) ((flipAt_length e _).trans (pointWord_length _)) fun j hj hj7 => ?_
  rw [posBit_flipAt (pointWord_length _) h1 h7 hj, posBit_pointWord _ hj hj7, posBit_pointWord _ hj hj7]
  by_cases hej : e = j
  · subst hej
    simp [he]
  · simp [hej, Ne.symm hej]

/-! ### The sum of the columns at the ones of a word -/

/-- The sum of the columns whose bit is 1. -/
def colSum : List (BitVec 3) → Bits → BitVec 3
  | col :: cols, b :: x => (if b then col else 0) ^^^ colSum cols x
  | _, _ => 0

theorem colSum_foldl (cols : List (BitVec 3)) (x : Bits) (a : BitVec 3) :
    (List.zip cols x).foldl (fun a p => if p.2 then a ^^^ p.1 else a) a = a ^^^ colSum cols x := by
  induction cols generalizing x a with
  | nil => simp [colSum]
  | cons col cols ih =>
    cases x with
    | nil => simp [colSum]
    | cons b x =>
      rw [List.zip_cons_cons, List.foldl_cons, ih, colSum]
      cases b <;> simp [BitVec.xor_assoc]

/-- `Syn` is the sum of the columns at the ones of the word (42_hamming.md R260). -/
theorem syndrome_eq_colSum (c : Config) (x : Bits) : syndrome c x = colSum c.hamCols.toList x := by
  rw [syndrome, colSum_foldl]
  exact BitVec.zero_xor

theorem colSum_xorWords (cols : List (BitVec 3)) {x y : Bits} (h : x.length = y.length) :
    colSum cols (xorWords x y) = colSum cols x ^^^ colSum cols y := by
  induction cols generalizing x y with
  | nil => simp [colSum]
  | cons col cols ih =>
    match x, y, h with
    | [], [], _ => simp [colSum, xorWords]
    | b :: x, d :: y, h =>
      have hrest := ih (x := x) (y := y) (by simpa using h)
      rw [xorWords] at hrest
      have hhead : (if (b ^^ d) then col else 0) = (if b then col else 0) ^^^ (if d then col else 0) := by
        cases b <;> cases d <;> simp
      rw [xorWords, List.zipWith_cons_cons, colSum, colSum, colSum, hrest, hhead]
      ac_rfl

/-- Changing one bit adds its column. -/
theorem colSum_set (cols : List (BitVec 3)) {x : Bits} {i : Nat} (hc : i < cols.length) (hx : i < x.length) :
    colSum cols (x.set i (!x.getD i false)) = cols.getD i 0 ^^^ colSum cols x := by
  induction cols generalizing x i with
  | nil => cases hc
  | cons col cols ih =>
    match x, i, hx with
    | b :: x, 0, _ => cases b <;> simp [colSum]
    | b :: x, i + 1, hx =>
      have hrest := ih (x := x) (i := i) (by simpa using hc) (by simpa using hx)
      rw [List.set_cons_succ, colSum, List.getD_cons_succ, List.getD_cons_succ, hrest, colSum]
      ac_rfl

theorem colSum_of_count_zero (cols : List (BitVec 3)) {x : Bits} (h : x.count true = 0) :
    colSum cols x = 0 := by
  induction cols generalizing x with
  | nil => rfl
  | cons col cols ih =>
    match x with
    | [] => rfl
    | true :: x => simp at h
    | false :: x => simp [colSum, ih (x := x) (by simpa using h)]

theorem colSum_of_count_one {cols : List (BitVec 3)} {x : Bits} (hl : x.length = cols.length)
    (h : x.count true = 1) : colSum cols x ∈ cols := by
  induction cols generalizing x with
  | nil => simp [List.length_eq_zero_iff.1 hl] at h
  | cons col cols ih =>
    match x with
    | true :: x => rw [colSum, colSum_of_count_zero cols (by simpa using h)]; simp
    | false :: x =>
      have hrest := ih (x := x) (by simpa using hl) (by simpa using h)
      rw [colSum]
      simpa using Or.inr hrest

theorem colSum_of_count_two {cols : List (BitVec 3)} (hn : cols.Nodup) {x : Bits}
    (hl : x.length = cols.length) (h : x.count true = 2) : colSum cols x ≠ 0 := by
  induction cols generalizing x with
  | nil => simp [List.length_eq_zero_iff.1 hl] at h
  | cons col cols ih =>
    obtain ⟨hcol, hn⟩ := List.nodup_cons.1 hn
    match x with
    | true :: x =>
      have hrest := colSum_of_count_one (cols := cols) (x := x) (by simpa using hl) (by simpa using h)
      rw [colSum, if_pos rfl]
      exact fun hsum => hcol (BitVec.xor_eq_zero_iff.1 hsum ▸ hrest)
    | false :: x =>
      have hrest := ih hn (x := x) (by simpa using hl) (by simpa using h)
      rw [colSum]
      simpa using hrest

/-- A word that is not 0 and whose columns add up to 0 has at least three ones: no column is 0, and no two are
equal (42_hamming.md R266). -/
theorem three_le_count_of_colSum_zero {cols : List (BitVec 3)} (hn : cols.Nodup) (h0 : 0 ∉ cols) {x : Bits}
    (hl : x.length = cols.length) (h : colSum cols x = 0) (hx : x.count true ≠ 0) : 3 ≤ x.count true := by
  have h1 : x.count true ≠ 1 := fun hc => h0 (h ▸ colSum_of_count_one hl hc)
  have h2 : x.count true ≠ 2 := fun hc => colSum_of_count_two hn hl hc h
  omega

/-- Eight different values of three bits are all of them. -/
theorem mem_of_nodup_eight {l : List (BitVec 3)} (hn : l.Nodup) (hl : l.length = 8) (v : BitVec 3) :
    v ∈ l := by
  by_contra hv
  have hmap : ((v :: l).map BitVec.toFin).Nodup :=
    (List.nodup_cons.2 ⟨hv, hn⟩).map fun _ _ h => BitVec.toFin_inj.1 h
  have hcard := hmap.length_le_card
  simp [hl] at hcard

/-! ### The columns and the positions of legal parameters -/

section Legal

variable {c : Config}

theorem hamCols_length (c : Config) : c.hamCols.toList.length = 7 := Vector.length_toList

theorem hamDataPos_length (c : Config) : c.hamDataPos.toList.length = 4 := Vector.length_toList

/-- The `k`-th data position (42_hamming.md R260). -/
abbrev dataPos (c : Config) (k : Nat) : Nat := c.hamDataPos.toList.getD k 0

theorem dataPos_mem (c : Config) {k : Nat} (hk : k < 4) : dataPos c k ∈ c.hamDataPos.toList := by
  have hlt : k < c.hamDataPos.toList.length := (hamDataPos_length c).symm ▸ hk
  rw [dataPos, List.getD_eq_getElem _ _ hlt]
  exact List.getElem_mem hlt

theorem exists_dataPos {j : Nat} (hj : j ∈ c.hamDataPos.toList) : ∃ k < 4, dataPos c k = j := by
  obtain ⟨k, hk, rfl⟩ := List.getElem_of_mem hj
  exact ⟨k, hamDataPos_length c ▸ hk, List.getD_eq_getElem _ _ hk⟩

theorem hamCol_eq_getElem (c : Config) {e : Nat} (h1 : 1 ≤ e) (h7 : e ≤ 7) :
    c.hamCol e = c.hamCols.toList[e - 1]'(by rw [hamCols_length]; omega) :=
  List.getD_eq_getElem ..

/-- The columns are those of positions 1 to 7. -/
theorem mem_hamCols_iff (c : Config) (v : BitVec 3) :
    v ∈ c.hamCols.toList ↔ ∃ e, 1 ≤ e ∧ e ≤ 7 ∧ c.hamCol e = v := by
  constructor
  · intro hv
    obtain ⟨i, hi, rfl⟩ := List.getElem_of_mem hv
    have hi7 : i < 7 := hamCols_length c ▸ hi
    exact ⟨i + 1, by omega, by omega, hamCol_eq_getElem c (by omega) (by omega)⟩
  · rintro ⟨e, h1, h7, rfl⟩
    rw [hamCol_eq_getElem c h1 h7]
    exact List.getElem_mem _

/-- Changing the bit at position `e` adds its column to the syndrome. -/
theorem syndrome_flipAt (c : Config) {x : Bits} (hx : x.length = 7) {e : Nat} (h1 : 1 ≤ e) (h7 : e ≤ 7) :
    syndrome c (flipAt e x) = c.hamCol e ^^^ syndrome c x := by
  rw [syndrome_eq_colSum, syndrome_eq_colSum]
  exact colSum_set _ (by rw [hamCols_length]; omega) (by omega)

theorem syndrome_xorWords (c : Config) {x y : Bits} (h : x.length = y.length) :
    syndrome c (xorWords x y) = syndrome c x ^^^ syndrome c y := by
  simp only [syndrome_eq_colSum, colSum_xorWords _ h]

theorem syndrome_pointWord_cons (c : Config) {e : Nat} {ps : List Nat} (h1 : 1 ≤ e) (h7 : e ≤ 7)
    (he : e ∉ ps) : syndrome c (pointWord (e :: ps)) = c.hamCol e ^^^ syndrome c (pointWord ps) := by
  rw [pointWord_cons h1 h7 he, syndrome_flipAt c (pointWord_length ps) h1 h7]

theorem syndrome_of_count_zero (c : Config) {x : Bits} (h : x.count true = 0) : syndrome c x = 0 := by
  rw [syndrome_eq_colSum, colSum_of_count_zero _ h]

/-- The syndrome as the sum over the positions that hold 1, in order (42_hamming.md R260). -/
theorem synOf_eq_syndrome (c : Config) {x : Bits} (hx : x.length = 7) : synOf c x = syndrome c x := by
  have hzip : List.zip c.hamCols.toList x =
      (List.range 7).map fun j => (c.hamCol (j + 1), x.getD j false) := by
    refine List.ext_getElem (by simp [hx]) fun i hi _ => ?_
    rw [List.length_zip, hamCols_length, hx] at hi
    have hi' : i < 7 := by simpa using hi
    simp [hamCol_eq_getElem c (e := i + 1) (by omega) (by omega), hx, hi']
  rw [synOf, syndrome, hzip, List.foldl_filter, List.foldl_map]

variable (hl : c.Legal)
include hl

theorem hamCols_nodup : c.hamCols.toList.Nodup ∧ (0 : BitVec 3) ∉ c.hamCols.toList := by
  obtain ⟨-, -, -, -, hcols, -⟩ := hl
  exact hcols

theorem hamDataPos_nodup : c.hamDataPos.toList.Nodup := by
  obtain ⟨-, -, -, -, -, ⟨hn, -⟩, -⟩ := hl
  exact hn

theorem hamDataPos_range {j : Nat} (hj : j ∈ c.hamDataPos.toList) : 1 ≤ j ∧ j ≤ 7 := by
  obtain ⟨-, -, -, -, -, ⟨-, hr⟩, -⟩ := hl
  exact hr j hj

theorem dataPos_range {k : Nat} (hk : k < 4) : 1 ≤ dataPos c k ∧ dataPos c k ≤ 7 :=
  hamDataPos_range hl (dataPos_mem c hk)

theorem hamCol_ne_zero {e : Nat} (h1 : 1 ≤ e) (h7 : e ≤ 7) : c.hamCol e ≠ 0 := fun h =>
  (hamCols_nodup hl).2 ((mem_hamCols_iff c 0).2 ⟨e, h1, h7, h⟩)

theorem hamCol_inj {e f : Nat} (h1 : 1 ≤ e) (h7 : e ≤ 7) (h1' : 1 ≤ f) (h7' : f ≤ 7)
    (h : c.hamCol e = c.hamCol f) : e = f := by
  rw [hamCol_eq_getElem c h1 h7, hamCol_eq_getElem c h1' h7', (hamCols_nodup hl).1.getElem_inj_iff] at h
  omega

/-- The seven columns are all the values but 0 (42_hamming.md R264). -/
theorem exists_hamCol {v : BitVec 3} (hv : v ≠ 0) : ∃ e, 1 ≤ e ∧ e ≤ 7 ∧ c.hamCol e = v := by
  obtain ⟨hn, h0⟩ := hamCols_nodup hl
  have hall := mem_of_nodup_eight (List.nodup_cons.2 ⟨h0, hn⟩) (congrArg (· + 1) (hamCols_length c)) v
  exact (mem_hamCols_iff c v).1 ((List.mem_cons.1 hall).resolve_left hv)

/-- `Pos` of a column is its position (42_hamming.md R264). -/
theorem errorPos_hamCol {e : Nat} (h1 : 1 ≤ e) (h7 : e ≤ 7) : errorPos c (c.hamCol e) = e := by
  rw [errorPos, if_neg (hamCol_ne_zero hl h1 h7), hamCol_eq_getElem c h1 h7,
    (hamCols_nodup hl).1.idxOf_getElem]
  omega

/-! ### The parity positions -/

omit hl in
theorem mem_parityPositions_iff (c : Config) (j : Nat) :
    j ∈ c.parityPositions ↔ (1 ≤ j ∧ j ≤ 7) ∧ j ∉ c.hamDataPos.toList := by
  have hrange : j ∈ [1, 2, 3, 4, 5, 6, 7] ↔ 1 ≤ j ∧ j ≤ 7 := by
    simp only [List.mem_cons, List.not_mem_nil, or_false]
    omega
  simp [Config.parityPositions, ← hrange]

omit hl in
theorem parityPositions_nodup (c : Config) : c.parityPositions.Nodup :=
  List.Nodup.filter _ (by decide : [1, 2, 3, 4, 5, 6, 7].Nodup)

/-- Four of the seven positions hold data, so three hold parity. -/
theorem parityPositions_length : c.parityPositions.length = 3 := by
  have hperm : ([1, 2, 3, 4, 5, 6, 7].filter fun j => c.hamDataPos.toList.contains j).Perm
      c.hamDataPos.toList := by
    refine (List.perm_ext_iff_of_nodup (List.Nodup.filter _ (by decide)) (hamDataPos_nodup hl)).2 fun j => ?_
    rw [List.mem_filter, List.contains_iff_mem]
    refine and_iff_right_of_imp fun hj => ?_
    have := hamDataPos_range hl hj
    simp only [List.mem_cons, List.not_mem_nil, or_false]
    omega
  have hsplit := List.length_eq_length_filter_add (l := [1, 2, 3, 4, 5, 6, 7])
    fun j => c.hamDataPos.toList.contains j
  rw [hperm.length_eq, hamDataPos_length] at hsplit
  simp only [List.length_cons, List.length_nil] at hsplit
  rw [Config.parityPositions]
  omega

omit hl in
/-- The eight sums of three independent columns are different. -/
theorem subset_sums_nodup : ∀ a b d : BitVec 3, a ≠ 0 → b ≠ 0 → d ≠ 0 → a ≠ b → a ≠ d → b ≠ d →
    a ^^^ b ≠ d →
    [0, a, b, a ^^^ b, d, a ^^^ d, b ^^^ d, a ^^^ (b ^^^ d)].Nodup := by decide

omit hl in
theorem sublists_three (a b d : Nat) :
    [a, b, d].sublists = [[], [a], [b], [a, b], [d], [a, d], [b, d], [a, b, d]] := rfl

/-- The words with zeros at the data positions have the eight syndromes, one each: the columns of the parity
positions are independent (42_hamming.md R261). -/
theorem parityWords_syndromes :
    ((parityWords c).map (syndrome c)).Nodup ∧ ((parityWords c).map (syndrome c)).length = 8 := by
  obtain ⟨q1, q2, q3, hq⟩ := List.length_eq_three.1 (parityPositions_length hl)
  have hind : c.hamCol q1 ^^^ c.hamCol q2 ≠ c.hamCol q3 := by
    obtain ⟨-, -, -, -, -, -, hind, -⟩ := hl
    simpa [hq] using hind
  have hr : ∀ j ∈ [q1, q2, q3], 1 ≤ j ∧ j ≤ 7 := fun j hj =>
    ((mem_parityPositions_iff c j).1 (hq ▸ hj)).1
  have hn : [q1, q2, q3].Nodup := hq ▸ parityPositions_nodup c
  obtain ⟨⟨h1, h1'⟩, ⟨h2, h2'⟩, ⟨h3, h3'⟩⟩ : (1 ≤ q1 ∧ q1 ≤ 7) ∧ (1 ≤ q2 ∧ q2 ≤ 7) ∧ (1 ≤ q3 ∧ q3 ≤ 7) := by
    simpa using hr
  obtain ⟨⟨h12, h13⟩, h23⟩ : (q1 ≠ q2 ∧ q1 ≠ q3) ∧ q2 ≠ q3 := by simpa using hn
  have hsyn : (parityWords c).map (syndrome c) = [0, c.hamCol q1, c.hamCol q2, c.hamCol q1 ^^^ c.hamCol q2,
      c.hamCol q3, c.hamCol q1 ^^^ c.hamCol q3, c.hamCol q2 ^^^ c.hamCol q3,
      c.hamCol q1 ^^^ (c.hamCol q2 ^^^ c.hamCol q3)] := by
    have h0 : syndrome c (pointWord []) = 0 := syndrome_of_count_zero c rfl
    simp [parityWords, sublists_three, syndrome_pointWord_cons, *]
  rw [hsyn]
  refine ⟨subset_sums_nodup _ _ _ (hamCol_ne_zero hl h1 h1') (hamCol_ne_zero hl h2 h2')
    (hamCol_ne_zero hl h3 h3') ?_ ?_ ?_ hind, rfl⟩
  · exact fun h => h12 (hamCol_inj hl h1 h1' h2 h2' h)
  · exact fun h => h13 (hamCol_inj hl h1 h1' h3 h3' h)
  · exact fun h => h23 (hamCol_inj hl h2 h2' h3 h3' h)

/-- The model's choices of the parity bits are the words with zeros at the data positions. -/
theorem mem_parityWords_iff (p : Bits) :
    p ∈ parityWords c ↔ p.length = 7 ∧ ∀ k < 4, posBit p (dataPos c k) = false := by
  simp only [parityWords, List.mem_map, List.mem_sublists]
  constructor
  · rintro ⟨ps, hps, rfl⟩
    refine ⟨pointWord_length ps, fun k hk => ?_⟩
    obtain ⟨h1, h7⟩ := dataPos_range hl hk
    rw [posBit_pointWord _ h1 h7, ← Bool.not_eq_true, List.contains_iff_mem]
    exact fun hmem => ((mem_parityPositions_iff c _).1 (hps.subset hmem)).2 (dataPos_mem c hk)
  · rintro ⟨hlen, hdata⟩
    refine ⟨c.parityPositions.filter (posBit p), List.filter_sublist, ?_⟩
    refine word_ext (pointWord_length _) hlen fun j h1 h7 => ?_
    rw [posBit_pointWord _ h1 h7, Bool.eq_iff_iff, List.contains_iff_mem, List.mem_filter,
      mem_parityPositions_iff c]
    refine and_iff_right_of_imp fun hj => ⟨⟨h1, h7⟩, fun hmem => ?_⟩
    obtain ⟨k, hk, rfl⟩ := exists_dataPos hmem
    rw [hdata k hk] at hj
    cases hj

theorem dataWord_dataPos (x : Nat) {k : Nat} (hk : k < 4) :
    posBit (dataWord c x) (dataPos c k) = x.testBit (3 - k) := by
  obtain ⟨h1, h7⟩ := dataPos_range hl hk
  have hlt : k < c.hamDataPos.toList.length := (hamDataPos_length c).symm ▸ hk
  have hidx : c.hamDataPos.toList.idxOf? (dataPos c k) = some k := by
    rw [List.idxOf?, List.findIdx?_eq_some_iff_getElem, dataPos, List.getD_eq_getElem _ _ hlt]
    refine ⟨hlt, beq_self_eq_true _, fun i hik heq => ?_⟩
    have := (hamDataPos_nodup hl).getElem_inj_iff.1 (beq_iff_eq.1 heq)
    omega
  rw [dataWord, posBit_map _ h1 h7, hidx]

/-! ### The codewords -/

/-- `Enc(x)` is the word of syndrome 0 with the bits of `x` at the data positions (42_hamming.md R261). -/
theorem hammingEnc_eq_iff (x : Nat) (w : Bits) :
    hammingEnc c x = w ↔
      w.length = 7 ∧ syndrome c w = 0 ∧ ∀ k < 4, posBit w (dataPos c k) = x.testBit (3 - k) := by
  obtain ⟨hn, h8⟩ := parityWords_syndromes hl
  obtain ⟨p, hp, hsyn⟩ := List.mem_map.1 (mem_of_nodup_eight hn h8 (syndrome c (dataWord c x)))
  have hinj : ∀ q ∈ parityWords c, syndrome c q = syndrome c (dataWord c x) → q = p := fun q hq h =>
    List.inj_on_of_nodup_map hn hq hp (h.trans hsyn.symm)
  have hfind : (parityWords c).find? (fun q => syndrome c q == syndrome c (dataWord c x)) = some p := by
    cases hq : (parityWords c).find? (fun q => syndrome c q == syndrome c (dataWord c x)) with
    | none => exact absurd (beq_iff_eq.2 hsyn) (List.find?_eq_none.1 hq p hp)
    | some q =>
      have hbeq := List.find?_some hq
      rw [hinj q (List.mem_of_find?_eq_some hq) (beq_iff_eq.1 hbeq)]
  obtain ⟨hplen, hpdata⟩ := (mem_parityWords_iff hl p).1 hp
  have henc : hammingEnc c x = xorWords (dataWord c x) p := by
    rw [hammingEnc, hfind]
  have hlen : (dataWord c x).length = p.length := hplen.symm
  rw [henc]
  constructor
  · rintro rfl
    refine ⟨xorWords_length hlen, ?_, fun k hk => ?_⟩
    · rw [syndrome_xorWords c hlen, hsyn]
      exact BitVec.xor_self
    · rw [posBit, getD_xorWords hlen, ← posBit, ← posBit, hpdata k hk, dataWord_dataPos hl x hk, Bool.xor_false]
  · rintro ⟨hw, hsw, hdata⟩
    have hlen' : (dataWord c x).length = w.length := hw.symm
    rw [← hinj (xorWords (dataWord c x) w), xorWords_xorWords hlen']
    · refine (mem_parityWords_iff hl _).2 ⟨xorWords_length hlen', fun k hk => ?_⟩
      rw [posBit, getD_xorWords hlen', ← posBit, ← posBit, hdata k hk, dataWord_dataPos hl x hk, Bool.xor_self]
    · rw [syndrome_xorWords c hlen', hsw]
      exact BitVec.xor_zero

theorem hammingEnc_spec (x : Nat) : syndrome c (hammingEnc c x) = 0 ∧
    ∀ k < 4, posBit (hammingEnc c x) (dataPos c k) = x.testBit (3 - k) :=
  ((hammingEnc_eq_iff hl x _).1 rfl).2

end Legal

end Sys2Proof.Proofs

/-! Encoding and decoding one block of the (7,4) code (42_hamming.md R261 to R267), and the commands of one
block, HENC and HDECB. -/

namespace Sys2Proof.Proofs

open Sys2Proof.Machine Sys2Proof.Safety

/-! ### The value of a word -/

section Value

variable {c : Config}

theorem dataValue_eq_valBits (c : Config) (w : Bits) :
    dataValue c w = valBits ((List.range 4).map fun k => posBit w (dataPos c k)) := by
  rw [dataValue]
  congr 1
  refine List.ext_getElem (by simp) fun k hk _ => ?_
  rw [List.length_map] at hk
  have hpos : dataPos c k = c.hamDataPos.toList[k] := List.getD_eq_getElem _ _ hk
  rw [List.getElem_map, List.getElem_map, List.getElem_range, hpos]

/-- The value of a word is `x` exactly when its data bits are those of `x` (42_hamming.md R265). -/
theorem dataValue_eq_iff {x : Nat} (hx : x < 16) (w : Bits) :
    dataValue c w = x ↔ ∀ k < 4, posBit w (dataPos c k) = x.testBit (3 - k) := by
  have hstr : dataValue c w = x ↔ ((List.range 4).map fun k => posBit w (dataPos c k)) = strBits 4 x := by
    rw [dataValue_eq_valBits]
    constructor
    · rintro rfl
      exact (strBits_valBits ((List.range 4).map fun k => posBit w (dataPos c k))).symm
    · rintro h
      rw [h, valBits_strBits]
      exact Nat.mod_eq_of_lt hx
  rw [hstr, strBits_eq_map, List.map_inj_left]
  simp only [List.mem_range]

theorem dataValue_lt (c : Config) (w : Bits) : dataValue c w < 16 := by
  rw [dataValue_eq_valBits]
  exact valBits_lt ((List.range 4).map fun k => posBit w (dataPos c k))

theorem testBit_dataValue (c : Config) (w : Bits) {k : Nat} (hk : k < 4) :
    (dataValue c w).testBit (3 - k) = posBit w (dataPos c k) :=
  ((dataValue_eq_iff (dataValue_lt c w) w).1 rfl k hk).symm

variable (hl : c.Legal)
include hl

/-- The value of a codeword is the value encoded. -/
theorem dataValue_hammingEnc {x : Nat} (hx : x < 16) : dataValue c (hammingEnc c x) = x :=
  (dataValue_eq_iff hx _).2 (hammingEnc_spec hl x).2

/-- A word of syndrome 0 is the codeword of its value. -/
theorem hammingEnc_dataValue {w : Bits} (hw : w.length = 7) (hs : syndrome c w = 0) :
    hammingEnc c (dataValue c w) = w :=
  (hammingEnc_eq_iff hl _ w).2 ⟨hw, hs, (dataValue_eq_iff (dataValue_lt c w) w).1 rfl⟩

end Value

/-! ### Decoding a block -/

section Decoding

variable {c : Config} {w : Bits}

/-- A block of syndrome 0 is decoded as it stands (42_hamming.md R265). -/
theorem hammingDec_of_syndrome_zero (h : syndrome c w = 0) :
    hammingDec c w = { value := dataValue c w, syn := 0, pos := 0, corrected := false } := by
  simp [hammingDec, h, errorPos]

/-- A block whose syndrome is the column of position `e` is decoded with that position flipped (42_hamming.md
R265). -/
theorem hammingDec_of_hamCol (hl : c.Legal) (hw : w.length = 7) {e : Nat} (h1 : 1 ≤ e) (h7 : e ≤ 7)
    (h : syndrome c w = c.hamCol e) :
    hammingDec c w =
      { value := dataValue c (flipAt e w), syn := c.hamCol e, pos := e, corrected := true } := by
  have h0 := hamCol_ne_zero hl h1 h7
  rw [hammingDec, h, errorPos_hamCol hl h1 h7, if_neg h0, xorWords_pointWord_singleton hw h1 h7, bne_iff_ne.2 h0]

theorem hammingDec_hammingEnc (hl : c.Legal) {x : Nat} (hx : x < 16) :
    hammingDec c (hammingEnc c x) = { value := x, syn := 0, pos := 0, corrected := false } := by
  rw [hammingDec_of_syndrome_zero (hammingEnc_spec hl x).1, dataValue_hammingEnc hl hx]

theorem hammingDec_flipAt_hammingEnc (hl : c.Legal) {x : Nat} (hx : x < 16) {e : Nat} (h1 : 1 ≤ e)
    (h7 : e ≤ 7) :
    hammingDec c (flipAt e (hammingEnc c x)) =
      { value := x, syn := c.hamCol e, pos := e, corrected := true } := by
  have hlen := hammingEnc_length c x
  have hsyn : syndrome c (flipAt e (hammingEnc c x)) = c.hamCol e := by
    rw [syndrome_flipAt c hlen h1 h7, (hammingEnc_spec hl x).1]
    exact BitVec.xor_zero
  rw [hammingDec_of_hamCol hl ((flipAt_length e _).trans hlen) h1 h7 hsyn, flipAt_flipAt hlen h1 h7,
    dataValue_hammingEnc hl hx]

/-- The columns of two positions add up to the column of a third. -/
theorem exists_third_position (hl : c.Legal) {a b : Nat} (ha : 1 ≤ a ∧ a ≤ 7) (hb : 1 ≤ b ∧ b ≤ 7)
    (hab : a ≠ b) :
    c.hamCol a ^^^ c.hamCol b ≠ 0 ∧
      ∃ e, 1 ≤ e ∧ e ≤ 7 ∧ c.hamCol e = c.hamCol a ^^^ c.hamCol b ∧ e ≠ a ∧ e ≠ b := by
  have hne : c.hamCol a ^^^ c.hamCol b ≠ 0 := fun h =>
    hab (hamCol_inj hl ha.1 ha.2 hb.1 hb.2 (BitVec.xor_eq_zero_iff.1 h))
  obtain ⟨e, h1, h7, he⟩ := exists_hamCol hl hne
  refine ⟨hne, e, h1, h7, he, ?_, ?_⟩
  · rintro rfl
    have : c.hamCol b = 0 := BitVec.xor_right_inj (c.hamCol e) |>.1 (by rw [← he]; exact BitVec.xor_zero.symm)
    exact hamCol_ne_zero hl hb.1 hb.2 this
  · rintro rfl
    have : c.hamCol a = 0 := BitVec.xor_left_inj (c.hamCol e) |>.1 (by rw [← he]; exact BitVec.zero_xor.symm)
    exact hamCol_ne_zero hl ha.1 ha.2 this

end Decoding

/-! ### The distance of the code -/

theorem distance_eq_count (x y : Bits) : distance x y = (xorWords x y).count true := rfl

theorem eq_of_distance_zero {x y : Bits} (hlen : x.length = y.length) (h : distance x y = 0) : x = y := by
  refine List.ext_getElem hlen fun i hi hi' => ?_
  by_contra hne
  refine List.count_eq_zero.1 h (List.mem_iff_getElem.2 ⟨i, by simp [hi, hi'], ?_⟩)
  simpa using hne

/-- Two codewords that differ do so in three positions at least (42_hamming.md R266). -/
theorem three_le_distance {c : Config} (hl : c.Legal) {x y : Nat} (hx : x < 16) (hy : y < 16) (hxy : x ≠ y) :
    3 ≤ distance (hammingEnc c x) (hammingEnc c y) := by
  have hlen : (hammingEnc c x).length = (hammingEnc c y).length := by simp only [hammingEnc_length]
  have hsyn : syndrome c (xorWords (hammingEnc c x) (hammingEnc c y)) = 0 := by
    rw [syndrome_xorWords c hlen, (hammingEnc_spec hl x).1, (hammingEnc_spec hl y).1]
    exact BitVec.xor_self
  obtain ⟨hn, h0⟩ := hamCols_nodup hl
  rw [distance_eq_count]
  refine three_le_count_of_colSum_zero hn h0 ?_ (syndrome_eq_colSum c _ ▸ hsyn) fun h => hxy ?_
  · rw [xorWords_length hlen, hammingEnc_length, hamCols_length]
  · rw [← dataValue_hammingEnc hl hx, eq_of_distance_zero hlen h, dataValue_hammingEnc hl hy]

/-- The word with ones at positions 1 and 2 and at the position that their columns add up to is a codeword at
distance 3 from that of 0. -/
theorem exists_distance_three {c : Config} (hl : c.Legal) :
    ∃ x < 16, ∃ y < 16, distance (hammingEnc c x) (hammingEnc c y) = 3 := by
  obtain ⟨-, e, h1, h7, hcol, hne1, hne2⟩ := exists_third_position hl (a := 1) (b := 2)
    (by omega) (by omega) (by omega)
  have h0 : syndrome c (pointWord []) = 0 := syndrome_of_count_zero c rfl
  have hsyn : syndrome c (pointWord [e, 1, 2]) = 0 := by
    rw [syndrome_pointWord_cons c h1 h7 (by simp [hne1, hne2]),
      syndrome_pointWord_cons c (by decide) (by decide) (by decide),
      syndrome_pointWord_cons c (by decide) (by decide) (by decide), h0, hcol]
    simp
  refine ⟨_, dataValue_lt c (pointWord [e, 1, 2]), _, dataValue_lt c (pointWord []), ?_⟩
  rw [hammingEnc_dataValue hl (pointWord_length _) hsyn, hammingEnc_dataValue hl (pointWord_length _) h0]
  have h3 : 3 ≤ e := by omega
  interval_cases e <;> decide

/-- Settles O41: a codeword has syndrome 0, and one with a bit flipped the column of its position. -/
theorem hammingCorrectsSingleErrors : Obligations.HammingCorrectsSingleErrors := fun _ hl =>
  ⟨fun _ hx => hammingDec_hammingEnc hl hx, fun _ hx _ h1 h7 => hammingDec_flipAt_hammingEnc hl hx h1 h7,
    fun _ hx _ hy hxy => three_le_distance hl hx hy hxy, exists_distance_three hl⟩

/-- Settles O42: the block is decoded to the codeword at which all three positions are flipped. -/
theorem hammingMiscorrectsDoubleErrors : Obligations.HammingMiscorrectsDoubleErrors := by
  intro c hl x hx a b ha1 ha7 hb1 hb7 hab
  obtain ⟨hne, e, h1, h7, hcol, hea, heb⟩ := exists_third_position hl ⟨ha1, ha7⟩ ⟨hb1, hb7⟩ hab
  have hlen := hammingEnc_length c x
  have hlenb : (flipAt b (hammingEnc c x)).length = 7 := (flipAt_length b _).trans hlen
  have hlena : (flipAt a (flipAt b (hammingEnc c x))).length = 7 := (flipAt_length a _).trans hlenb
  have hsyn : syndrome c (flipAt a (flipAt b (hammingEnc c x))) = c.hamCol e := by
    rw [syndrome_flipAt c hlenb ha1 ha7, syndrome_flipAt c hlen hb1 hb7, (hammingEnc_spec hl x).1, hcol]
    simp
  have hzero : syndrome c (flipAt e (flipAt a (flipAt b (hammingEnc c x)))) = 0 := by
    rw [syndrome_flipAt c hlena h1 h7, hsyn]
    exact BitVec.xor_self
  have hwrong : dataValue c (flipAt e (flipAt a (flipAt b (hammingEnc c x)))) ≠ x := by
    intro hval
    have hsame := hammingEnc_dataValue hl ((flipAt_length e _).trans hlena) hzero
    rw [hval] at hsame
    have hbit := congrArg (posBit · a) hsame
    simp only [posBit_flipAt hlena h1 h7 ha1, posBit_flipAt hlenb ha1 ha7 ha1,
      posBit_flipAt hlen hb1 hb7 ha1] at hbit
    simp [hea, Ne.symm hab] at hbit
  dsimp only
  rw [hammingDec_of_hamCol hl hlena h1 h7 hsyn]
  exact ⟨hcol, hcol ▸ hne, rfl, hwrong, dataValue_lt c _, hea, heb, h1, h7, rfl⟩

/-! ### HENC -/

theorem exec_henc_eq {s : State} (h : s.arg0.toNat ≤ 15) :
    exec .henc s = .next { s with
      seqState := .idle
      done := true
      errcode := 0
      res0 := wordOf (valBits (hammingEnc s.cfg s.arg0.toNat)) } :=
  exec_of_ok (u := { s with res0 := wordOf (valBits (hammingEnc s.cfg s.arg0.toNat)) })
    (if_neg (Nat.not_lt.2 h))

/-- Settles O39: the conditions on the word are those that characterise `Enc`. -/
theorem hencGivesTheCodeword : Obligations.HencGivesTheCodeword := by
  intro s hl hx good
  have hgood : ∀ w, good w ↔ hammingEnc s.cfg s.arg0.toNat = w := by
    intro w
    rw [hammingEnc_eq_iff hl]
    exact and_congr_right fun hw => by rw [synOf_eq_syndrome _ hw]; rfl
  exact ⟨_, (hgood _).2 rfl, fun w hw => ((hgood w).1 hw).symm, rfl, exec_henc_eq hx⟩

/-- Settles O40: the codebook's entries are the values of the codewords under the reference parameters. -/
theorem referenceCodebook : Obligations.ReferenceCodebook := by
  intro s hcfg p hp
  have hentry : p.1.toNat ≤ 15 ∧ wordOf (valBits (hammingEnc Config.reference p.1.toNat)) = p.2 := by
    revert p
    simp only [List.forall_mem_cons, List.not_mem_nil, false_imp_iff, implies_true, and_true]
    decide
  obtain ⟨hle, hcode⟩ := hentry
  rw [exec_henc_eq (s := { s with arg0 := p.1 }) hle, hcfg, hcode]

/-! ### HDECB -/

/-- `Pos` of a syndrome (42_hamming.md R264). -/
theorem errorPos_spec {c : Config} (hl : c.Legal) (v : BitVec 3) :
    if v = 0 then errorPos c v = 0 else 1 ≤ errorPos c v ∧ errorPos c v ≤ 7 ∧ c.hamCol (errorPos c v) = v := by
  split
  · next h => simp [errorPos, h]
  · next h =>
    obtain ⟨e, h1, h7, rfl⟩ := exists_hamCol hl h
    rw [errorPos_hamCol hl h1 h7]
    exact ⟨h1, h7, rfl⟩

/-- The data bits of a block's value, each flipped where the error position says (42_hamming.md R265). -/
theorem testBit_hammingDec {c : Config} (hl : c.Legal) {w : Bits} (hw : w.length = 7) {k : Nat} (hk : k < 4) :
    (hammingDec c w).value.testBit (3 - k) =
      (posBit w (dataPos c k) != decide (errorPos c (syndrome c w) = dataPos c k)) := by
  obtain ⟨hd1, -⟩ := dataPos_range hl hk
  by_cases h : syndrome c w = 0
  · have hpos : errorPos c (syndrome c w) ≠ dataPos c k := by
      rw [h, errorPos, if_pos rfl]
      omega
    rw [hammingDec_of_syndrome_zero h, testBit_dataValue c w hk, decide_eq_false hpos, Bool.bne_false]
  · obtain ⟨e, h1, h7, he⟩ := exists_hamCol hl h
    rw [hammingDec_of_hamCol hl hw h1 h7 he.symm, testBit_dataValue c _ hk, posBit_flipAt hw h1 h7 hd1, ← he,
      errorPos_hamCol hl h1 h7]

theorem hammingDec_value_lt (c : Config) (w : Bits) : (hammingDec c w).value < 16 := dataValue_lt c _

theorem posBit_wordBits (v : Word) {j : Nat} (h1 : 1 ≤ j) (h7 : j ≤ 7) :
    posBit (wordBits v 7) j = v.getLsbD (7 - j) := by
  have hlt : j - 1 < 7 := by omega
  have hsub : 7 - 1 - (j - 1) = 7 - j := by omega
  simp [wordBits, hlt, hsub]

/-- What HDECB answers (42_hamming.md R272). -/
theorem exec_hdecb_eq (s : State) :
    exec .hdecb s =
      .next { s with
        seqState := .idle
        done := true
        errcode := 0
        hcorr := (hammingDec s.cfg (wordBits s.arg0 7)).corrected
        res0 := wordOf (hammingDec s.cfg (wordBits s.arg0 7)).value
        res1 := (hammingDec s.cfg (wordBits s.arg0 7)).syn.setWidth 32
        res2 := wordOf (hammingDec s.cfg (wordBits s.arg0 7)).pos
        res3 := wordOf (hammingDec s.cfg (wordBits s.arg0 7)).corrected.toNat } := by
  rw [← strBits_mod_eq_wordBits]
  rfl

/-- Settles O44: the block in ARG0 is decoded by `Dec`. -/
theorem hdecbDecodesTheBlock : Obligations.HdecbDecodesTheBlock := by
  intro s hl
  dsimp only
  have hlen := wordBits_length s.arg0 7
  rw [synOf_eq_syndrome _ hlen]
  have hlt := hammingDec_value_lt s.cfg (wordBits s.arg0 7)
  refine ⟨_, errorPos s.cfg (syndrome s.cfg (wordBits s.arg0 7)), exec_hdecb_eq s, errorPos_spec hl _, ?_,
    fun k hk => ?_, ?_⟩
  · rw [toNat_wordOf_of_lt (by omega)]
    exact hlt
  · obtain ⟨h1, h7⟩ := dataPos_range hl hk
    rw [BitVec.getLsbD_ofNat, decide_eq_true (by omega : 3 - k < 32), Bool.true_and,
      testBit_hammingDec hl hlen hk, posBit_wordBits _ h1 h7]
  · by_cases h : syndrome s.cfg (wordBits s.arg0 7) = 0
    · simp [hammingDec, h]
    · have hne : (syndrome s.cfg (wordBits s.arg0 7) != 0) = true := bne_iff_ne.2 h
      simp only [hammingDec, h, hne, if_false, ne_eq, not_false_eq_true, decide_true, Bool.toNat_true]
      rfl

end Sys2Proof.Proofs

/-! The streams of the (7,4) code: HENCS, HDEC, and the way from SYMIN to SYMOUT through BITOUT and BITIN
(42_hamming.md R266, R270, R274). -/

namespace Sys2Proof.Proofs

open Sys2Proof.Machine Sys2Proof.Safety

/-! ### HENCS -/

/-- The codewords of the values of SYMIN (42_hamming.md R270). -/
abbrev codewords (s : State) : List Bits :=
  (List.range s.syminLen.toNat).map fun j => hammingEnc s.cfg (symAt s j)

theorem codewords_length (s : State) : (codewords s).length = s.syminLen.toNat := by simp

theorem length_of_mem_codewords {s : State} {w : Bits} (hw : w ∈ codewords s) : w.length = 7 := by
  obtain ⟨j, -, rfl⟩ := List.mem_map.1 hw
  exact hammingEnc_length s.cfg _

theorem flatten_length_of_blocks {blocks : List Bits} (h7 : ∀ w ∈ blocks, w.length = 7) :
    blocks.flatten.length = 7 * blocks.length := by
  rw [List.length_flatten, List.map_congr_left h7]
  simp [Nat.mul_comm]

theorem codewords_flatten_length (s : State) : (codewords s).flatten.length = 7 * s.syminLen.toNat := by
  rw [flatten_length_of_blocks fun _ => length_of_mem_codewords, codewords_length]

/-- HENCS of values that all fit, whose codewords fit BITOUT. -/
theorem exec_hencs_eq {s : State} (hw : SyminWritten s) (hlen : s.syminLen.toNat ≤ s.cfg.symbufDepth)
    (hval : ∀ j < s.syminLen.toNat, symAt s j ≤ 15) (hfit : 7 * s.syminLen.toNat ≤ s.cfg.bitbufBits) :
    exec .hencs s = .next (complete { writeBitout (codewords s).flatten s with
      res0 := wordOf s.syminLen.toNat }) :=
  exec_of_ok (runHencs_of_ok hlen ((hencsFrom_end hw).eq_ok (fun k hk => Nat.not_lt.2 (hval k hk))
    fun k hk => by omega))

/-- Settles O43: no entry is at fault, so HENCS writes its whole output. -/
theorem hencsConcatenatesCodewords : Obligations.HencsConcatenatesCodewords := by
  intro s hl hw hlen hval hfit
  obtain ⟨-, -, -, ⟨-, hbb, -⟩, -⟩ := hl
  have hout := codewords_flatten_length s
  have hwrites := writeBitout_writes (codewords s).flatten s (by omega)
  obtain ⟨hbits, -⟩ := id hwrites
  exact ⟨_, exec_hencs_eq hw hlen hval hfit, hbits.trans hout, hwrites, rfl⟩

/-! ### HDEC -/

/-- The blocks of the pseudocode are the stream's stretches of seven bits (42_hamming.md R274). -/
theorem decodeBlocks_eq_map (c : Config) (nb : Nat) (x : Bits) :
    decodeBlocks c nb x = (List.range nb).map fun k => hammingDec c ((x.drop (7 * k)).take 7) := by
  induction nb generalizing x with
  | zero => rfl
  | succ nb ih =>
    rw [decodeBlocks, ih, List.range_succ_eq_map, List.map_cons, List.map_map]
    refine congrArg₂ _ rfl (List.map_congr_left fun k _ => ?_)
    rw [List.drop_drop, Function.comp_apply, Nat.mul_succ, Nat.add_comm]

theorem mapIdx_map_range {α β : Type} (f : Nat → α → β) (g : Nat → α) (n : Nat) :
    ((List.range n).map g).mapIdx f = (List.range n).map fun k => f k (g k) :=
  List.ext_getElem (by simp) fun k _ _ => by simp

/-- The record of a block, with its fourth word as 10_state.md R90 gives it. -/
theorem hamRecord_eq (k : Nat) (d : Decoded) :
    hamRecord k d = {
      type := .ham
      symbol := d.value
      start := 7 * k
      stop := 7 * k + 7
      w3 := d.syn.toNat + 16 * d.pos + (if d.corrected then 256 else 0) } := by
  cases h : d.corrected <;> simp [hamRecord, h]

theorem runHdec_of_ok {s : State} {x : Bits} (hfit : s.bitinLen.toNat ≤ s.cfg.bitbufBits)
    (h7 : s.bitinLen.toNat % 7 = 0) (hroom : s.bitinLen.toNat / 7 ≤ s.cfg.symbufDepth)
    (hx : bufferBits s .bitin s.bitinLen.toNat = .ok x) :
    runOf .hdec s = .ok (writeBlocks (decodeBlocks s.cfg (s.bitinLen.toNat / 7) x) s) := by
  rw [runOf, runHdec, if_neg (Nat.not_lt.2 hfit), if_neg (not_not.2 h7), if_neg (Nat.not_lt.2 hroom), hx]

/-- Settles O45: the stream is read whole, and its blocks are decoded in order. -/
theorem hdecDecodesEachBlock : Obligations.HdecDecodesEachBlock := by
  intro s hl hfit h7 hroom hw
  dsimp only
  obtain ⟨-, -, ⟨-, hsd⟩, ⟨-, hbb, -⟩, -⟩ := hl
  have hrun := runHdec_of_ok hfit h7 hroom (bufferBits_of_written hw)
  rw [decodeBlocks_eq_map, writeBlocks, mapIdx_map_range, List.map_map, List.countP_map, List.length_map,
    List.length_range] at hrun
  simp only [hamRecord_eq] at hrun
  refine ⟨_, exec_of_ok hrun, writeRecords_writes _ _ s (by simpa using hroom.trans hsd) (by simp; omega), ?_⟩
  simp only [← Nat.pos_iff_ne_zero]
  rfl

/-! ### A stream of blocks -/

/-- The `k`-th stretch of seven bits of a stream of blocks is its `k`-th block. -/
theorem take_drop_flatten {blocks : List Bits} (h7 : ∀ w ∈ blocks, w.length = 7) {k : Nat}
    (hk : k < blocks.length) : (blocks.flatten.drop (7 * k)).take 7 = blocks[k] := by
  induction blocks generalizing k with
  | nil => cases hk
  | cons w blocks ih =>
    obtain ⟨hw, hrest⟩ := List.forall_mem_cons.1 h7
    rw [List.flatten_cons]
    cases k with
    | zero => rw [Nat.mul_zero, List.drop_zero, ← hw, List.take_left, List.getElem_cons_zero]
    | succ k =>
      have hdrop : 7 * (k + 1) = w.length + 7 * k := by omega
      rw [hdrop, ← List.drop_drop, List.drop_left, List.getElem_cons_succ, ih hrest]

theorem map_blocks {α : Type} (f : Bits → α) {blocks : List Bits} (h7 : ∀ w ∈ blocks, w.length = 7) :
    (List.range blocks.length).map (fun k => f ((blocks.flatten.drop (7 * k)).take 7)) = blocks.map f :=
  List.ext_getElem (by simp) fun k hk _ => by
    have hk' : k < blocks.length := by simpa using hk
    simp [take_drop_flatten h7 hk']

/-- The blocks with position `k` of their stream flipped: position `k mod 7 + 1` of block `k / 7`. -/
abbrev flipBlock (k : Nat) (blocks : List Bits) : List Bits :=
  blocks.set (k / 7) (flipAt (k % 7 + 1) (blocks.getD (k / 7) []))

theorem flipBlock_flatten {blocks : List Bits} (h7 : ∀ w ∈ blocks, w.length = 7) {k : Nat}
    (hk : k < 7 * blocks.length) :
    (flipBlock k blocks).flatten = blocks.flatten.set k (!blocks.flatten.getD k false) := by
  induction blocks generalizing k with
  | nil => cases hk
  | cons w blocks ih =>
    obtain ⟨hw, hrest⟩ := List.forall_mem_cons.1 h7
    rw [List.length_cons] at hk
    by_cases hlt : k < 7
    · have hdiv : k / 7 = 0 := by omega
      have hmod : k % 7 + 1 - 1 = k := by omega
      rw [flipBlock, hdiv, List.set_cons_zero, List.getD_cons_zero, List.flatten_cons, List.flatten_cons, flipAt,
        hmod, List.set_append_left _ _ (hw ▸ hlt), List.getD_append _ _ _ _ (hw ▸ hlt)]
    · obtain ⟨j, rfl⟩ : ∃ j, k = j + 7 := ⟨k - 7, by omega⟩
      have hge : w.length ≤ j + 7 := by omega
      have hsub : j + 7 - w.length = j := by omega
      rw [flipBlock, Nat.add_div_right _ (by decide), Nat.add_mod_right, List.set_cons_succ, List.getD_cons_succ,
        List.flatten_cons, List.flatten_cons, List.set_append_right _ _ hge, List.getD_append_right _ _ _ _ hge,
        hsub, ← ih hrest (by omega)]

theorem length_of_mem_flipBlock {blocks : List Bits} (h7 : ∀ w ∈ blocks, w.length = 7) {k : Nat}
    (hk : k < 7 * blocks.length) : ∀ w ∈ flipBlock k blocks, w.length = 7 := by
  intro w hw
  rcases List.mem_or_eq_of_mem_set hw with hmem | rfl
  · exact h7 w hmem
  · rw [flipAt_length, List.getD_eq_getElem _ _ (by omega)]
    exact h7 _ (List.getElem_mem _)

/-- Storing one bit of BITIN changes that position of what it holds. -/
theorem holdsBits_storeBit {M : Memory} {x : Bits} (hx : HoldsBits M .bitin x) {k : Nat} (hk : k < x.length)
    (b : Bool) : HoldsBits (storeBit M (windowBase .bitin) k b) .bitin (x.set k b) := by
  intro j hj
  rw [List.length_set] at hj
  by_cases hjk : j = k
  · subst hjk
    rw [readBit_storeBit_same _ (by decide), List.getElem?_set_self hj]
  · have hplace : bitByte (windowBase .bitin) j ≠ bitByte (windowBase .bitin) k ∨ bitPlace j ≠ bitPlace k := by
      by_contra h
      push Not at h
      exact hjk (bitByte_bitPlace_inj h.1 h.2)
    rw [readBit_storeBit_other _ (by decide) hplace, List.getElem?_set_ne (Ne.symm hjk), hx j hj]

/-- BITIN holds a stream of blocks of seven bits, and BITIN_LEN is its length. -/
structure HoldsBlocks (s : State) (blocks : List Bits) : Prop where
  seven : ∀ w ∈ blocks, w.length = 7
  len : s.bitinLen.toNat = 7 * blocks.length
  bits : HoldsBits s.mem .bitin blocks.flatten

section HoldsBlocks

variable {s : State} {blocks : List Bits}

theorem HoldsBlocks.readBit_eq (h : HoldsBlocks s blocks) {k : Nat} (hk : k < 7 * blocks.length) :
    readBit s.mem (windowBase .bitin) k = some (blocks.flatten.getD k false) := by
  have hk' : k < blocks.flatten.length := (flatten_length_of_blocks h.seven).symm ▸ hk
  rw [h.bits k hk', List.getElem?_eq_getElem hk', List.getD_eq_getElem _ _ hk']

/-- What BITIN holds when one position of it is flipped. -/
theorem HoldsBlocks.flip (h : HoldsBlocks s blocks) {k : Nat} (hk : k < 7 * blocks.length) :
    HoldsBlocks { s with mem := storeBit s.mem (windowBase .bitin) k (!bitAt s .bitin k) }
      (flipBlock k blocks) where
  seven := length_of_mem_flipBlock h.seven hk
  len := by rw [List.length_set]; exact h.len
  bits := by
    rw [flipBlock_flatten h.seven hk, bitAt, h.readBit_eq hk, Option.getD_some]
    exact holdsBits_storeBit h.bits ((flatten_length_of_blocks h.seven).symm ▸ hk) _

/-- HDEC of a stream of blocks decodes each (42_hamming.md R274). -/
theorem run_hdec {values : List Word} {nh : Nat} (hl : s.cfg.Legal) (h : HoldsBlocks s blocks)
    (hroom : blocks.length ≤ s.cfg.symbufDepth) (hfit : 7 * blocks.length ≤ s.cfg.bitbufBits)
    (hvalues : (blocks.map fun w => wordOf (hammingDec s.cfg w).value) = values)
    (hcorr : (blocks.countP fun w => (hammingDec s.cfg w).corrected) = nh) :
    ∃ d, run .hdec s = .next d ∧ d.errcode = 0 ∧ d.symoutLen.toNat = blocks.length ∧
      HoldsWords d.mem (windowBase .symout) values ∧ d.hcorrCnt = BitVec.ofNat 15 nh ∧
      d.hcorr = decide (nh ≠ 0) := by
  have hbuffer : bufferOf (issue (encode .hdec) s) .bitin (7 * blocks.length) = blocks.flatten := by
    refine List.ext_getElem (by simp [bufferOf, flatten_length_of_blocks h.seven]) fun k hk hk' => ?_
    have hk7 : k < 7 * blocks.length := by simpa [bufferOf] using hk
    simp only [bufferOf, List.getElem_map, List.getElem_range, bitAt, issue_mem, h.readBit_eq hk7]
    exact List.getD_eq_getElem _ _ hk'
  have hdiv : 7 * blocks.length / 7 = blocks.length := by omega
  obtain ⟨d, hrun, ⟨hsyms, -, hwords, -⟩, hd⟩ := hdecDecodesEachBlock (issue (encode .hdec) s) hl
    (h.len.trans_le hfit) (by rw [issue_bitinLen, h.len]; omega)
    (by rw [issue_bitinLen, h.len, hdiv]; exact hroom)
    (fun k hk => by rw [issue_mem, h.readBit_eq (h.len ▸ hk)]; rfl)
  rw [issue_bitinLen, issue_cfg, h.len, hdiv, hbuffer] at hsyms hwords hd
  dsimp only at hd
  have hcount : ((List.range blocks.length).countP fun k =>
      (hammingDec s.cfg ((blocks.flatten.drop (7 * k)).take 7)).corrected) = nh := by
    have hmap := congrArg (List.countP fun d => d.corrected) (map_blocks (hammingDec s.cfg) h.seven)
    rw [List.countP_map, List.countP_map] at hmap
    exact hmap.trans hcorr
  rw [List.map_map, Function.comp_def, map_blocks (fun w => wordOf (hammingDec s.cfg w).value) h.seven,
    hvalues] at hwords
  rw [hcount] at hd
  exact ⟨d, hrun, by rw [hd], by simpa using hsyms, hwords, by rw [hd], by rw [hd]⟩

end HoldsBlocks

/-! ### From SYMIN to SYMOUT, with at most one bit flipped on the way -/

/-- HENCS leaves the codewords of SYMIN's values in BITOUT. -/
theorem run_hencs {s : State} (hl : s.cfg.Legal) (hw : SyminWritten s)
    (hroom : s.syminLen.toNat ≤ s.cfg.symbufDepth) (hval : ∀ j < s.syminLen.toNat, symAt s j ≤ 15)
    (hfit : 7 * s.syminLen.toNat ≤ s.cfg.bitbufBits) :
    ∃ e, run .hencs s = .next e ∧ e.cfg = s.cfg ∧ e.bitoutLen.toNat = (codewords s).flatten.length ∧
      HoldsBits e.mem .bitout (codewords s).flatten := by
  obtain ⟨e, hrun, -, ⟨hlen, hbits, -⟩, he⟩ :=
    hencsConcatenatesCodewords (issue (encode .hencs) s) hl hw hroom hval hfit
  exact ⟨e, hrun, by rw [he, issue_cfg], hlen, hbits⟩

section Stream

variable {s : State} (hl : s.cfg.Legal) (hval : ∀ j < s.syminLen.toNat, symAt s j ≤ 15)
include hl hval

/-- The codewords of SYMIN's values decode to them. -/
theorem codewords_values :
    ((codewords s).map fun w => wordOf (hammingDec s.cfg w).value) =
      (List.range s.syminLen.toNat).map fun j => wordOf (symAt s j) := by
  rw [List.map_map]
  refine List.map_congr_left fun j hj => ?_
  have hx : symAt s j < 16 := Nat.lt_succ_of_le (hval j (List.mem_range.1 hj))
  rw [Function.comp_apply, hammingDec_hammingEnc hl hx]

theorem codewords_uncorrected : ∀ w ∈ codewords s, (hammingDec s.cfg w).corrected = false := by
  intro w hw
  obtain ⟨j, hj, rfl⟩ := List.mem_map.1 hw
  rw [hammingDec_hammingEnc hl (Nat.lt_succ_of_le (hval j (List.mem_range.1 hj)))]

theorem codewords_corrected : ((codewords s).countP fun w => (hammingDec s.cfg w).corrected) = 0 :=
  List.countP_eq_zero.2 fun w hw => by simp [codewords_uncorrected hl hval w hw]

/-- A codeword of the stream with one bit flipped decodes to the value of its place in SYMIN, and is marked
corrected (42_hamming.md R266). -/
theorem hammingDec_flipped_codeword {i e : Nat} (hi : i < s.syminLen.toNat) (h1 : 1 ≤ e) (h7 : e ≤ 7) :
    (hammingDec s.cfg (flipAt e ((codewords s).getD i []))).value = symAt s i ∧
      (hammingDec s.cfg (flipAt e ((codewords s).getD i []))).corrected = true := by
  have hget : (codewords s).getD i [] = hammingEnc s.cfg (symAt s i) := by simp [hi]
  rw [hget, hammingDec_flipAt_hammingEnc hl (Nat.lt_succ_of_le (hval i hi)) h1 h7]
  exact ⟨rfl, rfl⟩

/-- With one position of the stream flipped the codewords still decode to SYMIN's values. -/
theorem flipBlock_values {k : Nat} (hk : k < 7 * s.syminLen.toNat) :
    ((flipBlock k (codewords s)).map fun w => wordOf (hammingDec s.cfg w).value) =
      (List.range s.syminLen.toNat).map fun j => wordOf (symAt s j) := by
  have hi : k / 7 < ((List.range s.syminLen.toNat).map fun j => wordOf (symAt s j)).length := by
    simp only [List.length_map, List.length_range]
    omega
  have hsame : wordOf (symAt s (k / 7)) =
      ((List.range s.syminLen.toNat).map fun j => wordOf (symAt s j))[k / 7] := by
    rw [List.getElem_map, List.getElem_range]
  obtain ⟨hvalue, -⟩ := hammingDec_flipped_codeword hl hval (i := k / 7) (e := k % 7 + 1) (by omega) (by omega)
    (by omega)
  rw [flipBlock, List.map_set, codewords_values hl hval, hvalue, hsame, List.set_getElem_self hi]

/-- With one position of the stream flipped one codeword is marked corrected. -/
theorem flipBlock_corrected {k : Nat} (hk : k < 7 * s.syminLen.toNat) :
    ((flipBlock k (codewords s)).countP fun w => (hammingDec s.cfg w).corrected) = 1 := by
  have hi : k / 7 < (codewords s).length := by rw [codewords_length]; omega
  obtain ⟨-, hmark⟩ := hammingDec_flipped_codeword hl hval (i := k / 7) (e := k % 7 + 1) (by omega) (by omega)
    (by omega)
  rw [flipBlock, List.countP_set hi, codewords_corrected hl hval,
    codewords_uncorrected hl hval _ (List.getElem_mem hi), hmark]
  rfl

end Stream

/-- Settles O46: BITIN holds the codewords, and with one position flipped the codewords with one bit of one of
them flipped, each of which decodes to its value. -/
theorem hammingStreamSurvivesOneFlip : Obligations.HammingStreamSurvivesOneFlip := by
  intro s hl hw hroom hval hfit values
  have hflat := codewords_flatten_length s
  have hcount := codewords_length s
  obtain ⟨e, he, hecfg, helen, hebits⟩ := run_hencs hl hw hroom hval hfit
  obtain ⟨b, hb, hsame, hblen, hbbits⟩ :=
    run_bcopy (hecfg ▸ hl) helen hebits (by rw [hecfg, hflat]; exact hfit)
  have hbcfg : b.cfg = s.cfg := hsame.cfg.trans hecfg
  have hblocks : HoldsBlocks b (codewords s) :=
    ⟨fun _ => length_of_mem_codewords, by rw [hblen, hflat, hcount], hbbits⟩
  obtain ⟨d, hd, hderr, hdlen, hdwords, hdcnt, hdflag⟩ :=
    run_hdec (values := values) (nh := 0) (hbcfg ▸ hl) hblocks (by rwa [hcount, hbcfg])
      (by rwa [hcount, hbcfg]) (by rw [hbcfg]; exact codewords_values hl hval)
      (by rw [hbcfg]; exact codewords_corrected hl hval)
  refine ⟨e, b, d, he, hb, hd, hderr, hdlen.trans hcount, hdwords, hdcnt, hdflag, fun k hk => ?_⟩
  have hcount' : (flipBlock k (codewords s)).length = s.syminLen.toNat := List.length_set.trans hcount
  have hflipped := hblocks.flip (k := k) (by rwa [hcount])
  obtain ⟨d', hd', herr, hlen, hwords, hreport⟩ :=
    run_hdec (values := values) (nh := 1) (hbcfg ▸ hl) hflipped (by rwa [hcount', hbcfg])
      (by rwa [hcount', hbcfg]) (by rw [hbcfg]; exact flipBlock_values hl hval hk)
      (by rw [hbcfg]; exact flipBlock_corrected hl hval hk)
  exact ⟨d', hd', herr, hlen.trans hcount', hwords, hreport⟩

end Sys2Proof.Proofs

/-! One step of an LFSR unit bit by bit, and LSTEP (43_lfsr.md R301 to R303, R306). -/

namespace Sys2Proof.Proofs

open Sys2Proof.Machine Sys2Proof.Safety

/-! ### One step of a unit -/

/-- The parity of the low `n` bits of a number is that of its ones. -/
theorem parityOf_eq_oddOnes (v n : Nat) : parityOf v n = oddOnes ((List.range n).map v.testBit) := by
  induction n with
  | zero => rfl
  | succ n ih =>
    rw [parityOf, ih, List.range_succ, List.map_append, oddOnes_append, List.map_singleton,
      oddOnes_singleton, Bool.xor_comm]

/-- The tapped bits of a register `s`: of the register before the shift under PRE, after it under POST
(43_lfsr.md R302, R303). -/
def tappedBits (ph : TapPhase) (n t s : Nat) : Bits :=
  (List.range n).map fun i => t.testBit i &&
    (match ph with
      | .pre => s.testBit i
      | .post => decide (0 < i) && s.testBit (i - 1))

section Step

variable {ph : TapPhase} {n t s : Nat}

theorem parityOf_tapped_pre (n t s : Nat) :
    parityOf (s % 2 ^ n &&& t % 2 ^ n) n = oddOnes (tappedBits .pre n t s) := by
  rw [parityOf_eq_oddOnes]
  refine congrArg oddOnes (List.map_congr_left fun i hi => ?_)
  have hlt := List.mem_range.1 hi
  simp [Nat.testBit_mod_two_pow, hlt, Bool.and_comm]

/-- The register moved left, bit by bit. -/
theorem testBit_shifted (n s k : Nat) : ((s % 2 ^ n) <<< 1 % 2 ^ n).testBit k =
    (decide (k < n) && (decide (0 < k) && s.testBit (k - 1))) := by
  by_cases hk : k < n
  · simp [Nat.testBit_mod_two_pow, hk, show k - 1 < n by omega, Nat.one_le_iff_ne_zero,
      Nat.pos_iff_ne_zero]
  · simp [Nat.testBit_mod_two_pow, hk]

theorem parityOf_tapped_post (n t s : Nat) :
    parityOf ((s % 2 ^ n) <<< 1 % 2 ^ n &&& t % 2 ^ n) n = oddOnes (tappedBits .post n t s) := by
  rw [parityOf_eq_oddOnes]
  refine congrArg oddOnes (List.map_congr_left fun i hi => ?_)
  have hlt := List.mem_range.1 hi
  rw [Nat.testBit_and, testBit_shifted, Nat.testBit_mod_two_pow]
  simp [hlt, Bool.and_comm]

/-- The step reads only the low `n` bits of the register. -/
theorem lfsrStep_mod (ph : TapPhase) (n t s : Nat) :
    lfsrStep ph n t (s % 2 ^ n) = lfsrStep ph n t s := by
  simp only [lfsrStep, Nat.mod_mod]

/-- The bit shifted out is the leftmost one. -/
theorem lfsrStep_out (hn : 1 ≤ n) : (lfsrStep ph n t s).1 = s.testBit (n - 1) := by
  cases ph <;> simp [lfsrStep, Nat.testBit_mod_two_pow, show n - 1 < n by omega]

/-- The register after a step: bit 0 is the feedback, the bits below the length have moved left, and the
others are 0. -/
theorem lfsrStep_testBit (hn : 1 ≤ n) (k : Nat) :
    (lfsrStep ph n t s).2.testBit k =
      if k = 0 then s.testBit (n - 1) != oddOnes (tappedBits ph n t s)
      else decide (k < n) && s.testBit (k - 1) := by
  have hout : (s % 2 ^ n).testBit (n - 1) = s.testBit (n - 1) := by
    simp [Nat.testBit_mod_two_pow, show n - 1 < n by omega]
  cases ph with
  | pre =>
    simp only [lfsrStep, parityOf_tapped_pre, hout, Nat.or_mod_two_pow, Nat.testBit_or, testBit_shifted]
    rw [Nat.testBit_mod_two_pow, Nat.testBit_bool_toNat]
    cases k <;> simp [show 0 < n by omega]
  | post =>
    simp only [lfsrStep, parityOf_tapped_post, hout, Nat.testBit_or, testBit_shifted,
      Nat.testBit_bool_toNat]
    cases k <;> simp

/-- The register after a step has no bit at or above the length. -/
theorem lfsrStep_lt (hn : 1 ≤ n) : (lfsrStep ph n t s).2 < 2 ^ n :=
  Nat.lt_pow_two_of_testBit _ fun k hk => by
    rw [lfsrStep_testBit hn, if_neg (by omega), decide_eq_false (by omega), Bool.false_and]

end Step

theorem configured_iff (l : Lfsr) : configured l = true ↔ 1 ≤ l.len.toNat ∧ l.len.toNat ≤ 32 := by
  rw [configured, Bool.and_eq_true, decide_eq_true_iff, decide_eq_true_iff, Config.lfsrMaxLen]

/-! ### LSTEP -/

/-- LSTEP of a configured unit. -/
theorem exec_lstep_eq {s : State} {u : LfsrUnit} {r : Bool × Nat} (hc : configured (lfsrOf s u) = true)
    (hr : lfsrStep s.cfg.tapPhase (lfsrOf s u).len.toNat (lfsrOf s u).taps.toNat
      (lfsrOf s u).state.toNat = r) :
    exec (.lstep u) s = .next (complete { setLfsrState u r.2 s with res0 := wordOf r.1.toNat }) := by
  subst hr
  refine exec_of_ok ?_
  simp [runOf, runLstep, hc]

/-- Settles O47: the register of the step, bit by bit. -/
theorem lstepShiftsTheRegister : Obligations.LstepShiftsTheRegister := by
  intro s u
  dsimp only
  intro hn hn32
  refine ⟨wordOf (lfsrStep s.cfg.tapPhase (lfsrOf s u).len.toNat (lfsrOf s u).taps.toNat
    (lfsrOf s u).state.toNat).2, ?_, fun k hk => ?_⟩
  · rw [exec_lstep_eq ((configured_iff _).2 ⟨hn, hn32⟩) rfl, lfsrStep_out hn, BitVec.testBit_toNat]
    cases (lfsrOf s u).state.getLsbD ((lfsrOf s u).len.toNat - 1) <;> cases u <;> rfl
  · rw [BitVec.getLsbD_ofNat, decide_eq_true hk, Bool.true_and]
    exact lfsrStep_testBit hn k

end Sys2Proof.Proofs

/-! The sequence of an LFSR unit: LGEN, which writes it, the recurrence under PRE and the lock-up of the zero
register (43_lfsr.md R305, R307). -/

namespace Sys2Proof.Proofs

open Sys2Proof.Machine Sys2Proof.Safety

/-! ### The registers and the output bits of a unit -/

section Sequence

variable {ph : TapPhase} {l : Lfsr}

theorem lfsrStep_lfsrAfter (ph : TapPhase) (l : Lfsr) (k : Nat) :
    lfsrStep ph l.len.toNat l.taps.toNat (lfsrAfter ph l k) = (lfsrBit ph l k, lfsrAfter ph l (k + 1)) := rfl

theorem lfsrBit_eq_testBit (hn : 1 ≤ l.len.toNat) (k : Nat) :
    lfsrBit ph l k = (lfsrAfter ph l k).testBit (l.len.toNat - 1) := lfsrStep_out hn

/-- Bit 0 after a step is the bit output XOR the parity of the tapped bits. -/
theorem testBit_zero_lfsrAfter_succ (hn : 1 ≤ l.len.toNat) (k : Nat) :
    (lfsrAfter ph l (k + 1)).testBit 0 =
      (lfsrBit ph l k != oddOnes (tappedBits ph l.len.toNat l.taps.toNat (lfsrAfter ph l k))) := by
  rw [lfsrBit_eq_testBit hn]
  exact (lfsrStep_testBit hn 0).trans (if_pos rfl)

/-- A bit below the leftmost moves left at a step. -/
theorem testBit_succ_lfsrAfter_succ (hn : 1 ≤ l.len.toNat) {i : Nat} (hi : i + 1 < l.len.toNat) (k : Nat) :
    (lfsrAfter ph l (k + 1)).testBit (i + 1) = (lfsrAfter ph l k).testBit i := by
  refine (lfsrStep_testBit hn (i + 1)).trans ?_
  simp [hi]

/-- The bit at place `n − 1 − d` of the register is output `d` steps later. -/
theorem testBit_lfsrAfter (hn : 1 ≤ l.len.toNat) {d : Nat} (hd : d < l.len.toNat) (k : Nat) :
    (lfsrAfter ph l k).testBit (l.len.toNat - 1 - d) = lfsrBit ph l (k + d) := by
  induction d generalizing k with
  | zero => exact (lfsrBit_eq_testBit hn k).symm
  | succ d ih =>
    have hplace : l.len.toNat - 1 - d = l.len.toNat - 1 - (d + 1) + 1 := by omega
    rw [← testBit_succ_lfsrAfter_succ hn (by omega), ← hplace, ih (by omega),
      Nat.add_right_comm, Nat.add_assoc]

/-- `N` steps from the register after `j` steps output the bits from `j` on. -/
theorem lfsrRun_lfsrAfter (ph : TapPhase) (l : Lfsr) (N j : Nat) :
    lfsrRun ph l.len.toNat l.taps.toNat N (lfsrAfter ph l j) =
      ((List.range' j N).map (lfsrBit ph l), lfsrAfter ph l (j + N)) := by
  induction N generalizing j with
  | zero => rfl
  | succ N ih =>
    rw [lfsrRun, lfsrStep_lfsrAfter, ih, List.range'_succ, List.map_cons, Nat.add_right_comm]
    rfl

end Sequence

/-! ### LGEN -/

/-- LGEN of a configured unit, with a count that fits, ends with the unit's next bits. -/
theorem runLgen_of_fit {s : State} {u : LfsrUnit} (hc : configured (lfsrOf s u) = true)
    (hfit : bitCount s ≤ s.cfg.bitbufBits) :
    runOf (.lgen u) s = .ok
      { writeBitout ((List.range (bitCount s)).map (lfsrBit s.cfg.tapPhase (lfsrOf s u)))
          (setLfsrState u (lfsrAfter s.cfg.tapPhase (lfsrOf s u) (bitCount s)) s) with
        res0 := wordOf (bitCount s) } := by
  have hrun := lfsrRun_lfsrAfter s.cfg.tapPhase (lfsrOf s u) (bitCount s) 0
  rw [← List.range_eq_range', Nat.zero_add, lfsrAfter] at hrun
  rw [runOf, runLgen, if_neg (by simp [hc]), if_neg (Nat.not_lt.2 hfit), hrun]

/-- Settles O48: the bits that LGEN collects are the unit's next ones. -/
theorem lgenWritesTheNextBits : Obligations.LgenWritesTheNextBits := by
  intro s u hlegal hc hfit
  have hbb : s.cfg.bitbufBits ≤ 16384 := by obtain ⟨-, -, -, ⟨-, hbb, -⟩, -⟩ := hlegal; exact hbb
  have harg : wordOf (bitCount s) = s.arg0 := BitVec.ofNat_toNat 32 s.arg0 |>.trans (BitVec.setWidth_eq _)
  refine ⟨_, exec_of_ok (runLgen_of_fit hc hfit), ?_, ?_⟩
  · have hwrites := writeBitout_writes
      ((List.range (bitCount s)).map (lfsrBit s.cfg.tapPhase (lfsrOf s u)))
      (setLfsrState u (lfsrAfter s.cfg.tapPhase (lfsrOf s u) (bitCount s)) s)
      (by rw [List.length_map, List.length_range, bitCount]; omega)
    cases u <;> exact hwrites
  · rw [harg]
    cases u <;> rfl

/-! ### The recurrence and the lock-up -/

/-- Under PRE the tapped bits are those output in the next `n` steps. -/
theorem tappedBits_pre_lfsrAfter {l : Lfsr} (hn : 1 ≤ l.len.toNat) (k : Nat) :
    tappedBits .pre l.len.toNat l.taps.toNat (lfsrAfter .pre l k) =
      (List.range l.len.toNat).map fun i =>
        l.taps.getLsbD i && lfsrBit .pre l (k + l.len.toNat - 1 - i) := by
  refine List.map_congr_left fun i hi => ?_
  have hlt := List.mem_range.1 hi
  have hbit := testBit_lfsrAfter (ph := .pre) hn (d := l.len.toNat - 1 - i) (by omega) k
  rw [Nat.sub_sub_self (by omega)] at hbit
  rw [hbit, BitVec.testBit_toNat, show k + (l.len.toNat - 1 - i) = k + l.len.toNat - 1 - i by omega]

/-- A register whose low bits are 0 outputs 0 and becomes 0, whatever the taps. -/
theorem lfsrStep_zero {n s : Nat} (ph : TapPhase) (hn : 1 ≤ n) (t : Nat) (h : s % 2 ^ n = 0) :
    lfsrStep ph n t s = (false, 0) := by
  rw [← lfsrStep_mod, h]
  have hout : (lfsrStep ph n t 0).1 = false := by rw [lfsrStep_out hn, Nat.zero_testBit]
  have hfeed : oddOnes (tappedBits ph n t 0) = false := by
    cases ph <;> simp [tappedBits, oddOnes, List.count_replicate]
  refine Prod.ext hout (Nat.eq_of_testBit_eq fun k => ?_)
  rw [lfsrStep_testBit hn, hfeed]
  simp

theorem lfsrAfter_zero {ph : TapPhase} {l : Lfsr} (hn : 1 ≤ l.len.toNat)
    (h : l.state.toNat % 2 ^ l.len.toNat = 0) (k : Nat) : lfsrAfter ph l k % 2 ^ l.len.toNat = 0 := by
  induction k with
  | zero => exact h
  | succ k ih => rw [lfsrAfter, lfsrStep_zero ph hn _ ih, Nat.zero_mod]

/-- Settles O49: bit 0 of the register is the bit fed back, and it is output `n − 1` steps later. -/
theorem lfsrOutputSatisfiesItsRecurrence : Obligations.LfsrOutputSatisfiesItsRecurrence := by
  intro l hc
  obtain ⟨hn, -⟩ := (configured_iff l).1 hc
  refine ⟨fun k => ?_, fun ph k h => ?_⟩
  · have hfeed := testBit_lfsrAfter (ph := .pre) hn (d := l.len.toNat - 1) (by omega) (k + 1)
    rw [Nat.sub_self, testBit_zero_lfsrAfter_succ hn, tappedBits_pre_lfsrAfter hn] at hfeed
    rw [hfeed]
    congr 1
    omega
  · have hstep := lfsrStep_zero ph hn l.taps.toNat (lfsrAfter_zero (ph := ph) hn h k)
    exact Prod.ext_iff.1 hstep

end Sys2Proof.Proofs

/-! How many ones a unit outputs: its register has finitely many values, so the sequence repeats (43_lfsr.md
R309). -/

namespace Sys2Proof.Proofs

open Sys2Proof.Machine Sys2Proof.Safety

section Selector

variable {ph : TapPhase} {l : Lfsr}

/-! ### The ones of a sequence -/

theorem onesBefore_succ (ph : TapPhase) (l : Lfsr) (k : Nat) :
    onesBefore ph l (k + 1) = onesBefore ph l k + (lfsrBit ph l k).toNat := by
  rw [onesBefore, List.range_succ, List.countP_append, List.countP_singleton, onesBefore]
  cases lfsrBit ph l k <;> rfl

theorem onesBefore_mono (ph : TapPhase) (l : Lfsr) : Monotone (onesBefore ph l) :=
  monotone_nat_of_le_succ fun k => by rw [onesBefore_succ]; omega

/-- A one at position `k` counts behind it. -/
theorem onesBefore_lt_of_bit {j k n : Nat} (hj : j ≤ k) (hn : k < n) (hb : lfsrBit ph l k = true) :
    onesBefore ph l j < onesBefore ph l n := by
  have hle := onesBefore_mono ph l hj
  have hge := onesBefore_mono ph l hn
  rw [Nat.succ_eq_add_one, onesBefore_succ, hb, Bool.toNat_true] at hge
  omega

/-- Where every 1 lies below `j`, there are at most `j` of them. -/
theorem onesBefore_le {j : Nat} (h : ∀ k, lfsrBit ph l k = true → k < j) (k : Nat) :
    onesBefore ph l k ≤ min k j := by
  induction k with
  | zero => exact Nat.zero_le _
  | succ k ih =>
    rw [onesBefore_succ]
    cases hb : lfsrBit ph l k with
    | false => rw [Bool.toNat_false]; omega
    | true => have := h k hb; rw [Bool.toNat_true]; omega

/-! ### The sequence repeats -/

/-- Registers that agree in their low bits go on alike. -/
theorem lfsrBit_eq_of_register_eq {p q : Nat}
    (h : lfsrAfter ph l p % 2 ^ l.len.toNat = lfsrAfter ph l q % 2 ^ l.len.toNat) (i : Nat) :
    lfsrBit ph l (p + i) = lfsrBit ph l (q + i) := by
  have hstep : ∀ {p q : Nat}, lfsrAfter ph l p % 2 ^ l.len.toNat = lfsrAfter ph l q % 2 ^ l.len.toNat →
      lfsrBit ph l p = lfsrBit ph l q ∧ lfsrAfter ph l (p + 1) = lfsrAfter ph l (q + 1) := by
    intro p q h
    have heq := congrArg (lfsrStep ph l.len.toNat l.taps.toNat) h
    rw [lfsrStep_mod, lfsrStep_mod, lfsrStep_lfsrAfter, lfsrStep_lfsrAfter] at heq
    exact Prod.mk.inj heq
  induction i generalizing p q with
  | zero => exact (hstep h).1
  | succ i ih =>
    have := ih (p := p + 1) (q := q + 1) (by rw [(hstep h).2])
    rwa [Nat.add_right_comm, Nat.add_right_comm q] at this

/-- Of any `2^n + 1` registers in a row two agree in their low `n` bits. -/
theorem exists_repeat (ph : TapPhase) (l : Lfsr) (j : Nat) :
    ∃ p q, j ≤ p ∧ p < q ∧ q ≤ j + 2 ^ l.len.toNat ∧
      ∀ i, lfsrBit ph l (p + i) = lfsrBit ph l (q + i) := by
  obtain ⟨p, hp, q, hq, hne, heq⟩ := Finset.exists_ne_map_eq_of_card_lt_of_maps_to
    (s := Finset.Icc j (j + 2 ^ l.len.toNat)) (t := Finset.range (2 ^ l.len.toNat))
    (f := fun k => lfsrAfter ph l k % 2 ^ l.len.toNat)
    (by rw [Finset.card_range, Nat.card_Icc]; omega)
    fun k _ => Finset.mem_coe.2 (Finset.mem_range.2 (Nat.mod_lt _ (Nat.two_pow_pos _)))
  obtain ⟨hjp, hpj⟩ := Finset.mem_Icc.1 hp
  obtain ⟨hjq, hqj⟩ := Finset.mem_Icc.1 hq
  rcases Nat.lt_or_gt_of_ne hne with hlt | hgt
  · exact ⟨p, q, hjp, hlt, hqj, lfsrBit_eq_of_register_eq heq⟩
  · exact ⟨q, p, hjq, hgt, hpj, lfsrBit_eq_of_register_eq heq.symm⟩

/-- A 1 at or behind position `j` has one before it that lies in the `2^n` positions from `j` on. -/
theorem exists_bit_in_run {j k : Nat} (hjk : j ≤ k) (hb : lfsrBit ph l k = true) :
    ∃ i, j ≤ i ∧ i < j + 2 ^ l.len.toNat ∧ lfsrBit ph l i = true := by
  obtain ⟨p, q, hjp, hpq, hqj, hrep⟩ := exists_repeat ph l j
  induction k using Nat.strong_induction_on with
  | _ k ih =>
    by_cases hk : k < j + 2 ^ l.len.toNat
    · exact ⟨k, hjk, hk, hb⟩
    · have hback := hrep (k - q)
      rw [Nat.add_sub_cancel' (by omega), hb] at hback
      exact ih (p + (k - q)) (by omega) (by omega) hback

/-- A 1 from position `2^n` on, where the sequence is on its final cycle, recurs without end. -/
theorem exists_later_bit {k : Nat} (hk : 2 ^ l.len.toNat ≤ k) (hb : lfsrBit ph l k = true) (m : Nat) :
    ∃ i, m ≤ i ∧ lfsrBit ph l i = true := by
  obtain ⟨p, q, -, hpq, hq, hrep⟩ := exists_repeat ph l 0
  have hcycle : ∀ m, ∃ i, m ≤ i ∧ p ≤ i ∧ lfsrBit ph l i = true := by
    intro m
    induction m with
    | zero => exact ⟨k, Nat.zero_le _, by omega, hb⟩
    | succ m ih =>
      obtain ⟨i, hi, hpi, hbit⟩ := ih
      have hnext := hrep (i - p)
      rw [Nat.add_sub_cancel' hpi, hbit] at hnext
      exact ⟨q + (i - p), by omega, by omega, hnext.symm⟩
  obtain ⟨i, hi, -, hbit⟩ := hcycle m
  exact ⟨i, hi, hbit⟩

/-- Before a 1 at or behind position `i · 2^n` there are `i` others at least. -/
theorem le_onesBefore_mul {k : Nat} (hb : lfsrBit ph l k = true) {i : Nat} (hi : i * 2 ^ l.len.toNat ≤ k) :
    i ≤ onesBefore ph l (i * 2 ^ l.len.toNat) := by
  induction i with
  | zero => exact Nat.zero_le _
  | succ i ih =>
    rw [Nat.succ_mul] at hi ⊢
    have hik := (Nat.le_add_right _ _).trans hi
    obtain ⟨j, hj, hlt, hbit⟩ := exists_bit_in_run hik hb
    exact Nat.succ_le_of_lt ((ih hik).trans_lt (onesBefore_lt_of_bit hj hlt hbit))

end Selector

/-- Settles O51: a 1 in the second run of `2^m` bits recurs without end, and without one there the sequence has
no 1 from `2^m` on. -/
theorem selectorOnesAreDecidedInTwoRuns : Obligations.SelectorOnesAreDecidedInTwoRuns := by
  intro ph l hc later
  have hnone : ¬ later → ∀ k, lfsrBit ph l k = true → k < 2 ^ l.len.toNat := by
    intro hno k hb
    by_contra hk
    obtain ⟨i, hi, hlt, hbit⟩ := exists_bit_in_run (Nat.not_lt.1 hk) hb
    exact hno ⟨i, hi, by rw [Nat.pow_succ]; omega, hbit⟩
  refine ⟨⟨fun ⟨k, hk, _, hb⟩ n => ?_, fun hall => ?_⟩, hnone⟩
  · obtain ⟨i, hi, hbit⟩ := exists_later_bit hk hb (n * 2 ^ l.len.toNat)
    exact ⟨_, le_onesBefore_mul hbit hi⟩
  · by_contra hno
    obtain ⟨k, hk⟩ := hall (2 ^ l.len.toNat + 1)
    have := onesBefore_le (hnone hno) k
    omega

end Sys2Proof.Proofs

/-! The combiner: when SGGEN completes, when it never ends, and the errors of the commands that step a unit
(43_lfsr.md R304, R308 to R310, R313). -/

namespace Sys2Proof.Proofs

open Sys2Proof.Machine Sys2Proof.Safety

/-! ### The combiner's loop -/

/-- The bits of A at the `d` internal steps from `j` on at which S outputs 1 (43_lfsr.md R308). -/
def decimatedFrom (ph : TapPhase) (a s : Lfsr) (j d : Nat) : Bits :=
  ((List.range' j d).filter (lfsrBit ph s)).map (lfsrBit ph a)

theorem decimatedFrom_zero (ph : TapPhase) (a s : Lfsr) (k : Nat) :
    decimatedFrom ph a s 0 k = decimated ph a s k := by
  rw [decimatedFrom, ← List.range_eq_range', decimated]

theorem decimatedFrom_succ (ph : TapPhase) (a s : Lfsr) (j d : Nat) :
    decimatedFrom ph a s j (d + 1) =
      if lfsrBit ph s j then lfsrBit ph a j :: decimatedFrom ph a s (j + 1) d
      else decimatedFrom ph a s (j + 1) d := by
  rw [decimatedFrom, List.range'_succ, List.filter_cons]
  split <;> rfl

theorem decimated_length (ph : TapPhase) (a s : Lfsr) (k : Nat) :
    (decimated ph a s k).length = onesBefore ph s k := by
  rw [decimated, List.length_map, onesBefore, List.countP_eq_length_filter]

section Combiner

variable {ph : TapPhase} {a s : Lfsr}

/-- The combiner's loop as it stands after `j` internal steps, with `k` bits still to output. -/
abbrev sgRunFrom (ph : TapPhase) (a s : Lfsr) (fuel k j : Nat) : Option SgResult :=
  sgRun ph a.len.toNat a.taps.toNat s.len.toNat s.taps.toNat fuel k (lfsrAfter ph a j) (lfsrAfter ph s j)

/-- One internal step, which outputs a bit when S's bit is 1. -/
theorem sgRunFrom_succ (fuel k j : Nat) :
    sgRunFrom ph a s (fuel + 1) (k + 1) j =
      (sgRunFrom ph a s fuel (if lfsrBit ph s j then k else k + 1) (j + 1)).map fun r =>
        { r with
          bits := if lfsrBit ph s j then lfsrBit ph a j :: r.bits else r.bits
          steps := r.steps + 1 } := by
  rw [sgRunFrom, sgRunFrom, sgRun, lfsrStep_lfsrAfter, lfsrStep_lfsrAfter]
  dsimp only
  generalize sgRun _ _ _ _ _ _ _ _ _ = rest
  cases rest <;> rfl

/-- The ones still to come after a step. -/
theorem onesBefore_succ_add (ph : TapPhase) (s : Lfsr) (j k : Nat) :
    onesBefore ph s (j + 1) + (if lfsrBit ph s j then k else k + 1) = onesBefore ph s j + (k + 1) := by
  rw [onesBefore_succ]
  cases lfsrBit ph s j
  · rfl
  · simp; omega

/-- The loop ends after the `d` steps that the missing ones of S take, if it is given as many. -/
theorem sgRunFrom_of_ones {fuel k j d : Nat} (hd : d ≤ fuel)
    (hones : onesBefore ph s (j + d) = onesBefore ph s j + k)
    (hleast : ∀ i < d, onesBefore ph s (j + i) < onesBefore ph s j + k) :
    sgRunFrom ph a s fuel k j = some
      { bits := decimatedFrom ph a s j d
        stateA := lfsrAfter ph a (j + d)
        stateS := lfsrAfter ph s (j + d)
        steps := d } := by
  induction d generalizing fuel k j with
  | zero =>
    obtain rfl : k = 0 := by rw [Nat.add_zero] at hones; omega
    cases fuel <;> rfl
  | succ d ih =>
    have hfirst := hleast 0 (Nat.succ_pos d)
    rw [Nat.add_zero] at hfirst
    obtain ⟨fuel, rfl⟩ := Nat.exists_eq_succ_of_ne_zero (n := fuel) (by omega)
    obtain ⟨k, rfl⟩ := Nat.exists_eq_succ_of_ne_zero (n := k) (by omega)
    rw [← onesBefore_succ_add] at hones
    have hshift : ∀ i, j + 1 + i = j + (i + 1) := by omega
    rw [sgRunFrom_succ, ih (by omega) (by rw [hshift]; exact hones)
      fun i hi => by rw [hshift, onesBefore_succ_add]; exact hleast (i + 1) (by omega)]
    rw [Option.map_some, hshift, decimatedFrom_succ]

/-- The loop ends only once S has output the missing ones. -/
theorem ones_of_sgRunFrom {fuel k j : Nat} {r : SgResult} (h : sgRunFrom ph a s fuel k j = some r) :
    onesBefore ph s (j + r.steps) = onesBefore ph s j + k := by
  induction fuel generalizing k j r with
  | zero =>
    cases k with
    | zero => cases h; rfl
    | succ k => cases h
  | succ fuel ih =>
    cases k with
    | zero => cases h; rfl
    | succ k =>
      rw [sgRunFrom_succ] at h
      obtain ⟨q, hq, rfl⟩ := Option.map_eq_some_iff.1 h
      rw [← onesBefore_succ_add, ← ih hq]
      congr 1
      show j + (q.steps + 1) = _
      omega

/-- The least number of steps with `N` ones is within the bound of the loop. -/
theorem le_sgBound {N k : Nat} (hones : onesBefore ph s k = N) (hleast : ∀ j < k, onesBefore ph s j < N) :
    k ≤ sgBound s.len.toNat N := by
  cases k with
  | zero => exact Nat.zero_le _
  | succ k =>
    have hbit : lfsrBit ph s k = true := by
      by_contra hb
      have hlast := hleast k (Nat.lt_succ_self k)
      rw [onesBefore_succ, Bool.eq_false_iff.2 hb, Bool.toNat_false] at hones
      omega
    by_contra hover
    have hN : N * 2 ^ s.len.toNat ≤ k :=
      (Nat.mul_le_mul_right _ (Nat.le_succ N)).trans (Nat.lt_succ_iff.1 (Nat.not_le.1 hover))
    exact absurd (le_onesBefore_mul hbit hN) (Nat.not_le.2 (hleast _ (Nat.lt_succ_of_le hN)))

end Combiner

/-! ### SGGEN -/

section Sggen

variable {s : State}

variable (ha : configured s.lfsrA = true) (hs : configured s.lfsrS = true)
  (hfit : bitCount s ≤ s.cfg.bitbufBits)

/-- The combiner's loop of an SGGEN, within the model's bound. -/
abbrev sgLoop (s : State) : Option SgResult :=
  sgRunFrom s.cfg.tapPhase s.lfsrA s.lfsrS (sgBound s.lfsrS.len.toNat (bitCount s)) (bitCount s) 0

include ha hs hfit

theorem runSggen_of_some {r : SgResult} (hr : sgLoop s = some r) :
    runOf .sggen s = .ok
      { writeBitout r.bits (setLfsrState .s r.stateS (setLfsrState .a r.stateA s)) with
        res0 := wordOf (min r.steps (2 ^ 32 - 1)) } := by
  rw [sgLoop, sgRunFrom, lfsrAfter, lfsrAfter] at hr
  rw [runOf, runSggen, if_neg (by simp [ha]), if_neg (by simp [hs]), if_neg (Nat.not_lt.2 hfit), hr]

theorem runSggen_of_none (hr : sgLoop s = none) : runOf .sggen s = .hang := by
  rw [sgLoop, sgRunFrom, lfsrAfter, lfsrAfter] at hr
  rw [runOf, runSggen, if_neg (by simp [ha]), if_neg (by simp [hs]), if_neg (Nat.not_lt.2 hfit), hr]

/-- SGGEN ends after the least number of steps with `N` ones (43_lfsr.md R309, R310). -/
theorem runSggen_of_ones {k : Nat} (hones : onesBefore s.cfg.tapPhase s.lfsrS k = bitCount s)
    (hleast : ∀ j < k, onesBefore s.cfg.tapPhase s.lfsrS j < bitCount s) :
    runOf .sggen s = .ok
      { writeBitout (decimated s.cfg.tapPhase s.lfsrA s.lfsrS k)
          (setLfsrState .s (lfsrAfter s.cfg.tapPhase s.lfsrS k)
            (setLfsrState .a (lfsrAfter s.cfg.tapPhase s.lfsrA k) s)) with
        res0 := wordOf (min k (2 ^ 32 - 1)) } := by
  have hzero : onesBefore s.cfg.tapPhase s.lfsrS 0 = 0 := rfl
  have hloop : sgLoop s = _ := sgRunFrom_of_ones (d := k) (le_sgBound hones hleast)
    (by rw [Nat.zero_add, hzero, Nat.zero_add]; exact hones)
    (fun i hi => by rw [Nat.zero_add, hzero, Nat.zero_add]; exact hleast i hi)
  rw [Nat.zero_add, decimatedFrom_zero] at hloop
  exact runSggen_of_some ha hs hfit hloop

/-- SGGEN whose selector never outputs the ones asked for never ends (43_lfsr.md R309). -/
theorem runSggen_hang (hfew : ∀ k, onesBefore s.cfg.tapPhase s.lfsrS k < bitCount s) :
    runOf .sggen s = .hang := by
  refine runSggen_of_none ha hs hfit (Option.eq_none_iff_forall_ne_some.2 fun r hr => ?_)
  have hones := ones_of_sgRunFrom hr
  have := hfew (0 + r.steps)
  omega

end Sggen

theorem exec_of_hang {i : Instr} {s : State} (h : runOf i s = .hang) : exec i s = .next s := by
  rw [exec_eq_conclude, h]
  rfl

/-- Settles O50: the loop's bound is no less than the least number of steps with `N` ones, and no run of the loop
ends without them. -/
theorem sggenCompletesWithEnoughOnes : Obligations.SggenCompletesWithEnoughOnes := by
  intro s hlegal ha hs hfit ph ones
  have hbb : s.cfg.bitbufBits ≤ 16384 := by obtain ⟨-, -, -, ⟨-, hbb, -⟩, -⟩ := hlegal; exact hbb
  refine ⟨fun k hones hleast => ?_, fun hfew => exec_of_hang (runSggen_hang ha hs hfit hfew)⟩
  refine ⟨_, exec_of_ok (runSggen_of_ones ha hs hfit hones hleast), ?_, rfl⟩
  have hlen : (decimated ph s.lfsrA s.lfsrS k).length = s.arg0.toNat := (decimated_length ..).trans hones
  exact writeBitout_writes (decimated ph s.lfsrA s.lfsrS k) (setLfsrState .s _ (setLfsrState .a _ s))
    (by omega)

/-! ### The errors of the commands that step a unit -/

/-- What a command answers that raises BAD_LFSR_CONFIG where `bad` holds, else CAPACITY where its count is too
large, and otherwise ends or never ends. -/
theorem exec_of_checks {i : Instr} {s : State} {bad large : Prop} (hs : s.errcode = 0)
    (hbad : bad → runOf i s = .raise .badLfsrConfig)
    (hlarge : ¬ bad → large → runOf i s = .raise .capacity)
    (hgood : ¬ bad → ¬ large → (∃ u, runOf i s = .ok u) ∨ runOf i s = .hang) :
    ∃ t, exec i s = .next t ∧ (t.errcode = 11 ↔ bad) ∧ (t.errcode = 10 ↔ ¬ bad ∧ large) ∧
      (t.errcode ≠ 0 → ∃ c, t = fail i c s) := by
  by_cases hb : bad
  · exact ⟨_, exec_of_raise (hbad hb), iff_of_true rfl hb,
      iff_of_false (show ¬ (11 : BitVec 8) = 10 by decide) fun h => h.1 hb, fun _ => ⟨_, rfl⟩⟩
  by_cases hl : large
  · exact ⟨_, exec_of_raise (hlarge hb hl), iff_of_false (show ¬ (10 : BitVec 8) = 11 by decide) hb,
      iff_of_true rfl ⟨hb, hl⟩, fun _ => ⟨_, rfl⟩⟩
  obtain ⟨t, ht, hzero⟩ : ∃ t, exec i s = .next t ∧ t.errcode = 0 := by
    rcases hgood hb hl with ⟨u, hu⟩ | hh
    · exact ⟨_, exec_of_ok hu, rfl⟩
    · exact ⟨s, exec_of_hang hh, hs⟩
  exact ⟨t, ht, iff_of_false (by rw [hzero]; decide) hb,
    iff_of_false (by rw [hzero]; decide) fun h => hl h.2, fun h => absurd hzero h⟩

/-- SGGEN checks unit A, then unit S, with one code (43_lfsr.md R308). -/
theorem runSggen_badConfig {s : State} (h : ¬ configured s.lfsrA = true ∨ ¬ configured s.lfsrS = true) :
    runOf .sggen s = .raise .badLfsrConfig := by
  rw [runOf, runSggen]
  by_cases ha : configured s.lfsrA = true
  · rw [if_neg (by simp [ha]), if_pos (by simpa [ha] using h)]
  · exact if_pos (by simpa using ha)

theorem runSggen_capacity {s : State} (h : ¬ (¬ configured s.lfsrA = true ∨ ¬ configured s.lfsrS = true))
    (hlarge : s.cfg.bitbufBits < s.arg0.toNat) : runOf .sggen s = .raise .capacity := by
  rw [not_or, not_not, not_not] at h
  rw [runOf, runSggen, if_neg (by simp [h.1]), if_neg (by simp [h.2])]
  exact if_pos hlarge

theorem runSggen_ends {s : State} (h : ¬ (¬ configured s.lfsrA = true ∨ ¬ configured s.lfsrS = true))
    (hfit : ¬ s.cfg.bitbufBits < s.arg0.toNat) :
    (∃ u, runOf .sggen s = .ok u) ∨ runOf .sggen s = .hang := by
  rw [not_or, not_not, not_not] at h
  obtain ⟨ha, hs⟩ := h
  cases hr : sgLoop s with
  | none => exact .inr (runSggen_of_none ha hs (Nat.not_lt.1 hfit) hr)
  | some r => exact .inl ⟨_, runSggen_of_some ha hs (Nat.not_lt.1 hfit) hr⟩

/-- Settles O13: every check comes before the first step, so a failure finds both units as they were. -/
theorem lfsrConfigurationErrors : Obligations.LfsrConfigurationErrors := by
  intro s hs
  simp only [← configured_iff]
  refine ⟨fun u => ?lstep, fun u => ?lgen, ?sggen⟩
  case lstep =>
    obtain ⟨t, ht, hconfig, -, hfail⟩ := exec_of_checks (i := .lstep u)
      (bad := ¬ configured (lfsrOf s u) = true) (large := False) hs
      (fun hc => if_pos (by simpa using hc)) (fun _ => False.elim)
      fun hc _ => .inl ⟨_, if_neg (by simpa using hc)⟩
    refine ⟨t, ht, hconfig, fun h => ?_⟩
    obtain ⟨c, rfl⟩ := hfail (by rw [h]; decide)
    exact ⟨rfl, rfl, rfl⟩
  case lgen =>
    obtain ⟨t, ht, hconfig, hcapacity, hfail⟩ := exec_of_checks (i := .lgen u)
      (bad := ¬ configured (lfsrOf s u) = true) (large := s.cfg.bitbufBits < s.arg0.toNat) hs
      (fun hc => if_pos (by simpa using hc))
      (fun hc hl => (if_neg (by simpa using hc)).trans (if_pos hl))
      fun hc hl => .inl ⟨_, runLgen_of_fit (not_not.1 hc) (Nat.not_lt.1 hl)⟩
    refine ⟨t, ht, hconfig, by rw [hcapacity, not_not], fun h => ?_⟩
    obtain ⟨c, rfl⟩ := hfail h
    exact ⟨rfl, rfl, rfl, rfl⟩
  case sggen =>
    obtain ⟨t, ht, hconfig, hcapacity, hfail⟩ := exec_of_checks (i := .sggen) hs runSggen_badConfig
      runSggen_capacity runSggen_ends
    refine ⟨t, ht, hconfig, by rw [hcapacity, not_or, not_not, not_not, and_assoc], fun h => ?_⟩
    obtain ⟨c, rfl⟩ := hfail h
    exact ⟨rfl, rfl, rfl, rfl⟩

/-! ### A command that never ends -/

/-- The command is still in flight, with the units and the count it has; DONE has not risen. -/
abbrev StillInFlight (s t : State) : Prop :=
  t.seqState = .busy ∧ t.cmd = s.cmd ∧ t.lfsrA = s.lfsrA ∧ t.lfsrS = s.lfsrS ∧ t.arg0 = s.arg0 ∧
    t.cfg = s.cfg ∧ t.done = (s.done && t.done)

theorem StillInFlight.refl {s : State} (h : s.seqState = .busy) : StillInFlight s s :=
  ⟨h, rfl, rfl, rfl, rfl, rfl, (Bool.and_self _).symm⟩

/-- Of the host's writes while BUSY only a reset takes the command away. -/
theorem hostWrite_stillInFlight {s : State} (h : s.seqState = .busy) (o : Target) (v : Word) :
    (o = .reg .ctrl ∧ v.getLsbD 1 = true) ∨ StillInFlight s (hostWrite o v s) := by
  have hself := StillInFlight.refl h
  by_cases hctrl : o = .reg .ctrl
  · subst hctrl
    cases hv : v.getLsbD 1 with
    | true => exact .inl ⟨rfl, rfl⟩
    | false =>
      rw [hostWrite, writeCtrl, hv]
      exact .inr hself
  by_cases hstatus : o = .reg .status
  · subst hstatus
    exact .inr ⟨h, rfl, rfl, rfl, rfl, rfl, (Bool.and_self_left _ _).symm⟩
  · rw [hostWrite_busy h hctrl hstatus]
    exact .inr hself

/-- Settles O52: SEQ's move leaves a hanging SGGEN as it is, and so does every move of the host but a reset. -/
theorem hangEndsOnlyByReset : Obligations.HangEndsOnlyByReset := by
  intro s t m hbusy hdecode ha hs hfit hfew h
  have hself := StillInFlight.refl hbusy
  rcases perform_next (s := s) h with ⟨a, rfl, haccess⟩ | ⟨rfl, rfl⟩ | ⟨rfl, hseq⟩ | ⟨rfl, -⟩
  · cases a with
    | read addr bytes =>
      obtain ⟨o, -, -, -, rfl⟩ := performAt_next haccess
      rw [hostRead_eq]
      exact .inr (.inr hself)
    | write addr bytes v =>
      obtain ⟨o, haddr, rfl, -, rfl⟩ := performAt_next (f := fun t => hostWrite t v) haccess
      rcases hostWrite_stillInFlight hbusy (locate s.cfg o) v with ⟨hctrl, hv⟩ | hstill
      · rw [addr_of_locate haddr hctrl]
        exact .inr (.inl ⟨v, rfl, hv⟩)
      · exact .inr (.inr hstill)
  · unfold poll
    rw [hostRead_status]
    dsimp only
    split <;> exact .inr (.inr hself)
  · rw [seqStep_busy hbusy hdecode, exec_of_hang (runSggen_hang ha hs hfit hfew)] at hseq
    cases hseq
    exact .inr (.inr hself)
  · exact .inl rfl

end Sys2Proof.Proofs

/-! A command faults on an unwritten position of its input, and on nothing else (10_state.md R93, R139,
45_control.md R372, 70_reset_and_hazards.md R508, R513). -/

namespace Sys2Proof.Proofs

open Sys2Proof.Machine Sys2Proof.Safety

/-! ### The input of a command -/

/-- The memory that a command reads up to its length register. -/
def inputMem : Instr → Option MemName
  | .build => some .dist
  | .encode => some .symin
  | .hencs => some .symin
  | .decode => some .bitin
  | .hdec => some .bitin
  | .chisq b => some (sourceMem b)
  | .period b => some (sourceMem b)
  | .bcopy => some .bitout
  | _ => none

/-- The length register of an input memory. -/
def inputLen (s : State) : MemName → Nat
  | .dist => s.distCount.toNat
  | .symin => s.syminLen.toNat
  | .bitin => s.bitinLen.toNat
  | .bitout => s.bitoutLen.toNat
  | _ => 0

/-- Nothing has stored position `k` of an input memory (10_state.md R93). -/
def Unwritten (s : State) (m : MemName) (k : Nat) : Prop :=
  match m with
  | .dist => distEntry s k = none
  | .symin => syminEntry s k = none
  | m => readBit s.mem (windowBase m) k = none

/-- The fault names an unwritten position below the length of the command's input. -/
inductive InputFault (i : Instr) (s : State) : Fault → Prop
  | unwritten (m : MemName) (k : Nat) (hm : inputMem i = some m) (hk : k < inputLen s m)
      (hu : Unwritten s m k) : InputFault i s (.unwrittenRead m k)

/-- Which commands read which memory. -/
theorem inputMem_cases {i : Instr} {m : MemName} (h : inputMem i = some m) :
    (m = .dist ∧ i = .build) ∨ (m = .symin ∧ i ∈ [.encode, .hencs]) ∨
      (m = .bitin ∧ i ∈ [.decode, .hdec, .chisq .bitin, .period .bitin]) ∨
      (m = .bitout ∧ i ∈ [.chisq .bitout, .period .bitout, .bcopy]) := by
  cases i with
  | chisq b => cases b <;> cases h <;> decide
  | period b => cases b <;> cases h <;> decide
  | _ => cases h <;> decide

/-- With the host's positions written no position of the input is unwritten. -/
theorem not_unwritten_of_inputsWritten {i : Instr} {s : State} {m : MemName} {k : Nat}
    (hw : InputsWritten s i) (hm : inputMem i = some m) (hk : k < inputLen s m) : ¬ Unwritten s m k := by
  have hsome : ∀ {α : Type} {o : Option α}, o.isSome = true → o ≠ none := by rintro _ _ h rfl; cases h
  cases i with
  | chisq b => cases b <;> cases hm <;> exact hsome (hw k hk)
  | period b => cases b <;> cases hm <;> exact hsome (hw k hk)
  | _ => cases hm <;> exact hsome (hw k hk)

/-! ### The loops fault on an unwritten entry only -/

section Faults

variable {s : State} {f : Fault}

theorem readDist_fault {n i : Nat} (h : readDist s n i = .fault f) :
    ∃ k < i + n, f = .unwrittenRead .dist k ∧ distEntry s k = none := by
  induction n generalizing i with
  | zero => cases h
  | succ n ih =>
    rw [readDist] at h
    split at h
    · next hnone => cases h; exact ⟨i, by omega, rfl, hnone⟩
    · split at h
      · cases h
      · split at h
        · cases h
        · obtain ⟨k, hk, hf⟩ := ih h
          exact ⟨k, by omega, hf⟩

theorem encodeFrom_fault {n j : Nat} {out : Bits} (h : encodeFrom s n j out = .fault f) :
    ∃ k < j + n, f = .unwrittenRead .symin k ∧ syminEntry s k = none := by
  induction n generalizing j out with
  | zero => cases h
  | succ n ih =>
    rw [encodeFrom] at h
    split at h
    · next hnone => cases h; exact ⟨j, by omega, rfl, hnone⟩
    · split at h
      · cases h
      · split at h
        · cases h
        · obtain ⟨k, hk, hf⟩ := ih h
          exact ⟨k, by omega, hf⟩

theorem hencsFrom_fault {n j : Nat} {out : Bits} (h : hencsFrom s n j out = .fault f) :
    ∃ k < j + n, f = .unwrittenRead .symin k ∧ syminEntry s k = none := by
  induction n generalizing j out with
  | zero => cases h
  | succ n ih =>
    rw [hencsFrom] at h
    split at h
    · next hnone => cases h; exact ⟨j, by omega, rfl, hnone⟩
    · split at h
      · cases h
      · split at h
        · cases h
        · obtain ⟨k, hk, hf⟩ := ih h
          exact ⟨k, by omega, hf⟩

theorem bufferBits_fault {m : MemName} {n : Nat} (h : bufferBits s m n = .fault f) :
    ∃ k < n, f = .unwrittenRead m k ∧ readBit s.mem (windowBase m) k = none := by
  rcases bufferBits_cases s m n with ⟨x, hx⟩ | ⟨k, hk, hlt, hnone⟩
  · rw [hx] at h; cases h
  · rw [hk] at h; cases h; exact ⟨k, hlt, rfl, hnone⟩

/-! ### A command faults exactly when its checks pass and its read faults -/

theorem runBuild_fault_iff : runBuild s = .fault f ↔
    s.distCount.toNat ≤ s.cfg.maxSym ∧ readDist s s.distCount.toNat 0 = .fault f := by
  rw [runBuild, ← Nat.not_lt]
  split
  · next hl => simp [hl]
  · next hl => cases readDist s s.distCount.toNat 0 <;> simp [hl]

theorem runEncode_fault_iff : runEncode s = .fault f ↔
    s.syminLen.toNat ≤ s.cfg.symbufDepth ∧ encodeFrom s s.syminLen.toNat 0 [] = .fault f := by
  rw [runEncode, ← Nat.not_lt]
  split
  · next hl => simp [hl]
  · next hl => cases encodeFrom s s.syminLen.toNat 0 [] <;> simp [hl]

theorem runHencs_fault_iff : runHencs s = .fault f ↔
    s.syminLen.toNat ≤ s.cfg.symbufDepth ∧ hencsFrom s s.syminLen.toNat 0 [] = .fault f := by
  rw [runHencs, ← Nat.not_lt]
  split
  · next hl => simp [hl]
  · next hl => cases hencsFrom s s.syminLen.toNat 0 [] <;> simp [hl]

/-- DECODE's own loop faults on no stream. -/
theorem runDecode_fault_iff : runDecode s = .fault f ↔
    s.bitinLen.toNat ≤ s.cfg.bitbufBits ∧ bufferBits s .bitin s.bitinLen.toNat = .fault f := by
  by_cases hl : s.bitinLen.toNat ≤ s.cfg.bitbufBits
  · cases hread : bufferBits s .bitin s.bitinLen.toNat with
    | ok x =>
      obtain ⟨recs, -, -, hrun⟩ := runDecode_of_bits hl hread
      rw [show runDecode s = _ from hrun]
      split <;> simp
    | _ => rw [runDecode, if_neg (Nat.not_lt.2 hl), hread]; simp [hl]
  · rw [runDecode, if_pos (Nat.not_le.1 hl)]
    simp [hl]

theorem runHdec_fault_iff : runHdec s = .fault f ↔
    s.bitinLen.toNat ≤ s.cfg.bitbufBits ∧ s.bitinLen.toNat % 7 = 0 ∧
      s.bitinLen.toNat / 7 ≤ s.cfg.symbufDepth ∧ bufferBits s .bitin s.bitinLen.toNat = .fault f := by
  rw [runHdec, ← Nat.not_lt, ← Nat.not_lt (b := s.bitinLen.toNat / 7)]
  split
  · next hl => simp [hl]
  · next hl =>
    split
    · next h7 => simp [h7]
    · next h7 =>
      split
      · next hd => simp [hd]
      · next hd => cases bufferBits s .bitin s.bitinLen.toNat <;> simp [hl, not_not.1 h7, hd]

theorem runChisq_fault_iff {b : BitSource} : runChisq b s = .fault f ↔
    sourceLen s b ≤ s.cfg.bitbufBits ∧ sourceLen s b ≠ 0 ∧
      bufferBits s (sourceMem b) (sourceLen s b) = .fault f := by
  rw [runChisq, ← Nat.not_lt]
  split
  · next hl => simp [hl]
  · next hl =>
    split
    · next h0 => simp [h0]
    · next h0 => cases bufferBits s (sourceMem b) (sourceLen s b) <;> simp [hl, h0]

theorem runPeriod_fault_iff {b : BitSource} : runPeriod b s = .fault f ↔
    sourceLen s b ≤ s.cfg.bitbufBits ∧ bufferBits s (sourceMem b) (sourceLen s b) = .fault f := by
  rw [runPeriod, ← Nat.not_lt]
  split
  · next hl => simp [hl]
  · next hl => cases bufferBits s (sourceMem b) (sourceLen s b) <;> simp [hl]

theorem runBcopy_fault_iff : runBcopy s = .fault f ↔
    bufferBits s .bitout s.bitoutLen.toNat = .fault f := by
  rw [runBcopy]
  cases bufferBits s .bitout s.bitoutLen.toNat <;> simp

/-- The commands that read no memory never fault. -/
theorem runOf_ne_fault {i : Instr} (hi : inputMem i = none) : runOf i s ≠ .fault f := by
  intro h
  cases i with
  | nop => cases h
  | addpar => rw [runOf, runAddpar] at h; split at h <;> cases h
  | stripchk =>
    rw [runOf, runStripchk] at h
    split at h
    · cases h
    · split at h <;> cases h
  | henc => rw [runOf, runHenc] at h; split at h <;> cases h
  | hdecb => cases h
  | lstep u => rw [runOf, runLstep] at h; split at h <;> cases h
  | lgen u =>
    rw [runOf, runLgen] at h
    split at h
    · cases h
    · split at h <;> cases h
  | sggen =>
    rw [runOf, runSggen] at h
    iterate 3 (split at h; · cases h)
    split at h <;> cases h
  | _ => cases hi

/-- A command that faults does so on an unwritten position of its input. -/
theorem runOf_fault {i : Instr} (h : runOf i s = .fault f) : InputFault i s f := by
  have hbuffer : ∀ {m}, inputMem i = some m → (m = .bitin ∨ m = .bitout) →
      bufferBits s m (inputLen s m) = .fault f → InputFault i s f := by
    intro m hm hb hread
    obtain ⟨k, hk, rfl, hnone⟩ := bufferBits_fault hread
    exact .unwritten m k hm hk (by rcases hb with rfl | rfl <;> exact hnone)
  cases i with
  | build =>
    obtain ⟨k, hk, rfl, hnone⟩ := readDist_fault (runBuild_fault_iff.1 h).2
    exact .unwritten .dist k rfl (hk.trans_eq (Nat.zero_add _)) hnone
  | encode =>
    obtain ⟨k, hk, rfl, hnone⟩ := encodeFrom_fault (runEncode_fault_iff.1 h).2
    exact .unwritten .symin k rfl (hk.trans_eq (Nat.zero_add _)) hnone
  | hencs =>
    obtain ⟨k, hk, rfl, hnone⟩ := hencsFrom_fault (runHencs_fault_iff.1 h).2
    exact .unwritten .symin k rfl (hk.trans_eq (Nat.zero_add _)) hnone
  | decode => exact hbuffer rfl (.inl rfl) (runDecode_fault_iff.1 h).2
  | hdec => exact hbuffer rfl (.inl rfl) (runHdec_fault_iff.1 h).2.2.2
  | chisq b => cases b <;> exact hbuffer rfl (by decide) (runChisq_fault_iff.1 h).2.2
  | period b => cases b <;> exact hbuffer rfl (by decide) (runPeriod_fault_iff.1 h).2
  | bcopy => exact hbuffer rfl (.inr rfl) (runBcopy_fault_iff.1 h)
  | _ => exact absurd h (runOf_ne_fault rfl)

theorem exec_fault_iff (i : Instr) (s : State) (f : Fault) : exec i s = .fault f ↔ runOf i s = .fault f := by
  rw [exec_eq_conclude]
  exact conclude_fault_iff i s _ f

/-- A command that does not fault answers a next state. -/
theorem exec_continues {i : Instr} (h : ∀ f, runOf i s ≠ .fault f) : Continues (exec i s) := by
  cases hr : runOf i s with
  | ok u => exact ⟨_, exec_of_ok hr⟩
  | raise c => exact ⟨_, exec_of_raise hr⟩
  | fault f => exact absurd hr (h f)
  | hang => exact ⟨_, exec_of_hang hr⟩

end Faults

/-! ### The first unwritten position faults the command -/

section Unwritten

variable {s : State}

theorem readDist_unwritten {n i k : Nat} (hik : i ≤ k) (hk : k < i + n) (hnone : distEntry s k = none)
    (hgood : ∀ j < k, (distEntry s j).isSome ∧ numAt s j ≤ 2 ^ s.cfg.pw) :
    readDist s n i = .fault (.unwrittenRead .dist k) := by
  induction n generalizing i with
  | zero => omega
  | succ n ih =>
    rcases Nat.eq_or_lt_of_le hik with rfl | hlt
    · rw [readDist, hnone]
    · obtain ⟨hsome, hle⟩ := hgood i hlt
      obtain ⟨p, hp⟩ := Option.isSome_iff_exists.1 hsome
      rw [numAt, hp, Option.getD_some] at hle
      simp only [readDist, hp, if_neg (Nat.not_lt.2 hle), ih hlt (by omega)]

theorem symin_entry_eq {j : Nat} (h : (syminEntry s j).isSome) : syminEntry s j = some (symAt s j) := by
  obtain ⟨t, ht⟩ := Option.isSome_iff_exists.1 h
  rw [symAt, ht, Option.getD_some]

theorem encodeFrom_unwritten {n j k : Nat} (hjk : j ≤ k) (hk : k < j + n) (hnone : syminEntry s k = none)
    (hsome : ∀ i < k, (syminEntry s i).isSome) (hcoded : ∀ i < k, ¬ Absent s (symAt s i))
    (hfit : (encoded s k).length ≤ s.cfg.bitbufBits) :
    encodeFrom s n j (encoded s j) = .fault (.unwrittenRead .symin k) := by
  induction n generalizing j with
  | zero => omega
  | succ n ih =>
    rcases Nat.eq_or_lt_of_le hjk with rfl | hlt
    · rw [encodeFrom, hnone]
    · have hlen := (encoded_length_mono s hlt).trans hfit
      have hok : ¬ (s.cfg.maxSym ≤ symAt s j || !(codeEntry s (symAt s j)).valid) = true := by
        simpa using hcoded j hlt
      rw [encodeFrom, symin_entry_eq (hsome j hlt)]
      dsimp only
      rw [← codeOf, ← encoded_succ, if_neg hok, if_neg (Nat.not_lt.2 hlen), ih hlt (by omega)]

theorem hencsFrom_unwritten {n j k : Nat} {out : Bits} (hjk : j ≤ k) (hk : k < j + n)
    (hnone : syminEntry s k = none) (hsome : ∀ i < k, (syminEntry s i).isSome)
    (hsmall : ∀ i < k, symAt s i ≤ 15) (hfit : 7 * k ≤ s.cfg.bitbufBits) :
    hencsFrom s n j out = .fault (.unwrittenRead .symin k) := by
  induction n generalizing j out with
  | zero => omega
  | succ n ih =>
    rcases Nat.eq_or_lt_of_le hjk with rfl | hlt
    · rw [hencsFrom, hnone]
    · rw [hencsFrom, symin_entry_eq (hsome j hlt)]
      dsimp only
      rw [if_neg (Nat.not_lt.2 (hsmall j hlt)), if_neg (by omega), ih hlt (by omega)]

end Unwritten

/-- Settles O57: a fault is that of the command's read, which goes through the positions in order and stops at
the first unwritten one. -/
theorem onlyUnwrittenInputFaults : Obligations.OnlyUnwrittenInputFaults := by
  refine ⟨fun i s => ⟨fun hw => exec_continues fun f hf => ?_, exec_ne_refused i s, fun m k h => ?_⟩,
    fun s k => ?_⟩
  · obtain ⟨m, k, hm, hk, hu⟩ := runOf_fault hf
    exact not_unwritten_of_inputsWritten hw hm hk hu
  · obtain ⟨_, _, hm, hk, hu⟩ := runOf_fault ((exec_fault_iff ..).1 h)
    rcases inputMem_cases hm with ⟨rfl, hi⟩ | ⟨rfl, hi⟩ | ⟨rfl, hi⟩ | ⟨rfl, hi⟩
    · exact .inl ⟨rfl, hi, hk, hu⟩
    · exact .inr (.inl ⟨rfl, hi, hk, hu⟩)
    · exact .inr (.inr (.inl ⟨rfl, hi, hk, hu⟩))
    · exact .inr (.inr (.inr ⟨rfl, hi, hk, hu⟩))
  dsimp only
  simp only [exec_fault_iff]
  refine ⟨?bitin, ?bitout, ?dist, ?symin⟩
  case bitin =>
    rintro ⟨hk, hnone, hw⟩ hfit
    have hread := bufferBits_unwritten hk hnone hw
    exact ⟨runDecode_fault_iff.2 ⟨hfit, hread⟩,
      fun h7 hd => runHdec_fault_iff.2 ⟨hfit, h7, hd, hread⟩,
      runChisq_fault_iff.2 ⟨hfit, Nat.ne_zero_of_lt hk, hread⟩, runPeriod_fault_iff.2 ⟨hfit, hread⟩⟩
  case bitout =>
    rintro ⟨hk, hnone, hw⟩
    have hread := bufferBits_unwritten hk hnone hw
    exact ⟨runBcopy_fault_iff.2 hread, fun hfit =>
      ⟨runChisq_fault_iff.2 ⟨hfit, Nat.ne_zero_of_lt hk, hread⟩, runPeriod_fault_iff.2 ⟨hfit, hread⟩⟩⟩
  case dist =>
    intro hc hk hnone hgood
    exact runBuild_fault_iff.2 ⟨hc, readDist_unwritten (Nat.zero_le _) (by omega) hnone hgood⟩
  case symin =>
    intro hl hk hnone hsome
    refine ⟨fun hcoded hfit => runEncode_fault_iff.2 ⟨hl, ?_⟩,
      fun hsmall hfit => runHencs_fault_iff.2 ⟨hl, ?_⟩⟩
    · refine encodeFrom_unwritten (Nat.zero_le _) (by omega) hnone hsome (fun j hj => ?_) hfit
      obtain ⟨hlt, hvalid⟩ := hcoded j hj
      rw [not_or, Bool.not_eq_false]
      exact ⟨Nat.not_le.2 hlt, hvalid⟩
    · exact hencsFrom_unwritten (Nat.zero_le _) (by omega) hnone hsome hsmall hfit

end Sys2Proof.Proofs

/-! The statistical tester: CHISQ and PERIOD (44_statistics.md R340 to R347). -/

namespace Sys2Proof.Proofs

open Sys2Proof.Machine Sys2Proof.Safety

/-! ### The tested sequence -/

/-- The tested sequence has fewer than `2 ^ 15` positions: its length register has 15 bits. -/
theorem sourceLen_lt (s : State) (b : BitSource) : sourceLen s b < 2 ^ 15 :=
  match b with
  | .bitin => s.bitinLen.isLt
  | .bitout => s.bitoutLen.isLt

theorem bufferOf_length (s : State) (m : MemName) (n : Nat) : (bufferOf s m n).length = n := by
  simp [bufferOf]

theorem bufferOf_getElem {s : State} {m : MemName} {n i : Nat} (h : i < (bufferOf s m n).length) :
    (bufferOf s m n)[i] = bitAt s m i := by
  simp [bufferOf]

/-! ### CHISQ -/

theorem runChisq_of_ok {s : State} {b : BitSource} {x : Bits} (hpos : 0 < sourceLen s b)
    (hfit : sourceLen s b ≤ s.cfg.bitbufBits)
    (hx : bufferBits s (sourceMem b) (sourceLen s b) = .ok x) :
    runOf (.chisq b) s = .ok (writeChisq x s) := by
  rw [runOf, runChisq, if_neg (Nat.not_lt.2 hfit), if_neg hpos.ne', hx]

theorem onesOf_bufferOf (s : State) (m : MemName) (n : Nat) :
    onesOf (bufferOf s m n) = (List.range n).countP (bitAt s m) := by
  simp [onesOf, bufferOf, List.count, List.countP_map, Function.comp_def]

/-- `|N0 − N1|`, whichever count is the larger (44_statistics.md R341). -/
theorem imbalance_eq_natAbs (x : Bits) :
    imbalance x = (((x.length - onesOf x : Nat) : Int) - (onesOf x : Int)).natAbs := by
  dsimp only [imbalance]
  omega

theorem imbalance_le_length (x : Bits) : imbalance x ≤ x.length := by
  have hones : onesOf x ≤ x.length := List.count_le_length
  rw [imbalance_eq_natAbs]
  omega

/-- Since `d ≤ N`, the statistic is at most `N · 2^16` (44_statistics.md R342). -/
theorem chiStat_le (x : Bits) : chiStat x ≤ x.length * 2 ^ 16 := by
  refine Nat.div_le_of_le_mul ?_
  calc imbalance x ^ 2 * 2 ^ 16
      ≤ x.length ^ 2 * 2 ^ 16 := Nat.mul_le_mul_right _ (Nat.pow_le_pow_left (imbalance_le_length x) 2)
    _ = x.length * (x.length * 2 ^ 16) := by ring

theorem wordOf_toNat_decide (p : Prop) [Decidable p] : wordOf (decide p).toNat = if p then 1 else 0 := by
  by_cases h : p <;> simp [h]

/-- Settles O53: CHISQ reads the buffer whole, and its counts and their difference are the sequence's. -/
theorem chisqGivesTheExactStatistic : Obligations.ChisqGivesTheExactStatistic := by
  intro s b m n hpos hfit hw n1 n0 d
  have hrun : runOf (.chisq b) s = .ok (writeChisq (bufferOf s m n) s) :=
    runChisq_of_ok hpos hfit (bufferBits_of_written hw)
  have hlen : (bufferOf s m n).length = n := bufferOf_length s m n
  have hones : onesOf (bufferOf s m n) = n1 := onesOf_bufferOf s m n
  have himb : imbalance (bufferOf s m n) = d := by rw [imbalance_eq_natAbs, hlen, hones]
  have hstat : chiStat (bufferOf s m n) = d ^ 2 * 2 ^ 16 / n := by rw [chiStat, himb, hlen]
  constructor
  · have hn : n < 2 ^ 15 := sourceLen_lt s b
    have hle := chiStat_le (bufferOf s m n)
    rw [hstat, hlen] at hle
    omega
  · rw [exec_of_ok hrun, writeChisq, chiPass, wordOf_toNat_decide, hstat, himb, hones, hlen]
    rfl

/-! ### PERIOD -/

theorem runPeriod_of_ok {s : State} {b : BitSource} {x : Bits} (hfit : sourceLen s b ≤ s.cfg.bitbufBits)
    (hx : bufferBits s (sourceMem b) (sourceLen s b) = .ok x) :
    runOf (.period b) s = .ok { s with res0 := wordOf (findPeriod x) } := by
  rw [runOf, runPeriod, if_neg (Nat.not_lt.2 hfit), hx]

/-- The full comparison, position by position (44_statistics.md R346). -/
theorem hasPeriod_iff (x : Bits) (p : Nat) :
    hasPeriod x p = true ↔ ∀ i, (h : i + p < x.length) → x[i] = x[i + p] := by
  rw [hasPeriod, beq_iff_eq, List.ext_getElem_iff]
  simp only [List.length_take, List.length_drop, List.getElem_take, List.getElem_drop, Nat.add_comm p]
  constructor
  · rintro ⟨-, heq⟩ i hi
    exact heq i (by omega) (by omega)
  · exact fun heq => ⟨by omega, fun i _ hi => heq i (by omega)⟩

theorem hasPeriod_bufferOf_iff (s : State) (m : MemName) (n p : Nat) :
    hasPeriod (bufferOf s m n) p = true ↔ ∀ i, i + p < n → bitAt s m i = bitAt s m (i + p) := by
  simp only [hasPeriod_iff, bufferOf_length, bufferOf_getElem]

/-- The search in ascending order answers the smallest candidate that is a period, or the length where none
is (44_statistics.md R346). -/
theorem findPeriod_cases (x : Bits) :
    (1 ≤ findPeriod x ∧ findPeriod x ≤ x.length / 2 ∧ hasPeriod x (findPeriod x) = true ∧
        ∀ q, 1 ≤ q → q < findPeriod x → ¬ hasPeriod x q = true) ∨
      findPeriod x = x.length ∧ ∀ q, 1 ≤ q → q ≤ x.length / 2 → ¬ hasPeriod x q = true := by
  unfold findPeriod
  cases hfind : (List.range' 1 (x.length / 2)).find? (fun p => hasPeriod x p) with
  | some p =>
    obtain ⟨hp, hmem, hleast⟩ := List.find?_range'_eq_some.1 hfind
    obtain ⟨hone, hlt⟩ := List.mem_range'_1.1 hmem
    exact .inl ⟨hone, (by omega : p ≤ x.length / 2), hp, fun q h1 hq => by simpa using hleast q h1 hq⟩
  | none =>
    refine .inr ⟨rfl, fun q h1 hq => ?_⟩
    exact List.find?_eq_none.1 hfind q (List.mem_range'_1.2 ⟨h1, by omega⟩)

/-- Settles O54: PERIOD reads the buffer whole and searches it. -/
theorem periodGivesTheSmallestPeriod : Obligations.PeriodGivesTheSmallestPeriod := by
  intro s b m n hfit hw periodic
  have hrun : runOf (.period b) s = .ok { s with res0 := wordOf (findPeriod (bufferOf s m n)) } :=
    runPeriod_of_ok hfit (bufferBits_of_written hw)
  refine ⟨_, exec_of_ok hrun, ?_⟩
  have hcases := findPeriod_cases (bufferOf s m n)
  simp only [hasPeriod_bufferOf_iff, bufferOf_length] at hcases
  exact hcases

end Sys2Proof.Proofs

/-! The control commands: NOP, which only completes, and BCOPY, which moves BITOUT to BITIN
(45_control.md R370, R371). -/

namespace Sys2Proof.Proofs

open Sys2Proof.Machine Sys2Proof.Safety

/-! ### NOP -/

/-- Settles O24: NOP's pseudocode ends with the state it began with, so only the completion acts. -/
theorem nopOnlyCompletes : Obligations.NopOnlyCompletes := fun s =>
  calc exec .nop s
    _ = .next (complete s) := exec_of_ok rfl
    _ = .next { s with seqState := .idle, done := true, errcode := 0 } := rfl

/-! ### Bits stored from a buffer's first position on -/

section StoredBits

variable (m : Memory) {base : Nat} {x : Bits}

theorem readBit_storeBits_zero_of_lt (hbase : 0x06000 ≤ base) {k : Nat} (hk : k < x.length) :
    readBit (storeBits m base 0 x) base k = some x[k] := by
  simp [readBit_storeBits m hbase, hk]

theorem readBit_storeBits_zero_of_le (hbase : 0x06000 ≤ base) {k : Nat} (hk : x.length ≤ k) :
    readBit (storeBits m base 0 x) base k = readBit m base k := by
  simp [readBit_storeBits m hbase, Nat.not_lt.2 hk]

/-- The bytes changed lie in the words that hold the positions stored. -/
theorem sameOutside_storeBits_zero (base : Nat) (x : Bits) :
    SameOutside m (storeBits m base 0 x) base (wordBytes x.length) := by
  intro b hb
  refine readByte_storeBits_outside _ _ _ _ fun j _ hj => ?_
  have hbyte := bitByte_in_words (base := base) (q := (x.length + 31) / 32) (k := j) (by omega)
  simp only [wordBytes] at hb
  omega

end StoredBits

/-! ### BCOPY -/

theorem runBcopy_of_ok {s : State} {x : Bits} (hx : bufferBits s .bitout s.bitoutLen.toNat = .ok x) :
    runOf .bcopy s = .ok { s with
      mem := storeBits s.mem (windowBase .bitin) 0 x
      bitinLen := s.bitoutLen } := by
  rw [runOf, runBcopy, hx]

/-- Settles O25: BCOPY reads the valid bits of BITOUT whole and stores them from BITIN's first position on. -/
theorem bcopyCopiesTheValidBits : Obligations.BcopyCopiesTheValidBits := by
  intro s hw
  obtain ⟨x, hread⟩ : ∃ x, bufferBits s .bitout s.bitoutLen.toNat = .ok x := ⟨_, bufferBits_of_written hw⟩
  obtain ⟨hlen, hbits⟩ := (bufferBits_ok_iff ..).1 hread
  refine ⟨_, exec_of_ok (runBcopy_of_ok hread), rfl, fun k hk => ?_, fun k hk => ?_, ?_⟩
  · have hkx : k < x.length := hk.trans_eq hlen.symm
    exact (readBit_storeBits_zero_of_lt _ (by decide) hkx).trans (hbits k hkx).symm
  · exact readBit_storeBits_zero_of_le _ (by decide) (hlen.trans_le hk)
  · rw [← hlen]
    exact sameOutside_storeBits_zero s.mem (windowBase .bitin) x

end Sys2Proof.Proofs

/-! How a command ends: with a result, or with an error of its own, and what the completion of either leaves
(60_exceptions.md R400 to R405, R412). -/

namespace Sys2Proof.Proofs

open Sys2Proof.Machine Sys2Proof.Safety

/-! ### How a command's pseudocode can end -/

/-- An end that the pseudocode of command `i` can have: an error is one of the command's own
(60_exceptions.md R405), and only SGGEN can fail to end (43_lfsr.md R309). -/
inductive EndsAs {α : Type} (i : Instr) : Attempt α → Prop
  | ok (a : α) : EndsAs i (.ok a)
  | raise (c : ErrCode) (hc : (errByte c).toNat ∈ errorCodes i) : EndsAs i (.raise c)
  | fault (f : Fault) : EndsAs i (.fault f)
  | hang (hi : i = .sggen) : EndsAs i .hang

section EndsAs

variable {α : Type} {i : Instr} {r : Attempt α}

/-- A check before the rest of the pseudocode that raises one of the command's errors. -/
theorem EndsAs.check {p : Prop} [Decidable p] {c : ErrCode} (hr : EndsAs i r)
    (hc : (errByte c).toNat ∈ errorCodes i := by simp [errByte, errorCodes]) :
    EndsAs i (if p then .raise c else r) := by
  split
  · exact .raise c hc
  · exact hr

end EndsAs

/-! ### The loops -/

section Loops

variable (s : State)

theorem bufferBits_endsAs (i : Instr) (m : MemName) (n : Nat) : EndsAs i (bufferBits s m n) := by
  rcases bufferBits_cases s m n with ⟨x, hx⟩ | ⟨k, hk, -⟩
  · rw [hx]; exact .ok x
  · rw [hk]; exact .fault _

theorem readDist_endsAs (n i : Nat) : EndsAs .build (readDist s n i) := by
  induction n generalizing i with
  | zero => exact .ok []
  | succ n ih =>
    rw [readDist]
    split
    · exact .fault _
    · exact .check ((ih (i + 1)).casesOn (fun _ => .ok _) .raise .fault .hang)

theorem encodeFrom_endsAs (n j : Nat) (out : Bits) : EndsAs .encode (encodeFrom s n j out) := by
  induction n generalizing j out with
  | zero => exact .ok out
  | succ n ih =>
    rw [encodeFrom]
    split
    · exact .fault _
    · exact .check (.check (ih ..))

theorem hencsFrom_endsAs (n j : Nat) (out : Bits) : EndsAs .hencs (hencsFrom s n j out) := by
  induction n generalizing j out with
  | zero => exact .ok out
  | succ n ih =>
    rw [hencsFrom]
    split
    · exact .fault _
    · exact .check (.check (ih ..))

theorem decodeFrom_endsAs (depth : Nat) (codes : List (Nat × CodeEntry)) (fuel i ns : Nat) (x : Bits) :
    EndsAs .decode (decodeFrom depth codes fuel i ns x) := by
  induction fuel generalizing i ns x with
  | zero => exact .ok ([], [])
  | succ fuel ih =>
    cases x with
    | nil => exact .ok ([], [])
    | cons b rest =>
      rw [decodeFrom]
      dsimp only
      split
      · exact (ih (i + 1) ns rest).casesOn (fun _ => .ok _) .raise .fault .hang
      · exact .check ((ih ..).casesOn (fun _ => .ok _) .raise .fault .hang)

end Loops

/-! ### The commands -/

/-- A command raises no error but its own, and only SGGEN can fail to end: before its writes it has only
checks, and reads whose other ends (`casesOn`) are its own. -/
theorem runOf_endsAs (i : Instr) (s : State) : EndsAs i (runOf i s) := by
  cases i with
  | nop => exact .ok s
  | build => exact .check ((readDist_endsAs ..).casesOn (fun _ => .ok _) .raise .fault .hang)
  | encode => exact .check ((encodeFrom_endsAs ..).casesOn (fun _ => .ok _) .raise .fault .hang)
  | decode =>
    refine .check ((bufferBits_endsAs ..).casesOn (fun x => ?_) .raise .fault .hang)
    dsimp only
    exact (decodeFrom_endsAs ..).casesOn (fun _ => .ok _) .raise .fault .hang
  | addpar => exact .check (.ok _)
  | stripchk => exact .check (.check (.ok _))
  | henc => exact .check (.ok _)
  | hencs => exact .check ((hencsFrom_endsAs ..).casesOn (fun _ => .ok _) .raise .fault .hang)
  | hdec =>
    exact .check (.check (.check ((bufferBits_endsAs ..).casesOn (fun _ => .ok _) .raise .fault .hang)))
  | hdecb => exact .ok _
  | lstep u => exact .check (.ok _)
  | lgen u => exact .check (.check (.ok _))
  | sggen =>
    refine .check (.check (.check ?_))
    split
    · exact .hang rfl
    · exact .ok _
  | chisq b => exact .check (.check ((bufferBits_endsAs ..).casesOn (fun _ => .ok _) .raise .fault .hang))
  | period b => exact .check ((bufferBits_endsAs ..).casesOn (fun _ => .ok _) .raise .fault .hang)
  | bcopy =>
    rw [runOf, runBcopy]
    exact (bufferBits_endsAs ..).casesOn (fun _ => .ok _) .raise .fault .hang

theorem errorCodes_of_raise {i : Instr} {s : State} {c : ErrCode} (h : runOf i s = .raise c) :
    (errByte c).toNat ∈ errorCodes i := by
  have hend := runOf_endsAs i s
  rw [h] at hend
  cases hend with
  | raise _ hc => exact hc

theorem eq_sggen_of_hang {i : Instr} {s : State} (h : runOf i s = .hang) : i = .sggen := by
  have hend := runOf_endsAs i s
  rw [h] at hend
  cases hend with
  | hang hi => exact hi

/-! ### The completion -/

/-- A command that does not hang completes, with the code 0 or that of one of its errors (60_exceptions.md
R402, R405). -/
theorem exec_next_finish {i : Instr} {s t : State} (h : exec i s = .next t) :
    (i = .sggen ∧ t = s) ∨
      ∃ code u, t = finish code u ∧ (code = 0 ∨ code.toNat ∈ errorCodes i) := by
  rcases exec_next h with ⟨u, -, rfl⟩ | ⟨c, hraise, rfl⟩ | ⟨hhang, rfl⟩
  · exact .inr ⟨0, u, rfl, .inl rfl⟩
  · exact .inr ⟨errByte c, _, rfl, .inr (errorCodes_of_raise hraise)⟩
  · exact .inl ⟨eq_sggen_of_hang hhang, rfl⟩

/-- No command writes WBUSY, IE, ARG0, ARG1 or CMD: none is in a Writes list. -/
theorem exec_host_registers {i : Instr} {s t : State} (h : exec i s = .next t) :
    t.wbusy = s.wbusy ∧ t.ie = s.ie ∧ t.arg0 = s.arg0 ∧ t.arg1 = s.arg1 ∧ t.cmd = s.cmd := by
  obtain ⟨w, rfl⟩ : ∃ w, t = listedFrom i w s := ⟨t, exec_listed h⟩
  exact ⟨rfl, rfl, rfl, rfl, rfl⟩

/-- Settles O9: a command that does not hang answers `finish`, which makes the block IDLE with DONE = 1. -/
theorem completionEndsTheCommand : Obligations.CompletionEndsTheCommand := by
  intro i s t h
  have hregs := exec_host_registers h
  obtain ⟨-, hie, -⟩ := id hregs
  refine (exec_next_finish h).imp_right ?_
  rintro ⟨code, u, rfl, hcode⟩
  have hirq : irq (finish code u) = s.ie := by rw [irq, hie, finish_done, Bool.and_true]
  exact ⟨rfl, rfl, hirq, hcode, hregs⟩

/-! ### The failure completion -/

/-- A command that answers a nonzero code, where none stood, has raised an error: a success writes 0, and one
that hangs keeps the 0 of its issue. -/
theorem exec_next_fail {i : Instr} {s t : State} (h0 : s.errcode = 0) (h : exec i s = .next t)
    (hne : t.errcode ≠ 0) : ∃ c, t = fail i c s := by
  rcases exec_next h with ⟨u, -, rfl⟩ | ⟨c, -, rfl⟩ | ⟨-, rfl⟩
  · exact absurd rfl hne
  · exact ⟨c, rfl⟩
  · exact absurd h0 hne

/-- The code table after a failed BUILD: every word is 0 (41_prefix_coder.md R202). -/
theorem fail_build_table (c : ErrCode) (s : State) {e k : Nat} (he : e < 1024) (hk : k < 4) :
    readWord (fail .build c s).mem (0x2000 + 16 * e + 4 * k) = { value := 0, undef := 0 } := by
  have hin : ∀ j < 4, inWindow .ctab (0x2000 + 16 * e + 4 * k + j) = true := fun j hj =>
    (inWindow_iff ..).2 (by simp only [windowBase, windowBytes]; omega)
  exact readWord_ctab_unstored (fun _ hb => readByte_forget_inside .ctab s.mem hb)
    (hin 0 (by decide)) (hin 3 (by decide))

/-- Settles O11: the answer is `fail`, of which `fail_eq` lists the fields and `fail_readByte` the memory. -/
theorem failureIsPrecise : Obligations.FailureIsPrecise := by
  intro i s t h0 h hne
  obtain ⟨c, rfl⟩ := exec_next_fail h0 h hne
  intro n bits recs
  have hbits : producesBits i = true ↔ bits := producesBits_iff i
  have hrecs : producesRecords i = true ↔ recs := producesRecords_iff i
  refine ⟨?fields, fun a hbitout hrecords htable => ?bytes, ?table⟩
  case fields =>
    have hn : n = resCount i := resColumn_opcodeOf i
    rw [hn]
    simp only [← hbits, ← hrecs]
    exact fail_eq i c s
  case bytes =>
    refine fail_readByte i c s (fun hp => ?_) (fun hp => ?_) fun hi => ?_
    · exact Bool.eq_false_iff.2 fun ha => hbitout ⟨hbits.1 hp, ha⟩
    · exact ⟨Bool.eq_false_iff.2 fun ha => hrecords ⟨hrecs.1 hp, .inl ha⟩,
        Bool.eq_false_iff.2 fun ha => hrecords ⟨hrecs.1 hp, .inr ha⟩⟩
    · exact Bool.eq_false_iff.2 fun ha => htable ⟨hi, ha⟩
  case table =>
    rintro rfl e he k hk
    exact fail_build_table c s he hk

end Sys2Proof.Proofs
